-- ==== Sys2Proof/Word.lean ====
section
/-! DEFINITION. The word types of the Opxanel S4 (R5: little-endian data, bit 0 least significant). -/
namespace Sys2Proof

abbrev Byte := BitVec 8
abbrev Half := BitVec 16
abbrev Word32 := BitVec 32
/-- A g register, a pointer, a PC. -/
abbrev Word := BitVec 64
/-- One 96-bit instruction slot (R6). -/
abbrev Slot := BitVec 96
/-- One 64-byte line: a fetch line, a matrix command, a fault message. -/
abbrev Line := BitVec 512
/-- A v register: 16 lanes of 32 bits (R72). -/
abbrev VWord := BitVec 512
/-- A k register (R23). -/
abbrev Mask := BitVec 16

/-- Register numbers of the g, v, k, p and q files (R23). -/
abbrev GReg := BitVec 7
abbrev VReg := BitVec 5
abbrev KReg := BitVec 3
abbrev PReg := BitVec 3
abbrev QReg := BitVec 3

/-- An endpoint ID (R386): chip in [31:14], die in [13], unit in [12:0]. -/
abbrev EP := BitVec 32
/-- A physical chip number (R386). -/
abbrev ChipNo := BitVec 18

end Sys2Proof
end

