-- ==== Sys2Proof/Syntax.lean ====
section
/-! DEFINITION. The syntax: every row of spec/opcode_table.json is one constructor of `Instr`. The instructions come
first, in the order of R33's map; then the events of the device and of the outside world. -/
namespace Sys2Proof

/-- The integer types of R20, codes 0x0-0x7. -/
inductive IntTy where
  | i64 | i32 | i16 | i8 | n64 | n32 | n16 | n8
  deriving DecidableEq, Repr

/-- An integer width, for the instructions whose signedness is fixed (R41). -/
inductive Width where
  | w64 | w32 | w16 | w8
  deriving DecidableEq, Repr

/-- The scalar float types of R20, codes 0x8-0xC. -/
inductive FloatTy where
  | f64 | f32 | f19 | bf16 | f16
  deriving DecidableEq, Repr

/-- An element type of R20: an integer or a float type. -/
inductive Ty where
  | int (t : IntTy)
  | flt (t : FloatTy)
  deriving DecidableEq, Repr

/-- The access sizes of R21. -/
inductive Size where
  | d | w | h | b | wn | hn | bn | f | l
  deriving DecidableEq, Repr

/-- The rounding modes of R19. -/
inductive Rnd where
  | rne | rz | ru | rd | rna
  deriving DecidableEq, Repr

/-- The scopes of R19 and R230. -/
inductive Scope where
  | context | core | cluster | die | package | team | system
  deriving DecidableEq, Repr

/-- The addressing modes of R31. -/
inductive Am where
  | lin | ilv8 | ilv64
  deriving DecidableEq, Repr

/-- The MS field of R18: a scalar predicate or a vector mask (bit [49] inverts, [48:46] is the index). -/
structure Ms where
  inv : Bool
  idx : BitVec 3
  deriving DecidableEq, Repr

/-- The B operand of a scalar integer instruction (R40): a register, a constant-window slot, or an immediate. -/
inductive BOp where
  | reg (r : GReg)
  | cw (c : BitVec 8)
  | imm (i : Word32)
  deriving DecidableEq, Repr

/-- A B operand that accepts no immediate. -/
inductive BReg where
  | reg (r : GReg)
  | cw (c : BitVec 8)
  deriving DecidableEq, Repr

/-- The B operand of a vector instruction (R74). -/
inductive VB where
  | v (r : VReg)
  | cw (c : BitVec 8)
  | g (r : GReg)
  | imm (i : Word32)
  deriving DecidableEq, Repr

/-- The integer conditions of CMP (R39). -/
inductive ICond where
  | eq | ne | lt | le | gt | ge
  deriving DecidableEq, Repr

/-- The float conditions of FCMP (R39). -/
inductive FCond where
  | eq | ne | lt | le | gt | ge | un | or
  deriving DecidableEq, Repr

/-- The operations of PLOG and KLOG (R39, R99). -/
inductive LogOp where
  | and | or | xor | andn | orn | nor
  deriving DecidableEq, Repr

/-- The forms of MOV (R46). -/
inductive MovForm where
  | gFromG (d a : GReg)
  | gFromImm (d : GReg) (i : Word32)
  | gFromP (d : GReg) (a : PReg)
  | pFromG (d : PReg) (a : GReg)
  deriving DecidableEq, Repr

/-- The slot operand of LCW (R47). -/
inductive LcwForm where
  | slot (c : BitVec 8)
  | reg (a : GReg)
  deriving DecidableEq, Repr

/-- The 12-bit field operand of MKPTR (R49). -/
inductive MkForm where
  | imm (f : BitVec 12)
  | reg (b : GReg)
  deriving DecidableEq, Repr

/-- What PTRX extracts (R50). -/
inductive PtrxSel where
  | space | rank | addr | owner
  deriving DecidableEq, Repr

/-- The parts of FCVT's split (R64). -/
inductive SplitPart where
  | hi | mid | lo
  deriving DecidableEq, Repr

/-- The forms of FCVT (R63, R64). -/
inductive FcvtForm where
  | conv (dst src : Ty) (rnd : Rnd)
  | split (p : SplitPart)
  deriving DecidableEq, Repr

/-- The forms of FSGN (R65). -/
inductive SgnOp where
  | copy | neg | xor
  deriving DecidableEq, Repr

/-- The sizes of vector loads and stores (R96). -/
inductive VSize where
  | d | w | h | b | hn | bn
  deriving DecidableEq, Repr

/-- The condition of VCMP (R81): integer or float, with the element type it compares. -/
inductive VCmp where
  | int (c : ICond) (t : IntTy)
  | flt (c : FCond) (t : FloatTy)
  deriving DecidableEq, Repr

/-- The forms of VBCAST (R84). -/
inductive BcastForm where
  | g (a : GReg)
  | q (a : QReg)
  | lane (a : VReg) (i : BitVec 4)
  deriving DecidableEq, Repr

/-- Where a value leaves the vector side (VEXTR R84, VREDS R89, VREDM R90). -/
inductive VDest where
  | v (d : VReg)
  | g (d : GReg)
  | q (d : QReg)
  deriving DecidableEq, Repr

/-- A side of VCVT (R92): a wide type or a narrow format code (R22). -/
inductive CvtSide where
  | wide (t : Ty)
  | narrow (f : BitVec 5)
  deriving DecidableEq, Repr

/-- The forms of KMOV (R99). -/
inductive KmovForm where
  | kk (d a : KReg)
  | kg (d : KReg) (a : GReg)
  | gk (d : GReg) (a : KReg)
  | ki (d : KReg) (i : BitVec 16)
  deriving DecidableEq, Repr

/-- The tests of KTEST (R99). -/
inductive KTest where
  | any | none | all
  deriving DecidableEq, Repr

/-- The forms of QDRAIN (R102). -/
inductive QdForm where
  | drain (q : QReg)
  | get (d : GReg) (q : QReg)
  | put (q : QReg) (a : GReg)
  deriving DecidableEq, Repr

/-- The conditions of WAITA (R176). -/
inductive WCond where
  | eq | ne | gen
  deriving DecidableEq, Repr

/-- The sizes of the atomics (R236). -/
inductive ASize where
  | d | w | wn
  deriving DecidableEq, Repr

/-- The reductions of RED and RRED (R243); `u` picks the unsigned minimum or maximum. -/
inductive RedOp where
  | add | min (u : Bool) | max (u : Bool) | and | or | xor | fadd (rnd : Rnd)
  deriving DecidableEq, Repr

/-- Ordering flags and scope of an atomic (R239). -/
structure Ord where
  acq : Bool
  rel : Bool
  scope : Scope
  deriving DecidableEq, Repr

/-- The forms of RSTAT (R306). -/
inductive RstatForm where
  | entry (d : GReg) (n : BitVec 3)
  | count (d : GReg)
  | clear
  deriving DecidableEq, Repr

/-- The float element types of the quantising instructions (R298). -/
inductive QTy where
  | f32 | bf16 | f16
  deriving DecidableEq, Repr

/-- Where a register write of an event comes from (R379, R434): its privilege. -/
inductive Priv where
  | user | service | collier
  deriving DecidableEq, Repr

/-- A function of the host port (R427): the physical function or virtual function 0-7. -/
inductive Fn where
  | pf
  | vf (i : BitVec 3)
  deriving DecidableEq, Repr

/-- The operations of a host AtomicOp (R353, R426). -/
inductive HostAtomic where
  | fetchAdd | swap | cas
  deriving DecidableEq, Repr

/-- What an IDE_KM request asks (R429): program a key set or switch to it. -/
inductive IdeKm where
  | program (key : BitVec 256)
  | switch
  deriving DecidableEq, Repr

/-- An IDE stream (R429): the link stream or the selective stream of a function. -/
inductive IdeStream where
  | link
  | sel (f : Fn)
  deriving DecidableEq, Repr

/-- What a host configuration write changes (R427, R434), and the host's write of FEATST in the physical function's window (R428,
R432; notes/assumptions/82.md). -/
inductive CfgWrite where
  | numVfs (n : BitVec 4)
  | vfBar (i : BitVec 3) (v : Word)
  | vfMsix (i : BitVec 3) (v : Word)
  | vfIde (i : BitVec 3) (v : Word)
  | featst (v : Word)
  /-- The Uncorrectable Internal Error severity bit of a function (R422). -/
  | severity (fn : Fn) (v : Bool)
  /-- A collier object in the physical function's DOE with a command that has no row of its own (R441). -/
  | otherCommand (cmd : BitVec 8)
  /-- A collier object in the DOE of a virtual function (R441). -/
  | vfCollier (i : BitVec 3)
  deriving DecidableEq, Repr

/-- What fails in a fatal event (R421, R425). -/
inductive FatalCause where
  | shadow (die : Bool)
  | bridge
  | collier
  deriving DecidableEq, Repr

/-- What a link packet brings to its destination (R362, R392, R397, R398): a packet of an operation on its way, a heartbeat, a
chip's arrival at the barrier of a federation, the decision, a loss report. -/
inductive LinkLoad where
  | part (op i : Nat)
  | beat
  | arrival (fed : Word32)
  | decision (fed : Word32)
  | loss (lost : ChipNo)
  deriving DecidableEq, Repr

/-- A link packet (R392): where it comes from and goes, its virtual channel, what it brings, its payload. -/
structure LinkPacket where
  src : ChipNo
  dest : ChipNo
  vc : BitVec 2
  load : LinkLoad
  payload : List Byte
  deriving DecidableEq, Repr

/-- A flit as the receiver sees it after FEC (R393, R394): the acknowledgement it carries, the packet it carries with its
sequence number, its CRC. -/
structure Flit where
  ackValid : Bool
  nak : Bool
  ackSeq : BitVec 12
  packet : Option (BitVec 12 × LinkPacket)
  crc : BitVec 16
  deriving DecidableEq, Repr

/-- A removed unit found at reset (R446). -/
inductive RetiredUnit where
  | column (die : Bool) (x : BitVec 6)
  | cluster (die : Bool) (i : BitVec 6)
  | hbmChannel (ctl : BitVec 4) (blocksLeft : BitVec 24)
  | lane (port : BitVec 4) (lane : BitVec 4)
  deriving DecidableEq, Repr

/-- What the collier meets at a reset (R440): what firmware verification, the ageing plan, repairs and training find. A hot reset
keeps the package's number. They are outcomes of the world, not choices of the model: an input of a fundamental reset, a free value
at a hot one. -/
structure BootReport where
  fabid : ChipNo
  rtbase : Word
  activeOk : Bool
  pendingOk : Bool
  /-- The lanes found failed, port by port. -/
  laneMask : List (BitVec 16)
  partners : List (Option (ChipNo × BitVec 4))
  /-- The failed units found (R446), a channel without spare rows among them (R447). -/
  retired : List RetiredUnit
  /-- The monitors that fail in the plan at the highest permitted voltage (R444). -/
  failing : List (BitVec 7)
  deriving DecidableEq, Repr, Inhabited

/-- One constructor per row of spec/opcode_table.json. -/
inductive Instr where
  -- Integer instructions (R41-R44)
  | add (ty : IntTy) (d a : GReg) (b : BOp) (ms : Ms)
  | sub (ty : IntTy) (d a : GReg) (b : BOp) (ms : Ms)
  | mul (ty : IntTy) (d a : GReg) (b : BOp) (ms : Ms)
  | mulh (w : Width) (d a : GReg) (b : BOp) (ms : Ms)
  | mulhn (w : Width) (d a : GReg) (b : BOp) (ms : Ms)
  | div (w : Width) (d a : GReg) (b : BOp) (ms : Ms)
  | divn (w : Width) (d a : GReg) (b : BOp) (ms : Ms)
  | remS (w : Width) (d a : GReg) (b : BOp) (ms : Ms)
  | remn (w : Width) (d a : GReg) (b : BOp) (ms : Ms)
  | andI (ty : IntTy) (d a : GReg) (b : BOp) (ms : Ms)
  | orI (ty : IntTy) (d a : GReg) (b : BOp) (ms : Ms)
  | xorI (ty : IntTy) (d a : GReg) (b : BOp) (ms : Ms)
  | andn (ty : IntTy) (d a : GReg) (b : BOp) (ms : Ms)
  | orn (ty : IntTy) (d a : GReg) (b : BOp) (ms : Ms)
  | shl (ty : IntTy) (d a : GReg) (b : BOp) (ms : Ms)
  | shr (ty : IntTy) (d a : GReg) (b : BOp) (ms : Ms)
  | sar (ty : IntTy) (d a : GReg) (b : BOp) (ms : Ms)
  | rol (ty : IntTy) (d a : GReg) (b : BOp) (ms : Ms)
  | clz (ty : IntTy) (d a : GReg) (ms : Ms)
  | ctz (ty : IntTy) (d a : GReg) (ms : Ms)
  | popc (ty : IntTy) (d a : GReg) (ms : Ms)
  | brev (ty : IntTy) (d a : GReg) (ms : Ms)
  | minS (w : Width) (d a : GReg) (b : BOp) (ms : Ms)
  | maxS (w : Width) (d a : GReg) (b : BOp) (ms : Ms)
  | minn (w : Width) (d a : GReg) (b : BOp) (ms : Ms)
  | maxn (w : Width) (d a : GReg) (b : BOp) (ms : Ms)
  | sext (d a : GReg) (n : BitVec 7) (ms : Ms)
  | zext (d a : GReg) (n : BitVec 7) (ms : Ms)
  | bfx (d a : GReg) (pos : BitVec 6) (len : BitVec 7) (ms : Ms)
  | bfxn (d a : GReg) (pos : BitVec 6) (len : BitVec 7) (ms : Ms)
  | bfi (d a : GReg) (pos : BitVec 6) (len : BitVec 7) (ms : Ms)
  -- Compare, select and move (R45-R47)
  | cmp (c : ICond) (ty : IntTy) (d : PReg) (a : GReg) (b : BOp) (ms : Ms)
  | sel (d a : GReg) (b : BReg) (p : PReg) (inv : Bool) (ms : Ms)
  | plog (op : LogOp) (d a b : PReg) (ms : Ms)
  | mov (f : MovForm) (ms : Ms)
  | li (d : GReg) (imm : Word)
  | lcw (d : GReg) (f : LcwForm) (ms : Ms)
  -- Pointers (R48-R50)
  | lea (d a : GReg) (b : BReg) (sh : BitVec 2) (off : Word32) (ms : Ms)
  | mkptr (d a : GReg) (f : MkForm) (sp : BitVec 4) (ms : Ms)
  | ptrx (sel : PtrxSel) (d a : GReg) (ms : Ms)
  -- Control (R51-R57)
  | br (off : Word32) (ms : Ms)
  | jmp (target : Word)
  | jmpi (a : GReg) (ms : Ms)
  | call (d : GReg) (off : Word32) (ms : Ms)
  | calli (d a : GReg) (ms : Ms)
  | ret (a : GReg) (ms : Ms)
  | loop (d : GReg) (off : Word32) (ms : Ms)
  | bsig (crc : BitVec 16)
  | endC (ms : Ms)
  | nop (ms : Ms)
  | grow (d : PReg) (g : BitVec 5) (v : BitVec 3) (ms : Ms)
  | shrink (g : BitVec 5) (v : BitVec 3) (ms : Ms)
  -- Scalar floats (R58-R65)
  | fadd (ty : FloatTy) (d a : GReg) (b : BReg) (rnd : Rnd) (ms : Ms)
  | fsub (ty : FloatTy) (d a : GReg) (b : BReg) (rnd : Rnd) (ms : Ms)
  | fmul (ty : FloatTy) (d a : GReg) (b : BReg) (rnd : Rnd) (ms : Ms)
  | ffma (ty : FloatTy) (d a : GReg) (b : BReg) (rnd : Rnd) (ms : Ms)
  | fdiv (ty : FloatTy) (d a : GReg) (b : BReg) (rnd : Rnd) (ms : Ms)
  | fsqrt (ty : FloatTy) (d a : GReg) (rnd : Rnd) (ms : Ms)
  | fmin (ty : FloatTy) (d a : GReg) (b : BReg) (ms : Ms)
  | fmax (ty : FloatTy) (d a : GReg) (b : BReg) (ms : Ms)
  | fcmp (c : FCond) (ty : FloatTy) (d : PReg) (a : GReg) (b : BReg) (ms : Ms)
  | fcvt (d a : GReg) (f : FcvtForm) (ms : Ms)
  | fclass (ty : FloatTy) (d a : GReg) (ms : Ms)
  | fsgn (op : SgnOp) (ty : FloatTy) (d a : GReg) (b : BReg) (ms : Ms)
  -- Basic memory (R66-R70)
  | ld (sz : Size) (am : Am) (d a : GReg) (b : BReg) (off : Word32) (ms : Ms)
  | st (sz : Size) (am : Am) (d a : GReg) (b : BReg) (off : Word32) (ms : Ms)
  | ldl (am : Am) (d a : GReg) (b : BReg) (off : Word32) (ms : Ms)
  | stl (am : Am) (d a : GReg) (b : BReg) (off : Word32) (ms : Ms)
  | pref (wr : Bool) (am : Am) (a : GReg) (b : BReg) (off : Word32) (ms : Ms)
  -- Vector arithmetic (R79)
  | vadd (ty : Ty) (d a : VReg) (b : VB) (rnd : Rnd) (ms : Ms)
  | vsub (ty : Ty) (d a : VReg) (b : VB) (rnd : Rnd) (ms : Ms)
  | vmul (ty : Ty) (d a : VReg) (b : VB) (rnd : Rnd) (ms : Ms)
  | vfma (ty : Ty) (d a : VReg) (b : VB) (rnd : Rnd) (ms : Ms)
  | vdiv (ty : Ty) (d a : VReg) (b : VB) (rnd : Rnd) (ms : Ms)
  | vsqrt (ty : FloatTy) (d a : VReg) (rnd : Rnd) (ms : Ms)
  | vmin (ty : Ty) (d a : VReg) (b : VB) (ms : Ms)
  | vmax (ty : Ty) (d a : VReg) (b : VB) (ms : Ms)
  | vabs (ty : Ty) (d a : VReg) (ms : Ms)
  | vneg (ty : Ty) (d a : VReg) (ms : Ms)
  | vand (ty : IntTy) (d a : VReg) (b : VB) (ms : Ms)
  | vor (ty : IntTy) (d a : VReg) (b : VB) (ms : Ms)
  | vxor (ty : IntTy) (d a : VReg) (b : VB) (ms : Ms)
  | vshl (ty : IntTy) (d a : VReg) (b : VB) (ms : Ms)
  | vshr (ty : IntTy) (d a : VReg) (b : VB) (ms : Ms)
  | vsar (ty : IntTy) (d a : VReg) (b : VB) (ms : Ms)
  -- Vector compare, select and move (R81-R91)
  | vcmp (c : VCmp) (d : KReg) (a : VReg) (b : VB) (ms : Ms)
  | vsel (ty : IntTy) (d a : VReg) (b : VB) (sk : KReg) (inv : Bool) (ms : Ms)
  | vbcast (ty : Ty) (d : VReg) (f : BcastForm) (ms : Ms)
  | vextr (ty : Ty) (d : VDest) (a : VReg) (i : BitVec 4) (ms : Ms)
  | vins (ty : Ty) (d : VReg) (a : GReg) (i : BitVec 4) (ms : Ms)
  | vfirst (ty : Ty) (d : VDest) (a : VReg) (ms : Ms)
  | viota (ty : IntTy) (d : VReg) (ms : Ms)
  | vperm (ty : Ty) (d a : VReg) (b : VB) (ms : Ms)
  | vslide (ty : Ty) (up : Bool) (d a b : VReg) (m : BitVec 5) (ms : Ms)
  | vreds (ty : Ty) (d : VDest) (a : VReg) (b : VB) (rnd : Rnd) (ms : Ms)
  | vredm (ty : Ty) (max : Bool) (d : VDest) (a : VReg) (b : VB) (ms : Ms)
  | vdot2 (ty : Ty) (d a : VReg) (b : VB) (rnd : Rnd) (ms : Ms)
  | vcvt (dst src : CvtSide) (part : BitVec 3) (d a : VReg) (rnd : Rnd) (ms : Ms)
  | vsplit3 (d a : VReg) (high : Bool) (ms : Ms)
  -- Vector memory (R95-R98)
  | vld (sz : VSize) (step : Bool) (am : Am) (d : VReg) (a : GReg) (b : BReg) (off : Word32) (ms : Ms)
  | vst (sz : VSize) (step : Bool) (am : Am) (d : VReg) (a : GReg) (b : BReg) (off : Word32) (ms : Ms)
  | vlds (sz : VSize) (am : Am) (d : VReg) (a b : GReg) (off : Word32) (ms : Ms)
  | vgath (sz : VSize) (am : Am) (d : VReg) (a : GReg) (b : VReg) (sh : BitVec 2) (off : Word32) (ms : Ms)
  | vscat (sz : VSize) (am : Am) (d : VReg) (a : GReg) (b : VReg) (sh : BitVec 2) (off : Word32) (ms : Ms)
  -- Masks (R99), repetition and queues (R100-R108)
  | klog (op : LogOp) (d a b : KReg)
  | kpopc (d : GReg) (a : KReg)
  | kfirst (d : GReg) (a : KReg)
  | kmov (f : KmovForm)
  | ktest (t : KTest) (d : PReg) (a b : KReg)
  | rep (a : GReg) (n : BitVec 4) (wb : BitVec 5) (ws : BitVec 6) (st : BitVec 5)
  | qcnt (vec : Bool) (d : GReg) (q : QReg) (ms : Ms)
  | qdrain (vec : Bool) (f : QdForm) (ms : Ms)
  | queueDeadlock (ep : EP) (ctx : BitVec 2)
  -- Task, barrier, superstep and engine instructions (R172)
  | arm (d a : GReg) (b : BOp) (ms : Ms)
  | dec (d a : GReg) (b : BOp) (ms : Ms)
  | inc (d a : GReg) (b : BOp) (ms : Ms)
  | spawn (a : GReg) (ms : Ms)
  | tspawn (d : PReg) (a : GReg) (q : BitVec 4) (ms : Ms)
  | tspawnAppend (chip : ChipNo) (q : BitVec 4)
  | waita (c : WCond) (d a : GReg) (b : BReg) (ms : Ms)
  | waitaWake (chip : ChipNo) (rc : Word)
  | yield (ms : Ms)
  | susp (ms : Ms)
  | arrive (d a : GReg) (b : BReg) (ms : Ms)
  | await (d a b : GReg) (ms : Ms)
  | drop (a b : GReg) (ms : Ms)
  | ssync (d a b : GReg) (v : Bool) (op : BitVec 4) (ms : Ms)
  | ssyncArrivalCount (ep : EP) (ctx : BitVec 2)
  | arrivedSuspend (ep : EP) (ctx : BitVec 2)
  | ssnum (d : GReg) (ms : Ms)
  | fuse (shape : BitVec 2) (ms : Ms)
  | split (ms : Ms)
  | tqpush (a b : GReg) (ms : Ms)
  | tqpop (d a : GReg) (ms : Ms)
  | gwload (a : GReg) (first : BitVec 5) (count : BitVec 6) (ms : Ms)
  | gwrun (node : BitVec 5) (ms : Ms)
  | gwstat (d : GReg) (ms : Ms)
  | walkerNodeStep (ep : EP)
  | cond (a : GReg) (b : BOp) (ms : Ms)
  | cpy (a : GReg) (b : BReg) (ms : Ms)
  | copyPiece (ep : EP) (op : Nat)
  | pfl (a : GReg) (count : BitVec 7) (ms : Ms)
  | pflComplete (ep : EP) (op : Nat)
  -- The scheduler, launches and supersteps
  | contextBind (ep : EP) (ctx : BitVec 2)
  | readyAge (chip : ChipNo) (rc : Word)
  | lqdb (chip : ChipNo) (q : BitVec 4)
  | hostDoorbell (chip : ChipNo) (fn : Fn) (v : Word32)
  | launch (chip : ChipNo) (q : BitVec 4)
  | barrierDecision (chip : ChipNo) (team : Word32)
  | preqNow (chip : ChipNo) (part : BitVec 3)
  | shadowSwapDone (chip : ChipNo) (slot : BitVec 4)
  | preqAtBarrier (chip : ChipNo) (part : BitVec 3)
  | resqResume (chip : ChipNo) (slot : BitVec 4) (die : Bool) (x y : BitVec 5)
  | resqKill (chip : ChipNo) (slot : BitVec 4)
  -- Ordering and atomics (R236)
  | ldacq (sz : Size) (am : Am) (scope : Scope) (d a : GReg) (b : BReg) (off : Word32) (ms : Ms)
  | strel (sz : Size) (am : Am) (scope : Scope) (d a : GReg) (b : BReg) (off : Word32) (ms : Ms)
  | fence (scope : Scope) (ms : Ms)
  | aadd (sz : ASize) (am : Am) (o : Ord) (d a : GReg) (b : BReg) (ms : Ms)
  | amin (u : Bool) (sz : ASize) (am : Am) (o : Ord) (d a : GReg) (b : BReg) (ms : Ms)
  | amax (u : Bool) (sz : ASize) (am : Am) (o : Ord) (d a : GReg) (b : BReg) (ms : Ms)
  | aand (sz : ASize) (am : Am) (o : Ord) (d a : GReg) (b : BReg) (ms : Ms)
  | aor (sz : ASize) (am : Am) (o : Ord) (d a : GReg) (b : BReg) (ms : Ms)
  | axor (sz : ASize) (am : Am) (o : Ord) (d a : GReg) (b : BReg) (ms : Ms)
  | aswp (sz : ASize) (am : Am) (o : Ord) (d a : GReg) (b : BReg) (ms : Ms)
  | afadd (dbl : Bool) (am : Am) (o : Ord) (rnd : Rnd) (d a : GReg) (b : BReg) (ms : Ms)
  | acas (sz : ASize) (am : Am) (o : Ord) (d a : GReg) (b : BReg) (ms : Ms)
  | red (op : RedOp) (dbl : Bool) (am : Am) (rel : Bool) (scope : Scope) (a : GReg) (b : BReg) (ms : Ms)
  | pgq (st : Bool) (am : Am) (d a : GReg) (b : BReg) (off : Word32) (ms : Ms)
  -- Remote words and far agents (R304-R310)
  | rred (op : RedOp) (dbl : Bool) (am : Am) (a : GReg) (b : BReg) (ms : Ms)
  | rflush (one : Bool) (w : Bool) (am : Am) (a : GReg) (ms : Ms)
  | rstat (f : RstatForm) (ms : Ms)
  | fcas (o : Ord) (d a b : GReg) (w : BitVec 2) (p : PReg) (ms : Ms)
  | fenq (o : Ord) (d a b : GReg) (ms : Ms)
  | fchase (acq : Bool) (scope : Scope) (d a : GReg) (m : BitVec 5) (off : BitVec 16) (ms : Ms)
  -- Statistics and quantisation (R293-R303)
  | tsrd (wrk : Bool) (d : GReg) (b : BReg) (sel : BitVec 6) (ms : Ms)
  | tsclr (a : GReg) (b : BReg) (ms : Ms)
  | tsscale (d : GReg) (b : BReg) (tfmt : BitVec 5) (ms : Ms)
  | qnt (ty : QTy) (d a : GReg) (b : BReg) (rnd : Rnd) (tfmt : BitVec 5) (trap : Bool) (geom : BitVec 2) (ms : Ms)
  | qntl (ty : QTy) (d a : GReg) (rnd : Rnd) (tfmt : BitVec 5) (geom : BitVec 2) (lb : BitVec 2) (ms : Ms)
  | dqnt (ty : QTy) (blk : Bool) (a : GReg) (b : BReg) (rnd : Rnd) (tfmt : BitVec 5) (geom : BitVec 2) (lb : BitVec 2)
      (prnd : Bool) (ms : Ms)
  -- Peer copies and collectives (R360-R369)
  | kput (a : GReg) (b : BReg) (ms : Ms)
  | kget (a : GReg) (b : BReg) (ms : Ms)
  | peerPacketApply (ep : EP) (op : Nat)
  | kcoll (a : GReg) (b : BReg) (n : BitVec 7) (ms : Ms)
  | collContrib (id : Nat)
  | collChain (id : Nat)
  | collForward (id : Nat)
  | collMulticast (id : Nat)
  | collDeliver (id : Nat)
  | fedj (a : GReg) (b : BReg) (ms : Ms)
  | fedl (ms : Ms)
  -- Gradient queues and the step counter (R370-R375)
  | gqpush (a : GReg) (ms : Ms)
  | gqEgressSend (ep : EP)
  | gqDeliver (id : Nat)
  | gqpop (d a : GReg) (ms : Ms)
  | gqwin (rl : Bool) (d a : GReg) (b : BReg) (ms : Ms)
  | gprio (a : GReg) (lvl : BitVec 4) (ms : Ms)
  | ostep (d : GReg) (b : BReg) (ms : Ms)
  -- Traps, messages, system registers (R376-R382)
  | trap (code : BitVec 16) (ms : Ms)
  | brk (ms : Ms)
  | fmsg (nb : Bool) (d : GReg) (ms : Ms)
  | freply (a : GReg) (b : BReg) (ms : Ms)
  | srd (d : GReg) (n : BitVec 12) (ms : Ms)
  | swr (a : GReg) (n : BitVec 12) (ms : Ms)
  | tlbi (all : Bool) (part : BitVec 3) (a : GReg) (b : BReg) (ms : Ms)
  | shootdownAck (id : Nat)
  | scrubDone (chip : ChipNo) (vf : BitVec 3)
  | repairQuiesceEnd (chip : ChipNo) (stack : BitVec 3) (channel : BitVec 5)
  | coreSleep (ep : EP)
  | coreWake (ep : EP)
  | ident (d : GReg) (sel : BitVec 4) (ms : Ms)
  | halt (ms : Ms)
  -- The matrix unit (R245-R260, R277)
  | mxSlotAdmit (ep : EP)
  | mxClaim (ep : EP) (ctx : BitVec 2)
  | mxMma (ep : EP)
  | mxMmat (ep : EP)
  | mxZero (ep : EP)
  | mxDrain (ep : EP)
  | mxXch (ep : EP)
  | mxCksum (ep : EP)
  | mxMark (ep : EP)
  -- Ricks, cords and statistics updates
  | rickAgeOut (ep : EP) (i : BitVec 3)
  | cordApply (id : Nat)
  | cordStatus (id : Nat)
  | statsUpdateMerge (id : Nat)
  -- Migration and host atomics
  | migreqGo (chip : ChipNo) (part : BitVec 3) (va : Word)
  | migrationLineCopy (chip : ChipNo)
  | hostAtomicop (chip : ChipNo) (part : BitVec 3) (op : HostAtomic) (dbl : Bool) (va opnd cmp : Word)
  -- Link and gateways
  | flitReceive (chip : ChipNo) (port : BitVec 4) (f : Flit)
  | ackTimer (chip : ChipNo) (port : BitVec 4)
  | replayTimeout (chip : ChipNo) (port : BitVec 4)
  | gatewayForward (chip : ChipNo) (id : Nat)
  | laneFail (chip : ChipNo) (port lane : BitVec 4)
  | laneFailureSignal (chip : ChipNo) (port : BitVec 4)
  | portRetrainDone (chip : ChipNo) (port : BitVec 4)
  | linkHeartbeat (chip : ChipNo)
  | chipLost (chip lost : ChipNo)
  | lossReportReceive (chip lost : ChipNo)
  -- Register writes with a row of their own
  | ptrootWrite (chip : ChipNo) (part : BitVec 3) (v : Word)
  | optbindWrite (chip : ChipNo) (j : BitVec 5) (v : Word)
  | optrecWrite (chip : ChipNo) (v : Word)
  | svcbootWrite (chip : ChipNo) (v : Word)
  | portstClear (chip : ChipNo) (port : BitVec 4)
  | registerWrite (ep : EP) (pv : Priv) (n : BitVec 12) (v : Word)
  -- The host port, TDISP, IDE, SPDM (R426-R439)
  | feataccWrite (chip : ChipNo) (v : BitVec 128)
  | partenWrite (chip : ChipNo) (v : BitVec 8)
  | lockInterfaceRequest (chip : ChipNo) (vf : BitVec 3)
  | startInterfaceRequest (chip : ChipNo) (vf : BitVec 3)
  | stopInterfaceRequest (chip : ChipNo) (vf : BitVec 3)
  | functionLevelReset (chip : ChipNo) (vf : BitVec 3)
  | ideKmRequest (chip : ChipNo) (st : IdeStream) (set1 : Bool) (r : IdeKm)
  | ideIntegrityFail (chip : ChipNo) (st : IdeStream)
  | getVersion (chip : ChipNo) (fn : Fn)
  | getCapabilities (chip : ChipNo) (fn : Fn) (req : List Byte)
  | negotiateAlgorithms (chip : ChipNo) (fn : Fn) (offersSuite : Bool) (req : List Byte)
  | getDigests (chip : ChipNo) (fn : Fn)
  | getCertificate (chip : ChipNo) (fn : Fn) (slot : BitVec 4) (off len : BitVec 16)
  | challenge (chip : ChipNo) (fn : Fn) (slot : BitVec 4) (nonce : BitVec 256)
  | getMeasurements (chip : ChipNo) (fn : Fn) (sign : Bool) (idx : BitVec 8) (nonce : BitVec 256)
  | keyExchange (chip : ChipNo) (fn : Fn) (req : List Byte)
  | finish (chip : ChipNo) (fn : Fn) (hmacOk : Bool)
  | heartbeat (chip : ChipNo) (fn : Fn)
  | keyUpdate (chip : ChipNo) (fn : Fn)
  | endSession (chip : ChipNo) (fn : Fn)
  -- The collier (R440-R447)
  | collierReadEvent (chip : ChipNo) (i : Word32)
  | collierSvcboot (chip : ChipNo) (addr : Word)
  | collierWriteBank (chip : ChipNo) (bankB : Bool) (off : BitVec 23) (bytes : List Byte)
  | collierActivateBank (chip : ChipNo) (sigOk : Bool)
  | collierReadSensor (chip : ChipNo) (n : BitVec 8)
  | collierReplan (chip : ChipNo)
  | collierRetrainPort (chip : ChipNo) (port : BitVec 4)
  | sensorSample (chip : ChipNo) (n : BitVec 8) (v : Int)
  | ageingPlan (chip : ChipNo) (failing : List (BitVec 7))
  | watchdogExpire (chip : ChipNo)
  | softRepair (chip : ChipNo) (stack : BitVec 3) (channel : BitVec 5) (row : Word32)
  | fundamentalReset (chip : ChipNo) (r : BootReport)
  | hotReset (chip : ChipNo)
  | fatalEvent (chip : ChipNo) (c : FatalCause)
  | powerLoss (chip : ChipNo)
  | configurationWrite (chip : ChipNo) (w : CfgWrite)
  deriving DecidableEq, Repr

end Sys2Proof
end

