-- ==== Sys2Proof/WellFormed.lean ====
section
/-! DEFINITION. Which instruction terms are words of the machine: the value restrictions of R17 and of each instruction's
entry, beyond what the types of Syntax.lean already rule out. An event row has no word and no restriction. -/
namespace Sys2Proof

/-- R18: MS = 0b1000 is reserved. -/
def Ms.wf (m : Ms) : Bool := !(m.inv && m.idx == 0)
/-- MS = 0: no predicate, or k0 alone. -/
def Ms.none (m : Ms) : Bool := !m.inv && m.idx == 0

def IntTy.bits : IntTy → Nat
  | .i64 | .n64 => 64
  | .i32 | .n32 => 32
  | .i16 | .n16 => 16
  | .i8 | .n8 => 8

def IntTy.signed : IntTy → Bool
  | .i64 | .i32 | .i16 | .i8 => true
  | .n64 | .n32 | .n16 | .n8 => false

def Width.bits : Width → Nat
  | .w64 => 64
  | .w32 => 32
  | .w16 => 16
  | .w8 => 8

/-- The width of a float type as it is held (R58): .f19 is held in 32 bits. -/
def FloatTy.bits : FloatTy → Nat
  | .f64 => 64
  | .f32 | .f19 => 32
  | .bf16 | .f16 => 16

def Ty.bits : Ty → Nat
  | .int t => t.bits
  | .flt t => t.bits

/-- Elements of a v register (R72). -/
def Ty.elems (t : Ty) : Nat := if t.bits = 64 then 8 else 16

/-- R74: an integer type carries MOD.RND 0. -/
def Ty.rndOk : Ty → Rnd → Bool
  | .int _, r => r == .rne
  | .flt _, _ => true

/-- R84: an element index of 8-15 needs a type narrower than 64 bits. -/
def Ty.elemOk (t : Ty) (i : BitVec 4) : Bool := i.toNat < t.elems

/-- R91: the pair types of VDOT2. -/
def Ty.pairOk : Ty → Bool
  | .int .i16 | .int .n16 | .flt .bf16 | .flt .f16 => true
  | _ => false

/-- R44: a bit field of 1-64 bits inside 64. -/
def fieldOk (pos : BitVec 6) (len : BitVec 7) : Bool := 1 ≤ len.toNat && pos.toNat + len.toNat ≤ 64

/-- R56: 0-14 g granules and 0-6 v granules (DEDUCED: the values beyond are reserved, notes/assumptions/6.md). -/
def granOk (g : BitVec 5) (v : BitVec 3) : Bool := g.toNat ≤ 14 && v.toNat ≤ 6

/-- Groups of four and of eight that may not start at g0. -/
def grp4 (r : GReg) : Bool := r != 0 && r.toNat % 4 == 0
def grp8 (r : GReg) : Bool := r != 0 && r.toNat % 8 == 0

/-- R49: which field a space accepts. -/
def MkForm.wf (f : MkForm) (sp : BitVec 4) : Bool :=
  sp.toNat ≤ 6 && (sp != 0 || f == .imm 0)

/-- R63: two integer codes are no conversion. -/
def FcvtForm.wf : FcvtForm → Bool
  | .conv (.int _) (.int _) _ => false
  | .conv _ _ _ => true
  | .split _ => true

/-- R25, R67: the registers a load may fill and a store may read. -/
def Size.loadReg (sz : Size) (d : GReg) : Bool :=
  match sz with
  | .f => grp4 d
  | .l => grp8 d
  | _ => true

def Size.storeReg (sz : Size) (d : GReg) : Bool :=
  match sz with
  | .d | .w | .h | .b => true
  | .f => d.toNat % 4 == 0
  | .l => d.toNat % 8 == 0
  | .wn | .hn | .bn => false

/-- R236: the sizes of LDACQ and STREL. -/
def Size.acqOk : Size → Bool
  | .f | .l => false
  | _ => true

def Size.relOk : Size → Bool
  | .d | .w | .h | .b => true
  | _ => false

def VB.noImm : VB → Bool
  | .imm _ => false
  | _ => true

def VDest.isV : VDest → Bool
  | .v _ => true
  | _ => false

def VDest.isQ : VDest → Bool
  | .q _ => true
  | _ => false

def BcastForm.wf (ty : Ty) : BcastForm → Bool
  | .lane _ i => ty.elemOk i
  | _ => true

/-- R22: a narrow-format field that faults no ILLOP. Codes that fault FMT are admitted here. -/
def narrowOk (f : BitVec 5) : Bool := !(f.toNat ≤ 4) && !(0x0A ≤ f.toNat && f.toNat ≤ 0x0C)

/-- R92: the pairs of sides and the part index each admits. -/
def cvtOk (dst src : CvtSide) (part : BitVec 3) : Bool :=
  match dst, src with
  | .narrow _, .narrow _ => false
  | .narrow f, .wide t | .wide t, .narrow f =>
    narrowOk f && t.bits != 64 && (f.toNat == 9 || part.toNat < 4)
  | .wide t, .wide u => if t.bits == 64 && u.bits == 64 then part == 0
    else if t.bits == 64 || u.bits == 64 then part.toNat < 2 else part == 0

/-- R96: the sizes VST and VSCAT accept. -/
def VSize.storable : VSize → Bool
  | .hn | .bn => false
  | _ => true

/-- R239: without ACQ and REL the scope must be 0. -/
def Ord.wf (o : Ord) : Bool := o.acq || o.rel || o.scope == .context

/-- R306: RSTAT's group. -/
def RstatForm.wf : RstatForm → Bool
  | .entry d _ => grp4 d
  | _ => true

/-- R297: a TFMT code that faults no ILLOP. Codes that fault FMT are admitted here. -/
def tfmtOk (f : BitVec 5) : Bool :=
  !(f.toNat ≤ 4) && f.toNat != 0x0A && f.toNat != 0x0C && f.toNat != 0x0E

/-- The value restrictions of every row. -/
def Instr.wf : Instr → Bool
  | .add _ _ _ _ ms => ms.wf
  | .sub _ _ _ _ ms => ms.wf
  | .mul _ _ _ _ ms => ms.wf
  | .mulh _ _ _ _ ms => ms.wf
  | .mulhn _ _ _ _ ms => ms.wf
  | .div _ _ _ _ ms => ms.wf
  | .divn _ _ _ _ ms => ms.wf
  | .remS _ _ _ _ ms => ms.wf
  | .remn _ _ _ _ ms => ms.wf
  | .andI _ _ _ _ ms => ms.wf
  | .orI _ _ _ _ ms => ms.wf
  | .xorI _ _ _ _ ms => ms.wf
  | .andn _ _ _ _ ms => ms.wf
  | .orn _ _ _ _ ms => ms.wf
  | .shl _ _ _ _ ms => ms.wf
  | .shr _ _ _ _ ms => ms.wf
  | .sar _ _ _ _ ms => ms.wf
  | .rol _ _ _ _ ms => ms.wf
  | .clz _ _ _ ms => ms.wf
  | .ctz _ _ _ ms => ms.wf
  | .popc _ _ _ ms => ms.wf
  | .brev _ _ _ ms => ms.wf
  | .minS _ _ _ _ ms => ms.wf
  | .maxS _ _ _ _ ms => ms.wf
  | .minn _ _ _ _ ms => ms.wf
  | .maxn _ _ _ _ ms => ms.wf
  | .sext _ _ n ms => 1 ≤ n.toNat && n.toNat ≤ 64 && ms.wf
  | .zext _ _ n ms => 1 ≤ n.toNat && n.toNat ≤ 64 && ms.wf
  | .bfx _ _ pos len ms => fieldOk pos len && ms.wf
  | .bfxn _ _ pos len ms => fieldOk pos len && ms.wf
  | .bfi _ _ pos len ms => fieldOk pos len && ms.wf
  | .cmp _ _ _ _ _ ms => ms.wf
  | .sel _ _ _ _ _ ms => ms.wf
  | .plog _ _ _ _ ms => ms.wf
  | .mov _ ms => ms.wf
  | .li _ _ => true
  | .lcw _ _ ms => ms.wf
  | .lea _ _ _ _ _ ms => ms.wf
  | .mkptr _ _ f sp ms => f.wf sp && ms.wf
  | .ptrx _ _ _ ms => ms.wf
  | .br _ ms => ms.wf
  | .jmp _ => true
  | .jmpi _ ms => ms.wf
  | .call _ _ ms => ms.wf
  | .calli _ _ ms => ms.wf
  | .ret _ ms => ms.wf
  | .loop d _ ms => d != 0 && ms.wf
  | .bsig _ => true
  | .endC ms => ms.wf
  | .nop ms => ms.wf
  | .grow _ g v ms => granOk g v && ms.wf
  | .shrink g v ms => granOk g v && ms.wf
  | .fadd _ _ _ _ _ ms => ms.wf
  | .fsub _ _ _ _ _ ms => ms.wf
  | .fmul _ _ _ _ _ ms => ms.wf
  | .ffma _ _ _ _ _ ms => ms.wf
  | .fdiv _ _ _ _ _ ms => ms.wf
  | .fsqrt _ _ _ _ ms => ms.wf
  | .fmin _ _ _ _ ms => ms.wf
  | .fmax _ _ _ _ ms => ms.wf
  | .fcmp _ _ _ _ _ ms => ms.wf
  | .fcvt _ _ f ms => f.wf && ms.wf
  | .fclass _ _ _ ms => ms.wf
  | .fsgn _ _ _ _ _ ms => ms.wf
  | .ld sz _ d _ _ _ ms => sz.loadReg d && ms.wf
  | .st sz _ d _ _ _ ms => sz.storeReg d && ms.wf
  | .ldl am d _ _ _ ms => am != .ilv8 && Size.loadReg .l d && ms.wf
  | .stl am d _ _ _ ms => am != .ilv8 && Size.storeReg .l d && ms.wf
  | .pref _ _ _ _ _ ms => ms.wf
  | .vadd ty _ _ _ rnd ms => ty.rndOk rnd && ms.wf
  | .vsub ty _ _ _ rnd ms => ty.rndOk rnd && ms.wf
  | .vmul ty _ _ _ rnd ms => ty.rndOk rnd && ms.wf
  | .vfma ty _ _ _ rnd ms => ty.rndOk rnd && ms.wf
  | .vdiv ty _ _ _ rnd ms => ty.rndOk rnd && ms.wf
  | .vsqrt _ _ _ _ ms => ms.wf
  | .vmin _ _ _ _ ms => ms.wf
  | .vmax _ _ _ _ ms => ms.wf
  | .vabs _ _ _ ms => ms.wf
  | .vneg _ _ _ ms => ms.wf
  | .vand _ _ _ _ ms => ms.wf
  | .vor _ _ _ _ ms => ms.wf
  | .vxor _ _ _ _ ms => ms.wf
  | .vshl _ _ _ _ ms => ms.wf
  | .vshr _ _ _ _ ms => ms.wf
  | .vsar _ _ _ _ ms => ms.wf
  | .vcmp _ _ _ _ ms => ms.wf
  | .vsel _ _ _ b _ _ ms => b.noImm && ms.wf
  | .vbcast ty _ f ms => f.wf ty && ms.wf
  | .vextr ty d _ i ms => !d.isV && ty.elemOk i && ms.wf
  | .vins ty _ _ i ms => ty.elemOk i && ms.wf
  | .vfirst _ d _ ms => !d.isQ && ms.wf
  | .viota ty _ ms => 32 ≤ ty.bits && ms.wf
  | .vperm _ _ _ _ ms => ms.wf
  | .vslide ty _ _ _ _ m ms => m.toNat ≤ ty.elems && ms.wf
  | .vreds ty _ _ _ rnd ms => ty.rndOk rnd && ms.wf
  | .vredm _ _ _ _ _ ms => ms.wf
  | .vdot2 ty _ _ _ rnd ms => ty.pairOk && ty.rndOk rnd && ms.wf
  | .vcvt dst src part _ _ _ ms => cvtOk dst src part && ms.wf
  | .vsplit3 d _ _ ms => d.toNat ≤ 29 && ms.wf
  | .vld _ _ _ _ _ _ _ ms => ms.wf
  | .vst sz _ _ _ _ _ _ ms => sz.storable && ms.wf
  | .vlds _ _ _ _ _ _ ms => ms.wf
  | .vgath _ _ _ _ _ _ _ ms => ms.wf
  | .vscat sz _ _ _ _ _ _ ms => sz.storable && ms.wf
  | .klog _ _ _ _ => true
  | .kpopc _ _ => true
  | .kfirst _ _ => true
  | .kmov _ => true
  | .ktest _ _ _ _ => true
  | .rep _ n wb ws _ => n != 0 && 1 ≤ ws.toNat && ws.toNat ≤ 32 && wb.toNat + ws.toNat ≤ 32
  | .qcnt vec _ _ ms => ms.wf && (!vec || ms.none)
  | .qdrain vec _ ms => ms.wf && (!vec || ms.none)
  | .queueDeadlock .. => true
  | .arm _ _ _ ms => ms.wf
  | .dec _ _ _ ms => ms.wf
  | .inc _ _ _ ms => ms.wf
  | .spawn _ ms => ms.wf
  | .tspawn _ _ _ ms => ms.wf
  | .tspawnAppend .. => true
  | .waita _ _ _ _ ms => ms.wf
  | .waitaWake .. => true
  | .yield ms => ms.wf
  | .susp ms => ms.wf
  | .arrive _ _ _ ms => ms.wf
  | .await _ _ _ ms => ms.wf
  | .drop _ _ ms => ms.wf
  | .ssync _ _ b v _ ms => (v || b == 0) && ms.wf
  | .ssyncArrivalCount .. => true
  | .arrivedSuspend .. => true
  | .ssnum _ ms => ms.wf
  | .fuse _ ms => ms.wf
  | .split ms => ms.wf
  | .tqpush _ _ ms => ms.wf
  | .tqpop _ _ ms => ms.wf
  | .gwload _ first count ms => 1 ≤ count.toNat && first.toNat + count.toNat ≤ 32 && ms.wf
  | .gwrun _ ms => ms.wf
  | .gwstat _ ms => ms.wf
  | .walkerNodeStep .. => true
  | .cond _ _ ms => ms.wf
  | .cpy a _ ms => grp4 a && ms.wf
  | .copyPiece .. => true
  | .pfl _ count ms => 1 ≤ count.toNat && count.toNat ≤ 64 && ms.wf
  | .pflComplete .. => true
  | .contextBind .. => true
  | .readyAge .. => true
  | .lqdb .. => true
  | .hostDoorbell .. => true
  | .launch .. => true
  | .barrierDecision .. => true
  | .preqNow .. => true
  | .shadowSwapDone .. => true
  | .preqAtBarrier .. => true
  | .resqResume .. => true
  | .resqKill .. => true
  | .ldacq sz _ _ _ _ _ _ ms => sz.acqOk && ms.wf
  | .strel sz _ _ _ _ _ _ ms => sz.relOk && ms.wf
  | .fence _ ms => ms.wf
  | .aadd _ _ o _ _ _ ms => o.wf && ms.wf
  | .amin _ _ _ o _ _ _ ms => o.wf && ms.wf
  | .amax _ _ _ o _ _ _ ms => o.wf && ms.wf
  | .aand _ _ o _ _ _ ms => o.wf && ms.wf
  | .aor _ _ o _ _ _ ms => o.wf && ms.wf
  | .axor _ _ o _ _ _ ms => o.wf && ms.wf
  | .aswp _ _ o _ _ _ ms => o.wf && ms.wf
  | .afadd _ _ o _ _ _ _ ms => o.wf && ms.wf
  | .acas _ _ o _ _ _ ms => o.wf && ms.wf
  | .red _ _ _ rel scope _ _ ms => (rel || scope == .context) && ms.wf
  | .pgq _ _ _ _ _ _ ms => ms.wf
  | .rred _ _ _ _ _ ms => ms.wf
  | .rflush one _ am a ms => (one || (am == .lin && a == 0)) && ms.wf
  | .rstat f ms => f.wf && ms.wf
  | .fcas o d _ b _ _ ms => o.wf && grp4 d && b.toNat % 4 == 0 && ms.wf
  | .fenq o _ _ _ ms => o.wf && ms.wf
  | .fchase acq scope d _ m off ms => (acq || scope == .context) && d != 0 && d.toNat % 2 == 0 && 1 ≤ m.toNat && m.toNat ≤ 16 && off.toNat % 8 == 0 && ms.wf
  | .tsrd _ _ _ n ms => n.toNat < 0x28 && ms.wf
  | .tsclr _ _ ms => ms.wf
  | .tsscale _ _ tfmt ms => tfmtOk tfmt && ms.wf
  | .qnt _ _ a _ _ tfmt _ _ ms => grp4 a && tfmtOk tfmt && ms.wf
  | .qntl _ _ a _ tfmt _ _ ms => grp4 a && tfmtOk tfmt && ms.wf
  | .dqnt _ blk a b _ tfmt _ lb _ ms => grp4 a && tfmtOk tfmt && (if blk then b == .reg 0 else lb == 0) && ms.wf
  | .kput a _ ms => grp4 a && ms.wf
  | .kget a _ ms => grp4 a && ms.wf
  | .peerPacketApply .. => true
  | .kcoll a _ n ms => grp4 a && 1 ≤ n.toNat && n.toNat ≤ 64 && ms.wf
  | .collContrib .. => true
  | .collChain .. => true
  | .collForward .. => true
  | .collMulticast .. => true
  | .collDeliver .. => true
  | .fedj _ _ ms => ms.wf
  | .fedl ms => ms.wf
  | .gqpush a ms => grp4 a && ms.wf
  | .gqEgressSend .. => true
  | .gqDeliver .. => true
  | .gqpop _ _ ms => ms.wf
  | .gqwin rl d _ _ ms => (!rl || d == 0) && ms.wf
  | .gprio _ _ ms => ms.wf
  | .ostep _ _ ms => ms.wf
  | .trap _ ms => ms.wf
  | .brk ms => ms.wf
  | .fmsg _ d ms => grp8 d && ms.wf
  | .freply a _ ms => grp8 a && ms.wf
  | .srd _ _ ms => ms.wf
  | .swr _ _ ms => ms.wf
  | .tlbi all _ a b ms => (!all || (a == 0 && b == .reg 0)) && ms.wf
  | .shootdownAck .. => true
  | .coreSleep .. => true
  | .coreWake .. => true
  | .ident _ n ms => n.toNat < 4 && ms.wf
  | .halt ms => ms.wf
  | .mxSlotAdmit .. => true
  | .mxClaim .. => true
  | .mxMma .. => true
  | .mxMmat .. => true
  | .mxZero .. => true
  | .mxDrain .. => true
  | .mxXch .. => true
  | .mxCksum .. => true
  | .mxMark .. => true
  | .rickAgeOut .. => true
  | .cordApply .. => true
  | .cordStatus .. => true
  | .statsUpdateMerge .. => true
  | .migreqGo .. => true
  | .migrationLineCopy .. => true
  | .hostAtomicop .. => true
  | .flitReceive .. => true
  | .ackTimer .. => true
  | .replayTimeout .. => true
  | .gatewayForward .. => true
  | .laneFail .. => true
  | .portRetrainDone .. => true
  | .linkHeartbeat .. => true
  | .chipLost .. => true
  | .lossReportReceive .. => true
  | .ptrootWrite .. => true
  | .optbindWrite .. => true
  | .optrecWrite .. => true
  | .svcbootWrite .. => true
  | .portstClear .. => true
  | .registerWrite .. => true
  | .feataccWrite .. => true
  | .partenWrite .. => true
  | .lockInterfaceRequest .. => true
  | .startInterfaceRequest .. => true
  | .stopInterfaceRequest .. => true
  | .functionLevelReset .. => true
  | .scrubDone .. => true
  | .ideKmRequest .. => true
  | .ideIntegrityFail .. => true
  | .getVersion .. => true
  | .getCapabilities .. => true
  | .negotiateAlgorithms .. => true
  | .getDigests .. => true
  | .getCertificate .. => true
  | .challenge .. => true
  | .getMeasurements .. => true
  | .keyExchange .. => true
  | .finish .. => true
  | .heartbeat .. => true
  | .keyUpdate .. => true
  | .endSession .. => true
  | .collierReadEvent .. => true
  | .collierSvcboot .. => true
  | .collierWriteBank .. => true
  | .collierActivateBank .. => true
  | .collierReadSensor .. => true
  | .collierReplan .. => true
  | .collierRetrainPort .. => true
  | .sensorSample .. => true
  | .ageingPlan .. => true
  | .watchdogExpire .. => true
  | .softRepair .. => true
  | .repairQuiesceEnd .. => true
  | .fundamentalReset .. => true
  | .hotReset .. => true
  | .fatalEvent .. => true
  | .laneFailureSignal .. => true
  | .powerLoss .. => true
  | .configurationWrite .. => true

/-- An instruction the encodings of the manual admit. -/
abbrev Instr.WellFormed (i : Instr) : Prop := i.wf = true

end Sys2Proof
end

