-- ==== Sys2Proof/Decode.lean ====
section
/-! DEFINITION. The decoder of a 96-bit instruction slot (R14-R35), total and refusing by name, and the encoder written
from the same tables. -/
namespace Sys2Proof

/-- Why a slot decodes to no instruction. Each of them is the ILLOP of class 5 (R32). -/
inductive Reject where
  /-- A major opcode that no rule assigns (R33, R35). -/
  | opcode
  /-- An opcode that does not match its stream (R8). -/
  | stream
  /-- An FN value, a reserved field or a reserved encoding (R17). -/
  | field
  /-- A field value that the instruction's entry refuses (R17, R25). -/
  | value
  deriving DecidableEq, Repr

/-- The fields of the canonical layout (R14), the most significant first. -/
structure Fields where
  opc : BitVec 8
  fn : BitVec 8
  d : BitVec 7
  a : BitVec 7
  b : BitVec 7
  c : BitVec 8
  ce : BitVec 1
  ms : BitVec 4
  ty : BitVec 4
  am : BitVec 2
  rnd : BitVec 3
  scope : BitVec 3
  flags : BitVec 2
  imm : BitVec 32
  deriving DecidableEq, Repr

/-- Every field zero but OPC and FN. -/
def Fields.base (opc fn : BitVec 8) : Fields :=
  { opc := opc, fn := fn, d := 0, a := 0, b := 0, c := 0, ce := 0, ms := 0, ty := 0, am := 0, rnd := 0, scope := 0,
    flags := 0, imm := 0 }

/-- R14: the bits of each field. -/
def Fields.unpack (w : Slot) : Fields :=
  { opc := w.extractLsb' 88 8, fn := w.extractLsb' 80 8, d := w.extractLsb' 73 7, a := w.extractLsb' 66 7,
    b := w.extractLsb' 59 7, c := w.extractLsb' 51 8, ce := w.extractLsb' 50 1, ms := w.extractLsb' 46 4,
    ty := w.extractLsb' 42 4, am := w.extractLsb' 40 2, rnd := w.extractLsb' 37 3, scope := w.extractLsb' 34 3,
    flags := w.extractLsb' 32 2, imm := w.extractLsb' 0 32 }

def Fields.pack (f : Fields) : Slot :=
  f.opc ++ f.fn ++ f.d ++ f.a ++ f.b ++ f.c ++ f.ce ++ f.ms ++ f.ty ++ f.am ++ f.rnd ++ f.scope ++ f.flags ++ f.imm

/-- Names of the fields that an entry may leave without a use. -/
inductive Fld where
  | fn | d | a | b | c | ce | ms | ty | am | rnd | scope | flags | imm
  deriving DecidableEq, Repr

def Fields.isZero (f : Fields) : Fld → Bool
  | .fn => f.fn == 0
  | .d => f.d == 0
  | .a => f.a == 0
  | .b => f.b == 0
  | .c => f.c == 0
  | .ce => f.ce == 0
  | .ms => f.ms == 0
  | .ty => f.ty == 0
  | .am => f.am == 0
  | .rnd => f.rnd == 0
  | .scope => f.scope == 0
  | .flags => f.flags == 0
  | .imm => f.imm == 0

/-- R17: a field that the entry gives no use must be zero. -/
def Fields.zeros (f : Fields) (l : List Fld) : Bool := l.all f.isZero

/-- `some x` where the condition holds. -/
def onlyIf (c : Bool) (x : Option α) : Option α := if c then x else none

/-! ### Codes of the fields -/

def IntTy.code : IntTy → BitVec 4
  | .i64 => 0 | .i32 => 1 | .i16 => 2 | .i8 => 3 | .n64 => 4 | .n32 => 5 | .n16 => 6 | .n8 => 7

def intTy? (c : BitVec 4) : Option IntTy :=
  match c.toNat with
  | 0 => some .i64 | 1 => some .i32 | 2 => some .i16 | 3 => some .i8
  | 4 => some .n64 | 5 => some .n32 | 6 => some .n16 | 7 => some .n8
  | _ => none

def Width.signedCode : Width → BitVec 4
  | .w64 => 0 | .w32 => 1 | .w16 => 2 | .w8 => 3

def signedWidth? (c : BitVec 4) : Option Width :=
  match c.toNat with
  | 0 => some .w64 | 1 => some .w32 | 2 => some .w16 | 3 => some .w8
  | _ => none

def Width.unsignedCode : Width → BitVec 4
  | .w64 => 4 | .w32 => 5 | .w16 => 6 | .w8 => 7

def unsignedWidth? (c : BitVec 4) : Option Width :=
  match c.toNat with
  | 4 => some .w64 | 5 => some .w32 | 6 => some .w16 | 7 => some .w8
  | _ => none

def FloatTy.code : FloatTy → BitVec 4
  | .f64 => 8 | .f32 => 9 | .f19 => 10 | .bf16 => 11 | .f16 => 12

def floatTy? (c : BitVec 4) : Option FloatTy :=
  match c.toNat with
  | 8 => some .f64 | 9 => some .f32 | 10 => some .f19 | 11 => some .bf16 | 12 => some .f16
  | _ => none

def Ty.code : Ty → BitVec 4
  | .int t => t.code
  | .flt t => t.code

def ty? (c : BitVec 4) : Option Ty :=
  match intTy? c with
  | some t => some (.int t)
  | none => (floatTy? c).map .flt

def Size.code : Size → BitVec 4
  | .d => 0 | .w => 1 | .h => 2 | .b => 3 | .wn => 5 | .hn => 6 | .bn => 7 | .f => 14 | .l => 15

def size? (c : BitVec 4) : Option Size :=
  match c.toNat with
  | 0 => some .d | 1 => some .w | 2 => some .h | 3 => some .b | 5 => some .wn | 6 => some .hn | 7 => some .bn
  | 14 => some .f | 15 => some .l
  | _ => none

def VSize.code : VSize → BitVec 4
  | .d => 0 | .w => 1 | .h => 2 | .b => 3 | .hn => 6 | .bn => 7

def vsize? (c : BitVec 4) : Option VSize :=
  match c.toNat with
  | 0 => some .d | 1 => some .w | 2 => some .h | 3 => some .b | 6 => some .hn | 7 => some .bn
  | _ => none

def ASize.code : ASize → BitVec 4
  | .d => 0 | .w => 1 | .wn => 5

def asize? (c : BitVec 4) : Option ASize :=
  match c.toNat with
  | 0 => some .d | 1 => some .w | 5 => some .wn
  | _ => none

/-- .d is 0 and .w is 1 (RED, RRED, AFADD). -/
def dblCode (dbl : Bool) : BitVec 4 := if dbl then 0 else 1

def dbl? (c : BitVec 4) : Option Bool :=
  match c.toNat with
  | 0 => some true | 1 => some false
  | _ => none

def QTy.code : QTy → BitVec 4
  | .f32 => 9 | .bf16 => 11 | .f16 => 12

def qty? (c : BitVec 4) : Option QTy :=
  match c.toNat with
  | 9 => some .f32 | 11 => some .bf16 | 12 => some .f16
  | _ => none

def Rnd.code : Rnd → BitVec 3
  | .rne => 0 | .rz => 1 | .ru => 2 | .rd => 3 | .rna => 4

def rnd? (c : BitVec 3) : Option Rnd :=
  match c.toNat with
  | 0 => some .rne | 1 => some .rz | 2 => some .ru | 3 => some .rd | 4 => some .rna
  | _ => none

def Scope.code : Scope → BitVec 3
  | .context => 0 | .core => 1 | .cluster => 2 | .die => 3 | .package => 4 | .team => 5 | .system => 6

def scope? (c : BitVec 3) : Option Scope :=
  match c.toNat with
  | 0 => some .context | 1 => some .core | 2 => some .cluster | 3 => some .die | 4 => some .package
  | 5 => some .team | 6 => some .system
  | _ => none

def Am.code : Am → BitVec 2
  | .lin => 0 | .ilv8 => 1 | .ilv64 => 2

def am? (c : BitVec 2) : Option Am :=
  match c.toNat with
  | 0 => some .lin | 1 => some .ilv8 | 2 => some .ilv64
  | _ => none

def Ms.code (m : Ms) : BitVec 4 := BitVec.ofBool m.inv ++ m.idx

def Ms.ofBits (c : BitVec 4) : Ms := { inv := c.getLsbD 3, idx := c.extractLsb' 0 3 }

def ICond.code : ICond → BitVec 8
  | .eq => 0 | .ne => 1 | .lt => 2 | .le => 3 | .gt => 4 | .ge => 5

def icond? (c : BitVec 8) : Option ICond :=
  match c.toNat with
  | 0 => some .eq | 1 => some .ne | 2 => some .lt | 3 => some .le | 4 => some .gt | 5 => some .ge
  | _ => none

def FCond.code : FCond → BitVec 8
  | .eq => 0 | .ne => 1 | .lt => 2 | .le => 3 | .gt => 4 | .ge => 5 | .un => 6 | .or => 7

def fcond? (c : BitVec 8) : Option FCond :=
  match c.toNat with
  | 0 => some .eq | 1 => some .ne | 2 => some .lt | 3 => some .le | 4 => some .gt | 5 => some .ge
  | 6 => some .un | 7 => some .or
  | _ => none

def LogOp.code : LogOp → BitVec 8
  | .and => 0 | .or => 1 | .xor => 2 | .andn => 3 | .orn => 4 | .nor => 5

def logOp? (c : BitVec 8) : Option LogOp :=
  match c.toNat with
  | 0 => some .and | 1 => some .or | 2 => some .xor | 3 => some .andn | 4 => some .orn | 5 => some .nor
  | _ => none

/-- FN of RED and RRED (R243) with the U bit, and whether the form rounds. -/
def RedOp.code : RedOp → BitVec 8 × Bool × Rnd
  | .add => (0, false, .rne)
  | .min u => (1, u, .rne)
  | .max u => (2, u, .rne)
  | .and => (3, false, .rne)
  | .or => (4, false, .rne)
  | .xor => (5, false, .rne)
  | .fadd r => (6, false, r)

def redOp? (fn : BitVec 8) (u : Bool) (r : Rnd) : Option RedOp :=
  match fn.toNat with
  | 0 => onlyIf (!u && r == .rne) (some .add)
  | 1 => onlyIf (r == .rne) (some (.min u))
  | 2 => onlyIf (r == .rne) (some (.max u))
  | 3 => onlyIf (!u && r == .rne) (some .and)
  | 4 => onlyIf (!u && r == .rne) (some .or)
  | 5 => onlyIf (!u && r == .rne) (some .xor)
  | 6 => onlyIf (!u) (some (.fadd r))
  | _ => none

/-- R23: a v register number. -/
def vreg? (x : BitVec 7) : Option VReg := onlyIf (x.toNat < 32) (some (x.setWidth 5))
/-- R23: a k, p or q register number. -/
def low3? (x : BitVec 7) : Option (BitVec 3) := onlyIf (x.toNat < 8) (some (x.setWidth 3))

/-- The B operand of the integer instructions (R40, R27). -/
def bop? (f : Fields) : Option BOp :=
  if f.flags = 1 then onlyIf (f.ce == 0 && f.b == 0 && f.c == 0) (some (.imm f.imm))
  else onlyIf (f.flags == 0 && f.imm == 0)
    (if f.ce = 1 then onlyIf (f.b == 0) (some (.cw f.c)) else onlyIf (f.c == 0) (some (.reg f.b)))

def BOp.put (b : BOp) (f : Fields) : Fields :=
  match b with
  | .reg r => { f with b := r }
  | .cw c => { f with ce := 1, c := c }
  | .imm i => { f with flags := 1, imm := i }

/-- A B operand with no immediate. -/
def breg? (f : Fields) : Option BReg :=
  if f.ce = 1 then onlyIf (f.b == 0) (some (.cw f.c)) else onlyIf (f.c == 0) (some (.reg f.b))

def BReg.put (b : BReg) (f : Fields) : Fields :=
  match b with
  | .reg r => { f with b := r }
  | .cw c => { f with ce := 1, c := c }

/-- The B operand of a vector instruction under G or CE, or a v register (R74). -/
def vbReg? (f : Fields) : Option VB :=
  if f.flags = 2 then onlyIf (f.ce == 0 && f.c == 0) (some (.g f.b))
  else onlyIf (f.flags == 0)
    (if f.ce = 1 then onlyIf (f.b == 0) (some (.cw f.c)) else onlyIf (f.c == 0) ((vreg? f.b).map .v))

/-- The B operand of a vector instruction (R74). -/
def vb? (f : Fields) : Option VB :=
  if f.flags = 1 then onlyIf (f.ce == 0 && f.b == 0 && f.c == 0) (some (.imm f.imm))
  else onlyIf (f.imm == 0) (vbReg? f)

def VB.put (b : VB) (f : Fields) : Fields :=
  match b with
  | .v r => { f with b := r.setWidth 7 }
  | .cw c => { f with ce := 1, c := c }
  | .g r => { f with flags := 2, b := r }
  | .imm i => { f with flags := 1, imm := i }

/-- The long immediate (R15). -/
def Fields.imm64 (f : Fields) : Word :=
  f.b.extractLsb' 0 5 ++ f.c ++ f.ce ++ f.ms ++ f.ty ++ f.am ++ f.rnd ++ f.scope ++ f.flags ++ f.imm

def Fields.putImm64 (i : Word) (f : Fields) : Fields :=
  { f with a := 0, b := 0#2 ++ i.extractLsb' 59 5, c := i.extractLsb' 51 8, ce := i.extractLsb' 50 1,
           ms := i.extractLsb' 46 4, ty := i.extractLsb' 42 4, am := i.extractLsb' 40 2, rnd := i.extractLsb' 37 3,
           scope := i.extractLsb' 34 3, flags := i.extractLsb' 32 2, imm := i.extractLsb' 0 32 }

def Fields.mask (f : Fields) : Ms := Ms.ofBits f.ms

/-- `imm` as its low `n` bits, where every other bit is zero. -/
def low? (n : Nat) (imm : BitVec 32) : Option (BitVec n) := onlyIf (imm.toNat < 2 ^ n) (some (imm.setWidth n))

def bit? (imm : BitVec 32) : Option Bool :=
  match imm.toNat with
  | 0 => some false | 1 => some true
  | _ => none

def bitImm (b : Bool) : BitVec 32 := if b then 1 else 0

/-- ACQ and REL with the scope (R236, R239). -/
def Fields.ord (f : Fields) (s : Scope) : Ord := { acq := f.flags.getLsbD 0, rel := f.flags.getLsbD 1, scope := s }

def Ord.flagBits (o : Ord) : BitVec 2 := BitVec.ofBool o.rel ++ BitVec.ofBool o.acq

/-! ### The rows of R33: one decoder per major opcode -/

/-- A decoder of the fields of one major opcode; its first argument says whether the slot is a vector-stream one. -/
abbrev Row := Bool → Fields → Option Instr

def rowBin (k : IntTy → GReg → GReg → BOp → Ms → Instr) : Row := fun _ f =>
  onlyIf (f.zeros [.fn, .am, .rnd, .scope]) do
    let t ← intTy? f.ty
    let b ← bop? f
    some (k t f.d f.a b f.mask)

def rowSigned (k : Width → GReg → GReg → BOp → Ms → Instr) : Row := fun _ f =>
  onlyIf (f.zeros [.fn, .am, .rnd, .scope]) do
    let t ← signedWidth? f.ty
    let b ← bop? f
    some (k t f.d f.a b f.mask)

def rowUnsigned (k : Width → GReg → GReg → BOp → Ms → Instr) : Row := fun _ f =>
  onlyIf (f.zeros [.fn, .am, .rnd, .scope]) do
    let t ← unsignedWidth? f.ty
    let b ← bop? f
    some (k t f.d f.a b f.mask)

def rowBits (k : IntTy → GReg → GReg → Ms → Instr) : Row := fun _ f =>
  onlyIf (f.zeros [.fn, .b, .c, .ce, .am, .rnd, .scope, .flags, .imm]) do
    let t ← intTy? f.ty
    some (k t f.d f.a f.mask)

def rowExt (k : GReg → GReg → BitVec 7 → Ms → Instr) : Row := fun _ f =>
  onlyIf (f.zeros [.fn, .b, .c, .ce, .ty, .am, .rnd, .scope, .flags]) do
    let n ← low? 7 f.imm
    some (k f.d f.a n f.mask)

def rowField (k : GReg → GReg → BitVec 6 → BitVec 7 → Ms → Instr) : Row := fun _ f =>
  onlyIf (f.zeros [.fn, .b, .c, .ce, .ty, .am, .rnd, .scope, .flags] &&
      f.imm.extractLsb' 15 17 == 0 && f.imm.extractLsb' 6 2 == 0)
    (some (k f.d f.a (f.imm.extractLsb' 0 6) (f.imm.extractLsb' 8 7) f.mask))

def rowCmp : Row := fun _ f =>
  onlyIf (f.zeros [.am, .rnd, .scope]) do
    let c ← icond? f.fn
    let t ← intTy? f.ty
    let d ← low3? f.d
    let b ← bop? f
    some (.cmp c t d f.a b f.mask)

def rowSel : Row := fun _ f =>
  onlyIf (f.zeros [.fn, .ty, .am, .rnd, .scope, .flags]) do
    let b ← breg? f
    let s ← low? 4 f.imm
    some (.sel f.d f.a b (s.extractLsb' 0 3) (s.getLsbD 3) f.mask)

def rowPlog : Row := fun _ f =>
  onlyIf (f.zeros [.c, .ce, .ty, .am, .rnd, .scope, .flags, .imm]) do
    let o ← logOp? f.fn
    let d ← low3? f.d
    let a ← low3? f.a
    let b ← low3? f.b
    some (.plog o d a b f.mask)

def rowMov : Row := fun _ f =>
  onlyIf (f.zeros [.b, .c, .ce, .ty, .am, .rnd, .scope])
    (match f.fn.toNat with
     | 0 => if f.flags = 1 then onlyIf (f.a == 0) (some (.mov (.gFromImm f.d f.imm) f.mask))
            else onlyIf (f.zeros [.flags, .imm]) (some (.mov (.gFromG f.d f.a) f.mask))
     | 1 => onlyIf (f.zeros [.flags, .imm]) ((low3? f.a).map fun a => .mov (.gFromP f.d a) f.mask)
     | 2 => onlyIf (f.zeros [.flags, .imm]) ((low3? f.d).map fun d => .mov (.pFromG d f.a) f.mask)
     | _ => none)

def rowLi : Row := fun _ f =>
  onlyIf (f.zeros [.fn, .a] && f.b.extractLsb' 5 2 == 0) (some (.li f.d f.imm64))

def rowLcw : Row := fun _ f =>
  onlyIf (f.zeros [.b, .ce, .ty, .am, .rnd, .scope, .flags, .imm])
    (match f.fn.toNat with
     | 0 => onlyIf (f.a == 0) (some (.lcw f.d (.slot f.c) f.mask))
     | 1 => onlyIf (f.c == 0) (some (.lcw f.d (.reg f.a) f.mask))
     | _ => none)

def rowLea : Row := fun _ f =>
  onlyIf (f.zeros [.fn, .ty, .am, .rnd, .scope]) do
    let b ← breg? f
    some (.lea f.d f.a b f.flags f.imm f.mask)

def rowMkptr : Row := fun _ f =>
  onlyIf (f.zeros [.c, .ce, .ty, .am, .rnd, .scope, .flags] && f.imm.extractLsb' 16 16 == 0)
    (match f.fn.toNat with
     | 0 => onlyIf (f.b == 0) (some (.mkptr f.d f.a (.imm (f.imm.extractLsb' 4 12)) (f.imm.extractLsb' 0 4) f.mask))
     | 1 => onlyIf (f.imm.extractLsb' 4 12 == 0) (some (.mkptr f.d f.a (.reg f.b) (f.imm.extractLsb' 0 4) f.mask))
     | _ => none)

def PtrxSel.code : PtrxSel → BitVec 8
  | .space => 0 | .rank => 1 | .addr => 2 | .owner => 3

def ptrxSel? (c : BitVec 8) : Option PtrxSel :=
  match c.toNat with
  | 0 => some .space | 1 => some .rank | 2 => some .addr | 3 => some .owner
  | _ => none

def rowPtrx : Row := fun _ f =>
  onlyIf (f.zeros [.b, .c, .ce, .ty, .am, .rnd, .scope, .flags, .imm]) do
    let s ← ptrxSel? f.fn
    some (.ptrx s f.d f.a f.mask)

def rowBr : Row := fun _ f =>
  onlyIf (f.zeros [.fn, .d, .a, .b, .c, .ce, .ty, .am, .rnd, .scope, .flags]) (some (.br f.imm f.mask))

def rowJmp : Row := fun _ f =>
  onlyIf (f.zeros [.fn, .d, .a] && f.b.extractLsb' 5 2 == 0) (some (.jmp f.imm64))

def rowJmpi (k : GReg → Ms → Instr) : Row := fun _ f =>
  onlyIf (f.zeros [.fn, .d, .b, .c, .ce, .ty, .am, .rnd, .scope, .flags, .imm]) (some (k f.a f.mask))

def rowCall (k : GReg → Word32 → Ms → Instr) : Row := fun _ f =>
  onlyIf (f.zeros [.fn, .a, .b, .c, .ce, .ty, .am, .rnd, .scope, .flags]) (some (k f.d f.imm f.mask))

def rowCalli : Row := fun _ f =>
  onlyIf (f.zeros [.fn, .b, .c, .ce, .ty, .am, .rnd, .scope, .flags, .imm]) (some (.calli f.d f.a f.mask))

def rowBsig : Row := fun _ f =>
  onlyIf (f.zeros [.fn, .d, .a, .b, .c, .ce, .ms, .ty, .am, .rnd, .scope, .flags]) do
    let n ← low? 16 f.imm
    some (.bsig n)

/-- Every field but OPC and MS zero. -/
def rowBare (k : Ms → Instr) : Row := fun _ f =>
  onlyIf (f.zeros [.fn, .d, .a, .b, .c, .ce, .ty, .am, .rnd, .scope, .flags, .imm]) (some (k f.mask))

def Fields.granZero (f : Fields) : Bool := f.imm.extractLsb' 11 21 == 0 && f.imm.extractLsb' 5 3 == 0

def rowGrow : Row := fun _ f =>
  onlyIf (f.zeros [.fn, .a, .b, .c, .ce, .ty, .am, .rnd, .scope, .flags] && f.granZero) do
    let d ← low3? f.d
    some (.grow d (f.imm.extractLsb' 0 5) (f.imm.extractLsb' 8 3) f.mask)

def rowShrink : Row := fun _ f =>
  onlyIf (f.zeros [.fn, .d, .a, .b, .c, .ce, .ty, .am, .rnd, .scope, .flags] && f.granZero)
    (some (.shrink (f.imm.extractLsb' 0 5) (f.imm.extractLsb' 8 3) f.mask))

def rowFlt (k : FloatTy → GReg → GReg → BReg → Rnd → Ms → Instr) : Row := fun _ f =>
  onlyIf (f.zeros [.fn, .am, .scope, .flags, .imm]) do
    let t ← floatTy? f.ty
    let b ← breg? f
    let r ← rnd? f.rnd
    some (k t f.d f.a b r f.mask)

def rowFsqrt : Row := fun _ f =>
  onlyIf (f.zeros [.fn, .b, .c, .ce, .am, .scope, .flags, .imm]) do
    let t ← floatTy? f.ty
    let r ← rnd? f.rnd
    some (.fsqrt t f.d f.a r f.mask)

def rowFmin (k : FloatTy → GReg → GReg → BReg → Ms → Instr) : Row := fun _ f =>
  onlyIf (f.zeros [.fn, .am, .rnd, .scope, .flags, .imm]) do
    let t ← floatTy? f.ty
    let b ← breg? f
    some (k t f.d f.a b f.mask)

def rowFcmp : Row := fun _ f =>
  onlyIf (f.zeros [.am, .rnd, .scope, .flags, .imm]) do
    let c ← fcond? f.fn
    let t ← floatTy? f.ty
    let d ← low3? f.d
    let b ← breg? f
    some (.fcmp c t d f.a b f.mask)

def SplitPart.code : SplitPart → BitVec 8
  | .hi => 1 | .mid => 2 | .lo => 3

def splitPart? (c : BitVec 8) : Option SplitPart :=
  match c.toNat with
  | 1 => some .hi | 2 => some .mid | 3 => some .lo
  | _ => none

def rowFcvt : Row := fun _ f =>
  onlyIf (f.zeros [.b, .c, .ce, .am, .scope, .flags])
    (if f.fn = 0 then do
      let t ← ty? f.ty
      let c ← low? 4 f.imm
      let u ← ty? c
      let r ← rnd? f.rnd
      some (.fcvt f.d f.a (.conv t u r) f.mask)
    else onlyIf (f.ty == 0xB && f.imm == 9 && f.rnd == 0) do
      let p ← splitPart? f.fn
      some (.fcvt f.d f.a (.split p) f.mask))

def rowFclass : Row := fun _ f =>
  onlyIf (f.zeros [.fn, .b, .c, .ce, .am, .rnd, .scope, .flags, .imm]) do
    let t ← floatTy? f.ty
    some (.fclass t f.d f.a f.mask)

def SgnOp.code : SgnOp → BitVec 8
  | .copy => 0 | .neg => 1 | .xor => 2

def sgnOp? (c : BitVec 8) : Option SgnOp :=
  match c.toNat with
  | 0 => some .copy | 1 => some .neg | 2 => some .xor
  | _ => none

def rowFsgn : Row := fun _ f =>
  onlyIf (f.zeros [.am, .rnd, .scope, .flags, .imm]) do
    let o ← sgnOp? f.fn
    let t ← floatTy? f.ty
    let b ← breg? f
    some (.fsgn o t f.d f.a b f.mask)

def rowLd (k : Size → Am → GReg → GReg → BReg → Word32 → Ms → Instr) : Row := fun _ f =>
  onlyIf (f.zeros [.fn, .rnd, .scope, .flags]) do
    let z ← size? f.ty
    let m ← am? f.am
    let b ← breg? f
    some (k z m f.d f.a b f.imm f.mask)

def rowLdl (k : Am → GReg → GReg → BReg → Word32 → Ms → Instr) : Row := fun _ f =>
  onlyIf (f.zeros [.fn, .rnd, .scope, .flags] && f.ty == 15) do
    let m ← am? f.am
    let b ← breg? f
    some (k m f.d f.a b f.imm f.mask)

/-- A one-bit FN. -/
def fnBit? (c : BitVec 8) : Option Bool :=
  match c.toNat with
  | 0 => some false | 1 => some true
  | _ => none

def fnBit (b : Bool) : BitVec 8 := if b then 1 else 0

def rowPref : Row := fun _ f =>
  onlyIf (f.zeros [.d, .ty, .rnd, .scope, .flags]) do
    let w ← fnBit? f.fn
    let m ← am? f.am
    let b ← breg? f
    some (.pref w m f.a b f.imm f.mask)

def rowVec (k : Ty → VReg → VReg → VB → Rnd → Ms → Instr) : Row := fun _ f =>
  onlyIf (f.zeros [.fn, .am, .scope]) do
    let t ← ty? f.ty
    let d ← vreg? f.d
    let a ← vreg? f.a
    let b ← vb? f
    let r ← rnd? f.rnd
    some (k t d a b r f.mask)

def rowVsqrt : Row := fun _ f =>
  onlyIf (f.zeros [.fn, .b, .c, .ce, .am, .scope, .flags, .imm]) do
    let t ← floatTy? f.ty
    let d ← vreg? f.d
    let a ← vreg? f.a
    let r ← rnd? f.rnd
    some (.vsqrt t d a r f.mask)

def rowVmin (k : Ty → VReg → VReg → VB → Ms → Instr) : Row := fun _ f =>
  onlyIf (f.zeros [.fn, .am, .rnd, .scope]) do
    let t ← ty? f.ty
    let d ← vreg? f.d
    let a ← vreg? f.a
    let b ← vb? f
    some (k t d a b f.mask)

def rowVabs (k : Ty → VReg → VReg → Ms → Instr) : Row := fun _ f =>
  onlyIf (f.zeros [.fn, .b, .c, .ce, .am, .rnd, .scope, .flags, .imm]) do
    let t ← ty? f.ty
    let d ← vreg? f.d
    let a ← vreg? f.a
    some (k t d a f.mask)

def rowVint (k : IntTy → VReg → VReg → VB → Ms → Instr) : Row := fun _ f =>
  onlyIf (f.zeros [.fn, .am, .rnd, .scope]) do
    let t ← intTy? f.ty
    let d ← vreg? f.d
    let a ← vreg? f.a
    let b ← vb? f
    some (k t d a b f.mask)

def vcmp? (fn : BitVec 8) (ty : BitVec 4) : Option VCmp :=
  match intTy? ty with
  | some t => (icond? fn).map fun c => .int c t
  | none => do
    let t ← floatTy? ty
    let c ← fcond? fn
    some (.flt c t)

def VCmp.code : VCmp → BitVec 8 × BitVec 4
  | .int c t => (c.code, t.code)
  | .flt c t => (c.code, t.code)

def rowVcmp : Row := fun _ f =>
  onlyIf (f.zeros [.am, .rnd, .scope]) do
    let c ← vcmp? f.fn f.ty
    let d ← low3? f.d
    let a ← vreg? f.a
    let b ← vb? f
    some (.vcmp c d a b f.mask)

def rowVsel : Row := fun _ f =>
  onlyIf (f.zeros [.fn, .am, .rnd, .scope]) do
    let t ← intTy? f.ty
    let d ← vreg? f.d
    let a ← vreg? f.a
    let b ← vbReg? f
    let s ← low? 4 f.imm
    some (.vsel t d a b (s.extractLsb' 0 3) (s.getLsbD 3) f.mask)

def rowVbcast : Row := fun _ f =>
  onlyIf (f.zeros [.b, .c, .ce, .am, .rnd, .scope, .flags]) do
    let t ← ty? f.ty
    let d ← vreg? f.d
    match f.fn.toNat with
    | 0 => onlyIf (f.imm == 0) (some (.vbcast t d (.g f.a) f.mask))
    | 1 => onlyIf (f.imm == 0) ((low3? f.a).map fun q => .vbcast t d (.q q) f.mask)
    | 2 => do
      let a ← vreg? f.a
      let i ← low? 4 f.imm
      some (.vbcast t d (.lane a i) f.mask)
    | _ => none

/-- Where the D field of a vector instruction leads: v, g or q. -/
def vdest? (kind : Nat) (d : BitVec 7) : Option VDest :=
  match kind with
  | 0 => (vreg? d).map .v
  | 1 => some (.g d)
  | 2 => (low3? d).map .q
  | _ => none

def VDest.field : VDest → BitVec 7
  | .v d => d.setWidth 7
  | .g d => d
  | .q d => d.setWidth 7

def VDest.kind : VDest → Nat
  | .v _ => 0
  | .g _ => 1
  | .q _ => 2

def rowVextr : Row := fun _ f =>
  onlyIf (f.zeros [.b, .c, .ce, .am, .rnd, .scope, .flags]) do
    let t ← ty? f.ty
    let d ← vdest? (f.fn.toNat + 1) f.d
    let a ← vreg? f.a
    let i ← low? 4 f.imm
    some (.vextr t d a i f.mask)

def rowVins : Row := fun _ f =>
  onlyIf (f.zeros [.fn, .b, .c, .ce, .am, .rnd, .scope, .flags]) do
    let t ← ty? f.ty
    let d ← vreg? f.d
    let i ← low? 4 f.imm
    some (.vins t d f.a i f.mask)

def rowVfirst : Row := fun _ f =>
  onlyIf (f.zeros [.b, .c, .ce, .am, .rnd, .scope, .flags, .imm] && decide (f.fn.toNat < 2)) do
    let t ← ty? f.ty
    let d ← vdest? f.fn.toNat f.d
    let a ← vreg? f.a
    some (.vfirst t d a f.mask)

def rowViota : Row := fun _ f =>
  onlyIf (f.zeros [.fn, .a, .b, .c, .ce, .am, .rnd, .scope, .flags, .imm]) do
    let t ← intTy? f.ty
    let d ← vreg? f.d
    some (.viota t d f.mask)

def rowVslide : Row := fun _ f =>
  onlyIf (f.zeros [.c, .ce, .am, .rnd, .scope, .flags]) do
    let u ← fnBit? f.fn
    let t ← ty? f.ty
    let d ← vreg? f.d
    let a ← vreg? f.a
    let b ← vreg? f.b
    let m ← low? 5 f.imm
    some (.vslide t u d a b m f.mask)

def rowVreds : Row := fun _ f =>
  onlyIf (f.zeros [.am, .scope]) do
    let t ← ty? f.ty
    let d ← vdest? f.fn.toNat f.d
    let a ← vreg? f.a
    let b ← vb? f
    let r ← rnd? f.rnd
    some (.vreds t d a b r f.mask)

def rowVredm : Row := fun _ f =>
  onlyIf (f.zeros [.am, .rnd, .scope]) do
    let t ← ty? f.ty
    let d ← vdest? (f.fn.toNat / 2) f.d
    let a ← vreg? f.a
    let b ← vb? f
    some (.vredm t (f.fn.getLsbD 0) d a b f.mask)

def side? (c : BitVec 4) (n : BitVec 5) : Option CvtSide :=
  if c = 13 then some (.narrow n) else (ty? c).map .wide

def CvtSide.code : CvtSide → BitVec 4
  | .wide t => t.code
  | .narrow _ => 13

/-- The narrow-format field that a pair of sides uses, zero when neither is narrow (R92). -/
def cvtNarrow : CvtSide → CvtSide → BitVec 5
  | .narrow f, _ => f
  | .wide _, .narrow f => f
  | .wide _, .wide _ => 0

def rowVcvt : Row := fun _ f =>
  onlyIf (f.zeros [.fn, .b, .c, .ce, .am, .scope, .flags] && f.imm.extractLsb' 16 16 == 0 &&
      f.imm.extractLsb' 9 4 == 0) do
    let x ← side? f.ty (f.imm.extractLsb' 0 5)
    let y ← side? (f.imm.extractLsb' 5 4) (f.imm.extractLsb' 0 5)
    let d ← vreg? f.d
    let a ← vreg? f.a
    let r ← rnd? f.rnd
    onlyIf (cvtNarrow x y == f.imm.extractLsb' 0 5) (some (.vcvt x y (f.imm.extractLsb' 13 3) d a r f.mask))

def rowVsplit3 : Row := fun _ f =>
  onlyIf (f.zeros [.fn, .b, .c, .ce, .am, .rnd, .scope, .flags] && f.ty == 0xB) do
    let d ← vreg? f.d
    let a ← vreg? f.a
    let h ← bit? f.imm
    some (.vsplit3 d a h f.mask)

def rowVld (k : VSize → Bool → Am → VReg → GReg → BReg → Word32 → Ms → Instr) : Row := fun _ f =>
  onlyIf (f.zeros [.fn, .rnd, .scope] && !f.flags.getLsbD 1) do
    let z ← vsize? f.ty
    let m ← am? f.am
    let d ← vreg? f.d
    let b ← breg? f
    some (k z (f.flags.getLsbD 0) m d f.a b f.imm f.mask)

def rowVlds : Row := fun _ f =>
  onlyIf (f.zeros [.fn, .c, .ce, .rnd, .scope, .flags]) do
    let z ← vsize? f.ty
    let m ← am? f.am
    let d ← vreg? f.d
    some (.vlds z m d f.a f.b f.imm f.mask)

def rowVgath (k : VSize → Am → VReg → GReg → VReg → BitVec 2 → Word32 → Ms → Instr) : Row := fun _ f =>
  onlyIf (f.zeros [.fn, .c, .ce, .rnd, .scope]) do
    let z ← vsize? f.ty
    let m ← am? f.am
    let d ← vreg? f.d
    let b ← vreg? f.b
    some (k z m d f.a b f.flags f.imm f.mask)

def rowKlog : Row := fun _ f =>
  onlyIf (f.zeros [.c, .ce, .ms, .ty, .am, .rnd, .scope, .flags, .imm]) do
    let o ← logOp? f.fn
    let d ← low3? f.d
    let a ← low3? f.a
    let b ← low3? f.b
    some (.klog o d a b)

def rowKcount (k : GReg → KReg → Instr) : Row := fun _ f =>
  onlyIf (f.zeros [.fn, .b, .c, .ce, .ms, .ty, .am, .rnd, .scope, .flags, .imm]) do
    let a ← low3? f.a
    some (k f.d a)

def rowKmov : Row := fun _ f =>
  onlyIf (f.zeros [.b, .c, .ce, .ms, .ty, .am, .rnd, .scope, .flags])
    (match f.fn.toNat with
     | 0 => onlyIf (f.imm == 0) do
       let d ← low3? f.d
       let a ← low3? f.a
       some (.kmov (.kk d a))
     | 1 => onlyIf (f.imm == 0) ((low3? f.d).map fun d => .kmov (.kg d f.a))
     | 2 => onlyIf (f.imm == 0) ((low3? f.a).map fun a => .kmov (.gk f.d a))
     | 3 => onlyIf (f.a == 0) do
       let d ← low3? f.d
       let i ← low? 16 f.imm
       some (.kmov (.ki d i))
     | _ => none)

def KTest.code : KTest → BitVec 8
  | .any => 0 | .none => 1 | .all => 2

def ktest? (c : BitVec 8) : Option KTest :=
  match c.toNat with
  | 0 => some .any | 1 => some .none | 2 => some .all
  | _ => none

def rowKtest : Row := fun _ f =>
  onlyIf (f.zeros [.c, .ce, .ms, .ty, .am, .rnd, .scope, .flags, .imm]) do
    let t ← ktest? f.fn
    let d ← low3? f.d
    let a ← low3? f.a
    let b ← low3? f.b
    some (.ktest t d a b)

def rowRep : Row := fun _ f =>
  onlyIf (f.zeros [.fn, .d, .b, .c, .ce, .ms, .ty, .am, .rnd, .scope, .flags] && f.imm.extractLsb' 20 12 == 0)
    (some (.rep f.a (f.imm.extractLsb' 0 4) (f.imm.extractLsb' 4 5) (f.imm.extractLsb' 9 6) (f.imm.extractLsb' 15 5)))

def rowQcnt : Row := fun vec f =>
  onlyIf (f.zeros [.fn, .b, .c, .ce, .ty, .am, .rnd, .scope, .flags, .imm]) do
    let q ← low3? f.a
    some (.qcnt vec f.d q f.mask)

def rowQdrain : Row := fun vec f =>
  onlyIf (f.zeros [.b, .c, .ce, .ty, .am, .rnd, .scope, .flags, .imm])
    (match f.fn.toNat with
     | 0 => onlyIf (f.d == 0) ((low3? f.a).map fun q => .qdrain vec (.drain q) f.mask)
     | 1 => (low3? f.a).map fun q => .qdrain vec (.get f.d q) f.mask
     | 2 => (low3? f.d).map fun q => .qdrain vec (.put q f.a) f.mask
     | _ => none)

def rowArm (k : GReg → GReg → BOp → Ms → Instr) : Row := fun _ f =>
  onlyIf (f.zeros [.fn, .ty, .am, .rnd, .scope]) do
    let b ← bop? f
    some (k f.d f.a b f.mask)

def rowSpawn : Row := fun _ f =>
  onlyIf (f.zeros [.fn, .d, .b, .c, .ce, .ty, .am, .rnd, .scope, .flags, .imm]) (some (.spawn f.a f.mask))

def rowTspawn : Row := fun _ f =>
  onlyIf (f.zeros [.fn, .b, .c, .ce, .ty, .am, .rnd, .scope, .flags]) do
    let d ← low3? f.d
    let q ← low? 4 f.imm
    some (.tspawn d f.a q f.mask)

def WCond.code : WCond → BitVec 32
  | .eq => 0 | .ne => 1 | .gen => 2

def wcond? (c : BitVec 32) : Option WCond :=
  match c.toNat with
  | 0 => some .eq | 1 => some .ne | 2 => some .gen
  | _ => none

def rowWait : Row := fun _ f =>
  onlyIf (f.zeros [.ty, .am, .rnd, .scope, .flags])
    (match f.fn.toNat with
     | 0 => do
       let c ← wcond? f.imm
       let b ← breg? f
       some (.waita c f.d f.a b f.mask)
     | 1 => onlyIf (f.zeros [.d, .a, .b, .c, .ce, .imm]) (some (.yield f.mask))
     | 2 => onlyIf (f.zeros [.d, .a, .b, .c, .ce, .imm]) (some (.susp f.mask))
     | _ => none)

def rowBarrier : Row := fun _ f =>
  onlyIf (f.zeros [.ty, .am, .rnd, .scope, .flags, .imm])
    (match f.fn.toNat with
     | 0 => (breg? f).map fun b => .arrive f.d f.a b f.mask
     | 1 => onlyIf (f.zeros [.c, .ce]) (some (.await f.d f.a f.b f.mask))
     | 2 => onlyIf (f.zeros [.d, .c, .ce]) (some (.drop f.a f.b f.mask))
     | _ => none)

def rowSsync : Row := fun _ f =>
  onlyIf (f.zeros [.fn, .c, .ce, .ty, .am, .rnd, .scope, .flags] && f.imm.extractLsb' 8 24 == 0 &&
      f.imm.extractLsb' 1 3 == 0)
    (some (.ssync f.d f.a f.b (f.imm.getLsbD 0) (f.imm.extractLsb' 4 4) f.mask))

/-- Only D is used. -/
def rowDest (k : GReg → Ms → Instr) : Row := fun _ f =>
  onlyIf (f.zeros [.fn, .a, .b, .c, .ce, .ty, .am, .rnd, .scope, .flags, .imm]) (some (k f.d f.mask))

def rowGang : Row := fun _ f =>
  onlyIf (f.zeros [.d, .a, .b, .c, .ce, .ty, .am, .rnd, .scope, .flags])
    (match f.fn.toNat with
     | 0 => (low? 2 f.imm).map fun s => .fuse s f.mask
     | 1 => onlyIf (f.imm == 0) (some (.split f.mask))
     | _ => none)

def rowTq : Row := fun _ f =>
  onlyIf (f.zeros [.c, .ce, .ty, .am, .rnd, .scope, .flags, .imm])
    (match f.fn.toNat with
     | 0 => onlyIf (f.d == 0) (some (.tqpush f.a f.b f.mask))
     | 1 => onlyIf (f.b == 0) (some (.tqpop f.d f.a f.mask))
     | _ => none)

def rowWalker : Row := fun _ f =>
  onlyIf (f.zeros [.b, .c, .ce, .ty, .am, .rnd, .scope, .flags])
    (match f.fn.toNat with
     | 0 => onlyIf (f.d == 0 && f.imm.extractLsb' 11 21 == 0)
         (some (.gwload f.a (f.imm.extractLsb' 0 5) (f.imm.extractLsb' 5 6) f.mask))
     | 1 => onlyIf (f.zeros [.d, .a]) ((low? 5 f.imm).map fun n => .gwrun n f.mask)
     | 2 => onlyIf (f.zeros [.a, .imm]) (some (.gwstat f.d f.mask))
     | _ => none)

def rowCond : Row := fun _ f =>
  onlyIf (f.zeros [.fn, .d, .ty, .am, .rnd, .scope]) do
    let b ← bop? f
    some (.cond f.a b f.mask)

/-- A group or pointer in A and a completion value b. -/
def rowCopy (k : GReg → BReg → Ms → Instr) : Row := fun _ f =>
  onlyIf (f.zeros [.fn, .d, .ty, .am, .rnd, .scope, .flags, .imm]) do
    let b ← breg? f
    some (k f.a b f.mask)

def rowPfl : Row := fun _ f =>
  onlyIf (f.zeros [.fn, .d, .b, .c, .ce, .ty, .am, .rnd, .scope, .flags]) do
    let n ← low? 7 f.imm
    some (.pfl f.a n f.mask)

def rowLdacq (k : Size → Am → Scope → GReg → GReg → BReg → Word32 → Ms → Instr) : Row := fun _ f =>
  onlyIf (f.zeros [.fn, .rnd, .flags]) do
    let z ← size? f.ty
    let m ← am? f.am
    let s ← scope? f.scope
    let b ← breg? f
    some (k z m s f.d f.a b f.imm f.mask)

def rowFence : Row := fun _ f =>
  onlyIf (f.zeros [.fn, .d, .a, .b, .c, .ce, .ty, .am, .rnd, .flags, .imm]) do
    let s ← scope? f.scope
    some (.fence s f.mask)

def rowAtomic : Row := fun _ f => do
  let m ← am? f.am
  let s ← scope? f.scope
  let b ← breg? f
  let o := f.ord s
  if f.fn = 7 then onlyIf (f.imm == 0) do
    let z ← dbl? f.ty
    let r ← rnd? f.rnd
    some (.afadd z m o r f.d f.a b f.mask)
  else onlyIf (f.rnd == 0) do
    let z ← asize? f.ty
    match f.fn.toNat with
    | 0 => onlyIf (f.imm == 0) (some (.aadd z m o f.d f.a b f.mask))
    | 1 => (bit? f.imm).map fun u => .amin u z m o f.d f.a b f.mask
    | 2 => (bit? f.imm).map fun u => .amax u z m o f.d f.a b f.mask
    | 3 => onlyIf (f.imm == 0) (some (.aand z m o f.d f.a b f.mask))
    | 4 => onlyIf (f.imm == 0) (some (.aor z m o f.d f.a b f.mask))
    | 5 => onlyIf (f.imm == 0) (some (.axor z m o f.d f.a b f.mask))
    | 6 => onlyIf (f.imm == 0) (some (.aswp z m o f.d f.a b f.mask))
    | _ => none

def rowAcas : Row := fun _ f =>
  onlyIf (f.zeros [.fn, .rnd, .imm]) do
    let z ← asize? f.ty
    let m ← am? f.am
    let s ← scope? f.scope
    let b ← breg? f
    some (.acas z m (f.ord s) f.d f.a b f.mask)

def rowRed : Row := fun _ f =>
  onlyIf (f.d == 0 && !f.flags.getLsbD 0) do
    let u ← bit? f.imm
    let r ← rnd? f.rnd
    let o ← redOp? f.fn u r
    let z ← dbl? f.ty
    let m ← am? f.am
    let s ← scope? f.scope
    let b ← breg? f
    some (.red o z m (f.flags.getLsbD 1) s f.a b f.mask)

def rowPgq : Row := fun _ f =>
  onlyIf (f.zeros [.ty, .rnd, .scope, .flags]) do
    let q ← fnBit? f.fn
    let m ← am? f.am
    let b ← breg? f
    some (.pgq q m f.d f.a b f.imm f.mask)

def rowRred : Row := fun _ f =>
  onlyIf (f.zeros [.d, .scope, .flags]) do
    let u ← bit? f.imm
    let r ← rnd? f.rnd
    let o ← redOp? f.fn u r
    let z ← dbl? f.ty
    let m ← am? f.am
    let b ← breg? f
    some (.rred o z m f.a b f.mask)

def rowRflush : Row := fun _ f =>
  onlyIf (f.zeros [.d, .b, .c, .ce, .ty, .rnd, .scope, .imm] && !f.flags.getLsbD 1) do
    let o ← fnBit? f.fn
    let m ← am? f.am
    some (.rflush o (f.flags.getLsbD 0) m f.a f.mask)

def rowRstat : Row := fun _ f =>
  onlyIf (f.zeros [.a, .b, .c, .ce, .ty, .am, .rnd, .scope, .flags])
    (match f.fn.toNat with
     | 0 => (low? 3 f.imm).map fun n => .rstat (.entry f.d n) f.mask
     | 1 => onlyIf (f.imm == 0) (some (.rstat (.count f.d) f.mask))
     | 2 => onlyIf (f.zeros [.d, .imm]) (some (.rstat .clear f.mask))
     | _ => none)

def rowFcas : Row := fun _ f =>
  onlyIf (f.zeros [.fn, .c, .ce, .ty, .am, .rnd] && f.imm.extractLsb' 7 25 == 0 && f.imm.extractLsb' 2 2 == 0) do
    let s ← scope? f.scope
    some (.fcas (f.ord s) f.d f.a f.b (f.imm.extractLsb' 0 2) (f.imm.extractLsb' 4 3) f.mask)

def rowFenq : Row := fun _ f =>
  onlyIf (f.zeros [.fn, .c, .ce, .ty, .am, .rnd, .imm]) do
    let s ← scope? f.scope
    some (.fenq (f.ord s) f.d f.a f.b f.mask)

def rowFchase : Row := fun _ f =>
  onlyIf (f.zeros [.fn, .b, .c, .ce, .ty, .am, .rnd] && f.imm.extractLsb' 21 11 == 0 && !f.flags.getLsbD 1) do
    let s ← scope? f.scope
    some (.fchase (f.flags.getLsbD 0) s f.d f.a (f.imm.extractLsb' 16 5) (f.imm.extractLsb' 0 16) f.mask)

def rowTsrd : Row := fun _ f =>
  onlyIf (f.zeros [.a, .ty, .am, .rnd, .scope, .flags]) do
    let w ← fnBit? f.fn
    let b ← breg? f
    let s ← low? 6 f.imm
    some (.tsrd w f.d b s f.mask)

def rowTsscale : Row := fun _ f =>
  onlyIf (f.zeros [.fn, .a, .ty, .am, .rnd, .scope, .flags]) do
    let b ← breg? f
    let t ← low? 5 f.imm
    some (.tsscale f.d b t f.mask)

def rowQnt : Row := fun _ f =>
  onlyIf (f.zeros [.fn, .am, .scope, .flags] && f.imm.extractLsb' 8 24 == 0) do
    let t ← qty? f.ty
    let b ← breg? f
    let r ← rnd? f.rnd
    some (.qnt t f.d f.a b r (f.imm.extractLsb' 0 5) (f.imm.getLsbD 5) (f.imm.extractLsb' 6 2) f.mask)

def rowQntl : Row := fun _ f =>
  onlyIf (f.zeros [.fn, .b, .c, .ce, .am, .scope, .flags] && f.imm.extractLsb' 10 22 == 0 && !f.imm.getLsbD 5) do
    let t ← qty? f.ty
    let r ← rnd? f.rnd
    some (.qntl t f.d f.a r (f.imm.extractLsb' 0 5) (f.imm.extractLsb' 6 2) (f.imm.extractLsb' 8 2) f.mask)

def rowDqnt : Row := fun _ f =>
  onlyIf (f.zeros [.d, .am, .scope, .flags] && f.imm.extractLsb' 11 21 == 0 && !f.imm.getLsbD 5) do
    let k ← fnBit? f.fn
    let t ← qty? f.ty
    let b ← breg? f
    let r ← rnd? f.rnd
    some (.dqnt t k f.a b r (f.imm.extractLsb' 0 5) (f.imm.extractLsb' 6 2) (f.imm.extractLsb' 8 2) (f.imm.getLsbD 10)
      f.mask)

def rowKcoll : Row := fun _ f =>
  onlyIf (f.zeros [.fn, .d, .ty, .am, .rnd, .scope, .flags]) do
    let b ← breg? f
    let n ← low? 7 f.imm
    some (.kcoll f.a b n f.mask)

def rowFed : Row := fun _ f =>
  onlyIf (f.zeros [.d, .ty, .am, .rnd, .scope, .flags, .imm])
    (match f.fn.toNat with
     | 0 => (breg? f).map fun b => .fedj f.a b f.mask
     | 1 => onlyIf (f.zeros [.a, .b, .c, .ce]) (some (.fedl f.mask))
     | _ => none)

def rowGq : Row := fun _ f =>
  onlyIf (f.zeros [.ty, .am, .rnd, .scope, .flags])
    (match f.fn.toNat with
     | 0 => onlyIf (f.zeros [.d, .b, .c, .ce, .imm]) (some (.gqpush f.a f.mask))
     | 1 => onlyIf (f.zeros [.b, .c, .ce, .imm]) (some (.gqpop f.d f.a f.mask))
     | 2 => do
       let r ← bit? f.imm
       let b ← breg? f
       some (.gqwin r f.d f.a b f.mask)
     | _ => none)

def rowGprio : Row := fun _ f =>
  onlyIf (f.zeros [.fn, .d, .b, .c, .ce, .ty, .am, .rnd, .scope, .flags]) do
    let l ← low? 4 f.imm
    some (.gprio f.a l f.mask)

def rowOstep : Row := fun _ f =>
  onlyIf (f.zeros [.fn, .a, .ty, .am, .rnd, .scope, .flags, .imm]) do
    let b ← breg? f
    some (.ostep f.d b f.mask)

def rowTrap : Row := fun _ f =>
  onlyIf (f.zeros [.fn, .d, .a, .b, .c, .ce, .ty, .am, .rnd, .scope, .flags]) do
    let n ← low? 16 f.imm
    some (.trap n f.mask)

def rowFmsg : Row := fun _ f =>
  onlyIf (f.zeros [.fn, .a, .b, .c, .ce, .ty, .am, .rnd, .scope, .flags]) do
    let n ← bit? f.imm
    some (.fmsg n f.d f.mask)

def rowSrd : Row := fun _ f =>
  onlyIf (f.zeros [.fn, .a, .b, .c, .ce, .ty, .am, .rnd, .scope, .flags]) do
    let n ← low? 12 f.imm
    some (.srd f.d n f.mask)

def rowSwr : Row := fun _ f =>
  onlyIf (f.zeros [.fn, .d, .b, .c, .ce, .ty, .am, .rnd, .scope, .flags]) do
    let n ← low? 12 f.imm
    some (.swr f.a n f.mask)

def rowTlbi : Row := fun _ f =>
  onlyIf (f.zeros [.fn, .d, .ty, .am, .rnd, .scope, .flags]) do
    let b ← breg? f
    let n ← low? 4 f.imm
    some (.tlbi (n.getLsbD 3) (n.extractLsb' 0 3) f.a b f.mask)

def rowIdent : Row := fun _ f =>
  onlyIf (f.zeros [.fn, .a, .b, .c, .ce, .ty, .am, .rnd, .scope, .flags]) do
    let n ← low? 4 f.imm
    some (.ident f.d n f.mask)

/-- R33, rows 0_ to 2_. -/
def rowsScalar : List (BitVec 8 × Row) :=
  [(0x01, rowBin .add), (0x02, rowBin .sub), (0x03, rowBin .mul), (0x04, rowSigned .mulh), (0x05, rowUnsigned .mulhn),
   (0x06, rowSigned .div), (0x07, rowUnsigned .divn), (0x08, rowSigned .remS), (0x09, rowUnsigned .remn),
   (0x0A, rowBin .andI), (0x0B, rowBin .orI), (0x0C, rowBin .xorI), (0x0D, rowBin .andn), (0x0E, rowBin .orn),
   (0x10, rowBin .shl), (0x11, rowBin .shr), (0x12, rowBin .sar), (0x13, rowBin .rol), (0x14, rowBits .clz),
   (0x15, rowBits .ctz), (0x16, rowBits .popc), (0x17, rowBits .brev), (0x18, rowSigned .minS), (0x19, rowSigned .maxS),
   (0x1A, rowUnsigned .minn), (0x1B, rowUnsigned .maxn), (0x1C, rowExt .sext), (0x1D, rowExt .zext),
   (0x1E, rowField .bfx), (0x1F, rowField .bfxn), (0x20, rowField .bfi), (0x21, rowCmp), (0x22, rowSel),
   (0x23, rowPlog), (0x24, rowMov), (0x25, rowLi), (0x26, rowLcw), (0x27, rowLea), (0x28, rowMkptr), (0x29, rowPtrx)]

/-- R33, rows 4_ to 6_. -/
def rowsControl : List (BitVec 8 × Row) :=
  [(0x40, rowBr), (0x41, rowJmp), (0x42, rowJmpi .jmpi), (0x43, rowCall .call), (0x44, rowCalli), (0x45, rowJmpi .ret),
   (0x46, rowCall .loop), (0x47, rowBsig), (0x48, rowBare .endC), (0x49, rowBare .nop), (0x4A, rowGrow), (0x4B, rowShrink),
   (0x50, rowFlt .fadd), (0x51, rowFlt .fsub), (0x52, rowFlt .fmul), (0x53, rowFlt .ffma), (0x54, rowFlt .fdiv),
   (0x55, rowFsqrt), (0x56, rowFmin .fmin), (0x57, rowFmin .fmax), (0x58, rowFcmp), (0x59, rowFcvt), (0x5A, rowFclass),
   (0x5B, rowFsgn), (0x60, rowLd .ld), (0x61, rowLd .st), (0x62, rowLdl .ldl), (0x63, rowLdl .stl), (0x64, rowPref)]

/-- R33, rows 8_ to B_. -/
def rowsVector : List (BitVec 8 × Row) :=
  [(0x80, rowVec .vadd), (0x81, rowVec .vsub), (0x82, rowVec .vmul), (0x83, rowVec .vfma), (0x84, rowVec .vdiv),
   (0x85, rowVsqrt), (0x86, rowVmin .vmin), (0x87, rowVmin .vmax), (0x88, rowVabs .vabs), (0x89, rowVabs .vneg),
   (0x8A, rowVint .vand), (0x8B, rowVint .vor), (0x8C, rowVint .vxor), (0x8D, rowVint .vshl), (0x8E, rowVint .vshr),
   (0x8F, rowVint .vsar), (0x90, rowVcmp), (0x91, rowVsel), (0x92, rowVbcast), (0x93, rowVextr), (0x94, rowVins),
   (0x95, rowVfirst), (0x96, rowViota), (0x97, rowVmin .vperm), (0x98, rowVslide), (0x99, rowVreds), (0x9A, rowVredm),
   (0x9B, rowVec .vdot2), (0x9C, rowVcvt), (0x9D, rowVsplit3), (0xA0, rowVld .vld), (0xA1, rowVld .vst), (0xA2, rowVlds),
   (0xA3, rowVgath .vgath), (0xA4, rowVgath .vscat), (0xB0, rowKlog), (0xB1, rowKcount .kpopc), (0xB2, rowKcount .kfirst),
   (0xB3, rowKmov), (0xB4, rowKtest), (0xB8, rowRep), (0xB9, rowQcnt), (0xBA, rowQdrain)]

/-- R33, rows C_ and D_. -/
def rowsTask : List (BitVec 8 × Row) :=
  [(0xC0, rowArm .arm), (0xC1, rowArm .dec), (0xC2, rowArm .inc), (0xC3, rowSpawn), (0xC4, rowTspawn), (0xC5, rowWait),
   (0xC6, rowBarrier), (0xC7, rowSsync), (0xC8, rowDest .ssnum), (0xC9, rowGang), (0xCA, rowTq), (0xCB, rowWalker),
   (0xCC, rowCond), (0xCD, rowCopy .cpy), (0xCE, rowPfl), (0xD0, rowLdacq .ldacq), (0xD1, rowLdacq .strel),
   (0xD2, rowFence), (0xD3, rowAtomic), (0xD4, rowAcas), (0xD5, rowRed), (0xD6, rowPgq), (0xD7, rowRred),
   (0xD8, rowRflush), (0xD9, rowRstat), (0xDA, rowFcas), (0xDB, rowFenq), (0xDC, rowFchase)]

/-- R33, rows E_ and F_. -/
def rowsSystem : List (BitVec 8 × Row) :=
  [(0xE0, rowTsrd), (0xE1, rowCopy .tsclr), (0xE2, rowTsscale), (0xE3, rowQnt), (0xE4, rowQntl), (0xE5, rowDqnt),
   (0xE8, rowCopy .kput), (0xE9, rowCopy .kget), (0xEA, rowKcoll), (0xEB, rowFed), (0xEC, rowGq), (0xED, rowGprio),
   (0xEE, rowOstep), (0xF0, rowTrap), (0xF1, rowBare .brk), (0xF2, rowFmsg), (0xF3, rowCopy .freply), (0xF4, rowSrd),
   (0xF5, rowSwr), (0xF6, rowTlbi), (0xF7, rowIdent), (0xF8, rowBare .halt)]

/-- The major opcode map (R33): an opcode that no row lists faults ILLOP (R35). -/
def opcodeRows : List (BitVec 8 × Row) := rowsScalar ++ rowsControl ++ rowsVector ++ rowsTask ++ rowsSystem

/-- R8: a slot of the vector stream holds an opcode in 0x80-0xBF, and QCNT and QDRAIN stand in either stream. -/
def streamOk (vec : Bool) (opc : BitVec 8) : Bool :=
  opc == 0xB9 || opc == 0xBA || (vec == (0x80 ≤ opc.toNat && opc.toNat < 0xC0))

def ofFields (vec : Bool) (f : Fields) : Except Reject Instr :=
  if streamOk vec f.opc then
    match opcodeRows.lookup f.opc with
    | none => .error .opcode
    | some r =>
      match r vec f with
      | none => .error .field
      | some i => if i.wf then .ok i else .error .value
  else .error .stream

/-- The decoder of a slot; `vec` says whether its template is 10 (R8). -/
def decode (vec : Bool) (w : Slot) : Except Reject Instr := ofFields vec (Fields.unpack w)

/-! ### The encoder -/

def encBin (opc : BitVec 8) (ty : BitVec 4) (d a : GReg) (b : BOp) (ms : Ms) : Fields :=
  b.put { Fields.base opc 0 with ty := ty, d := d, a := a, ms := ms.code }

def encUn (opc fn : BitVec 8) (ty : BitVec 4) (d a : GReg) (imm : Word32) (ms : Ms) : Fields :=
  { Fields.base opc fn with ty := ty, d := d, a := a, imm := imm, ms := ms.code }

def encFlt (opc fn : BitVec 8) (ty : BitVec 4) (d a : GReg) (b : BReg) (rnd : BitVec 3) (ms : Ms) : Fields :=
  b.put { Fields.base opc fn with ty := ty, d := d, a := a, rnd := rnd, ms := ms.code }

def encMem (opc fn : BitVec 8) (ty : BitVec 4) (am : Am) (d a : GReg) (b : BReg) (scope : BitVec 3) (off : Word32) (ms : Ms) :
    Fields :=
  b.put { Fields.base opc fn with ty := ty, am := am.code, d := d, a := a, scope := scope, imm := off, ms := ms.code }

def encVec (opc fn : BitVec 8) (ty : BitVec 4) (d a : BitVec 7) (b : VB) (rnd : BitVec 3) (ms : Ms) : Fields :=
  b.put { Fields.base opc fn with ty := ty, d := d, a := a, rnd := rnd, ms := ms.code }

def encAtomic (opc fn : BitVec 8) (ty : BitVec 4) (am : Am) (o : Ord) (rnd : BitVec 3) (d a : GReg) (b : BReg) (imm : Word32)
    (ms : Ms) : Fields :=
  b.put { Fields.base opc fn with ty := ty, am := am.code, scope := o.scope.code, flags := o.flagBits, rnd := rnd, d := d,
                                  a := a, imm := imm, ms := ms.code }

def fieldImm (pos : BitVec 6) (len : BitVec 7) : Word32 := 0#17 ++ len ++ 0#2 ++ pos
def granImm (g : BitVec 5) (v : BitVec 3) : Word32 := 0#21 ++ v ++ 0#3 ++ g
def selImm (p : BitVec 3) (inv : Bool) : Word32 := 0#28 ++ BitVec.ofBool inv ++ p

def MovForm.fields : MovForm → Fields
  | .gFromG d a => { Fields.base 0x24 0 with d := d, a := a }
  | .gFromImm d i => { Fields.base 0x24 0 with d := d, flags := 1, imm := i }
  | .gFromP d a => { Fields.base 0x24 1 with d := d, a := a.setWidth 7 }
  | .pFromG d a => { Fields.base 0x24 2 with d := d.setWidth 7, a := a }

def FcvtForm.fields (d a : GReg) : FcvtForm → Fields
  | .conv t u r => { Fields.base 0x59 0 with d := d, a := a, ty := t.code, rnd := r.code, imm := u.code.setWidth 32 }
  | .split p => { Fields.base 0x59 p.code with d := d, a := a, ty := 0xB, imm := 9 }

def BcastForm.fields : BcastForm → Fields
  | .g a => { Fields.base 0x92 0 with a := a }
  | .q a => { Fields.base 0x92 1 with a := a.setWidth 7 }
  | .lane a i => { Fields.base 0x92 2 with a := a.setWidth 7, imm := i.setWidth 32 }

def KmovForm.fields : KmovForm → Fields
  | .kk d a => { Fields.base 0xB3 0 with d := d.setWidth 7, a := a.setWidth 7 }
  | .kg d a => { Fields.base 0xB3 1 with d := d.setWidth 7, a := a }
  | .gk d a => { Fields.base 0xB3 2 with d := d, a := a.setWidth 7 }
  | .ki d i => { Fields.base 0xB3 3 with d := d.setWidth 7, imm := i.setWidth 32 }

def QdForm.fields : QdForm → Fields
  | .drain q => { Fields.base 0xBA 0 with a := q.setWidth 7 }
  | .get d q => { Fields.base 0xBA 1 with d := d, a := q.setWidth 7 }
  | .put q a => { Fields.base 0xBA 2 with d := q.setWidth 7, a := a }

def RstatForm.fields : RstatForm → Fields
  | .entry d n => { Fields.base 0xD9 0 with d := d, imm := n.setWidth 32 }
  | .count d => { Fields.base 0xD9 1 with d := d }
  | .clear => Fields.base 0xD9 2

/-- The stream and the fields of an instruction word; an event row has none. -/
def fieldsOf : Instr → Option (Bool × Fields)
  | .add ty d a b ms => some (false, encBin 0x01 ty.code d a b ms)
  | .sub ty d a b ms => some (false, encBin 0x02 ty.code d a b ms)
  | .mul ty d a b ms => some (false, encBin 0x03 ty.code d a b ms)
  | .mulh w d a b ms => some (false, encBin 0x04 w.signedCode d a b ms)
  | .mulhn w d a b ms => some (false, encBin 0x05 w.unsignedCode d a b ms)
  | .div w d a b ms => some (false, encBin 0x06 w.signedCode d a b ms)
  | .divn w d a b ms => some (false, encBin 0x07 w.unsignedCode d a b ms)
  | .remS w d a b ms => some (false, encBin 0x08 w.signedCode d a b ms)
  | .remn w d a b ms => some (false, encBin 0x09 w.unsignedCode d a b ms)
  | .andI ty d a b ms => some (false, encBin 0x0A ty.code d a b ms)
  | .orI ty d a b ms => some (false, encBin 0x0B ty.code d a b ms)
  | .xorI ty d a b ms => some (false, encBin 0x0C ty.code d a b ms)
  | .andn ty d a b ms => some (false, encBin 0x0D ty.code d a b ms)
  | .orn ty d a b ms => some (false, encBin 0x0E ty.code d a b ms)
  | .shl ty d a b ms => some (false, encBin 0x10 ty.code d a b ms)
  | .shr ty d a b ms => some (false, encBin 0x11 ty.code d a b ms)
  | .sar ty d a b ms => some (false, encBin 0x12 ty.code d a b ms)
  | .rol ty d a b ms => some (false, encBin 0x13 ty.code d a b ms)
  | .clz ty d a ms => some (false, encUn 0x14 0 ty.code d a 0 ms)
  | .ctz ty d a ms => some (false, encUn 0x15 0 ty.code d a 0 ms)
  | .popc ty d a ms => some (false, encUn 0x16 0 ty.code d a 0 ms)
  | .brev ty d a ms => some (false, encUn 0x17 0 ty.code d a 0 ms)
  | .minS w d a b ms => some (false, encBin 0x18 w.signedCode d a b ms)
  | .maxS w d a b ms => some (false, encBin 0x19 w.signedCode d a b ms)
  | .minn w d a b ms => some (false, encBin 0x1A w.unsignedCode d a b ms)
  | .maxn w d a b ms => some (false, encBin 0x1B w.unsignedCode d a b ms)
  | .sext d a n ms => some (false, encUn 0x1C 0 0 d a (n.setWidth 32) ms)
  | .zext d a n ms => some (false, encUn 0x1D 0 0 d a (n.setWidth 32) ms)
  | .bfx d a pos len ms => some (false, encUn 0x1E 0 0 d a (fieldImm pos len) ms)
  | .bfxn d a pos len ms => some (false, encUn 0x1F 0 0 d a (fieldImm pos len) ms)
  | .bfi d a pos len ms => some (false, encUn 0x20 0 0 d a (fieldImm pos len) ms)
  | .cmp c ty d a b ms => some (false, { encBin 0x21 ty.code (d.setWidth 7) a b ms with fn := c.code })
  | .sel d a b p inv ms => some (false, { encFlt 0x22 0 0 d a b 0 ms with imm := selImm p inv })
  | .plog op d a b ms => some (false, { Fields.base 0x23 op.code with
      d := d.setWidth 7, a := a.setWidth 7, b := b.setWidth 7, ms := ms.code })
  | .mov f ms => some (false, { f.fields with ms := ms.code })
  | .li d imm => some (false, Fields.putImm64 imm { Fields.base 0x25 0 with d := d })
  | .lcw d (.slot c) ms => some (false, { Fields.base 0x26 0 with d := d, c := c, ms := ms.code })
  | .lcw d (.reg a) ms => some (false, { Fields.base 0x26 1 with d := d, a := a, ms := ms.code })
  | .lea d a b sh off ms => some (false, { encFlt 0x27 0 0 d a b 0 ms with flags := sh, imm := off })
  | .mkptr d a (.imm f) sp ms => some (false, encUn 0x28 0 0 d a (0#16 ++ f ++ sp) ms)
  | .mkptr d a (.reg b) sp ms => some (false, { encUn 0x28 1 0 d a (sp.setWidth 32) ms with b := b })
  | .ptrx s d a ms => some (false, encUn 0x29 s.code 0 d a 0 ms)
  | .br off ms => some (false, encUn 0x40 0 0 0 0 off ms)
  | .jmp t => some (false, Fields.putImm64 t (Fields.base 0x41 0))
  | .jmpi a ms => some (false, encUn 0x42 0 0 0 a 0 ms)
  | .call d off ms => some (false, encUn 0x43 0 0 d 0 off ms)
  | .calli d a ms => some (false, encUn 0x44 0 0 d a 0 ms)
  | .ret a ms => some (false, encUn 0x45 0 0 0 a 0 ms)
  | .loop d off ms => some (false, encUn 0x46 0 0 d 0 off ms)
  | .bsig crc => some (false, { Fields.base 0x47 0 with imm := crc.setWidth 32 })
  | .endC ms => some (false, { Fields.base 0x48 0 with ms := ms.code })
  | .nop ms => some (false, { Fields.base 0x49 0 with ms := ms.code })
  | .grow d g v ms => some (false, encUn 0x4A 0 0 (d.setWidth 7) 0 (granImm g v) ms)
  | .shrink g v ms => some (false, encUn 0x4B 0 0 0 0 (granImm g v) ms)
  | .fadd ty d a b r ms => some (false, encFlt 0x50 0 ty.code d a b r.code ms)
  | .fsub ty d a b r ms => some (false, encFlt 0x51 0 ty.code d a b r.code ms)
  | .fmul ty d a b r ms => some (false, encFlt 0x52 0 ty.code d a b r.code ms)
  | .ffma ty d a b r ms => some (false, encFlt 0x53 0 ty.code d a b r.code ms)
  | .fdiv ty d a b r ms => some (false, encFlt 0x54 0 ty.code d a b r.code ms)
  | .fsqrt ty d a r ms => some (false, { encUn 0x55 0 ty.code d a 0 ms with rnd := r.code })
  | .fmin ty d a b ms => some (false, encFlt 0x56 0 ty.code d a b 0 ms)
  | .fmax ty d a b ms => some (false, encFlt 0x57 0 ty.code d a b 0 ms)
  | .fcmp c ty d a b ms => some (false, encFlt 0x58 c.code ty.code (d.setWidth 7) a b 0 ms)
  | .fcvt d a f ms => some (false, { f.fields d a with ms := ms.code })
  | .fclass ty d a ms => some (false, encUn 0x5A 0 ty.code d a 0 ms)
  | .fsgn op ty d a b ms => some (false, encFlt 0x5B op.code ty.code d a b 0 ms)
  | .ld sz am d a b off ms => some (false, encMem 0x60 0 sz.code am d a b 0 off ms)
  | .st sz am d a b off ms => some (false, encMem 0x61 0 sz.code am d a b 0 off ms)
  | .ldl am d a b off ms => some (false, encMem 0x62 0 15 am d a b 0 off ms)
  | .stl am d a b off ms => some (false, encMem 0x63 0 15 am d a b 0 off ms)
  | .pref wr am a b off ms => some (false, encMem 0x64 (fnBit wr) 0 am 0 a b 0 off ms)
  | .vadd ty d a b r ms => some (true, encVec 0x80 0 ty.code (d.setWidth 7) (a.setWidth 7) b r.code ms)
  | .vsub ty d a b r ms => some (true, encVec 0x81 0 ty.code (d.setWidth 7) (a.setWidth 7) b r.code ms)
  | .vmul ty d a b r ms => some (true, encVec 0x82 0 ty.code (d.setWidth 7) (a.setWidth 7) b r.code ms)
  | .vfma ty d a b r ms => some (true, encVec 0x83 0 ty.code (d.setWidth 7) (a.setWidth 7) b r.code ms)
  | .vdiv ty d a b r ms => some (true, encVec 0x84 0 ty.code (d.setWidth 7) (a.setWidth 7) b r.code ms)
  | .vsqrt ty d a r ms => some (true, { Fields.base 0x85 0 with
      ty := ty.code, d := d.setWidth 7, a := a.setWidth 7, rnd := r.code, ms := ms.code })
  | .vmin ty d a b ms => some (true, encVec 0x86 0 ty.code (d.setWidth 7) (a.setWidth 7) b 0 ms)
  | .vmax ty d a b ms => some (true, encVec 0x87 0 ty.code (d.setWidth 7) (a.setWidth 7) b 0 ms)
  | .vabs ty d a ms => some (true, encUn 0x88 0 ty.code (d.setWidth 7) (a.setWidth 7) 0 ms)
  | .vneg ty d a ms => some (true, encUn 0x89 0 ty.code (d.setWidth 7) (a.setWidth 7) 0 ms)
  | .vand ty d a b ms => some (true, encVec 0x8A 0 ty.code (d.setWidth 7) (a.setWidth 7) b 0 ms)
  | .vor ty d a b ms => some (true, encVec 0x8B 0 ty.code (d.setWidth 7) (a.setWidth 7) b 0 ms)
  | .vxor ty d a b ms => some (true, encVec 0x8C 0 ty.code (d.setWidth 7) (a.setWidth 7) b 0 ms)
  | .vshl ty d a b ms => some (true, encVec 0x8D 0 ty.code (d.setWidth 7) (a.setWidth 7) b 0 ms)
  | .vshr ty d a b ms => some (true, encVec 0x8E 0 ty.code (d.setWidth 7) (a.setWidth 7) b 0 ms)
  | .vsar ty d a b ms => some (true, encVec 0x8F 0 ty.code (d.setWidth 7) (a.setWidth 7) b 0 ms)
  | .vcmp c d a b ms => some (true, encVec 0x90 c.code.1 c.code.2 (d.setWidth 7) (a.setWidth 7) b 0 ms)
  | .vsel ty d a b sk inv ms => some (true, { encVec 0x91 0 ty.code (d.setWidth 7) (a.setWidth 7) b 0 ms with
      imm := selImm sk inv })
  | .vbcast ty d f ms => some (true, { f.fields with ty := ty.code, d := d.setWidth 7, ms := ms.code })
  | .vextr ty d a i ms => some (true, encUn 0x93 (BitVec.ofNat 8 (d.kind - 1)) ty.code d.field (a.setWidth 7)
      (i.setWidth 32) ms)
  | .vins ty d a i ms => some (true, encUn 0x94 0 ty.code (d.setWidth 7) a (i.setWidth 32) ms)
  | .vfirst ty d a ms => some (true, encUn 0x95 (BitVec.ofNat 8 d.kind) ty.code d.field (a.setWidth 7) 0 ms)
  | .viota ty d ms => some (true, encUn 0x96 0 ty.code (d.setWidth 7) 0 0 ms)
  | .vperm ty d a b ms => some (true, encVec 0x97 0 ty.code (d.setWidth 7) (a.setWidth 7) b 0 ms)
  | .vslide ty up d a b m ms => some (true, { encUn 0x98 (fnBit up) ty.code (d.setWidth 7) (a.setWidth 7)
      (m.setWidth 32) ms with b := b.setWidth 7 })
  | .vreds ty d a b r ms => some (true, encVec 0x99 (BitVec.ofNat 8 d.kind) ty.code d.field (a.setWidth 7) b r.code ms)
  | .vredm ty mx d a b ms => some (true, encVec 0x9A (BitVec.ofNat 8 (2 * d.kind + mx.toNat)) ty.code d.field
      (a.setWidth 7) b 0 ms)
  | .vdot2 ty d a b r ms => some (true, encVec 0x9B 0 ty.code (d.setWidth 7) (a.setWidth 7) b r.code ms)
  | .vcvt x y part d a r ms => some (true, { encUn 0x9C 0 x.code (d.setWidth 7) (a.setWidth 7)
      (0#16 ++ part ++ 0#4 ++ y.code ++ cvtNarrow x y) ms with rnd := r.code })
  | .vsplit3 d a high ms => some (true, encUn 0x9D 0 0xB (d.setWidth 7) (a.setWidth 7) (bitImm high) ms)
  | .vld sz step am d a b off ms => some (true, { encMem 0xA0 0 sz.code am (d.setWidth 7) a b 0 off ms with
      flags := 0#1 ++ BitVec.ofBool step })
  | .vst sz step am d a b off ms => some (true, { encMem 0xA1 0 sz.code am (d.setWidth 7) a b 0 off ms with
      flags := 0#1 ++ BitVec.ofBool step })
  | .vlds sz am d a b off ms => some (true, encMem 0xA2 0 sz.code am (d.setWidth 7) a (.reg b) 0 off ms)
  | .vgath sz am d a b sh off ms => some (true, { encMem 0xA3 0 sz.code am (d.setWidth 7) a (.reg (b.setWidth 7)) 0 off ms
      with flags := sh })
  | .vscat sz am d a b sh off ms => some (true, { encMem 0xA4 0 sz.code am (d.setWidth 7) a (.reg (b.setWidth 7)) 0 off ms
      with flags := sh })
  | .klog op d a b => some (true, { Fields.base 0xB0 op.code with
      d := d.setWidth 7, a := a.setWidth 7, b := b.setWidth 7 })
  | .kpopc d a => some (true, { Fields.base 0xB1 0 with d := d, a := a.setWidth 7 })
  | .kfirst d a => some (true, { Fields.base 0xB2 0 with d := d, a := a.setWidth 7 })
  | .kmov f => some (true, f.fields)
  | .ktest t d a b => some (true, { Fields.base 0xB4 t.code with
      d := d.setWidth 7, a := a.setWidth 7, b := b.setWidth 7 })
  | .rep a n wb ws st => some (true, { Fields.base 0xB8 0 with a := a, imm := 0#12 ++ st ++ ws ++ wb ++ n })
  | .qcnt vec d q ms => some (vec, encUn 0xB9 0 0 d (q.setWidth 7) 0 ms)
  | .qdrain vec f ms => some (vec, { f.fields with ms := ms.code })
  | .queueDeadlock .. => none
  | .arm d a b ms => some (false, encBin 0xC0 0 d a b ms)
  | .dec d a b ms => some (false, encBin 0xC1 0 d a b ms)
  | .inc d a b ms => some (false, encBin 0xC2 0 d a b ms)
  | .spawn a ms => some (false, encUn 0xC3 0 0 0 a 0 ms)
  | .tspawn d a q ms => some (false, encUn 0xC4 0 0 (d.setWidth 7) a (q.setWidth 32) ms)
  | .tspawnAppend .. => none
  | .waita c d a b ms => some (false, encMem 0xC5 0 0 .lin d a b 0 c.code ms)
  | .waitaWake .. => none
  | .yield ms => some (false, encUn 0xC5 1 0 0 0 0 ms)
  | .susp ms => some (false, encUn 0xC5 2 0 0 0 0 ms)
  | .arrive d a b ms => some (false, encMem 0xC6 0 0 .lin d a b 0 0 ms)
  | .await d a b ms => some (false, encMem 0xC6 1 0 .lin d a (.reg b) 0 0 ms)
  | .drop a b ms => some (false, encMem 0xC6 2 0 .lin 0 a (.reg b) 0 0 ms)
  | .ssync d a b v op ms => some (false, encMem 0xC7 0 0 .lin d a (.reg b) 0
      (0#24 ++ op ++ 0#3 ++ BitVec.ofBool v) ms)
  | .ssyncArrivalCount .. => none
  | .arrivedSuspend .. => none
  | .ssnum d ms => some (false, encUn 0xC8 0 0 d 0 0 ms)
  | .fuse s ms => some (false, encUn 0xC9 0 0 0 0 (s.setWidth 32) ms)
  | .split ms => some (false, encUn 0xC9 1 0 0 0 0 ms)
  | .tqpush a b ms => some (false, encMem 0xCA 0 0 .lin 0 a (.reg b) 0 0 ms)
  | .tqpop d a ms => some (false, encUn 0xCA 1 0 d a 0 ms)
  | .gwload a first count ms => some (false, encUn 0xCB 0 0 0 a (0#21 ++ count ++ first) ms)
  | .gwrun n ms => some (false, encUn 0xCB 1 0 0 0 (n.setWidth 32) ms)
  | .gwstat d ms => some (false, encUn 0xCB 2 0 d 0 0 ms)
  | .walkerNodeStep .. => none
  | .cond a b ms => some (false, encBin 0xCC 0 0 a b ms)
  | .cpy a b ms => some (false, encMem 0xCD 0 0 .lin 0 a b 0 0 ms)
  | .copyPiece .. => none
  | .pfl a n ms => some (false, encUn 0xCE 0 0 0 a (n.setWidth 32) ms)
  | .pflComplete .. => none
  | .contextBind .. => none
  | .readyAge .. => none
  | .lqdb .. => none
  | .hostDoorbell .. => none
  | .launch .. => none
  | .barrierDecision .. => none
  | .preqNow .. => none
  | .shadowSwapDone .. => none
  | .preqAtBarrier .. => none
  | .resqResume .. => none
  | .resqKill .. => none
  | .ldacq sz am s d a b off ms => some (false, encMem 0xD0 0 sz.code am d a b s.code off ms)
  | .strel sz am s d a b off ms => some (false, encMem 0xD1 0 sz.code am d a b s.code off ms)
  | .fence s ms => some (false, { encUn 0xD2 0 0 0 0 0 ms with scope := s.code })
  | .aadd sz am o d a b ms => some (false, encAtomic 0xD3 0 sz.code am o 0 d a b 0 ms)
  | .amin u sz am o d a b ms => some (false, encAtomic 0xD3 1 sz.code am o 0 d a b (bitImm u) ms)
  | .amax u sz am o d a b ms => some (false, encAtomic 0xD3 2 sz.code am o 0 d a b (bitImm u) ms)
  | .aand sz am o d a b ms => some (false, encAtomic 0xD3 3 sz.code am o 0 d a b 0 ms)
  | .aor sz am o d a b ms => some (false, encAtomic 0xD3 4 sz.code am o 0 d a b 0 ms)
  | .axor sz am o d a b ms => some (false, encAtomic 0xD3 5 sz.code am o 0 d a b 0 ms)
  | .aswp sz am o d a b ms => some (false, encAtomic 0xD3 6 sz.code am o 0 d a b 0 ms)
  | .afadd dbl am o r d a b ms => some (false, encAtomic 0xD3 7 (dblCode dbl) am o r.code d a b 0 ms)
  | .acas sz am o d a b ms => some (false, encAtomic 0xD4 0 sz.code am o 0 d a b 0 ms)
  | .red op dbl am rel s a b ms => some (false, encAtomic 0xD5 op.code.1 (dblCode dbl) am
      { acq := false, rel := rel, scope := s } op.code.2.2.code 0 a b (bitImm op.code.2.1) ms)
  | .pgq st am d a b off ms => some (false, encMem 0xD6 (fnBit st) 0 am d a b 0 off ms)
  | .rred op dbl am a b ms => some (false, encAtomic 0xD7 op.code.1 (dblCode dbl) am
      { acq := false, rel := false, scope := .context } op.code.2.2.code 0 a b (bitImm op.code.2.1) ms)
  | .rflush one w am a ms => some (false, { encUn 0xD8 (fnBit one) 0 0 a 0 ms with
      am := am.code, flags := 0#1 ++ BitVec.ofBool w })
  | .rstat f ms => some (false, { f.fields with ms := ms.code })
  | .fcas o d a b w p ms => some (false, encAtomic 0xDA 0 0 .lin o 0 d a (.reg b) (0#25 ++ p ++ 0#2 ++ w) ms)
  | .fenq o d a b ms => some (false, encAtomic 0xDB 0 0 .lin o 0 d a (.reg b) 0 ms)
  | .fchase acq s d a m off ms => some (false, encAtomic 0xDC 0 0 .lin { acq := acq, rel := false, scope := s } 0 d a
      (.reg 0) (0#11 ++ m ++ off) ms)
  | .tsrd wrk d b s ms => some (false, encMem 0xE0 (fnBit wrk) 0 .lin d 0 b 0 (s.setWidth 32) ms)
  | .tsclr a b ms => some (false, encMem 0xE1 0 0 .lin 0 a b 0 0 ms)
  | .tsscale d b t ms => some (false, encMem 0xE2 0 0 .lin d 0 b 0 (t.setWidth 32) ms)
  | .qnt ty d a b r tfmt trap geom ms => some (false, { encFlt 0xE3 0 ty.code d a b r.code ms with
      imm := 0#24 ++ geom ++ BitVec.ofBool trap ++ tfmt })
  | .qntl ty d a r tfmt geom lb ms => some (false, { encUn 0xE4 0 ty.code d a (0#22 ++ lb ++ geom ++ 0#1 ++ tfmt) ms with
      rnd := r.code })
  | .dqnt ty blk a b r tfmt geom lb prnd ms => some (false, { encFlt 0xE5 (fnBit blk) ty.code 0 a b r.code ms with
      imm := 0#21 ++ BitVec.ofBool prnd ++ lb ++ geom ++ 0#1 ++ tfmt })
  | .kput a b ms => some (false, encMem 0xE8 0 0 .lin 0 a b 0 0 ms)
  | .kget a b ms => some (false, encMem 0xE9 0 0 .lin 0 a b 0 0 ms)
  | .peerPacketApply .. => none
  | .kcoll a b n ms => some (false, encMem 0xEA 0 0 .lin 0 a b 0 (n.setWidth 32) ms)
  | .collContrib .. => none
  | .collChain .. => none
  | .collForward .. => none
  | .collMulticast .. => none
  | .collDeliver .. => none
  | .fedj a b ms => some (false, encMem 0xEB 0 0 .lin 0 a b 0 0 ms)
  | .fedl ms => some (false, encUn 0xEB 1 0 0 0 0 ms)
  | .gqpush a ms => some (false, encUn 0xEC 0 0 0 a 0 ms)
  | .gqEgressSend .. => none
  | .gqDeliver .. => none
  | .gqpop d a ms => some (false, encUn 0xEC 1 0 d a 0 ms)
  | .gqwin rl d a b ms => some (false, encMem 0xEC 2 0 .lin d a b 0 (bitImm rl) ms)
  | .gprio a lvl ms => some (false, encUn 0xED 0 0 0 a (lvl.setWidth 32) ms)
  | .ostep d b ms => some (false, encMem 0xEE 0 0 .lin d 0 b 0 0 ms)
  | .trap code ms => some (false, encUn 0xF0 0 0 0 0 (code.setWidth 32) ms)
  | .brk ms => some (false, encUn 0xF1 0 0 0 0 0 ms)
  | .fmsg nb d ms => some (false, encUn 0xF2 0 0 d 0 (bitImm nb) ms)
  | .freply a b ms => some (false, encMem 0xF3 0 0 .lin 0 a b 0 0 ms)
  | .srd d n ms => some (false, encUn 0xF4 0 0 d 0 (n.setWidth 32) ms)
  | .swr a n ms => some (false, encUn 0xF5 0 0 0 a (n.setWidth 32) ms)
  | .tlbi all part a b ms => some (false, encMem 0xF6 0 0 .lin 0 a b 0 (0#28 ++ BitVec.ofBool all ++ part) ms)
  | .shootdownAck .. => none
  | .coreSleep .. => none
  | .coreWake .. => none
  | .ident d n ms => some (false, encUn 0xF7 0 0 d 0 (n.setWidth 32) ms)
  | .halt ms => some (false, encUn 0xF8 0 0 0 0 0 ms)
  | .mxSlotAdmit .. => none
  | .mxClaim .. => none
  | .mxMma .. => none
  | .mxMmat .. => none
  | .mxZero .. => none
  | .mxDrain .. => none
  | .mxXch .. => none
  | .mxCksum .. => none
  | .mxMark .. => none
  | .rickAgeOut .. => none
  | .cordApply .. => none
  | .cordStatus .. => none
  | .statsUpdateMerge .. => none
  | .migreqGo .. => none
  | .migrationLineCopy .. => none
  | .hostAtomicop .. => none
  | .flitReceive .. => none
  | .ackTimer .. => none
  | .replayTimeout .. => none
  | .gatewayForward .. => none
  | .laneFail .. => none
  | .portRetrainDone .. => none
  | .linkHeartbeat .. => none
  | .chipLost .. => none
  | .lossReportReceive .. => none
  | .ptrootWrite .. => none
  | .optbindWrite .. => none
  | .optrecWrite .. => none
  | .svcbootWrite .. => none
  | .portstClear .. => none
  | .registerWrite .. => none
  | .feataccWrite .. => none
  | .partenWrite .. => none
  | .lockInterfaceRequest .. => none
  | .startInterfaceRequest .. => none
  | .stopInterfaceRequest .. => none
  | .functionLevelReset .. => none
  | .scrubDone .. => none
  | .ideKmRequest .. => none
  | .ideIntegrityFail .. => none
  | .getVersion .. => none
  | .getCapabilities .. => none
  | .negotiateAlgorithms .. => none
  | .getDigests .. => none
  | .getCertificate .. => none
  | .challenge .. => none
  | .getMeasurements .. => none
  | .keyExchange .. => none
  | .finish .. => none
  | .heartbeat .. => none
  | .keyUpdate .. => none
  | .endSession .. => none
  | .collierReadEvent .. => none
  | .collierSvcboot .. => none
  | .collierWriteBank .. => none
  | .collierActivateBank .. => none
  | .collierReadSensor .. => none
  | .collierReplan .. => none
  | .collierRetrainPort .. => none
  | .sensorSample .. => none
  | .ageingPlan .. => none
  | .watchdogExpire .. => none
  | .softRepair .. => none
  | .repairQuiesceEnd .. => none
  | .fundamentalReset .. => none
  | .hotReset .. => none
  | .fatalEvent .. => none
  | .laneFailureSignal .. => none
  | .powerLoss .. => none
  | .configurationWrite .. => none

/-- The stream and the slot of an instruction; an event row has none. -/
def encode (i : Instr) : Option (Bool × Slot) := (fieldsOf i).map fun p => (p.1, p.2.pack)

/-- The instruction that a word of `nbits` bits, numbered from the least significant bit of its first byte, decodes to. The
slot stands in the stream that its opcode asks for, and in the control stream where either will do. -/
def decodeTableWord (_nbits w : Nat) : Option Instr :=
  let s : Slot := BitVec.ofNat 96 w
  let opc := s.extractLsb' 88 8
  match decode (!streamOk false opc) s with
  | .ok i => some i
  | .error _ => none

end Sys2Proof
end

