-- ==== Sys2Proof/Config.lean ====
section
/-! DEFINITION. What an implementation fixes and what the manual leaves open: free values without a body, and the
constants the manual states. -/
namespace Sys2Proof.Config

/-- Which of the agents that can move moves next, at the free-value counter's reading (notes/assumptions/5.md). -/
opaque pick : Nat → Nat
/-- A free truth value: an outcome the manual leaves to chance (notes/assumptions/5.md). -/
opaque freeBit : Nat → Bool
/-- A free 64-bit value, at the free-value counter's reading (notes/assumptions/5.md). -/
opaque freeWord : Nat → BitVec 64

/-- Whether an access at a time uses an old entry of a TLB or of a walk cache that differs from the table's (R347). -/
opaque oldEntry : Nat → Nat → Bool

/-- How many moves an agent that could move may still be passed over, by the free-value counter (R124). -/
opaque patience : Nat → Nat

/-- The 16-byte header of a link packet, whose layout the manual does not give: from its sequence number, source, destination
and virtual channel; the 12 bytes of FEC of a flit; and the payload of a packet whose contents the manual does not lay out, by
the number of what it carries (R392, R393; notes/assumptions/117.md). -/
opaque packetHeader : BitVec 12 → BitVec 18 → BitVec 18 → BitVec 2 → BitVec 128
opaque flitFec : List (BitVec 8) → BitVec 96
opaque linkPayload : Nat → List (BitVec 8)

/-- Whether the host refuses a request: a completion with Unsupported Request or Completer Abort, to a requester ID, at a time and
a physical address (R427). -/
opaque hostRefuses : Fn → Nat → Nat → Bool
/-- The channel of a controller's stack that holds a 4 KiB block: the collier spreads the blocks as it planned at reset (R352,
R447; notes/assumptions/138.md). -/
opaque hbmChannel : Nat → Nat
/-- What a hot reset meets, and the monitors that fail in the plan of a collier command, by the free-value counter (R440, R444;
notes/assumptions/63.md). -/
opaque bootReport : Nat → BootReport
opaque failingMonitors : Nat → List (BitVec 7)
/-- The version of a firmware image (R439). -/
opaque imageVersion : List (BitVec 8) → BitVec 64

/-- Which of several equally large rectangles IDENT selector 2 reports (R381, notes/assumptions/65.md). -/
opaque identTie : Nat → Nat

/-- The form of the part (R381), which each implementation fixes: 1 OPX-S4, 2 OPX-S4-P, 3 OPX-S4-D. -/
opaque partForm : Fin 3

/-- SPDM (R437, R438): the certificate chain in a slot of a function's DOE. -/
opaque certChain : Nat → List (BitVec 8)
/-- SHA-384 of a byte string (R437, R439). -/
opaque sha384 : List (BitVec 8) → List (BitVec 8)
/-- RSASSA-PSS over RSA-3072 of a transcript (R438), at a free-value reading (the scheme is randomised). -/
opaque rsaSign : Nat → List (BitVec 8) → List (BitVec 8)
/-- SLH-DSA-SHA2-192s of a transcript (R438). -/
opaque slhSign : Nat → List (BitVec 8) → List (BitVec 8)
/-- The boot ROM image and the microcode the measurements cover (R439). -/
opaque bootRom : List (BitVec 8)
/-- The device's ECDHE share on secp384r1 for a key exchange (R437). -/
opaque ecdheShare : Nat → List (BitVec 8)
/-- The keys a key exchange or a key update derives (R437). -/
opaque sessionKey : Nat → BitVec 256

/-- The buffer sizes of R30, in bytes. -/
def lmSize : Nat := 0x20000
def wbSize : Nat := 0x40000
def abSize : Nat := 0x30000
def cbSize : Nat := 0x18000
def cwSize : Nat := 0x800
/-- The LM of an optimiser core (R410). -/
def optLmSize : Nat := 0x80000
/-- Slots of a clamp (R206). -/
def clampSlots : Nat := 1024
/-- Bytes of a redo area (R207). -/
def redoBytes : Nat := 0x4000000
/-- The matrix unit's queue window (R69) and the graph region (R139). -/
def winLo : Nat := 0x1F000
def winHi : Nat := 0x1F400
/-- The collier's and a core's ageing limits (R121, R348, R394). -/
def ageLimit : Nat := 4096
/-- F-cycles after which a lone acknowledgement leaves (R394). -/
def ackDelay : Nat := 32
/-- F-cycles without an acknowledgement before a resend (R394). -/
def replayLimit : Nat := 4096
/-- F-cycles of 8 us, 64 us and 1 ms at 1.4 GHz (R397, R398, R445, R355). -/
def heartbeatPeriod : Nat := 11200
def lossPeriod : Nat := 89600
def msPeriod : Nat := 1400000
/-- F-cycles of the 200 us of a repair's quiesce (R447). -/
def repairPeriod : Nat := 280000

end Sys2Proof.Config
end

