-- ==== Sys2Proof/Machine/State.lean ====
section
/-! DEFINITION. The state of the machine: plain data, one home for every piece of state of INVENTORY.md. -/
namespace Sys2Proof.Machine

/-- Why the machine stops. -/
inductive Fault where
  /-- Raised by an access the device makes by physical address (a page table, a launch queue's ring, a launch record)
  that names no memory (R448). Safe: the model stops. -/
  | noMemory (pa : Nat)
  /-- Raised when the device itself must read or write a continuation record, a save area or a descriptor of a live
  continuation and no valid leaf translates its address: the manual gives no effect. Safe: the model stops. -/
  | deviceAccess (va : Word)
  deriving DecidableEq, Repr

/-- Why the model gives an instruction no meaning. -/
inductive Refusal where
  /-- An instruction not modelled. Safe: the model stops. -/
  | notModelled (mnemonic : String)
  deriving DecidableEq, Repr

/-- The memory of the whole fabric: bytes by key, addresses strictly rising, no byte 0 listed (Machine/Mem.lean). -/
abbrev Memory := List Host.Cell

/-- The allotment and lifetime of a context (R112, R183, R198). -/
inductive Mode where
  | idle
  | running
  /-- SSYNC has issued and its arrival has not counted yet (R183). -/
  | syncing
  /-- The SSYNC arrival has counted (R198). -/
  | arrived
  /-- Waiting for the collier event that ends HALT (R382). -/
  | halted
  deriving DecidableEq, Repr

/-- What a translation of an access has met, besides a leaf: an entry with a parity error in a TLB or in the walk cache of the unit
`ep` (R345), and what became of the access at a critical page: kind 1 a fault after the refetch, 2 a fault of a persistent
mismatch, 0 neither (R346). -/
structure Meet where
  chip : ChipNo
  part : Nat
  ep : EP
  va : Nat
  tlb : Bool
  walk : Bool
  kind : Nat
  deriving DecidableEq, Repr

/-- What a raised fault reports (R349), with the abort cause it votes (R200). -/
structure Trap where
  code : BitVec 16
  addr : Word
  /-- The PC reported where it is not the instruction's own: a REP body's REP, a pair's first slot. -/
  pc : Option Word
  write : Bool
  fetch : Bool
  vector : Bool
  /-- The abort cause of R200 that the parked record votes. -/
  cause : Option Nat
  /-- The record's PC where it is not the faulting slot: the slot that follows (R376), or where the instruction has led (R54). -/
  resume : Option Word
  extra0 : Word
  extra1 : Word
  /-- The entries with a parity error, and the mismatches, that its translations met (R345, R346). -/
  met : List Meet := []
  deriving DecidableEq, Repr

/-- What the last instruction did, for the step around it: nothing of note, a stall, a fault, a transfer of control. -/
inductive Note where
  | done
  | stalled
  | trapped (t : Trap)
  | transfer
  deriving DecidableEq, Repr

/-- Where the instruction that issues comes from: the control stream's slot, the vector issue queue, or the repetition. -/
inductive VSrc where
  | control
  | queue
  | repetition
  deriving DecidableEq, Repr

/-- A vector-stream slot: the instruction it decodes to, or a slot that does not decode (R78: it faults when it issues). -/
inductive VOp where
  | legal (i : Instr)
  | illegal (w : Slot)
  deriving DecidableEq, Repr

/-- A vector instruction with the g operands read at its hand-off or capture (R75, R78, R107), the allotment in force there
(R24) and the context's g2 (R157). -/
structure VEntry where
  op : VOp
  pc : Word
  caps : List (Nat × Word)
  gGran : Nat
  vGran : Nat
  g2 : Word
  deriving DecidableEq, Repr

/-- The repetition buffer and REPST, REPCFG, REPPC (R105-R108). -/
structure RepState where
  active : Bool
  /-- The body is captured and waits for the issue queue before it. -/
  loaded : Bool
  /-- REP has issued and its body is not captured whole yet. -/
  capturing : Bool
  pc : Word
  wb : Nat
  ws : Nat
  st : Nat
  n : Nat
  idx : Nat
  iter : Nat
  remain : Nat
  body : List VEntry
  deriving DecidableEq, Repr

/-- An SSYNC that has issued (R182). -/
structure Sync where
  d : GReg
  payload : Word
  op : Nat
  vote : Bool
  pc : Word
  deriving DecidableEq, Repr

/-- The slot of a pair that is still to issue, while it waits for what its partner has done (R9): its PC, the PC after it, the
PC of the pair's first slot, the signature block that the slot stands in, itself included (R54), and the g and p operands of
before the pair. -/
structure PairHalf where
  pc : Word
  next : Word
  first : Word
  sig : Option (BitVec 16 × BitVec 16)
  g : Vector Word 128
  p : Vector Bool 8
  deriving DecidableEq, Repr

/-- An FCHASE under way: the node it has reached, the links followed, and the peer-table entry read at its issue (R310, R335). -/
structure Chase where
  node : Word
  links : Nat
  entry : Nat
  deriving DecidableEq, Repr

/-- An operation in a far agent's request queue, by order of arrival: the agent, and the PC of the instruction that waits (R334). -/
structure FarReq where
  seq : Nat
  agent : EP
  pc : Word
  chase : Option Chase
  deriving DecidableEq, Repr

/-- A hardware context with the continuation it is bound to (R112). -/
structure Context where
  ep : EP
  no : BitVec 2
  mode : Mode
  priv : Priv
  chip : ChipNo
  team : Word32
  rank : Nat
  /-- CURREC (R146). -/
  recA : Word
  pc : Word
  gGran : Nat
  vGran : Nat
  g : Vector Word 128
  v : Vector VWord 32
  k : Vector Mask 8
  p : Vector Bool 8
  q : Vector (List Word) 8
  fflags : BitVec 5
  rep : RepState
  vq : List VEntry
  /-- Expected and accumulated CRC of the open signature block (R54). -/
  sig : Option (BitVec 16 × BitVec 16)
  sync : Option Sync
  /-- The g operands that a vector instruction issued from the queue uses in place of the registers (R75). -/
  caps : List (Nat × Word)
  /-- The allotment that such an instruction is judged by, where it is not the context's own (R24, R107). -/
  vAllot : Option (Nat × Nat)
  /-- The g2 that judges such an instruction's faults (R157). -/
  capG2 : Option Word
  vsrc : VSrc
  /-- The slot of the instruction now issuing, as its PC is reported. -/
  ipc : Word
  /-- The second slot of the pair that now issues, if any (R9). -/
  pairEnd : Option Word
  /-- A pair of which one slot has issued (notes/assumptions/14.md). -/
  half : Option PairHalf
  /-- The control stream has met a fault and waits for the vector instructions before it (R78). -/
  faulting : Bool
  /-- When each of the context's streams last issued (R113). -/
  ranC : Nat
  ranV : Nat
  /-- Bound again with saved vector instructions: the control stream goes on after them (R78). -/
  reissuing : Bool
  /-- The iteration number and window that rename the vector instruction now issuing (R107). -/
  iterNo : Nat
  /-- A re-run or a team's resume entered the slot: the checks of R11 are due (R32 class 3). -/
  entered : Bool
  /-- The leader's record when bound to a gang member (R136). -/
  gang : Option Word
  /-- The line the context issues from, as it was when the context entered it (R13, R342). -/
  line : Option (Word × Line)
  /-- An uncorrectable error stands in the context's state: its next instruction meets it (R200). -/
  hurt : Bool
  /-- The operation of its control stream that waits at a far agent (R334). -/
  req : Option FarReq
  deriving DecidableEq, Repr

/-- Writer tags of deltas in rising order (R221, R222, R412). -/
inductive Tag where
  | rank (r : Nat)
  /-- An optimiser core's: visible to that core alone (R412). -/
  | engPlus (core : Nat)
  | eng
  deriving DecidableEq, Repr

/-- A versioned byte written in the open superstep (R221, R222). -/
structure DeltaByte where
  val : Byte
  tag : Tag
  chip : ChipNo
  team : Word32
  conf : Bool
  deriving DecidableEq, Repr

/-- A live line's contents at the last commit, logged in the clamp of `logger` (R206). -/
structure UndoLine where
  key : Nat
  chip : ChipNo
  team : Word32
  logger : EP
  old : List Byte
  deriving DecidableEq, Repr

/-- A deferred reduction (R223). -/
structure RedEntry where
  key : Nat
  bytes : Nat
  op : RedOp
  opnd : Word
  rank : Nat
  seq : Nat
  chip : ChipNo
  team : Word32
  /-- The mirror copy that receives the result (R389). -/
  mirror : Option Nat
  deriving DecidableEq, Repr

/-- A half of a statistics record (R314, R315). -/
structure Half' where
  bins : List Nat
  amax : Word32
  count : Nat
  nans : Nat
  infs : Nat
  sats : Nat
  deriving DecidableEq, Repr

/-- A line that a page-fetch list has fetched for the next version (R191). -/
structure Landing where
  key : Nat
  bytes : List Byte
  chip : ChipNo
  team : Word32
  ep : EP
  /-- The instruction that fetched it (R315). -/
  pc : Word
  rank : Nat
  ctx : BitVec 2
  /-- The update its source page's record gets at the commit (R317). -/
  stat : Option (Nat × Half')
  deriving DecidableEq, Repr

/-- A statistics update on its way to the record's home (R318). -/
structure StatUpdate where
  id : Nat
  chip : ChipNo
  team : Word32
  idx : Nat
  src : EP
  pc : Word
  half : Half'
  deriving DecidableEq, Repr

/-- What a rick element does at its destination (R324, R304). -/
inductive RickOp where
  | store
  | red (op : RedOp)
  deriving DecidableEq, Repr

/-- A rick element (R325, R330). -/
structure RickElem where
  /-- The pointer as issued, before AM routing (R306). -/
  addr : Word
  /-- Destination byte key for a typed buffer; virtual address for a global or peer byte. -/
  dst : Nat
  global : Bool
  /-- The peer-table entry of a peer byte, read at the issue (R388). -/
  entry : Option Nat
  bytes : Nat
  op : RickOp
  opnd : Word
  ctx : BitVec 2
  /-- The record that issued it. -/
  recA : Word
  pc : Word
  ssn : Word32
  time : Nat
  /-- Team and rank that issued it (R330). -/
  team : Word32
  rank : Nat
  /-- Its team has left the superstep it belongs to: only standing bytes still take its effect (notes/assumptions/115.md). -/
  late : Bool
  deriving DecidableEq, Repr

/-- A rick (R326). -/
structure Rick where
  dest : Option EP
  elems : List RickElem
  deriving DecidableEq, Repr

/-- A cord in flight (R330). -/
structure Cord where
  id : Nat
  src : EP
  chip : ChipNo
  team : Word32
  rank : Nat
  dest : EP
  elems : List RickElem
  /-- How many of its elements the destination has performed, and those that failed (R330). -/
  done : Nat
  failed : List (Nat × BitVec 16 × RickElem)
  /-- It has entered the request queue of the far agent it goes to, and its number there (R334). -/
  came : Bool
  seq : Nat
  deriving DecidableEq, Repr

/-- A status message on its way back: the failed elements with their index and code (R330). -/
structure CordStatus where
  id : Nat
  src : EP
  chip : ChipNo
  team : Word32
  rank : Nat
  ctxs : List (BitVec 2)
  failed : List (Nat × BitVec 16 × RickElem)
  deriving DecidableEq, Repr

/-- An entry of the rick fault log (R306). -/
structure RickLog where
  addr : Word
  opnd : Word
  word2 : Word
  pc : Word
  deriving DecidableEq, Repr

/-- A fault message (R349). -/
structure Msg where
  code : BitVec 16
  ctx : BitVec 2
  flags : Byte
  rank : BitVec 12
  aborts : BitVec 16
  pc : Word
  addr : Word
  recA : Word
  sstep : Word32
  team : Word32
  srcep : Word32
  seq : BitVec 16
  extra0 : Word
  extra1 : Word
  deriving DecidableEq, Repr

/-- The checksum state of one accumulator set (R285). -/
structure Checks where
  ckr : List Word
  abr : List Word
  ckc : List Word
  abc : List Word
  en : Bool
  stale : Bool
  flt : Bool
  deriving DecidableEq, Repr

/-- A queued matrix command with what it is charged to (R291). -/
structure MxEntry where
  cmd : Line
  ctx : BitVec 2
  recA : Word
  pc : Word
  rank : Nat
  /-- Stopped at a fault until a reply (R248). -/
  stuck : Bool
  /-- The command has made its writes; only its completion word is left, held by a fault (R234). -/
  cwOnly : Bool
  /-- The address of the fault that stopped it (R351). -/
  at_ : Word
  /-- g2 of the context at its STL (R157). -/
  g2 : Option Word
  /-- Vector accesses before the fork that are still owed, and when it forked (R233). -/
  behind : Nat
  forked : Nat
  deriving DecidableEq, Repr

/-- An STL to the queue window that waits for admission (R277). -/
structure MxWait where
  ctx : BitVec 2
  since : Nat
  /-- A walker's command (R277). -/
  walker : Bool
  /-- Admitted by the present slot: the control stream, which issues next, performs it. -/
  granted : Bool
  deriving DecidableEq, Repr

/-- A matrix unit (R245, R275-R291). -/
structure MxUnit where
  queue : List MxEntry
  waiting : List MxWait
  claims : List (BitVec 2)
  /-- Cells that are not +0: key set*1024 + m*32 + n. -/
  acc : List (Nat × Word32)
  ck0 : Checks
  ck1 : Checks
  xch : Option (Word × Nat)
  corr : Nat
  unchk : Nat
  /-- An uncorrectable error stands in the unit's state: its next command meets it (R200). -/
  hurt : Bool
  deriving DecidableEq, Repr

/-- A peer copy (R361, R362): its operands, how far it has come, and the packet now under way. -/
structure PeerOp where
  put : Bool
  dst : Word
  src : Word
  n : Nat
  done : Nat
  /-- The peer-table entry read at issue (R388). -/
  entry : Nat
  /-- The route chosen by the issuing chip, with the chip it leads to, and the port chosen by the serving chip when it first sends,
  with that chip (R362, R391). -/
  port : Option (ChipNo × Nat)
  back : Option (ChipNo × Nat)
  /-- 0 nothing under way; 1 a packet to the peer; 2 a packet back from it. -/
  leg : Nat
  data : List Byte
  deriving DecidableEq, Repr

/-- An operation of a copy engine (R189, R190, R361, R364, R371). -/
inductive EngKind where
  | cpy (dst src : Word) (n done : Nat)
  | pfl (entries : List (Word × Word)) (line : Nat)
  | peer (x : PeerOp)
  | coll (branches : Nat)
  | gq (frag : Nat)
  deriving DecidableEq, Repr

structure EngineOp where
  id : Nat
  ctx : BitVec 2
  recA : Word
  pc : Word
  rank : Nat
  cw : Word
  val : Word
  kind : EngKind
  /-- Stopped at a fault until a reply. -/
  stuck : Bool
  /-- The address of that fault (R351). -/
  at_ : Word
  /-- g2 of the context at the instruction (R157). -/
  g2 : Option Word
  /-- Vector accesses before the fork that are still owed, and when it forked (R233). -/
  behind : Nat
  forked : Nat
  deriving DecidableEq, Repr

/-- The status of a graph walker (R187). -/
inductive WState where
  | idle | running | done | error
  deriving DecidableEq, Repr

structure Walker where
  state : WState
  node : Nat
  ctx : BitVec 2
  recA : Word
  pc : Word
  rank : Nat
  /-- Commands of the present ENG node already queued (R140). -/
  sub : Nat
  /-- Stopped at a fault until a reply. -/
  stuck : Bool
  /-- The address of that fault (R351). -/
  at_ : Word
  /-- g2 of the context at the GWRUN (R157). -/
  g2 : Option Word
  /-- Vector accesses before the fork that are still owed, and when it forked (R233). -/
  behind : Nat
  forked : Nat
  deriving DecidableEq, Repr

/-- A gradient fragment (R371, R416). -/
structure Fragment where
  id : Nat
  src : EP
  opId : Nat
  chip : ChipNo
  team : Word32
  desc : Word
  bucket : Nat
  bytes : List Byte
  started : Bool
  deriving DecidableEq, Repr

/-- A filled or popped slot of a gradient queue at its consumer (R372, R373). -/
structure GqSlot where
  desc : Word
  chip : ChipNo
  slot : Nat
  src : EP
  len : Nat
  popped : Bool
  deriving DecidableEq, Repr

/-- A line that an L1 holds: partition, virtual line, key of the physical line (R343, R344). -/
structure L1Line where
  part : Nat
  vline : Nat
  key : Nat
  deriving DecidableEq, Repr

/-- A core: compute, optimiser or collier. -/
structure Core where
  chip : ChipNo
  team : Word32
  rank : Nat
  service : Bool
  freeG : Nat
  freeV : Nat
  heldG : Nat
  heldV : Nat
  bufcls : Vector Word32 4
  bufclsNext : Vector Word32 4
  ricks : Vector Rick 8
  rickLog : List RickLog
  rickLost : Nat
  rkEvict : Nat
  rkFlush : Nat
  rkAge : Nat
  rkSize : Nat
  /-- MXSLOT, MXSCHED, MXRFMT, RCFG, GPTAB by number, where they differ from their reset values. -/
  regs : List (Nat × Word)
  /-- The slot table that stays in force for the rest of the round in which MXSLOT was last written, and that round (R278). -/
  slotOld : Option (Word × Nat)
  /-- The slot, counted from the last fundamental reset, in which the window last admitted a command (R277). -/
  slotUsed : Option Nat
  mx : MxUnit
  engine : List EngineOp
  walker : Walker
  egress : List Fragment
  inflight : List (Word × Nat)
  gqSlots : List GqSlot
  mbox : List Msg
  mboxLost : Nat
  icache : List (Word × Line)
  /-- The lines its L1 holds (R343). -/
  l1 : List L1Line
  idleSince : Nat
  asleep : Bool
  deriving DecidableEq, Repr

/-- A record on a ready queue with the time its wait at this level began (R120, R121). -/
structure ReadyRec where
  recA : Word
  chip : ChipNo
  team : Word32
  since : Nat
  deriving DecidableEq, Repr

/-- The four levels of a ready queue (R120). -/
abbrev ReadyQ := Vector (List ReadyRec) 4

/-- What a suspended record waits for (R174, R176, R180, R186, R198, R185, R372, R377). -/
inductive WaitKind where
  | counter
  /-- The awaited word's condition, with the first value seen that satisfies it (R176). -/
  | addr (c : WCond) (v : Word) (d : GReg) (ptr : Word) (seen : Option Word)
  | await (p : Word) (d : GReg) (desc : Word)
  /-- A suspended arrival, with the PC and context a fault of it reports (R180). -/
  | arrive (p x : Word) (d : GReg) (desc pc : Word) (ctx : BitVec 2)
  | tqPush (e : Word) (desc : Word)
  | tqPop (d : GReg) (desc : Word)
  | gqPop (d : GReg) (desc : Word)
  | mailbox (d : GReg)
  | fuse (shape : BitVec 2) (pc : Word) (ctx : BitVec 2)
  | arrived (d : GReg)
  /-- PARKED-FAULT: superstep and attempt at the fault, the faulting PC and address, a vote of its own, a VOTE-ABORT received. -/
  | parked (ssn : Word32) (attempts : Nat) (pc addr : Word) (votes voted : Bool)
  deriving DecidableEq, Repr

structure Waiter where
  chip : ChipNo
  team : Word32
  recA : Word
  ep : EP
  kind : WaitKind
  deriving DecidableEq, Repr

/-- A vote for an abort cause with its cause PC (R199, R200). -/
structure Vote where
  cause : Nat
  pc : Word
  rank : Nat
  ctx : BitVec 2
  deriving DecidableEq, Repr

/-- An arrival that has counted (R182). -/
structure Arrival where
  recA : Word
  rank : Nat
  ctx : BitVec 2
  ep : EP
  d : GReg
  payload : Word
  op : Nat
  pc : Word
  /-- A parked record that arrives without an SSYNC (R196). -/
  parked : Bool
  deriving DecidableEq, Repr

/-- A core's part of the committed version (R201 step 6, R203, R289, R415). -/
structure CoreCk where
  ep : EP
  bufcls : Vector Word32 4
  regs : List (Nat × Word)
  acc : List (Nat × Word32)
  ck0 : Checks
  ck1 : Checks
  walker : Walker
  graph : List Byte
  heldG : Nat
  heldV : Nat
  freeG : Nat
  freeV : Nat
  inflight : List (Word × Nat)
  gqSlots : List GqSlot
  deriving DecidableEq, Repr

/-- The checkpoint of a team (R201 step 6, R202). -/
structure Ckpt where
  gangs : List (Word × List (Word × EP))
  optRecs : List (Word × EP)
  ctxs : List Context
  cores : List CoreCk
  ready : List (Nat × ReadyRec × Nat)
  waiters : List Waiter
  steps : Nat
  recs : List Word
  deriving DecidableEq, Repr

/-- The states of R211. -/
inductive TState where
  | none | opened | closing | committing | aborting | halting | saved | resuming | complete | terminated
  deriving DecidableEq, Repr

/-- A statistics record's part outside the table (R295, R315). -/
structure StatRec where
  idx : Nat
  work : Option Half'
  /-- Scheduled clear: configuration, issuing rank, issue order (R295). -/
  clr : Option (Word × Nat × Nat)
  deriving DecidableEq, Repr

/-- A pending join or leave of a federation, with the records that have asked (R368, R369). -/
structure FedAsk where
  join : Bool
  id : Word32
  m : Nat
  recs : List Word
  deriving DecidableEq, Repr

/-- A team descriptor (R125, R132, R209). -/
structure Team where
  chip : ChipNo
  id : Word32
  state : TState
  die : Bool
  x0 : Nat
  y0 : Nat
  w : Nat
  h : Nat
  queue : Nat
  entry : Word
  strict : Bool
  budget : Nat
  gGran : Nat
  vGran : Nat
  prio : Nat
  k0 : Mask
  parent : Word32
  svc : EP
  cword : Word
  cval : Word
  nrec : Nat
  rectab : Word
  /-- Physical keys of the record table's 4 KiB pages, found at launch (R312). -/
  recPages : List Nat
  npeer : Nat
  peert : Word
  mirt : Word
  lchip : Nat
  root : Word
  ssn : Word32
  retry : Nat
  aborts : Nat
  attempts : Nat
  lastCause : Nat
  prev : Option (Nat × Word × Word32)
  confl : Nat
  resumes : Nat
  votes : List Vote
  arrivals : List Arrival
  recs : List Word
  held : List (Nat × Nat × Nat × List Byte)
  ckpt : Ckpt
  fed : Word32
  /-- Chips reported lost to a federation that the team outlived (R398, R409). -/
  gone : List ChipNo
  ask : Option FedAsk
  /-- The partitions whose pre-emption requests the team stands under (R211, R215). -/
  atBarrier : List Nat
  steps : Nat
  stepMark : Bool
  stats : List StatRec
  service : Bool
  /-- The first arrival after a resume checks its number (R213). -/
  resumeSsn : Option Word32
  /-- Records of optimiser cores with their core (R411). -/
  optRecs : List (Word × EP)
  /-- Gangs: the leader's record and every member's record and core, in rank order (R136). -/
  gangs : List (Word × List (Word × EP))
  deriving DecidableEq, Repr

/-- A federation of teams (R216, R368). -/
structure Fed where
  id : Word32
  m : Nat
  members : List (ChipNo × Word32)
  /-- Chips reported lost since the last decision: the chip that judges, the chip it judges lost (R398). -/
  lost : List (ChipNo × ChipNo)
  /-- Every such report: none is withdrawn (R398). -/
  gone : List (ChipNo × ChipNo)
  /-- The chips whose arrivals have risen to their parents in the tree, and those that have sent theirs (R397). -/
  rose : List ChipNo
  sent : List ChipNo
  deriving DecidableEq, Repr

/-- A saved team in the shadow store (R212). -/
structure Image where
  team : Team
  buffers : List (Nat × Nat × List Host.Cell)
  swapping : Bool
  size : Nat
  deriving DecidableEq, Repr

/-- A valid leaf: its entry, its companion word, the level it stands at and where the entry lies (R338, R341). -/
structure Leaf where
  entry : Word
  cw : Word
  level : Nat
  at_ : Nat
  deriving DecidableEq, Repr

/-- An entry of a TLB (R343): its cluster (die * 64 + index) or its die (128 + die), the partition, the page, the leaf. `bad`
is a parity error, or two ways that disagree (R345, R346). -/
structure XEntry where
  home : Nat
  part : Nat
  leaf : Leaf
  page : Nat
  bad : Bool
  deriving DecidableEq, Repr

/-- An entry of a die's walk cache (R343): a pointer entry at a level, for the virtual addresses that share a prefix. -/
structure WEntry where
  die : Nat
  part : Nat
  level : Nat
  pre : Nat
  entry : Word
  bad : Bool
  deriving DecidableEq, Repr

/-- A page migration in progress (R354, R357). -/
structure Mig where
  dst : Word
  state : Nat
  line : Nat
  part : Nat
  va : Word
  owner : Bool
  lines : Nat
  oldPa : Nat
  /-- The shoot-down that ends it (R354 step 4). -/
  shoot : Option Nat
  /-- The team whose access started it (R355). -/
  team : Word32
  /-- The last pages migrated, by address space and page, with their times (R355). -/
  log : List ((Word × Word) × List Nat)
  deriving DecidableEq, Repr

/-- One end of a link (R393-R395, R400, R403, R450). -/
structure Port where
  state : Nat
  failed : BitVec 16
  replay : Nat
  retrain : Nat
  peer : Option (ChipNo × BitVec 4)
  txNext : BitVec 12
  txAcked : BitVec 12
  buf : List (BitVec 12 × LinkPacket)
  out : List Flit
  rxNext : BitVec 12
  rxUnacked : Nat
  rxSince : Nat
  nakSent : Bool
  txSince : Nat
  stopped : Bool
  /-- This end has found the lane that fails: a flit that arrives has crossed it (R403). -/
  broken : Bool
  /-- The end of the module's cabling that last trained with this port (R450). -/
  cable : Option (ChipNo × BitVec 4)
  deriving DecidableEq, Repr

/-- A link packet that waits at a gateway for a port (R391, R392). -/
structure GwPacket where
  id : Nat
  pkt : LinkPacket
  port : Nat
  deriving DecidableEq, Repr

/-- A collective packet in flight (R364, R366). -/
structure CollPacket where
  id : Nat
  src : EP
  opId : Nat
  chip : ChipNo
  team : Word32
  fed : Word32
  /-- The chip of the node that has sent it on. -/
  node : ChipNo
  inBf16 : Bool
  outBf16 : Bool
  tag : Nat
  entries : List (EP × Nat × Nat)
  pairs : List (Word32 × Word32)
  dst : Word
  cw : Word
  val : Word
  waiting : Bool
  deriving DecidableEq, Repr

/-- A CONTRIB held at a stack adder (R366, R405). -/
structure Contrib where
  key : Word32 × Bool × ChipNo × Nat
  pairs : List (Word32 × Word32)
  src : EP
  opId : Nat
  deriving DecidableEq, Repr

/-- A stack adder (R404, R418). -/
structure Adder where
  held : List Contrib
  pkts : Nat
  deriving DecidableEq, Repr

/-- A shoot-down in progress: its range and the tree nodes that have not acknowledged (R348). -/
structure Shoot where
  id : Nat
  ep : EP
  ctx : BitVec 2
  part : Nat
  lo : Nat
  hi : Nat
  nodes : List Nat
  deriving DecidableEq, Repr

/-- An IDE stream (R429). -/
structure Ide where
  stream : IdeStream
  key0 : Option (BitVec 256)
  key1 : Option (BitVec 256)
  active : Bool
  secure : Bool
  /-- A TLP has failed its integrity check: later ones are discarded (R429). -/
  insecure : Bool
  deriving DecidableEq, Repr

/-- An SPDM connection of a function's DOE (R437). -/
structure Spdm where
  fn : Fn
  /-- 0 nothing, 1 version, 2 capabilities, 3 algorithms negotiated. -/
  phase : Nat
  transcript : List Byte
  /-- 0 none, 1 handshaking, 2 established. -/
  session : Nat
  key : BitVec 256
  /-- Responses sent, newest first. -/
  out : List (List Byte)
  deriving DecidableEq, Repr

/-- A TDISP interface with its captured frozen set (R433, R434). -/
structure Iface where
  /-- 0 CONFIG_UNLOCKED, 1 CONFIG_LOCKED, 2 RUN, 3 ERROR, 4 no such VF. -/
  state : BitVec 3
  frozen : List Word
  scrubbing : Bool
  /-- A write has just broken the frozen set: the halt of R435 is due. -/
  halting : Bool
  bar : Word
  msix : Word
  ideCfg : Word
  deriving DecidableEq, Repr

/-- The event log entry (R442). -/
structure LogEntry where
  time : Nat
  src : EP
  code : Nat
  data : Nat
  deriving DecidableEq, Repr

/-- The collier's own state (R440-R447). -/
structure Collier where
  /-- The time of the last fundamental reset. -/
  epoch : Nat
  log : List LogEntry
  total : Nat
  bankA : List (Nat × Byte)
  bankB : List (Nat × Byte)
  activeB : Bool
  pending : Bool
  samples : List (Nat × Int)
  throttled : List Nat
  plan : Nat
  failing : List Nat
  event : Bool
  doe : List (List Word)
  soft : Nat
  hard : Nat
  retiredCh : Nat
  quiesced : List (Nat × Nat × Nat)
  retiredCl : List (Bool × Nat)
  spare : List (Bool × Nat)
  deriving DecidableEq, Repr

/-- Error counters (R425, R358). -/
structure Errs where
  ecc : Nat
  link : Nat
  xlat : Nat
  other : Nat
  term : Nat
  launchf : Nat
  lastTeam : Word32
  fatal : BitVec 4
  mism : Nat
  critpar : Nat
  wcpar : Nat
  tlbpar : Nat
  /-- AER events reported to the host, newest first: function, class, DW0-DW2 (R422). -/
  aer : List (Fn × Nat × Word × Word32 × Nat)
  deriving DecidableEq, Repr

/-- The DOE objects that get an answer without a layout: TDISP and IDE_KM messages, collier objects (R430, R433, R441). -/
inductive DoeObject where
  | tdisp | ideKm | collier
  deriving DecidableEq, Repr

/-- The answer of a function's DOE to such an object: it is done, or an error response. -/
structure DoeReply where
  fn : Fn
  object : DoeObject
  error : Bool
  deriving DecidableEq, Repr

/-- Host-port features and functions (R427-R432). -/
structure HostPort where
  featacc : BitVec 128
  rej : Bool
  done : Bool
  parten : BitVec 8
  numVfs : Nat
  ifaces : Vector Iface 8
  ides : List Ide
  spdm : List Spdm
  /-- FEATACC as measurement block 4 reports it (R439). -/
  featMeas : BitVec 128
  /-- The answers to objects other than SPDM requests and collier commands, the newest first (R430, R433, R441). -/
  replies : List DoeReply
  deriving DecidableEq, Repr

/-- A package. -/
structure Chip where
  no : ChipNo
  stopped : Bool
  /-- The host link is down: the package has lost its power, or stopped as on loss of power (R445). -/
  dark : Bool
  /-- LQDESC, OVFCFG, PTROOT, TSEL, RTBASE, HBMCAP, OPTBIND, EVCTL.SEL by number, where they differ from reset. -/
  regs : List (Nat × Word)
  /-- Launch records held for a queue after their parent's commit (R192). -/
  lheld : List (Nat × Word32 × List Byte)
  /-- Queues whose doorbell asked for a reread of TAIL, with the TAIL read (R127). -/
  tails : List (Nat × Nat)
  /-- Queues whose record at HEAD has passed the checks of 0xFF01 to 0xFF04 and waits for its cores (R130). -/
  passed : List (Nat × Nat)
  /-- The overflow configurations in force, by partition (R210). -/
  ovf : List (Nat × Word)
  tlb : List XEntry
  walks : List WEntry
  /-- Cluster TLBs that a shoot-down has skipped since their cores fell asleep (R348). -/
  skipped : List Nat
  /-- Errors that the walker's next reads of a leaf and its companion word meet, read by read (R346). -/
  noise : List (Word × Word)
  prstat : Vector (BitVec 4) 8
  shadow : List (Nat × Image)
  resq : BitVec 4
  svc : BitVec 2
  mig : Mig
  errs : Errs
  ports : Vector Port 12
  gw : List GwPacket
  heard : List (ChipNo × Nat)
  /-- When it last sent its heartbeats (R397). -/
  beaten : Nat
  /-- Loss reports that have arrived and have not taken effect yet (R398). -/
  told : List ChipNo
  lostCount : Nat
  lostLast : ChipNo
  adders : Vector Adder 8
  faOps : List (Nat × Nat)
  optState : List (Nat × Nat)
  shoots : List Shoot
  host : HostPort
  col : Collier
  deriving DecidableEq, Repr

/-- An error that a particle or a worn cell makes in the device's state, as the outside world brings it about. -/
inductive Upset where
  /-- Parity, or two ways that disagree, in an entry of a TLB or of a walk cache (R345, R346). -/
  | tlb (chip : ChipNo) (i : Nat)
  | walk (chip : ChipNo) (i : Nat)
  /-- What the walker's next reads of a leaf and its companion word differ by (R346). -/
  | reads (chip : ChipNo) (xs : List (Word × Word))
  /-- An error that ECC, or the bridge, corrects: in what one partition holds, or in what the package does (R399, R421, R422). -/
  | corrected (chip : ChipNo) (part : Option Nat)
  /-- An error that nothing corrects, in a line of memory, in a context's or in a matrix unit's state (R200, R421). -/
  | memory (key : Nat)
  | context (ep : EP) (ctx : BitVec 2)
  | matrix (ep : EP)
  /-- An error that nothing corrects in what a team's superstep holds elsewhere: its clamps' slots, redo logs, ricks, walkers or
  checkpoints (R200). -/
  | superstep (chip : ChipNo) (team : Word32)
  deriving DecidableEq, Repr

/-- Which agent moves next, when plain data says so. -/
inductive Agent where
  | control (ep : EP) (ctx : BitVec 2)
  | vector (ep : EP) (ctx : BitVec 2)
  | event (i : Instr)
  deriving DecidableEq, Repr

/-- The machine: a fabric of packages. -/
structure State where
  time : Nat
  freeIx : Nat
  nextId : Nat
  sel : Option Agent
  agenda : List Instr
  /-- Errors in the device's state that come about before the next move. -/
  upsets : List Upset
  /-- Agents that could have moved and were passed over, with the moves left to each (R124; notes/assumptions/5.md). -/
  patience : List (Agent × Nat)
  note : Note
  mem : Memory
  /-- Lines of memory, by key, that hold an error which nothing corrects (R200, R421). -/
  poison : List Nat
  deltas : List (Nat × DeltaByte)
  undo : List UndoLine
  reds : List RedEntry
  landings : List Landing
  updates : List StatUpdate
  cords : List Cord
  statuses : List CordStatus
  fabricMsgs : List (EP × Msg)
  packets : List CollPacket
  /-- Link packets that an operation still awaits on another chip: the operation's number, and theirs (R392). -/
  transit : List (Nat × Nat)
  frags : List Fragment
  cx : Context
  others : List Context
  cores : List (Nat × Core)
  ready : List (Nat × ReadyQ)
  waiters : List Waiter
  teams : List Team
  feds : List Fed
  chips : List (Nat × Chip)
  deriving DecidableEq, Repr

/-- No repetition in progress (R108 reset values). -/
def RepState.reset : RepState :=
  { active := false, loaded := false, capturing := false, pc := 0, wb := 0, ws := 0, st := 0, n := 0, idx := 0, iter := 0, remain := 0, body := [] }

/-- A context that holds no continuation; its registers hold 0 (DESIGN CHOICE, notes/assumptions/1.md). -/
def Context.idle (ep : EP) (no : BitVec 2) : Context :=
  { ep := ep, no := no, mode := .idle, priv := .user, chip := ep.extractLsb' 14 18, team := 0, rank := 0, recA := 0, pc := 0,
    gGran := 2, vGran := 2, g := Vector.replicate 128 0, v := Vector.replicate 32 0, k := Vector.replicate 8 0,
    p := Vector.replicate 8 false, q := Vector.replicate 8 [], fflags := 0, rep := RepState.reset, vq := [], sig := none,
    sync := none, caps := [], vAllot := none, capG2 := none, vsrc := .control, ipc := 0, pairEnd := none, half := none,
    faulting := false, ranC := 0, ranV := 0, reissuing := false, iterNo := 0, entered := false, gang := none, line := none, hurt := false,
    req := none }

/-- Checksums cleared and disabled (R275). -/
def Checks.reset : Checks :=
  { ckr := List.replicate 32 0, abr := List.replicate 32 0, ckc := List.replicate 32 0, abc := List.replicate 32 0,
    en := false, stale := false, flt := false }

/-- An idle matrix unit with both sets +0 (R275). -/
def MxUnit.reset : MxUnit :=
  { queue := [], waiting := [], claims := [], acc := [], ck0 := Checks.reset, ck1 := Checks.reset, xch := none, corr := 0, unchk := 0, hurt := false }

/-- The walker is IDLE (R187). -/
def Walker.reset : Walker :=
  { state := .idle, node := 0, ctx := 0, recA := 0, pc := 0, rank := 0, sub := 0, stuck := false, at_ := 0, g2 := none, behind := 0, forked := 0 }

/-- A core in no team, its pools free (R24: 256 g and 64 v registers). -/
def Core.reset (chip : ChipNo) : Core :=
  { chip := chip, team := 0, rank := 0, service := false, freeG := 32, freeV := 16, heldG := 0, heldV := 0,
    bufcls := Vector.replicate 4 0, bufclsNext := Vector.replicate 4 0,
    ricks := Vector.replicate 8 { dest := none, elems := [] }, rickLog := [], rickLost := 0,
    rkEvict := 0, rkFlush := 0, rkAge := 0, rkSize := 0, regs := [], slotOld := none, slotUsed := none, mx := MxUnit.reset, engine := [], walker := Walker.reset,
    egress := [], inflight := [], gqSlots := [], mbox := [], mboxLost := 0, icache := [], l1 := [], idleSince := 0, asleep := false }

/-- A port before training (R400). -/
def Port.reset : Port :=
  { state := 0, failed := 0, replay := 0, retrain := 0, peer := none, txNext := 0, txAcked := 4095, buf := [], out := [],
    rxNext := 0, rxUnacked := 0, rxSince := 0, nakSent := false, txSince := 0, stopped := false, broken := false, cable := none }

/-- No checkpoint: no context was bound at the last commit. -/
def Ckpt.empty : Ckpt := { gangs := [], optRecs := [], ctxs := [], cores := [], ready := [], waiters := [], steps := 0, recs := [] }

/-- An interface of a VF that does not exist (R433 reset value 4). -/
def Iface.reset : Iface :=
  { state := 4, frozen := [], scrubbing := false, halting := false, bar := 0, msix := 0, ideCfg := 0 }

/-- The collier right after reset (notes/assumptions/4.md). -/
def Collier.reset : Collier :=
  { epoch := 0, log := [], total := 0, bankA := [], bankB := [], activeB := false, pending := false, samples := [], throttled := [],
    plan := 0, failing := [], event := false, doe := [], soft := 0, hard := 0, retiredCh := 0, quiesced := [],
    retiredCl := [], spare := [] }

/-- Every counter zero (R425, R358). -/
def Errs.reset : Errs :=
  { ecc := 0, link := 0, xlat := 0, other := 0, term := 0, launchf := 0, lastTeam := 0, fatal := 0, mism := 0, critpar := 0,
    wcpar := 0, tlbpar := 0, aer := [] }

/-- The host port after reset: nothing accepted, no partition enabled (R430-R433; notes/assumptions/4.md). -/
def HostPort.reset : HostPort :=
  { featacc := 0, rej := false, done := false, parten := 0, numVfs := 0, ifaces := Vector.replicate 8 Iface.reset, ides := [],
    spdm := [], featMeas := 0, replies := [] }

/-- A package after reset: every register at its reset value. -/
def Chip.reset (no : ChipNo) : Chip :=
  { no := no, stopped := false, dark := false, regs := [], lheld := [], tails := [], passed := [], ovf := [], tlb := [], walks := [], skipped := [], noise := [], prstat := Vector.replicate 8 0, shadow := [], resq := 0, svc := 0,
    mig := { dst := 0, state := 0, line := 0, part := 0, va := 0, owner := false, lines := 0, oldPa := 0, shoot := none, team := 0, log := [] },
    errs := Errs.reset, ports := Vector.replicate 12 Port.reset, gw := [], heard := [], beaten := 0, told := [], lostCount := 0, lostLast := 0,
    adders := Vector.replicate 8 { held := [], pkts := 0 }, faOps := [], optState := [], shoots := [], host := HostPort.reset,
    col := Collier.reset }

/-- The machine right after reset: no memory listed, no team, every context idle. -/
def State.reset : State :=
  { time := 0, freeIx := 0, nextId := 0, sel := none, agenda := [], upsets := [], patience := [], note := .done, mem := [], poison := [], deltas := [], undo := [], reds := [], landings := [],
    updates := [], cords := [], statuses := [], fabricMsgs := [], packets := [], transit := [], frags := [], cx := Context.idle 0 0, others := [],
    cores := [], ready := [], waiters := [], teams := [], feds := [], chips := [] }

end Sys2Proof.Machine
end

