-- ==== Sys2Proof/Machine/Mem.lean ====
section
/-! DEFINITION. The memory of the fabric: one canonical list of (key, byte) pairs, and the bit and byte helpers that every
other file uses. A key is a byte's home: chip * 2^64 + physical address for a global byte (R448, bit 51 host memory), and
2^96 + endpoint * 2^23 + space * 2^20 + offset for a typed-buffer byte (R30). -/
namespace Sys2Proof.Machine

/-! ### The list -/

/-- What an unlisted key reads as (DESIGN CHOICE, notes/assumptions/2.md). -/
def Memory.default : Byte := 0

/-- The byte at a key. -/
def Memory.get : Memory → Nat → Byte
  | [], _ => Memory.default
  | (k, v) :: m, a => if a = k then v else if a < k then Memory.default else Memory.get m a

/-- Write one byte, keeping the list canonical. -/
def Memory.set : Memory → Nat → Byte → Memory
  | [], a, v => if v = Memory.default then [] else [(a, v)]
  | (k, w) :: m, a, v =>
    if a < k then (if v = Memory.default then (k, w) :: m else (a, v) :: (k, w) :: m)
    else if a = k then (if v = Memory.default then m else (a, v) :: m)
    else (k, w) :: Memory.set m a v

/-- Keys strictly rising above `lo`, and no entry equal to what an unlisted key reads as. -/
def Memory.wfFrom : Option Nat → Memory → Bool
  | _, [] => true
  | lo, (k, v) :: m => (match lo with | none => true | some l => decide (l < k)) && v != Memory.default && Memory.wfFrom (some k) m

/-- The canonical form. -/
def Memory.wf (m : Memory) : Bool := Memory.wfFrom none m

/-- The entries that list bytes at consecutive keys. -/
def Memory.cells : Nat → List Byte → Memory
  | _, [] => []
  | a, b :: bs => if b = Memory.default then Memory.cells (a + 1) bs else (a, b) :: Memory.cells (a + 1) bs

/-- Write bytes at consecutive keys: the entries below, the bytes', the entries above. -/
def Memory.setBytes : Memory → Nat → List Byte → Memory
  | [], a, bs => Memory.cells a bs
  | (k, w) :: m, a, bs =>
    if k < a then (k, w) :: Memory.setBytes m a bs
    else Memory.cells a bs ++ ((k, w) :: m).dropWhile fun c => decide (c.1 < a + bs.length)

/-- Read `n` bytes from consecutive keys. -/
def Memory.getBytes (m : Memory) (a n : Nat) : List Byte := (List.range n).map fun i => m.get (a + i)

/-- Zero-fill (R132). -/
def Memory.dropRange (m : Memory) (lo hi : Nat) : Memory := m.filter fun c => c.1 < lo || hi ≤ c.1

/-! ### Bytes and words (R5: little-endian) -/

/-- The value of bytes, the lowest first. -/
def leNat : List Byte → Nat
  | [] => 0
  | b :: bs => b.toNat + 256 * leNat bs

/-- The `n` low bytes of a value, the lowest first. -/
def bytesOf (v : Nat) : Nat → List Byte
  | 0 => []
  | n + 1 => BitVec.ofNat 8 v :: bytesOf (v / 256) n

/-- Bits [lo + len - 1 : lo] of a natural number. -/
def bits (v lo len : Nat) : Nat := v / 2 ^ lo % 2 ^ len

def testBit (v i : Nat) : Bool := v / 2 ^ i % 2 == 1

/-- The number of ones in the low `n` bits. -/
def popCount (v : Nat) : Nat → Nat
  | 0 => 0
  | n + 1 => v % 2 + popCount (v / 2) n

/-- The signed value of the low `w` bits. -/
def sintOf (w v : Nat) : Int := if testBit (v % 2 ^ w) (w - 1) then (v % 2 ^ w : Int) - 2 ^ w else v % 2 ^ w

/-- The low `w` bits of an integer. -/
def natOfInt (w : Nat) (i : Int) : Nat := (i % (2 ^ w : Int)).toNat

/-- Sign-extend the low `w` bits to 64. -/
def sext64 (w v : Nat) : Word := BitVec.ofInt 64 (sintOf w v)

/-- Saturating sum. -/
def satAdd (w a b : Nat) : Nat := if a + b < 2 ^ w then a + b else 2 ^ w - 1

/-- Floor of the base-2 logarithm, 0 for 0, by fuel. -/
def log2Aux : Nat → Nat → Nat
  | 0, _ => 0
  | f + 1, n => if n < 2 then 0 else log2Aux f (n / 2) + 1

def log2 (n : Nat) : Nat := log2Aux 4096 n

/-! ### Association lists -/

/-- Replace or append the entry of a key. -/
def alPut [BEq α] (l : List (α × β)) (k : α) (v : β) : List (α × β) :=
  if l.any (fun p => p.1 == k) then l.map (fun p => if p.1 == k then (k, v) else p) else l ++ [(k, v)]

/-- The entry of a key, or a default. -/
def alGet [BEq α] (l : List (α × β)) (k : α) (d : β) : β := (l.lookup k).getD d

/-- Sort by an order, by insertion. -/
def insertBy (lt : α → α → Bool) (x : α) : List α → List α
  | [] => [x]
  | y :: ys => if lt x y then x :: y :: ys else y :: insertBy lt x ys

def sortBy (lt : α → α → Bool) : List α → List α
  | [] => []
  | x :: xs => insertBy lt x (sortBy lt xs)

/-- CRC-16 of polynomial 0x1021, unreflected (R54, R393): one bit, one byte, a string. -/
def crcBit (crc : BitVec 16) (b : Bool) : BitVec 16 :=
  if crc.getLsbD 15 != b then (crc <<< 1) ^^^ 0x1021 else crc <<< 1

def crcByte (crc : BitVec 16) (b : Byte) : BitVec 16 :=
  (List.range 8).foldl (fun c i => crcBit c (b.getLsbD (7 - i))) crc

def crc16 (crc : BitVec 16) (bs : List Byte) : BitVec 16 := bs.foldl crcByte crc

/-! ### Keys -/

/-- The key of a physical byte of a chip (R448, R352). -/
def physKey (chip : ChipNo) (pa : Nat) : Nat := chip.toNat * 2 ^ 64 + pa

/-- The key of a typed-buffer byte. -/
def bufKey (ep : EP) (space off : Nat) : Nat := 2 ^ 96 + ep.toNat * 2 ^ 23 + space * 2 ^ 20 + off

def isBufKey (k : Nat) : Bool := decide (2 ^ 96 ≤ k)
def bufKeyEp (k : Nat) : EP := BitVec.ofNat 32 ((k - 2 ^ 96) / 2 ^ 23)
def bufKeySpace (k : Nat) : Nat := (k - 2 ^ 96) / 2 ^ 20 % 8
def bufKeyOff (k : Nat) : Nat := (k - 2 ^ 96) % 2 ^ 20
def physChip (k : Nat) : ChipNo := BitVec.ofNat 18 (k / 2 ^ 64)
def physPa (k : Nat) : Nat := k % 2 ^ 64

end Sys2Proof.Machine
end

