-- ==== Sys2Proof/Machine/Lookup.lean ====
section
/-! DEFINITION. Finding things: units and endpoints, contexts, cores, chips, teams, and the registers of a context. -/
namespace Sys2Proof.Machine

/-! ### Fault codes (R350) and how a step can stop -/
namespace Code
def illop : BitVec 16 := 0x0001
def illine : BitVec 16 := 0x0002
def btarget : BitVec 16 := 0x0003
def allot : BitVec 16 := 0x0004
def priv : BitVec 16 := 0x0005
def illsr : BitVec 16 := 0x0006
def page : BitVec 16 := 0x0010
def stack : BitVec 16 := 0x0011
def prot : BitVec 16 := 0x0012
def cls : BitVec 16 := 0x0013
def fmt : BitVec 16 := 0x0014
def align : BitVec 16 := 0x0015
def space : BitVec 16 := 0x0016
def rank : BitVec 16 := 0x0017
def staleid : BitVec 16 := 0x0018
def group : BitVec 16 := 0x0019
def owner : BitVec 16 := 0x001A
def underflow : BitVec 16 := 0x0020
def qmisuse : BitVec 16 := 0x0021
def rickf : BitVec 16 := 0x0030
def farf : BitVec 16 := 0x0031
def cfsig : BitVec 16 := 0x0040
def parity : BitVec 16 := 0x0041
def abft : BitVec 16 := 0x0042
def tlbpar : BitVec 16 := 0x0043
def rescale : BitVec 16 := 0x0050
def peerabsent : BitVec 16 := 0x0061
def trapi : BitVec 16 := 0x0070
def brk : BitVec 16 := 0x0071
end Code

/-- How an instruction ends without its effect: a fault of the architecture, a stall that leaves a state, a stop of the
model. -/
inductive Stop where
  | trap (t : Trap)
  | wait (s : State)
  | halt (f : Fault)

abbrev Res (α : Type) := Except Stop α

/-- A fault with only a code. -/
def Trap.of (c : BitVec 16) : Trap :=
  { code := c, addr := 0, pc := none, write := false, fetch := false, vector := false, cause := none, resume := none,
    extra0 := 0, extra1 := 0 }

def Trap.on (c : BitVec 16) (a : Word) : Trap := { Trap.of c with addr := a }

def fail (c : BitVec 16) : Res α := .error (.trap (Trap.of c))
def failAt (c : BitVec 16) (a : Word) : Res α := .error (.trap (Trap.on c a))
def stall (s : State) : Res α := .error (.wait s)

/-- A check that faults with a code. -/
def need (ok : Bool) (c : BitVec 16) : Res Unit := if ok then .ok () else fail c
/-- A fault of a write carries WRITE (R349). -/
def asWrite (r : Res α) : Res α :=
  match r with
  | .error (.trap t) => .error (.trap { t with write := true })
  | x => x
def needAt (ok : Bool) (c : BitVec 16) (a : Word) : Res Unit := if ok then .ok () else failAt c a

/-! ### Units (R4, R386) -/

def epChip (e : EP) : ChipNo := e.extractLsb' 14 18
def epDie (e : EP) : Bool := e.getLsbD 13
def epUnit (e : EP) : Nat := (e.extractLsb' 0 13).toNat
def mkEp (chip : ChipNo) (die : Bool) (unit : Nat) : EP := chip ++ BitVec.ofBool die ++ BitVec.ofNat 13 unit
def isCompute (e : EP) : Bool := decide (epUnit e < 1024)
def isOpt (e : EP) : Bool := decide (1024 ≤ epUnit e) && decide (epUnit e < 1040)
def collierEp (chip : ChipNo) : EP := mkEp chip false 1088
def coreX (e : EP) : Nat := epUnit e % 32
def coreY (e : EP) : Nat := epUnit e / 32
def coreAt (chip : ChipNo) (die : Bool) (x y : Nat) : EP := mkEp chip die (y * 32 + x)
/-- The partition that holds a compute core (R4). -/
def partOf (e : EP) : Nat := 4 * (epDie e).toNat + 2 * (coreY e / 16) + coreX e / 16
/-- The cluster index of a compute core on its die (R4). -/
def clusterIx (e : EP) : Nat := 8 * (coreY e / 4) + coreX e / 4
/-- The cluster group that GMASK names (R341). -/
def groupOf (e : EP) : Nat := 16 * (epDie e).toNat + clusterIx e / 4
/-- The core index in its cluster (slot 0xF4). -/
def coreInCluster (e : EP) : Nat := 4 * (coreY e % 4) + coreX e % 4
def sameCluster (a b : EP) : Bool :=
  isCompute a && isCompute b && epChip a == epChip b && epDie a == epDie b && clusterIx a == clusterIx b
/-- The far agent of a physical byte's home controller (R448, R386). -/
def farAgentOf (key : Nat) : EP :=
  mkEp (physChip key) (testBit (physPa key) 38) (1040 + bits (physPa key) 12 3)
def isFarAgent (e : EP) : Bool := decide (1040 ≤ epUnit e) && decide (epUnit e ≤ 1047)
/-- Hardware contexts of a core (R112, R410, chapter 28). -/
def ctxCount (e : EP) : Nat := if isCompute e then 4 else if isOpt e then 2 else 1

/-! ### Parts of the state -/

def State.core (s : State) (e : EP) : Core := alGet s.cores e.toNat
  (let c := Core.reset (epChip e); if isOpt e then { c with freeG := 16, freeV := 8 } else c)
def State.setCore (s : State) (e : EP) (c : Core) : State := { s with cores := alPut s.cores e.toNat c }
def State.modCore (s : State) (e : EP) (f : Core → Core) : State := s.setCore e (f (s.core e))
def State.chip (s : State) (c : ChipNo) : Chip := alGet s.chips c.toNat (Chip.reset c)
def State.setChip (s : State) (c : ChipNo) (x : Chip) : State := { s with chips := alPut s.chips c.toNat x }
def State.modChip (s : State) (c : ChipNo) (f : Chip → Chip) : State := s.setChip c (f (s.chip c))
def State.team? (s : State) (chip : ChipNo) (id : Word32) : Option Team :=
  s.teams.find? fun t => t.chip == chip && t.id == id
def State.modTeam (s : State) (chip : ChipNo) (id : Word32) (f : Team → Team) : State :=
  { s with teams := s.teams.map fun t => if t.chip == chip && t.id == id then f t else t }
def State.fed? (s : State) (id : Word32) : Option Fed := s.feds.find? fun f => f.id == id

/-- A team whose supersteps still run (R211). -/
def TState.live : TState → Bool
  | .opened | .closing | .committing | .aborting | .halting | .resuming => true
  | .none | .saved | .complete | .terminated => false

def Team.live (t : Team) : Bool := t.state.live
def State.liveTeam? (s : State) (chip : ChipNo) (id : Word32) : Option Team :=
  s.teams.find? fun t => t.chip == chip && t.id == id && t.live
/-- The team of the executing context. -/
def State.myTeam (s : State) : Option Team := s.team? s.cx.chip s.cx.team
def Team.size (t : Team) : Nat := t.w * t.h
/-- TeamCore (R31): the core of a rank. -/
def Team.coreOf (t : Team) (r : Nat) : EP := coreAt t.chip t.die (t.x0 + r % t.w) (t.y0 + r / t.w)
def Team.cores (t : Team) : List EP := (List.range t.size).map t.coreOf
/-- The partition whose root translates a team's addresses (R337). -/
def Team.part (t : Team) : Nat := partOf (t.coreOf 0)
/-- A team made of whole clusters (R31). -/
def Team.wholeClusters (t : Team) : Bool := t.x0 % 4 == 0 && t.y0 % 4 == 0 && t.w % 4 == 0 && t.h % 4 == 0

def Context.is (c : Context) (e : EP) (n : BitVec 2) : Bool := c.ep == e && c.no == n
def State.contexts (s : State) : List Context := s.cx :: s.others
def State.ctx (s : State) (e : EP) (n : BitVec 2) : Context :=
  (s.contexts.find? fun c => c.is e n).getD (Context.idle e n)
/-- Replace a context's entry, wherever it stands. -/
def State.setCtx (s : State) (c : Context) : State :=
  if s.cx.is c.ep c.no then { s with cx := c }
  else { s with others := (s.others.filter fun x => !x.is c.ep c.no) ++ [c] }
def State.modCtx (s : State) (e : EP) (n : BitVec 2) (f : Context → Context) : State := s.setCtx (f (s.ctx e n))
/-- Make a context the executing one. -/
def State.switchTo (s : State) (e : EP) (n : BitVec 2) : State :=
  if s.cx.is e n then s
  else { s with cx := s.ctx e n, others := s.cx :: s.others.filter fun c => !c.is e n }
def State.coreCtxs (s : State) (e : EP) : List Context := s.contexts.filter fun c => c.ep == e
def Context.bound (c : Context) : Bool := c.mode != .idle
/-- The context bound to a record of a team. -/
def State.ctxOfRec (s : State) (chip : ChipNo) (team : Word32) (r : Word) : Option Context :=
  s.contexts.find? fun c => c.bound && c.chip == chip && c.team == team && c.recA == r

def Core.reg (c : Core) (n : Nat) (d : Word) : Word := alGet c.regs n d
def Core.setReg (c : Core) (n : Nat) (v : Word) : Core := { c with regs := alPut c.regs n v }
def Chip.reg (c : Chip) (n : Nat) (d : Word) : Word := alGet c.regs n d
def Chip.setReg (c : Chip) (n : Nat) (v : Word) : Chip := { c with regs := alPut c.regs n v }

/-! ### The slot table of a core (R277, R278) -/

/-- The reset value of MXSLOT (R278): any context in every slot. -/
def mxslotReset : Word := 0x4444444444444444

/-- F-cycles since the package's last fundamental reset, from which the rounds of 64 A-cycles count (R277). -/
def roundTime (s : State) (e : EP) : Nat := s.time - (s.chip (epChip e)).col.epoch

/-- The slot table in force: one written in the present round waits for the next (R278). -/
def slotTable (s : State) (e : EP) : Word :=
  let k := s.core e
  match k.slotOld with
  | some (v, r) => if roundTime s e / 128 = r then v else k.reg 0x300 mxslotReset
  | none => k.reg 0x300 mxslotReset

/-- Draw a free value: the reading, and the state with the counter advanced (notes/assumptions/5.md). -/
def State.draw (s : State) : Nat × State := (s.freeIx, { s with freeIx := s.freeIx + 1 })
def State.freshId (s : State) : Nat × State := (s.nextId, { s with nextId := s.nextId + 1 })

/-! ### The registers of the executing context (R23) -/

/-- A g register. A vector instruction that issues from the queue or the repetition reads the value captured at its
hand-off (R75, R78). g0 reads as zero. -/
def Context.gr (c : Context) (r : GReg) : Word :=
  if r = 0 then 0
  else match c.vsrc with
    | .control => c.g[r.toNat]'(r.isLt)
    | _ => (c.caps.lookup r.toNat).getD (c.g[r.toNat]'(r.isLt))
def Context.setGr (c : Context) (r : GReg) (v : Word) : Context :=
  if r = 0 then c else { c with g := c.g.set r.toNat v r.isLt }
def Context.vr (c : Context) (r : VReg) : VWord := c.v[r.toNat]'(r.isLt)
def Context.setVr (c : Context) (r : VReg) (x : VWord) : Context := { c with v := c.v.set r.toNat x r.isLt }
def Context.kr (c : Context) (r : KReg) : Mask := c.k[r.toNat]'(r.isLt)
def Context.setKr (c : Context) (r : KReg) (x : Mask) : Context := { c with k := c.k.set r.toNat x r.isLt }
/-- p0 reads as 1. -/
def Context.pr (c : Context) (r : PReg) : Bool := if r = 0 then true else c.p[r.toNat]'(r.isLt)
def Context.setPr (c : Context) (r : PReg) (x : Bool) : Context :=
  if r = 0 then c else { c with p := c.p.set r.toNat x r.isLt }
def Context.qr (c : Context) (r : QReg) : List Word := c.q[r.toNat]'(r.isLt)
def Context.setQr (c : Context) (r : QReg) (x : List Word) : Context := { c with q := c.q.set r.toNat x r.isLt }

def State.g (s : State) (r : GReg) : Word := s.cx.gr r
def State.setG (s : State) (r : GReg) (v : Word) : State := { s with cx := s.cx.setGr r v }
def State.v (s : State) (r : VReg) : VWord := s.cx.vr r
def State.setV (s : State) (r : VReg) (v : VWord) : State := { s with cx := s.cx.setVr r v }
def State.k (s : State) (r : KReg) : Mask := s.cx.kr r
def State.setK (s : State) (r : KReg) (v : Mask) : State := { s with cx := s.cx.setKr r v }
def State.p (s : State) (r : PReg) : Bool := s.cx.pr r
def State.setP (s : State) (r : PReg) (v : Bool) : State := { s with cx := s.cx.setPr r v }
def State.q (s : State) (r : QReg) : List Word := s.cx.qr r
def State.setQ (s : State) (r : QReg) (v : List Word) : State := { s with cx := s.cx.setQr r v }
/-- OR float flags into FFLAGS (R59). -/
def State.orFlags (s : State) (f : BitVec 5) : State := { s with cx := { s.cx with fflags := s.cx.fflags ||| f } }
def State.setPc (s : State) (pc : Word) : State := { s with cx := { s.cx with pc := pc } }

/-- Register r + i of a group. -/
def grpReg (r : GReg) (i : Nat) : GReg := r + BitVec.ofNat 7 i
/-- The words of a group of n registers. -/
def State.group (s : State) (r : GReg) (n : Nat) : List Word := (List.range n).map fun i => s.g (grpReg r i)
def State.setGroup (s : State) (r : GReg) (ws : List Word) : State :=
  (ws.zipIdx).foldl (fun s p => s.setG (grpReg r p.2) p.1) s

/-- The slot after a PC (R10). -/
def nextSlot (pc : Word) : Word :=
  if pc.extractLsb' 0 3 = 4 then ((pc >>> 6) + 1) <<< 6 else pc + 1

/-- One core's team, as R449 numbers its clusters: columns, rows and the index of a core's cluster. -/
def Team.clusterCols (t : Team) : Nat := (t.x0 + t.w - 1) / 4 - t.x0 / 4 + 1
def Team.clusterRows (t : Team) : Nat := (t.y0 + t.h - 1) / 4 - t.y0 / 4 + 1
def Team.clusterCount (t : Team) : Nat := t.clusterCols * t.clusterRows
def Team.clusterOf (t : Team) (e : EP) : Nat := (coreY e / 4 - t.y0 / 4) * t.clusterCols + (coreX e / 4 - t.x0 / 4)

/-! ### System-register views that several parts read -/

/-- HBMCAP j (R448): blocks a controller backs. -/
def hbmBlocks (c : Chip) (j : Nat) : Nat := (c.reg (0x230 + j) 0x800000).toNat
/-- Whether a physical address names memory (R448, R352). -/
def paValid (c : Chip) (pa : Nat) : Bool :=
  if testBit pa 51 then decide (pa < 2 ^ 52)
  else decide (pa < 2 ^ 39) && decide (bits pa 15 23 < hbmBlocks c (8 * bits pa 38 1 + bits pa 12 3))
def ptRoot (c : Chip) (part : Nat) : Nat := (c.reg (0x210 + part) 0).toNat

/-- Whether a port is up (R395, R400). -/
def Port.up (p : Port) : Bool := decide (2 ≤ p.state)
/-- Whether a port is up or trains: while it trains, what is routed on it waits (R396, R441). -/
def Port.live (p : Port) : Bool := p.state != 0
/-- The PORTS entry of a destination chip in the route table (R391). -/
def routeEntry (s : State) (own dest : ChipNo) : Nat :=
  leNat (s.mem.getBytes (physKey own ((s.chip own).reg 0x620 0).toNat + 2 * dest.toNat) 2) % 2 ^ 12
/-- A port of a chip. -/
def portIs (s : State) (own : ChipNo) (f : Port → Bool) (p : Nat) : Bool := ((s.chip own).ports.toList[p]?.map f).getD false
/-- The ports that the route table names toward a chip. -/
def routePorts (s : State) (own dest : ChipNo) : List Nat := (List.range 12).filter (testBit (routeEntry s own dest))
/-- The lowest-numbered port toward a chip that is up (R391); while none is up, the lowest-numbered one that trains, since a port
that trains is not down and no chip is lost by it (R396, R398; DEDUCED, notes/assumptions/137.md). -/
def routePort (s : State) (own dest : ChipNo) : Option Nat :=
  ((routePorts s own dest).find? (portIs s own Port.up)).orElse fun _ => (routePorts s own dest).find? (portIs s own Port.live)
/-- Whether a port of a chip is up. -/
def portUp (s : State) (own : ChipNo) (p : Nat) : Bool := portIs s own Port.up p
/-- Whether a port of a chip has not gone down. -/
def portLive (s : State) (own : ChipNo) (p : Nat) : Bool := portIs s own Port.live p

/-- The edge gateway that a port's packets to a chip pass: gateway CHIP mod 4 of the port's edge (R391). -/
def gatewayOf (own : ChipNo) (port : Nat) (dest : ChipNo) : EP :=
  let edge : Nat := match port % 6 with | 0 | 1 => 0 | 2 | 3 => 2 | 4 => 1 | _ => 3
  mkEp own (decide (6 ≤ port)) (1056 + 4 * edge + dest.toNat % 4)

/-- The payload of a packet whose contents the manual does not lay out, by the number of what it carries. -/
def freePayload (n : Nat) : List Byte := (Config.linkPayload n).take 512

/-- A link packet goes to its port's gateway. -/
def gwPush (s : State) (own : ChipNo) (port : Nat) (x : LinkPacket) : State :=
  let (id, s) := s.freshId
  s.modChip own fun c => { c with gw := c.gw ++ [{ id := id, pkt := x, port := port }] }

/-- The link packets of an operation leave for another chip (R392). -/
def sendParts (s : State) (own dest : ChipNo) (port : Nat) (vc : BitVec 2) (op : Nat) (ds : List (List Byte)) : State :=
  let s := { s with transit := s.transit ++ (List.range ds.length).map fun i => (op, i) }
  ds.zipIdx.foldl (fun s d => gwPush s own port { src := own, dest := dest, vc := vc, load := .part op d.2, payload := d.1 }) s

/-- Link packets of an operation are still on their way. -/
def moving (s : State) (op : Nat) : Bool := s.transit.any fun t => t.1 == op

/-- The port of an operation's next packet: the one it has, until that goes down, else the route's (R391, R396). -/
def portFor (s : State) (own dest : ChipNo) (has : Option Nat) : Option Nat :=
  match has with
  | some p => if portLive s own p then some p else routePort s own dest
  | none => routePort s own dest

/-- A team's federation. After a loss each side keeps the ID for itself (R398, R409), so the members tell sides apart. -/
def State.fedOf (s : State) (t : Team) : Option Fed :=
  s.feds.find? fun f => f.id == t.fed && f.members.any fun m => m.1 == t.chip && m.2 == t.id
/-- A chip reported lost to the federation of a team, as the team's chip judges it (R398). -/
def reportedLost (s : State) (t : Team) (dest : ChipNo) : Bool :=
  t.gone.contains dest ||
  match s.fedOf t with
  | some f => f.gone.contains (t.chip, dest)
  | none => false
/-- A chip that a team's operations can reach: a port leads to it, and it is not reported lost (R391, R398). -/
def reachable (s : State) (t : Team) (dest : ChipNo) : Bool :=
  dest == t.chip || (!reportedLost s t dest && (routePort s t.chip dest).isSome)

end Sys2Proof.Machine
end

