-- ==== Sys2Proof/Machine/Flags.lean ====
section
/-! DEFINITION. Floating point and its flags, exactly: a float is a sign, a natural mantissa and an integer exponent; each
operation computes the exact result and Round (R267, R268) narrows it once. The formats of R263 and their conversions. -/
namespace Sys2Proof.Machine

/-! ### Flags (R59) -/
abbrev Fl := BitVec 5
def flNV : Fl := 16
def flDZ : Fl := 8
def flOF : Fl := 4
def flUF : Fl := 2
def flNX : Fl := 1

/-! ### Formats (R263) -/

/-- Which special encodings a format has (R264). -/
inductive Specials where
  | ieee | nanOnly | none
  deriving DecidableEq, Repr

/-- A float format. `low` counts the held bits below the fraction that readers ignore and writers zero (FP19). -/
structure FSpec where
  ebits : Nat
  fbits : Nat
  bias : Nat
  low : Nat
  sp : Specials
  deriving DecidableEq, Repr

def fp64 : FSpec := { ebits := 11, fbits := 52, bias := 1023, low := 0, sp := .ieee }
def fp32 : FSpec := { ebits := 8, fbits := 23, bias := 127, low := 0, sp := .ieee }
def fp19 : FSpec := { ebits := 8, fbits := 10, bias := 127, low := 13, sp := .ieee }
def bf16 : FSpec := { ebits := 8, fbits := 7, bias := 127, low := 0, sp := .ieee }
def fp16 : FSpec := { ebits := 5, fbits := 10, bias := 15, low := 0, sp := .ieee }
def e5m2 : FSpec := { ebits := 5, fbits := 2, bias := 15, low := 0, sp := .ieee }
def e4m3 : FSpec := { ebits := 4, fbits := 3, bias := 7, low := 0, sp := .nanOnly }
def e3m2 : FSpec := { ebits := 3, fbits := 2, bias := 3, low := 0, sp := .none }
def e2m3 : FSpec := { ebits := 2, fbits := 3, bias := 1, low := 0, sp := .none }
def e2m1 : FSpec := { ebits := 2, fbits := 1, bias := 1, low := 0, sp := .none }

def fspec : FloatTy → FSpec
  | .f64 => fp64
  | .f32 => fp32
  | .f19 => fp19
  | .bf16 => bf16
  | .f16 => fp16

/-- A value that a float element holds. -/
inductive FV where
  | nan (neg sig : Bool)
  | inf (neg : Bool)
  /-- ± m · 2^e -/
  | fin (neg : Bool) (m : Nat) (e : Int)
  deriving DecidableEq, Repr

/-- The value of a pattern (R264). -/
def FSpec.decode (f : FSpec) (v : Nat) : FV :=
  let x := v / 2 ^ f.low
  let fr := x % 2 ^ f.fbits
  let ex := bits x f.fbits f.ebits
  let neg := testBit x (f.fbits + f.ebits)
  if f.sp = .ieee && ex == 2 ^ f.ebits - 1 then
    (if fr = 0 then .inf neg else .nan neg (!testBit fr (f.fbits - 1)))
  else if f.sp = .nanOnly && ex == 2 ^ f.ebits - 1 && fr == 2 ^ f.fbits - 1 then .nan neg false
  else if ex = 0 then .fin neg fr (1 - (f.bias : Int) - f.fbits)
  else .fin neg (2 ^ f.fbits + fr) ((ex : Int) - f.bias - f.fbits)

def FSpec.signBit (f : FSpec) (neg : Bool) : Nat := if neg then 2 ^ (f.low + f.fbits + f.ebits) else 0

/-- The canonical quiet NaN (R58, R264). -/
def FSpec.qnan (f : FSpec) : Nat :=
  match f.sp with
  | .ieee => ((2 ^ f.ebits - 1) * 2 ^ f.fbits + 2 ^ (f.fbits - 1)) * 2 ^ f.low
  | _ => (2 ^ (f.ebits + f.fbits) - 1) * 2 ^ f.low

def FSpec.infBits (f : FSpec) (neg : Bool) : Nat := f.signBit neg + (2 ^ f.ebits - 1) * 2 ^ (f.fbits + f.low)

/-- The largest finite pattern without its sign (R263). -/
def FSpec.maxBits (f : FSpec) : Nat :=
  (match f.sp with
   | .ieee => (2 ^ f.ebits - 1) * 2 ^ f.fbits - 1
   | .nanOnly => 2 ^ (f.ebits + f.fbits) - 2
   | .none => 2 ^ (f.ebits + f.fbits) - 1) * 2 ^ f.low

/-- The largest finite value as mantissa and exponent. -/
def FSpec.maxVal (f : FSpec) : Nat × Int :=
  match f.decode f.maxBits with
  | .fin _ m e => (m, e)
  | _ => (0, 0)

/-- The exact integer m · 2^(e − q), with what is cut off below: (kept, rest, width of the rest). -/
def cut (m : Nat) (e q : Int) : Nat × Nat × Nat :=
  if q ≤ e then (m * 2 ^ (e - q).toNat, 0, 0)
  else
    let sh := (q - e).toNat
    (m / 2 ^ sh, m % 2 ^ sh, sh)

/-- Whether the kept part is raised by one (R267). -/
def roundUp (mode : Rnd) (neg : Bool) (kept rest sh : Nat) : Bool :=
  if rest = 0 then false
  else match mode with
    | .rz => false
    | .ru => !neg
    | .rd => neg
    | .rna => decide (2 ^ sh ≤ 2 * rest)
    | .rne => decide (2 ^ sh < 2 * rest) || (2 * rest == 2 ^ sh && kept % 2 == 1)

/-- Round an exact value to an integer: magnitude, and whether it is inexact (R267 with q = 1). -/
def roundInt (mode : Rnd) (neg : Bool) (m : Nat) (e : Int) : Nat × Bool :=
  let c := cut m e 0
  (c.1 + (roundUp mode neg c.1 c.2.1 c.2.2).toNat, c.2.1 != 0)

/-- Whether m · 2^e exceeds n · 2^d. -/
def magGt (m : Nat) (e : Int) (n : Nat) (d : Int) : Bool :=
  if d ≤ e then decide (n < m * 2 ^ (e - d).toNat) else decide (n * 2 ^ (d - e).toNat < m)

/-- What R268 delivers beyond the range. -/
def FSpec.overflow (f : FSpec) (mode : Rnd) (neg : Bool) : Nat × Fl :=
  let toMax := f.signBit neg + f.maxBits
  (match f.sp, mode with
   | .ieee, .rne | .ieee, .rna => f.infBits neg
   | .ieee, .rz => toMax
   | .ieee, .ru => if neg then toMax else f.infBits neg
   | .ieee, .rd => if neg then f.infBits neg else toMax
   | .nanOnly, _ | .none, _ => toMax, flOF ||| flNX)

/-- Round (R267, R268): the pattern and the flags of ± m · 2^e. -/
def FSpec.round (f : FSpec) (mode : Rnd) (neg : Bool) (m : Nat) (e : Int) : Nat × Fl :=
  if m = 0 then (f.signBit neg, 0)
  else
    let emin : Int := 1 - (f.bias : Int)
    let top : Int := (log2 m : Int) + e
    let q : Int := (if top < emin then emin else top) - f.fbits
    let c := cut m e q
    let k := c.1 + (roundUp mode neg c.1 c.2.1 c.2.2).toNat
    let inexact := c.2.1 != 0
    let mx := f.maxVal
    if magGt k q mx.1 mx.2 then f.overflow mode neg
    else
      let tiny := decide (k < 2 ^ f.fbits)
      let l := log2 k
      let pat := if tiny then k
        else ((l : Int) + q + f.bias).toNat * 2 ^ f.fbits + (k * 2 ^ f.fbits / 2 ^ l - 2 ^ f.fbits)
      (f.signBit neg + pat * 2 ^ f.low,
       (if inexact then flNX else 0) ||| (if inexact && tiny then flUF else 0))

/-- NV when an operand is a signalling NaN (R58). -/
def sigFlag (l : List FV) : Fl :=
  if l.any (fun v => match v with | .nan _ s => s | _ => false) then flNV else 0

def FV.isNan : FV → Bool
  | .nan _ _ => true
  | _ => false
def FV.neg : FV → FV
  | .nan n s => .nan (!n) s
  | .inf n => .inf (!n)
  | .fin n m e => .fin (!n) m e

/-- A term of an exact sum. -/
abbrev Term := Bool × Nat × Int

/-- The exact sum of finite terms (R60): sign, magnitude and exponent. -/
def sumTerms (mode : Rnd) (ts : List Term) : Bool × Nat × Int :=
  let e := ts.foldl (fun a t => if t.2.2 < a then t.2.2 else a) (ts.headD (false, 0, 0)).2.2
  let n : Int := ts.foldl (fun a t =>
    let x : Int := (t.2.1 : Int) * 2 ^ (t.2.2 - e).toNat
    if t.1 then a - x else a + x) 0
  if n = 0 then
    let allZero := ts.all fun t => t.2.1 == 0
    if allZero && ts.all (fun t => t.1) then (true, 0, e)
    else if allZero && ts.all (fun t => !t.1) then (false, 0, e)
    else (mode == .rd, 0, e)
  else (decide (n < 0), n.natAbs, e)

/-- A product of two values, as a term of a sum (R60). -/
def mulFV : FV → FV → FV
  | .nan n s, _ => .nan n s
  | _, .nan n s => .nan n s
  | .inf a, .inf b => .inf (a != b)
  | .inf a, .fin b m _ => if m = 0 then .nan false false else .inf (a != b)
  | .fin a m _, .inf b => if m = 0 then .nan false false else .inf (a != b)
  | .fin a m e, .fin b n d => .fin (a != b) (m * n) (e + d)

/-- 0 × ∞ (R60). -/
def badMul : FV → FV → Bool
  | .inf _, .fin _ m _ | .fin _ m _, .inf _ => m == 0
  | _, _ => false

/-- Round of an exact sum of values, one rounding (R60, R91, R251). `ins` are the operands, for NaN and its flag;
`bad` marks an invalid product among the terms. -/
def FSpec.sum (f : FSpec) (mode : Rnd) (ins : List FV) (bad : Bool) (ts : List FV) : Nat × Fl :=
  if bad then (f.qnan, flNV)
  else if ins.any FV.isNan then (f.qnan, sigFlag ins)
  else
    let infs := ts.filterMap fun t => match t with | .inf n => some n | _ => none
    match infs with
    | n :: rest => if rest.all (· == n) then (f.infBits n, 0) else (f.qnan, flNV)
    | [] =>
      let r := sumTerms mode (ts.filterMap fun t => match t with | .fin n m e => some (n, m, e) | _ => none)
      f.round mode r.1 r.2.1 r.2.2

def FSpec.add (f : FSpec) (mode : Rnd) (a b : Nat) : Nat × Fl :=
  let x := f.decode a; let y := f.decode b
  f.sum mode [x, y] false [x, y]

def FSpec.sub (f : FSpec) (mode : Rnd) (a b : Nat) : Nat × Fl :=
  let x := f.decode a; let y := f.decode b
  f.sum mode [x, y] false [x, y.neg]

def FSpec.fma (f : FSpec) (mode : Rnd) (a b d : Nat) : Nat × Fl :=
  let x := f.decode a; let y := f.decode b; let z := f.decode d
  let r := f.sum mode [x, y, z] (badMul x y) [mulFV x y, z]
  -- a signalling NaN in d beside 0 × ∞ still sets NV, which it already is
  r

def FSpec.mul (f : FSpec) (mode : Rnd) (a b : Nat) : Nat × Fl :=
  let x := f.decode a; let y := f.decode b
  if badMul x y then (f.qnan, flNV)
  else match mulFV x y with
    | .nan _ _ => (f.qnan, sigFlag [x, y])
    | .inf n => (f.infBits n, 0)
    | .fin n m e => f.round mode n m e

/-- A quotient with enough bits for one rounding: the remainder becomes one low bit (R60). -/
def FSpec.div (f : FSpec) (mode : Rnd) (a b : Nat) : Nat × Fl :=
  match f.decode a, f.decode b with
  | .nan n s, y => (f.qnan, sigFlag [.nan n s, y])
  | x, .nan n s => (f.qnan, sigFlag [x, .nan n s])
  | .inf _, .inf _ => (f.qnan, flNV)
  | .inf n, .fin k _ _ => (f.infBits (n != k), 0)
  | .fin n _ _, .inf k => (f.signBit (n != k), 0)
  | .fin n m e, .fin k p d =>
    if p = 0 then (if m = 0 then (f.qnan, flNV) else (f.infBits (n != k), flDZ))
    else if m = 0 then (f.signBit (n != k), 0)
    else
      let sh := f.fbits + 4 + log2 p
      let num := m * 2 ^ sh
      let q := 2 * (num / p) + (if num % p = 0 then 0 else 1)
      f.round mode (n != k) q (e - d - sh - 1)

/-- The integer square root, one bit at a time from bit `i`. -/
def isqrtFrom (n : Nat) : Nat → Nat → Nat
  | 0, r => r
  | i + 1, r => if (r + 2 ^ i) * (r + 2 ^ i) ≤ n then isqrtFrom n i (r + 2 ^ i) else isqrtFrom n i r

def isqrt (n : Nat) : Nat := isqrtFrom n (log2 n / 2 + 1) 0

def FSpec.sqrt (f : FSpec) (mode : Rnd) (a : Nat) : Nat × Fl :=
  match f.decode a with
  | .nan n s => (f.qnan, sigFlag [.nan n s])
  | .inf n => if n then (f.qnan, flNV) else (f.infBits false, 0)
  | .fin n m e =>
    if m = 0 then (f.signBit n, 0)
    else if n then (f.qnan, flNV)
    else
      let odd := e % 2 = 1
      let m1 := if odd then 2 * m else m
      let e1 := if odd then e - 1 else e
      let sh := f.fbits + 4
      let x := m1 * 2 ^ (2 * sh)
      let r := isqrt x
      f.round mode false (2 * r + (if r * r = x then 0 else 1)) (e1 / 2 - sh - 1)

/-- The order of two values that are no NaN: −0 equals +0. -/
def cmpFV : FV → FV → Ordering
  | .inf a, .inf b => compare b.toNat a.toNat
  | .inf a, _ => if a then .lt else .gt
  | _, .inf b => if b then .gt else .lt
  | .fin a m e, .fin b n d =>
    let q := if e < d then e else d
    let x : Int := (if a then -1 else 1) * ((m : Int) * 2 ^ (e - q).toNat)
    let y : Int := (if b then -1 else 1) * ((n : Int) * 2 ^ (d - q).toNat)
    compare x y
  | _, _ => .eq

def FV.isNeg : FV → Bool
  | .nan n _ | .inf n | .fin n _ _ => n

/-- FMIN and FMAX (R61): −0 below +0. The pattern returned is the operand's own, as the format holds it. -/
def FSpec.minmax (f : FSpec) (max : Bool) (a b : Nat) : Nat × Fl :=
  let x := f.decode a; let y := f.decode b
  let held (v : Nat) := v % 2 ^ (f.low + f.fbits + f.ebits + 1) / 2 ^ f.low * 2 ^ f.low
  let fl := sigFlag [x, y]
  if x.isNan && y.isNan then (f.qnan, fl)
  else if x.isNan then (held b, fl)
  else if y.isNan then (held a, fl)
  else
    let less := match cmpFV x y with
      | .lt => true
      | .gt => false
      | .eq => x.isNeg && !y.isNeg
    (held (if less != max then a else b), fl)

/-- FCMP (R62). -/
def FSpec.cmp (f : FSpec) (c : FCond) (a b : Nat) : Bool × Fl :=
  let x := f.decode a; let y := f.decode b
  let anyNan := x.isNan || y.isNan
  let o := cmpFV x y
  let ordered (r : Bool) : Bool × Fl := if anyNan then (false, flNV) else (r, 0)
  match c with
  | .eq => (!anyNan && o == .eq, sigFlag [x, y])
  | .ne => (anyNan || o != .eq, sigFlag [x, y])
  | .lt => ordered (o == .lt)
  | .le => ordered (o != .gt)
  | .gt => ordered (o == .gt)
  | .ge => ordered (o != .lt)
  | .un => (anyNan, sigFlag [x, y])
  | .or => (!anyNan, sigFlag [x, y])

/-- FCLASS (R65): the one-hot class. -/
def FSpec.classify (f : FSpec) (a : Nat) : Nat :=
  match f.decode a with
  | .nan _ s => if s then 2 ^ 8 else 2 ^ 9
  | .inf n => if n then 2 ^ 0 else 2 ^ 7
  | .fin n m _ =>
    if m = 0 then (if n then 2 ^ 3 else 2 ^ 4)
    else if m < 2 ^ f.fbits then (if n then 2 ^ 2 else 2 ^ 5)
    else (if n then 2 ^ 1 else 2 ^ 6)

/-- FSGN (R65): bit for bit; FP19's ignored bits are written as zero (R58). -/
def FSpec.sgn (f : FSpec) (op : SgnOp) (a b : Nat) : Nat :=
  let w := f.low + f.fbits + f.ebits
  let sa := testBit a w; let sb := testBit b w
  let mag := a % 2 ^ w / 2 ^ f.low * 2 ^ f.low
  mag + f.signBit (match op with | .copy => sb | .neg => !sb | .xor => sa != sb)

/-! ### Conversions (R63, R93, R266-R269) -/

/-- Convert a value to a float format. -/
def FSpec.ofFV (f : FSpec) (mode : Rnd) : FV → Nat × Fl
  | .nan n s =>
    match f.sp with
    | .ieee => (if f.ebits == 5 && f.fbits == 2 then f.signBit n + f.qnan else f.qnan, if s then flNV else 0)
    | .nanOnly => (f.signBit n + f.qnan, if s then flNV else 0)
    | .none => (f.signBit n + f.maxBits, flNV)
  | .inf n =>
    match f.sp with
    | .ieee => (f.infBits n, 0)
    | _ => (f.signBit n + f.maxBits, flOF)
  | .fin n m e => f.round mode n m e

/-- Convert a value to an integer of W bits (R63, R266, R268). -/
def fvToInt (w : Nat) (signed : Bool) (mode : Rnd) : FV → Int × Fl
  | .nan _ _ => (0, flNV)
  | .inf n => (if n then (if signed then -(2 ^ (w - 1) : Int) else 0) else (if signed then 2 ^ (w - 1) - 1 else 2 ^ w - 1), flNV)
  | .fin n m e =>
    let r := roundInt mode n m e
    let y : Int := if n then -(r.1 : Int) else r.1
    let lo : Int := if signed then -(2 ^ (w - 1) : Int) else 0
    let hi : Int := if signed then 2 ^ (w - 1) - 1 else 2 ^ w - 1
    if y < lo then (lo, flNV) else if hi < y then (hi, flNV) else (y, if r.2 then flNX else 0)

/-- An integer as an exact value. -/
def fvOfInt (i : Int) : FV := .fin (decide (i < 0)) i.natAbs 0

/-- R271: the value of the first p planes of a stored byte. -/
def sbpVal (p : Nat) (centre : Bool) (b : Nat) : Int :=
  let x := sintOf 8 b
  let t := x - x % (2 ^ (8 - p) : Int)
  if centre && decide (p ≤ 7) then t + 2 ^ (7 - p) else t

/-- R93: the byte of an SBP target. -/
def fvToSbp (p : Nat) (mode : Rnd) (v : FV) : Nat × Fl :=
  let r := fvToInt 16 true mode v
  let y : Int × Fl := match v with
    | .nan _ _ => (0, flNV)
    | _ => if r.1 > 127 then (127, flNV) else if r.1 < -127 then (-127, flNV) else r
  let t := y.1 - y.1 % (2 ^ (8 - p) : Int)
  (natOfInt 8 t, y.2 ||| (if t = y.1 then 0 else flNX))

/-- What a format code of R263 names. -/
inductive FmtKind where
  | flt (f : FSpec)
  | int (w : Nat) (signed : Bool)
  | sbp (p : Nat)
  | bad
  deriving DecidableEq, Repr

def fmtKind (c : Nat) : FmtKind :=
  match c with
  | 0 => .flt fp64 | 1 => .flt fp32 | 2 => .flt fp19 | 3 => .flt bf16 | 4 => .flt fp16
  | 5 => .flt e5m2 | 6 => .flt e4m3 | 7 => .flt e3m2 | 8 => .flt e2m3 | 9 => .flt e2m1
  | 10 => .int 16 true | 11 => .int 8 true | 12 => .int 8 false | 13 => .int 4 true | 14 => .int 4 false
  | 15 => .int 2 true
  | 16 => .sbp 1 | 17 => .sbp 2 | 18 => .sbp 3 | 19 => .sbp 4 | 20 => .sbp 5 | 21 => .sbp 6 | 22 => .sbp 7 | 23 => .sbp 8
  | _ => .bad

/-- Bits that an element of a format occupies in a row (R265); SBP elements are stored bytes (R270). -/
def fmtBits (c : Nat) : Nat :=
  match c with
  | 0 => 64 | 1 => 32 | 2 => 32 | 3 => 16 | 4 => 16 | 10 => 16
  | 9 => 4 | 13 => 4 | 14 => 4 | 15 => 2
  | _ => 8

/-- The value of a stored element; an SBP element under the reading mode given. -/
def fmtVal (c : Nat) (centre : Bool) (v : Nat) : FV :=
  match fmtKind c with
  | .flt f => f.decode v
  | .int w s => fvOfInt (if s then sintOf w v else (v % 2 ^ w : Nat))
  | .sbp p => fvOfInt (sbpVal p centre v)
  | .bad => .nan false false

/-- Convert a value to a format code: the stored element and the flags (R269). -/
def fmtOf (c : Nat) (mode : Rnd) (v : FV) : Nat × Fl :=
  match fmtKind c with
  | .flt f => f.ofFV mode v
  | .int w s => let r := fvToInt w s mode v; (natOfInt w r.1, r.2)
  | .sbp p => fvToSbp p mode v
  | .bad => (0, 0)

/-- FCVT's parts (R64): high, middle and low BF16 parts of an FP32 pattern, and the flags. -/
def splitParts (a : Nat) : (Nat × Nat × Nat) × Fl :=
  match fp32.decode a with
  | .nan _ s => ((bf16.qnan, bf16.qnan, bf16.qnan), if s then flNV else 0)
  | .inf n => ((bf16.infBits n, 0, 0), 0)
  | .fin n m e =>
    if m = 0 then ((bf16.signBit n, 0, 0), 0)
    else
      let hi := (bf16.round .rz n m e).1
      let x : FV := .fin n m e
      let d1 := sumTerms .rz ((match x, (bf16.decode hi).neg with
        | .fin a b c, .fin a' b' c' => [(a, b, c), (a', b', c')]
        | _, _ => []))
      let mid := (bf16.round .rz d1.1 d1.2.1 d1.2.2).1
      let d2 := sumTerms .rne ((match (bf16.decode mid).neg with
        | .fin a' b' c' => [d1, (a', b', c')]
        | _ => []))
      let lo := (bf16.round .rne d2.1 d2.2.1 d2.2.2).1
      ((hi, mid, lo), 0)

end Sys2Proof.Machine
end

