-- ==== Sys2Proof/Machine/Access.lean ====
section
/-! DEFINITION. The error counters and the event log (R421, R425, R442). Reaching memory: pointers (R29-R31, R48), translation (R337-R342), the rights of R217, the classes of R219,
and the reads and writes of single bytes under them (R206, R221, R222, R224). -/
namespace Sys2Proof.Machine

/-! ### Error counters -/

/-- The function that reports an event of a partition (R422). -/
def reporter (s : State) (chip : ChipNo) (part : Nat) : Fn :=
  if part < (s.chip chip).host.numVfs then .vf (BitVec.ofNat 3 part) else .pf

/-- Count a correctable event and report it (R421, R422); nothing is counted from a fatal event on (R424). -/
def correctable (s : State) (chip : ChipNo) (fn : Fn) (f : Errs → Errs) : State :=
  let c := s.chip chip
  if c.stopped then s
  else
    let e := f c.errs
    s.setChip chip { c with errs := { e with aer := (fn, 0, 0, 0, 0) :: e.aer } }

def bumpOther (e : Errs) : Errs := { e with other := satAdd 16 e.other 1 }
def bumpLink (e : Errs) : Errs := { e with link := satAdd 16 e.link 1 }

/-- An entry of the event log: the newest first, 4,096 held. -/
def logEvent (s : State) (chip : ChipNo) (src : EP) (code data : Nat) : State :=
  s.modChip chip fun c =>
    let x : LogEntry := { time := (s.time - c.col.epoch) / 1400, src := src, code := code, data := data }
    { c with col := { c.col with log := (x :: c.col.log).take 4096, total := satAdd 32 c.col.total 1 } }

/-! ### Who makes an access -/

/-- The agents of R217's table. -/
inductive AgentKind where
  | control | vector | copy | landing | walker | cord | operand | drain | exchange | collective
  deriving DecidableEq, Repr

/-- The right of an agent to a typed buffer (R217): (read, write). Spaces 1 LM, 2 WB, 3 AB, 4 CB. -/
def bufRights (k : AgentKind) (own : Bool) (space : Nat) : Bool × Bool :=
  match k, own, space with
  | .control, true, 1 => (true, true)
  | .control, true, 2 => (true, true)
  | .control, true, 3 => (false, true)
  | .vector, true, 1 | .vector, true, 2 | .vector, true, 3 | .vector, true, 4 => (true, true)
  | .control, false, 1 | .vector, false, 1 | .cord, _, 1 | .collective, _, 1 => (true, true)
  | .control, false, 3 | .vector, false, 3 | .cord, _, 3 | .collective, _, 3 => (false, true)
  | .copy, _, 1 | .copy, _, 2 | .copy, _, 3 => (true, true)
  | .copy, _, 4 => (true, false)
  | .landing, true, 1 | .landing, true, 2 | .landing, true, 3 => (false, true)
  | .walker, true, 1 => (true, false)
  | .operand, _, 2 | .operand, _, 3 => (true, false)
  | .drain, true, 3 | .drain, true, 4 => (false, true)
  | .exchange, _, 2 | .exchange, _, 3 => (true, true)
  | _, _, _ => (false, false)

/-- On whose behalf an access is made. -/
structure Who where
  chip : ChipNo
  team : Word32
  rank : Nat
  ep : EP
  kind : AgentKind
  priv : Priv
  /-- Writes that belong to no superstep (R419). -/
  service : Bool
  /-- The partition whose root translates (R337). -/
  part : Nat
  /-- The GMASK check applies (R341). -/
  gmask : Bool
  /-- LIMIT and g2 for R157. -/
  stack : Option (Nat × Nat)
  readTag : Tag
  writeTag : Tag
  deriving DecidableEq, Repr

/-- What an access does. -/
structure Need where
  r : Bool
  w : Bool
  x : Bool
  atomic : Bool
  deriving DecidableEq, Repr

def Need.read : Need := { r := true, w := false, x := false, atomic := false }
def Need.write : Need := { r := false, w := true, x := false, atomic := false }
def Need.fetch : Need := { r := false, w := false, x := true, atomic := false }
/-- An atomic, RED or RRED needs both (R342). -/
def Need.rmw : Need := { r := true, w := true, x := false, atomic := true }

/-- A translation that an access uses: the leaf, the first address of its page, and whether an entry with a parity error was met in
a TLB or in a walk cache on the way (R343, R345). -/
structure XUse where
  chip : ChipNo
  part : Nat
  leaf : Leaf
  page : Nat
  badTlb : Bool
  badWalk : Bool
  deriving DecidableEq, Repr

/-- One byte of an access, resolved. -/
structure Place where
  key : Nat
  /-- 0 versioned, 1 live, 2 standing, 3 reserved (R219). -/
  cls : Nat
  /-- The endpoint that holds the byte (R326). -/
  dest : EP
  /-- The global virtual address, or the pointer of a typed-buffer byte. -/
  va : Word
  /-- The companion word of a global page; 0 elsewhere. -/
  cw : Word
  /-- A plane byte that reads as zero (R272). -/
  zero : Bool
  /-- The mirror copy's key and class (R389). -/
  mirror : Option (Nat × Nat)
  /-- A byte of a peer chip (space 6). -/
  peer : Bool
  /-- The translations that led to the byte: its own, its mirror copy's, and those of the table entries read on the way. -/
  via : List XUse
  deriving DecidableEq, Repr

/-- The keys and classes that a write of a byte reaches: its own, and its mirror copy's (R390). -/
def Place.keys (pl : Place) : List (Nat × Nat) := (pl.key, pl.cls) :: pl.mirror.toList

/-! ### Pointers (R29, R48) -/

def ptrSpace (p : Word) : Nat := (p.extractLsb' 60 4).toNat
def ptrRank (p : Word) : Nat := (p.extractLsb' 48 12).toNat

/-- PtrAdd (R48). -/
def ptrAdd (p d : Word) : Word :=
  let s := ptrSpace p
  if 1 ≤ s ∧ s ≤ 5 then p.extractLsb' 20 44 ++ (p.extractLsb' 0 20 + d.extractLsb' 0 20)
  else if s = 0 then p.extractLsb' 57 7 ++ (p.extractLsb' 0 57 + d.extractLsb' 0 57)
  else if s = 6 then p.extractLsb' 48 16 ++ (p.extractLsb' 0 48 + d.extractLsb' 0 48)
  else p + d

def ptrOff (p : Word) (i : Nat) : Word := ptrAdd p (BitVec.ofNat 64 i)

/-! ### Table walks (R337-R341) -/

def Leaf.bit (l : Leaf) (i : Nat) : Bool := l.entry.getLsbD i
def Leaf.ps (l : Leaf) : Nat := (l.entry.extractLsb' 7 2).toNat
/-- The base-2 logarithm of a page's size (R339). -/
def pageShift (ps : Nat) : Nat := match ps with | 0 => 12 | 1 => 16 | 2 => 21 | _ => 29
def entryAddr (e : Word) : Nat := bits e.toNat 12 40 * 4096
def Leaf.pa (l : Leaf) (va : Nat) : Nat := entryAddr l.entry + va % 2 ^ pageShift l.ps

def cwClass (cw : Word) : Nat := (cw.extractLsb' 40 2).toNat
def cwFmt (cw : Word) : Nat := (cw.extractLsb' 32 5).toNat
def cwGeom (cw : Word) : Nat := (cw.extractLsb' 37 3).toNat
def cwRidx (cw : Word) : Nat := (cw.extractLsb' 46 16).toNat
def cwPrnd (cw : Word) : Bool := cw.getLsbD 62
def cwOwner (cw : Word) : Bool := cw.getLsbD 45
def cwSysat (cw : Word) : Bool := cw.getLsbD 44
def cwMirr (cw : Word) : Bool := cw.getLsbD 42

/-- Blocks of the region that a controller keeps for itself at the top of what it backs (R207, R448). -/
def redoBlocks : Nat := Config.redoBytes / 4096

/-- Whether a block may be mapped: it is memory, and outside its controller's own region (R207, R448). -/
def mappable (c : Chip) (pa : Nat) : Bool :=
  paValid c pa && (testBit pa 51 || decide (bits pa 15 23 + redoBlocks < hbmBlocks c (8 * bits pa 38 1 + bits pa 12 3)))

/-- A frame whose every block is backed and may be mapped: its last eight blocks of 4 KiB stand for it, since consecutive
blocks rotate over the controllers and block numbers rise (R448). -/
def frameBacked (c : Chip) (pa size : Nat) : Bool :=
  (List.range (if size / 4096 < 8 then size / 4096 else 8)).all fun i => mappable c (pa + size - 4096 * (i + 1))

/-- R339: an entry with V = 1 that is malformed at a level. -/
def entryMalformed (c : Chip) (level : Nat) (e : Word) : Bool :=
  let leaf := e.getLsbD 1
  let ps := (e.extractLsb' 7 2).toNat
  let zeros := e.extractLsb' 52 4 != 0 || e.extractLsb' 10 2 != 0 || e.getLsbD 6
  if leaf then
    zeros || decide (3 ≤ level) || (level == 2 && decide (ps ≤ 1)) || (level == 1 && decide (2 ≤ ps)) ||
    entryAddr e % 2 ^ pageShift ps != 0 || !frameBacked c (entryAddr e) (2 ^ pageShift ps)
  else
    zeros || level == 1 || e.extractLsb' 56 8 != 0 || e.getLsbD 12 || ps != 0 || e.extractLsb' 2 4 != 0

def readPhys (s : State) (chip : ChipNo) (pa n : Nat) : Nat := leNat (s.mem.getBytes (physKey chip pa) n)

/-- A leaf that names a mirror-table entry without MIRR: MIDX is zero there (R339), so the entry is malformed. -/
def strayMidx (e cw : Word) : Bool := e.extractLsb' 56 8 != 0 && !cwMirr cw

/-- The walk from a level down (R338): a leaf, or the level at which it ended and the entry read there. -/
def walkFrom (s : State) (chip : ChipNo) (va : Nat) : Nat → Nat → Except (Nat × Word) Leaf
  | 0, _ => .error (0, 0)
  | l + 1, table =>
    let i := bits va (12 + 9 * l) 9
    let e : Word := BitVec.ofNat 64 (readPhys s chip (table + 8 * i) 8)
    if !e.getLsbD 0 || entryMalformed (s.chip chip) (l + 1) e then .error (l + 1, e)
    else if e.getLsbD 1 then
      let cw : Word := BitVec.ofNat 64 (readPhys s chip (table + 0x1000 + 8 * i) 8)
      if strayMidx e cw then .error (l + 1, e) else .ok { entry := e, cw := cw, level := l + 1, at_ := table + 8 * i }
    else walkFrom s chip va l (bits e.toNat 13 39 * 8192)

/-- R337: with ROOT = 0 every access faults PAGE, at level 5. -/
def walk (s : State) (chip : ChipNo) (part va : Nat) : Except (Nat × Word) Leaf :=
  let root := ptRoot (s.chip chip) part
  if root = 0 then .error (5, 0) else walkFrom s chip va 5 root

/-- The plane of a byte on a plane-selective mapping that lies at or above p (R272). -/
def planeHidden (cw : Word) (va : Nat) : Bool :=
  let f := cwFmt cw
  if 0x10 ≤ f && f ≤ 0x16 && cwGeom cw ≤ 3 then
    let blk := 512 * 2 ^ cwGeom cw
    decide (f - 0x0F ≤ va % blk / (blk / 8))
  else false

/-- The fault of a missing leaf (R342 check 1, R157); PAGE where the partition has no root (R337). -/
def noLeaf (s : State) (chip : ChipNo) (w : Who) (n : Need) (va : Nat) (rep : Word) (l : Nat × Word) : Trap :=
  let isStack := match w.stack with
    | some (lim, g2) => ptRoot (s.chip chip) w.part != 0 && decide (lim ≤ va + 0x10000) && decide (va < g2 + 0x10000)
    | none => false
  { Trap.on (if isStack then Code.stack else Code.page) rep with
    write := n.w, fetch := n.x, extra0 := BitVec.ofNat 64 l.1, extra1 := l.2 }

def protTrap (n : Need) (rep : Word) (k : Nat) : Trap :=
  { Trap.on Code.prot rep with write := n.w, fetch := n.x, extra0 := BitVec.ofNat 64 k }

/-- The migrations of a page of an address space inside the window (R355), for the OWNER message. -/
def migCount (c : Chip) (now part : Nat) (page : Word) : Nat :=
  (((c.mig.log.lookup (BitVec.ofNat 64 (ptRoot c part), page)).getD []).filter fun t => decide (now < t + Config.msPeriod)).length

/-- The physical address of a byte, with the lines a migration has already copied at their new home (R354). -/
def leafPa (s : State) (chip : ChipNo) (part : Nat) (l : Leaf) (va : Nat) : Nat :=
  let m := (s.chip chip).mig
  let size : Nat := 2 ^ pageShift l.ps
  if m.state == 2 && ptRoot (s.chip chip) m.part == ptRoot (s.chip chip) part && m.va / size == va / size &&
      entryAddr l.entry == m.oldPa && decide (va % size / 64 < m.line) then
    bits m.dst.toNat 12 40 * 4096 + va % size
  else l.pa va

/-- The function whose requester ID a request to host memory carries: the one that serves the partition of the core on whose behalf
it is made, for a package unit the physical function (R427). -/
def requester (s : State) (chip : ChipNo) (w : Who) : Fn := if isCompute w.ep then reporter s chip (partOf w.ep) else .pf

/-- Whether a partition's requests to the host are stopped: its interface is in ERROR (R435). -/
def hostStopped (s : State) (chip : ChipNo) (part : Nat) : Bool :=
  match (s.chip chip).host.ifaces.toList[part]? with
  | some f => f.state == 3
  | none => false

/-- Whether a byte lies in an HBM channel that a repair has quiesced: its controller holds every request (R447). The stack of a
controller is its number's half, and which of the stack's channels holds a block is the collier's plan (R352, R386). -/
def channelHeld (s : State) (key : Nat) : Bool :=
  let c := s.chip (physChip key)
  let pa := physPa key
  c.col.quiesced.any fun q =>
    !isBufKey key && !testBit pa 51 && q.1 == 4 * bits pa 38 1 + bits pa 13 2 && q.2.1 == Config.hbmChannel (pa / 4096) % 32

/-- Checks 2 to 5 of R342 on a leaf, for the byte at `va`, then R435 and a host refusal (R427); an access to a quiesced channel waits
(R447). `atomicOk` says that R353 admits the atomic. -/
def leafCheck (s : State) (chip : ChipNo) (w : Who) (n : Need) (atomicOk : Bool) (l : Leaf) (va : Nat) (rep : Word) : Res Unit :=
  if !l.bit 5 && w.priv == .user then .error (.trap (protTrap n rep 1))
  else if n.r && !l.bit 2 then .error (.trap (protTrap n rep 2))
  else if n.w && !l.bit 3 then .error (.trap (protTrap n rep 3))
  else if n.x && !l.bit 4 then .error (.trap (protTrap n rep 4))
  else if w.gmask && isCompute w.ep && !l.cw.getLsbD (groupOf w.ep) then .error (.trap (protTrap n rep 5))
  else if n.w && planeHidden l.cw va then .error (.trap (protTrap n rep 6))
  else if cwOwner l.cw && !(n.atomic && atomicOk) then
    let cnt := migCount (s.chip chip) s.time w.part (BitVec.ofNat 64 (va / 2 ^ pageShift l.ps * 2 ^ pageShift l.ps))
    .error (.trap { Trap.on Code.owner rep with write := n.w, fetch := n.x, extra1 := BitVec.ofNat 64 cnt })
  else if testBit (leafPa s chip w.part l va) 51 && (hostStopped s chip (if isCompute w.ep then partOf w.ep else w.part) ||
      Config.hostRefuses (requester s chip w) s.time (leafPa s chip w.part l va)) then
    .error (.trap (protTrap n rep 7))
  else if channelHeld s (physKey chip (leafPa s chip w.part l va)) then .error (.wait s)
  else .ok ()

/-- A translation that met nothing on the way. -/
def XUse.plain (chip : ChipNo) (part : Nat) (l : Leaf) (va : Nat) : XUse :=
  { chip := chip, part := part, leaf := l, page := va / 2 ^ pageShift l.ps * 2 ^ pageShift l.ps, badTlb := false, badWalk := false }

/-- The byte of a page: its place, before its mirror is looked up. -/
def pagePlace (s : State) (x : XUse) (va : Nat) (ptr : Word) (peer : Bool) : Place :=
  let key := physKey x.chip (leafPa s x.chip x.part x.leaf va)
  { key := key, cls := cwClass x.leaf.cw, dest := farAgentOf key, va := ptr, cw := x.leaf.cw, zero := planeHidden x.leaf.cw va,
    mirror := none, peer := peer, via := [x] }

/-- What an access that faults after a translation has met there. -/
def XUse.met (w : Who) (x : XUse) : List Meet :=
  if x.badTlb || x.badWalk then
    [{ chip := x.chip, part := x.part, ep := w.ep, va := x.page, tlb := x.badTlb, walk := x.badWalk, kind := 0 }]
  else []

/-- A check made after some translations: its fault carries what they met (R345). -/
def meeting (w : Who) (xs : List XUse) (r : Res α) : Res α :=
  match r with
  | .error (.trap t) => .error (.trap { t with met := t.met ++ xs.eraseDups.flatMap (XUse.met w) })
  | x => x

/-- The same after bytes have been resolved. -/
def meetingAt (w : Who) (pls : List Place) (r : Res α) : Res α := meeting w (pls.flatMap fun pl => pl.via) r

/-! ### The TLBs and the walk cache (R343-R346) -/

/-- The TLBs that serve a unit, in the order in which an access tries them: its cluster's, then its die's (R343). A unit that
stands in no cluster, and a request from another chip, use the die's (DEDUCED, notes/assumptions/111.md). -/
def tlbHomes (chip : ChipNo) (e : EP) : List Nat :=
  (if isCompute e && epChip e == chip then [64 * (epDie e).toNat + clusterIx e] else []) ++ [128 + (epDie e).toNat]

/-- Entries of a TLB. -/
def tlbSize (home : Nat) : Nat := if home < 128 then 2048 else 4096
/-- Entries of a walk cache. -/
def walkSize : Nat := 256

def XEntry.lo (x : XEntry) : Nat := x.page * 2 ^ pageShift x.leaf.ps
def XEntry.hi (x : XEntry) : Nat := (x.page + 1) * 2 ^ pageShift x.leaf.ps
/-- An address of its page that indexes the copy of the leaf that the entry was built from (R340). -/
def XEntry.copyVa (x : XEntry) : Nat :=
  let unit : Nat := 2 ^ (12 + 9 * (x.leaf.level - 1))
  x.lo + x.leaf.at_ % 4096 / 8 % (2 ^ pageShift x.leaf.ps / unit) * unit
def XEntry.covers (x : XEntry) (part va : Nat) : Bool := x.part == part && decide (x.lo ≤ va) && decide (va < x.hi)

/-- The entry that an access hits. -/
def tlbHit (c : Chip) (homes : List Nat) (part va : Nat) : Option XEntry :=
  homes.findSome? fun h => c.tlb.find? fun x => x.home == h && x.covers part va

/-- The virtual addresses that a pointer entry of level l + 1 serves share this prefix. -/
def walkPrefix (va l : Nat) : Nat := va / 2 ^ (12 + 9 * l)

/-- A pointer entry that a walk cache holds. -/
def walkHit (c : Chip) (die part level pre : Nat) : Option WEntry :=
  c.walks.find? fun x => x.die == die && x.part == part && x.level == level && x.pre == pre

/-- One read of a leaf and its companion word: the i-th of a walk (R346). -/
def readPair (c : Chip) (e cw : Word) (i : Nat) : Word × Word :=
  match c.noise[i]? with
  | some m => (e ^^^ m.1, cw ^^^ m.2)
  | none => (e, cw)

def cwCrit (cw : Word) : Bool := cw.getLsbD 43

/-- R346: the walker reads a leaf and its companion word twice. A critical leaf is the first of up to five reads that the next
one repeats; none when no two consecutive reads agree. -/
def settlePair (c : Chip) (e cw : Word) : Option (Word × Word) :=
  let r := readPair c e cw
  if cwCrit (r 0).2 then (([0, 1, 2, 3] : List Nat).find? fun i => r i == r (i + 1)).map r else some (r 0)

/-- How a walk ends without a leaf: at a level with the entry read there, or at a critical leaf that its reads do not agree
on, with the entry of the first read. -/
inductive NoWalk where
  | absent (level : Nat) (entry : Word) (bad : Bool)
  | mismatch (entry : Word) (bad : Bool)

/-- The walk of a die's walker: a pointer entry in its walk cache stands for the one in memory, until a shoot-down, and either
may be used when they differ (R347). Whether an entry with a parity error was met (R345). -/
def walkVia (s : State) (chip : ChipNo) (die part va : Nat) : Nat → Nat → Bool → Except NoWalk (Leaf × Bool)
  | 0, _, bad => .error (.absent 0 0 bad)
  | l + 1, table, bad =>
    let c := s.chip chip
    let i := bits va (12 + 9 * l) 9
    let m : Word := BitVec.ofNat 64 (readPhys s chip (table + 8 * i) 8)
    let (e, bad) := match walkHit c die part (l + 1) (walkPrefix va l) with
      | none => (m, bad)
      | some x => if x.bad then (m, true) else if x.entry = m then (m, bad)
        else (if Config.oldEntry s.time (walkPrefix va l) then x.entry else m, bad)
    if !e.getLsbD 0 || entryMalformed c (l + 1) e then .error (.absent (l + 1) e bad)
    else if e.getLsbD 1 then
      let cw : Word := BitVec.ofNat 64 (readPhys s chip (table + 0x1000 + 8 * i) 8)
      match settlePair c e cw with
      | none => .error (.mismatch (readPair c e cw 0).1 bad)
      | some (e, cw) =>
        if !e.getLsbD 0 || !e.getLsbD 1 || entryMalformed c (l + 1) e || strayMidx e cw then .error (.absent (l + 1) e bad)
        else .ok ({ entry := e, cw := cw, level := l + 1, at_ := table + 8 * i }, bad)
    else walkVia s chip die part va l (bits e.toNat 13 39 * 8192) bad

/-- The fault of a critical page (R346, R349): kind 1 after a parity refetch, kind 2 for a persistent mismatch, which votes. -/
def tlbparTrap (n : Need) (rep : Word) (kind : Nat) (e : Word) : Trap :=
  { Trap.on Code.tlbpar rep with
    write := n.w, fetch := n.x, cause := if kind = 2 then some 0x0A else none, extra0 := BitVec.ofNat 64 kind, extra1 := e }

/-- The translation of an address for an access (R337, R343-R347): the leaf, with what was met on the way. A partition without a
root translates nothing (R337). An entry in a TLB is in force while the copy of the leaf that it was built from stands in the
tables, whatever the other copies hold (R340); one that differs from its copy may be used or not until a shoot-down
(Config.oldEntry, notes/assumptions/111.md). -/
def translate (s : State) (chip : ChipNo) (w : Who) (n : Need) (va : Nat) (rep : Word) : Res XUse :=
  let c := s.chip chip
  let root := ptRoot c w.part
  let met (t : Trap) (tlb walk : Bool) (kind : Nat) : Res XUse :=
    let m : Meet := { chip := chip, part := w.part, ep := w.ep, va := va, tlb := tlb, walk := walk, kind := kind }
    .error (.trap { t with met := if tlb || walk || kind != 0 then [m] else [] })
  let afresh (tlb : Bool) : Res XUse :=
    match walkVia s chip (epDie w.ep).toNat w.part va 5 root false with
    | .error (.absent l e bad) => met (noLeaf s chip w n va rep (l, e)) tlb bad 0
    | .error (.mismatch e bad) => met (tlbparTrap n rep 2 e) tlb bad 2
    | .ok (l, bad) =>
      if (tlb || bad) && cwCrit l.cw then met (tlbparTrap n rep 1 l.entry) tlb bad 1
      else .ok { XUse.plain chip w.part l va with badTlb := tlb, badWalk := bad }
  if root = 0 then .error (.trap (noLeaf s chip w n va rep (5, 0)))
  else match tlbHit c (tlbHomes chip w.ep) w.part va with
  | none => afresh false
  | some x =>
    let stands : Bool := match walk s chip w.part x.copyVa with
      | .ok l => l == x.leaf
      | .error _ => false
    if x.bad then afresh true
    else if stands || Config.oldEntry s.time x.page then .ok (XUse.plain chip w.part x.leaf va)
    else afresh false

/-- The pointer entries on the path to an address, as memory holds them: level, prefix, entry (R343). -/
def walkPath (s : State) (chip : ChipNo) (va : Nat) : Nat → Nat → List (Nat × Nat × Word)
  | 0, _ => []
  | l + 1, table =>
    let e : Word := BitVec.ofNat 64 (readPhys s chip (table + 8 * bits va (12 + 9 * l) 9) 8)
    if !e.getLsbD 0 || e.getLsbD 1 || entryMalformed (s.chip chip) (l + 1) e then []
    else (l + 1, walkPrefix va l, e) :: walkPath s chip va l (bits e.toNat 13 39 * 8192)

def bumpTlbpar (e : Errs) : Errs := { e with xlat := satAdd 16 e.xlat 1, tlbpar := satAdd 16 e.tlbpar 1 }
def bumpWcpar (e : Errs) : Errs := { e with xlat := satAdd 16 e.xlat 1, wcpar := satAdd 16 e.wcpar 1 }
def bumpCritpar (e : Errs) : Errs := { e with critpar := satAdd 16 e.critpar 1 }
def bumpMism (e : Errs) : Errs := { e with mism := satAdd 16 e.mism 1 }

/-- Make room in a structure of a size: the victims are free values. -/
def evict [BEq α] (size : Nat) (f : α → Bool) (l : List α) (victim : Nat) : List α :=
  (List.range 4).foldl (fun l _ =>
    let xs := l.filter f
    if xs.length ≤ size then l else match xs[victim % xs.length]? with | some x => l.erase x | none => l) l

/-- The entries with a parity error that an access has met are gone, and each refetch is counted (R345). -/
def dropBad (s : State) (m : Meet) : State :=
  let c := s.chip m.chip
  let hurtT (x : XEntry) : Bool := x.bad && (tlbHomes m.chip m.ep).contains x.home && x.covers m.part m.va
  let hurtW (x : WEntry) : Bool :=
    x.bad && x.die == (epDie m.ep).toNat && x.part == m.part && x.pre == walkPrefix m.va (x.level - 1)
  let again := m.tlb && c.tlb.any hurtT
  let rewalk := m.walk && c.walks.any hurtW
  if !again && !rewalk then s
  else
    let s := s.setChip m.chip { c with tlb := if again then c.tlb.filter (fun x => !hurtT x) else c.tlb,
                                       walks := if rewalk then c.walks.filter (fun x => !hurtW x) else c.walks }
    let s := if again then correctable s m.chip (reporter s m.chip m.part) bumpTlbpar else s
    if rewalk then correctable s m.chip (reporter s m.chip m.part) bumpWcpar else s

/-- What a translation's meeting brings about besides a message (R345, R346, R358, R442): its refetches; the fault of a critical
page after one is counted; a persistent mismatch is counted and logged with its page. -/
def applyMeet (s : State) (m : Meet) : State :=
  let s := dropBad s m
  match m.kind with
  | 0 => s
  | 1 => s.modChip m.chip fun c => { c with errs := bumpCritpar c.errs }
  | _ => logEvent (s.modChip m.chip fun c => { c with errs := bumpMism c.errs }) m.chip m.ep 0x02 (m.va / 4096 * 4096)

/-- What the translations of a fault's access have met takes its course. -/
def applyMeets (s : State) (t : Trap) : State := t.met.foldl applyMeet s

/-- The same where the access goes on as if nothing had been asked: nothing of it has faulted (R70). -/
def applyRefetches (s : State) (t : Trap) : State := (t.met.map fun m => if m.kind = 1 then { m with kind := 0 } else m).foldl applyMeet s

/-- An access has used a translation: the TLBs that missed hold it, the walk cache holds its path, an entry with a parity
error is gone, and its refetch is counted (R343, R345). -/
def useLeaf (s : State) (e : EP) (x : XUse) : State :=
  let l := x.leaf
  let part := x.part
  let s := dropBad s { chip := x.chip, part := part, ep := e, va := x.page, tlb := x.badTlb, walk := x.badWalk, kind := 0 }
  let c := s.chip x.chip
  let homes := tlbHomes x.chip e
  let new (h : Nat) : XEntry := { home := h, part := part, leaf := l, page := x.page / 2 ^ pageShift l.ps, bad := false }
  if homes.all fun h => c.tlb.contains (new h) then s
  else
    let die := (epDie e).toNat
    let path := walkPath s x.chip x.page 5 (ptRoot c part)
    let apart (x : XEntry) : Bool := !(homes.contains x.home && x.part == part && decide (x.lo < (new 0).hi) && decide ((new 0).lo < x.hi))
    let off (x : WEntry) : Bool := !(x.die == die && x.part == part && path.any fun p => p.1 == x.level && p.2.1 == x.pre)
    let full := homes.any fun h => decide (tlbSize h ≤ (c.tlb.filter fun x => x.home == h).length)
    let victim := if full then (Config.freeWord s.freeIx).toNat else 0
    let tlb := homes.foldl (fun t h => evict (tlbSize h) (fun x => x.home == h) t victim) (c.tlb.filter apart ++ homes.map new)
    let walks := evict walkSize (fun x => x.die == die) (c.walks.filter off ++ path.map fun p =>
      { die := die, part := part, level := p.1, pre := p.2.1, entry := p.2.2, bad := false }) victim
    { s.setChip x.chip { c with tlb := tlb, walks := walks } with freeIx := s.freeIx + full.toNat }

/-- The lines that an L1 holds. -/
def l1Lines : Nat := 1024

/-- A stream of a core has read or written a versioned line of global memory: its L1 holds the line, and no L1 of its cluster
holds the same physical line under another address (R343, R344). -/
def fillL1 (s : State) (w : Who) (pl : Place) : State :=
  if !isCompute w.ep || pl.cls != 0 || isBufKey pl.key || pl.peer || !(w.kind == .control || w.kind == .vector) then s
  else
    let new : L1Line := { part := w.part, vline := pl.va.toNat / 64, key := pl.key / 64 }
    if (s.core w.ep).l1.contains new then s
    else
      let clean (k : Core) : Core := { k with l1 := k.l1.filter fun x => x.key != new.key || x.vline == new.vline }
      let s := { s with cores := s.cores.map fun (k : Nat × Core) => if sameCluster (BitVec.ofNat 32 k.1) w.ep then (k.1, clean k.2) else k }
      s.modCore w.ep fun k => { k with l1 := (k.l1 ++ [new]).drop (k.l1.length + 1 - l1Lines) }

/-! ### Invalidation and sleep (R347, R348, R351) -/

/-- The entries of a TLB that a range covers are gone. -/
def dropTlb (c : Chip) (home part lo hi : Nat) : Chip :=
  { c with tlb := c.tlb.filter fun x => !(x.home == home && x.part == part && decide (x.lo < hi) && decide (lo < x.hi)) }

/-- The entries of a walk cache on the path to a range are gone. -/
def dropWalks (c : Chip) (die part lo hi : Nat) : Chip :=
  let span (x : WEntry) : Nat := 2 ^ (12 + 9 * (x.level - 1))
  { c with walks := c.walks.filter fun x =>
      !(x.die == die && x.part == part && decide (x.pre * span x < hi) && decide (lo < (x.pre + 1) * span x)) }

/-- The lines of a range leave an L1. -/
def dropL1 (k : Core) (part lo hi : Nat) : Core :=
  { k with l1 := k.l1.filter fun x => !(x.part == part && decide (64 * x.vline < hi) && decide (lo < 64 * x.vline + 64)) }

/-- A sleeping core wakes: its L1 and its instruction cache are invalidated whole, and its cluster's TLB where a shoot-down has
skipped it (R348). -/
def wakeCore (s : State) (e : EP) : State :=
  if !(s.core e).asleep then s
  else
    let home := 64 * (epDie e).toNat + clusterIx e
    let s := s.modCore e fun k => { k with asleep := false, icache := [], l1 := [], idleSince := s.time }
    s.modChip (epChip e) fun c =>
      if c.skipped.contains home then
        { c with tlb := c.tlb.filter (fun x => x.home != home), skipped := c.skipped.filter fun h => h != home }
      else c

/-- The cores whose buffers an access reaches wake before it proceeds (R348). -/
def wakeFor (s : State) (w : Who) (pls : List Place) : State :=
  ((pls.map fun pl => pl.dest).filter fun e => isCompute e && e != w.ep).eraseDups.foldl wakeCore s

/-- An access has used some translations, each once. -/
def useXlat (s : State) (w : Who) (xs : List XUse) : State := xs.eraseDups.foldl (fun s x => useLeaf s w.ep x) s

/-- An access has touched bytes: what the translation structures and the L1 hold of it. -/
def touch (s : State) (w : Who) (pls : List Place) : State :=
  let s := wakeFor s w pls
  let s := useXlat s w (pls.flatMap fun pl => pl.via)
  pls.foldl (fun s pl => fillL1 s w pl) s

/-- A range cut at 4 KiB boundaries: (first address, length). -/
def pageChunks : Nat → Nat → Nat → List (Nat × Nat)
  | 0, _, _ => []
  | _, _, 0 => []
  | f + 1, va, n + 1 =>
    let room := 4096 - va % 4096
    if n + 1 ≤ room then [(va, n + 1)] else (va, room) :: pageChunks f (va + room) (n + 1 - room)

/-- The delta of a byte in a team's open superstep (R221). -/
def deltaOf (s : State) (chip : ChipNo) (team : Word32) (key : Nat) : Option DeltaByte :=
  (s.deltas.find? fun d => d.1 == key && d.2.chip == chip && d.2.team == team).map (·.2)

/-- Read one byte as an agent sees it (R221, R272). -/
def readByte (s : State) (w : Who) (pl : Place) : Byte :=
  if pl.zero then 0
  else if pl.cls = 0 && !w.service then
    match deltaOf s w.chip w.team pl.key with
    | some d => if d.tag = w.readTag then d.val else s.mem.get pl.key
    | none => s.mem.get pl.key
  else s.mem.get pl.key

def readPlaces (s : State) (w : Who) (pls : List Place) : List Byte := pls.map (readByte s w)

/-- A read that meets an error which nothing corrects (R200, R421): PARITY, which votes its cause. A byte that a plane hides is not
read (R272). -/
def soundRead (s : State) (pls : List Place) (rep : Word) : Res Unit :=
  if pls.any fun pl => !pl.zero && s.poison.contains (pl.key / 64) then .error (.trap { Trap.on Code.parity rep with cause := some 1 }) else .ok ()

/-- Read a word by the executing context's own load, as the peer and mirror tables are read (R388): space 0, live rules. -/
def plainRead (s : State) (w : Who) (va n : Nat) : Res (Nat × List XUse) := do
  let rep : Word := BitVec.ofNat 64 va
  let (bytes, xs) ← (pageChunks (n + 1) va n).foldlM (fun (acc : List Byte × List XUse) (q : Nat × Nat) =>
    (meeting w acc.2 (do
      let x ← translate s w.chip w .read q.1 rep
      meeting w [x] (do
        leafCheck s w.chip w .read false x.leaf q.1 rep
        needAt (cwClass x.leaf.cw != 3) Code.cls rep
        let pls := (List.range q.2).map fun i => pagePlace s x (q.1 + i) rep false
        soundRead s pls rep
        .ok (acc.1 ++ readPlaces s w pls, acc.2 ++ [x]))) : Res (List Byte × List XUse))) ([], [])
  .ok (leNat bytes, xs)

/-- Whether the driver has accepted a feature of the device (R430). -/
def feature (s : State) (chip : ChipNo) (i : Nat) : Bool := (s.chip chip).host.featacc.getLsbD i

/-- The chip that serves an access to a peer, and the partition that translates there (R388, R390). -/
structure PeerRef where
  chip : ChipNo
  part : Nat
  mirror : Option ChipNo
  deriving DecidableEq, Repr

def peerOfEntry (s : State) (own : ChipNo) (e : Nat) (rep : Word) : Res PeerRef :=
  let chip : ChipNo := BitVec.ofNat 18 e
  let mchip : ChipNo := BitVec.ofNat 18 (bits e 18 18)
  let mv := testBit e 36 && feature s own 4
  if decide (2 ^ 40 ≤ e) || chip == own || (mv && mchip == chip) then failAt Code.space rep
  else .ok { chip := chip, part := bits e 37 3, mirror := if mv then some mchip else none }

/-- The partition that translates a federation's access on a chip (R388, R366). -/
def fedPart (s : State) (fed : Word32) (chip : ChipNo) (dflt : Nat) : Nat :=
  match s.teams.find? (fun t => t.chip == chip && t.fed == fed && fed != 0 && t.live) with
  | some t => t.part
  | none => dflt

/-- A peer request is a user access without the GMASK check (R388). -/
def Who.atPeer (w : Who) (chip : ChipNo) (part : Nat) : Who :=
  { w with chip := chip, part := part, priv := .user, gmask := false, stack := none }

/-- Whether a space accepts the addressing mode (R31). -/
def amOk (am : Am) (sp : Nat) : Bool := am == .lin || (decide (1 ≤ sp) && decide (sp ≤ 4))

/-- The core and offset that a pointer of spaces 1-5 names (R31): routed core (none for a rank outside the team), offset. -/
def route (s : State) (w : Who) (am : Am) (p : Word) : Option EP × Nat :=
  let r := ptrRank p
  let t := s.team? w.chip w.team
  let owner : Option EP := if r = 0xFFF then some w.ep else match t with
    | some t => if r < t.size && isCompute w.ep then some (t.coreOf r) else none
    | none => none
  let o := (p.extractLsb' 0 20).toNat
  let cl (i : Nat) : Option EP := owner.map fun e => if !isCompute e then e else
    coreAt (epChip e) (epDie e) (4 * (coreX e / 4) + i % 4) (4 * (coreY e / 4) + i / 4)
  match am with
  | .lin => (owner, o)
  | .ilv8 => (cl (bits o 3 4), o / 128 * 8 + o % 8)
  | .ilv64 => (cl (bits o 6 4), o / 1024 * 64 + o % 64)

def bufSize (e : EP) (sp : Nat) : Nat :=
  if isOpt e then (if sp = 1 then Config.optLmSize else if sp = 5 then Config.cwSize else 0)
  else match sp with
    | 1 => Config.lmSize
    | 2 => Config.wbSize
    | 3 => Config.abSize
    | 4 => Config.cbSize
    | 5 => Config.cwSize
    | _ => 0

/-- The class of a typed-buffer byte in force (R219, R220): an optimiser core's LM is live (R410). -/
def bufClass (s : State) (e : EP) (sp off : Nat) : Nat :=
  if isOpt e then 1
  else
    let region := bufSize e sp / 16
    let map : Word32 := match sp with
      | 1 => (s.core e).bufcls[0]
      | 2 => (s.core e).bufcls[1]
      | 3 => (s.core e).bufcls[2]
      | _ => (s.core e).bufcls[3]
    bits map.toNat (2 * (off / region)) 2

/-- Which LM offsets a pointer access may not reach: the graph region, and the queue window but by STL (R69, R139). -/
def lmClosed (e : EP) (off : Nat) (stl : Bool) : Bool :=
  isCompute e && (decide (Config.winHi ≤ off) || (decide (Config.winLo ≤ off) && !stl))

/-- Who reads the own core's constant window: its two streams (R217). -/
def readsWindow (k : AgentKind) : Bool := k == .control || k == .vector

/-- R30 item 2 for one byte of spaces 1-5: the pointer's zero bits, the buffer's size, the agent's right (R217). -/
def bufSpaceOk (s : State) (w : Who) (n : Need) (am : Am) (p : Word) : Bool :=
  let sp := ptrSpace p
  let (core, off) := route s w am p
  let own := core == some w.ep
  let e := core.getD w.ep
  let rights := bufRights w.kind own sp
  p.extractLsb' 20 28 == 0 && decide (off < bufSize (if isOpt w.ep then w.ep else e) sp) &&
  (sp == 5 || ((!n.r || rights.1) && (!n.w || rights.2)))

/-- R30 item 3 and R31 for one byte: a rank of the team, and whole clusters under ILV8 and ILV64. An optimiser core stands in
no cluster, so those modes fault RANK there (R410; DEDUCED, notes/assumptions/106.md). -/
def bufRankOk (s : State) (w : Who) (am : Am) (p : Word) : Bool :=
  (route s w am p).1.isSome &&
  (am == .lin || (isCompute w.ep && ((s.team? w.chip w.team).map Team.wholeClusters).getD false))

/-- R30 items 4 and 5 and the closed parts of LM for one byte (R69, R139, R217, R218): space 5 is read by the own core's
streams alone, user stores do not reach LM 0x000-0x7FF, and no other agent reads there. `stl` admits the queue window. -/
def bufWindowOk (s : State) (w : Who) (n : Need) (am : Am) (stl : Bool) (p : Word) : Bool :=
  let sp := ptrSpace p
  let (core, off) := route s w am p
  let own := core == some w.ep
  let e := core.getD w.ep
  let stream := w.kind == .control || w.kind == .vector
  (sp != 5 || (own && stream && !n.w)) &&
  (sp != 1 || !n.w || decide (0x800 ≤ off) ||
    (w.priv != .user && own && decide (0x700 ≤ off) && decide (off < 0x780) && stream)) &&
  (sp != 1 || !n.r || decide (0x800 ≤ off) || (own && readsWindow w.kind)) &&
  (sp != 1 || !lmClosed e off (stl && own))

/-- Checks 2 to 5 of R30 for one byte of spaces 1-5. -/
def bufPlace (s : State) (w : Who) (n : Need) (am : Am) (stl : Bool) (p rep : Word) : Res Place :=
  let sp := ptrSpace p
  let (core, off) := route s w am p
  let e := core.getD w.ep
  if !bufSpaceOk s w n am p then failAt Code.space rep
  else if !bufRankOk s w am p then failAt Code.rank rep
  else if !bufWindowOk s w n am stl p then failAt Code.space rep
  else
    let lmSp := if sp = 5 then 1 else sp
    .ok { key := bufKey e lmSp off,
          cls := if lmSp = 1 && (decide (off < 0x800) || lmClosed e off false) then 2 else bufClass s e lmSp off,
          dest := e, va := p, cw := 0, zero := false, mirror := none, peer := false, via := [] }

/-- The bytes that one unit of an addressing mode holds (R31). -/
def amUnit : Am → Nat
  | .lin => 2 ^ 20
  | .ilv8 => 8
  | .ilv64 => 64

/-- The pieces of an access, each checked as an access of its own (R31): the whole access under LIN. -/
def amPieces (am : Am) (p : Word) : Nat → List (List Word)
  | 0 => []
  | n + 1 =>
    let a := ptrOff p n
    let before := amPieces am p n
    match am, before.getLast? with
    | .lin, some l => before.dropLast ++ [l ++ [a]]
    | m, some l => if a.toNat % amUnit m = 0 then before ++ [[a]] else before.dropLast ++ [l ++ [a]]
    | _, none => [[a]]

/-- The SPACE and RANK step of R30 and R66: each item on every byte of the access, or of the piece, before the next item. -/
def spaceCheck (s : State) (w : Who) (n : Need) (am : Am) (stl : Bool) (p : Word) (len : Nat) : Res Unit := do
  let sp := ptrSpace p
  needAt (decide (sp ≤ 6)) Code.space p
  needAt (amOk am sp) Code.space p
  if 1 ≤ sp ∧ sp ≤ 5 then
    (amPieces am p len).forM fun bytes => do
      needAt (bytes.all fun a => bufSpaceOk s w n am a) Code.space p
      needAt (bytes.all fun a => bufRankOk s w am a) Code.rank p
      needAt (bytes.all fun a => bufWindowOk s w n am stl a) Code.space p
  else if sp = 0 then needAt (p.extractLsb' 57 3 == 0) Code.space p
  else
    match s.team? w.chip w.team with
    | some t => needAt (decide (ptrRank p < t.npeer)) Code.space p
    | none => failAt Code.space p

/-- Translate a space-0 range on a chip: every page is checked, the lowest failure reported (R342). -/
def globalPlaces (s : State) (chip : ChipNo) (w : Who) (n : Need) (atomicOk : Bool) (va len : Nat) (p : Word) (peer : Bool) :
    Res (List Place) := do
  (pageChunks (len + 1) va len).foldlM (fun (acc : List Place) (q : Nat × Nat) =>
    (meetingAt w acc (do
      let x ← translate s chip w n q.1 p
      let l := x.leaf
      let okAtomic := atomicOk && cwSysat l.cw && feature s chip 1
      -- a plane byte of the chunk that a write may not reach
      let first := ((List.range q.2).find? fun i => planeHidden l.cw (q.1 + i)).getD 0
      meeting w [x] (leafCheck s chip w n okAtomic l (if n.w then q.1 + first else q.1) p)
      .ok (acc ++ (List.range q.2).map fun i => pagePlace s x (q.1 + i) (BitVec.ofNat 64 (q.1 + i)) peer)) : Res (List Place))) []

/-- The mirror copies of bytes that a write reaches on MIRR pages (R389, R390). -/
def addMirrors (s : State) (w : Who) (t : Option Team) (pls : List Place) : Res (List Place) :=
  pls.mapM fun pl =>
    if !cwMirr pl.cw || !feature s w.chip 4 || pl.peer then (.ok pl : Res Place)
    else match t, pl.via with
      | some t, x :: _ => do
        let at_ := t.mirt + 8 * (x.leaf.entry.extractLsb' 56 8).setWidth 64
        let (e, xs) ← plainRead s w at_.toNat 8
        meeting w xs (do
          let ref ← peerOfEntry s w.chip e at_
          needAt (decide (bits e 18 18 = 0) && !testBit e 36) Code.space at_
          let mw := w.atPeer ref.chip ref.part
          if !reachable s t ref.chip then failAt Code.peerabsent pl.va
          else if (s.chip ref.chip).stopped then stall s
          else do
            let ms ← globalPlaces s ref.chip mw .write false pl.va.toNat 1 pl.va true
            match ms with
            | m :: _ => .ok { pl with mirror := some (m.key, m.cls), via := pl.via ++ xs ++ m.via }
            | [] => .ok pl)
      | _, _ => .ok pl

/-- The peer-table entry a pointer names, as a load of the context reads it (R388). -/
def peerEntry (s : State) (w : Who) (p : Word) : Res (Nat × List XUse) :=
  match s.team? w.chip w.team with
  | none => failAt Code.space p
  | some t => do
    let at_ := t.peert + 8 * BitVec.ofNat 64 (ptrRank p)
    let (e, xs) ← plainRead s w at_.toNat 8
    let _ ← meeting w xs (peerOfEntry s w.chip e at_)
    .ok (e, xs)

/-- The bytes of a primary with their mirror copies. -/
def bothCopies (pls ms : List Place) : List Place :=
  (pls.zip ms).map fun q => { q.1 with mirror := some (q.2.key, q.2.cls), via := q.1.via ++ q.2.via }

/-- The places of a space-6 access through a peer-table entry (R388, R390). A package that has stopped gives no answer, so an
access to it waits until the chip is reported lost (R398, R424). `there` says that the request has reached the primary, whatever
the route table says by now (R400). -/
def peerPlacesOf (s : State) (w : Who) (n : Need) (p : Word) (len e : Nat) (there : Bool) : Res (List Place) :=
  match s.team? w.chip w.team with
  | none => failAt Code.space p
  | some t => do
    let at_ := t.peert + 8 * BitVec.ofNat 64 (ptrRank p)
    let ref ← peerOfEntry s w.chip e at_
    let pva := (p.extractLsb' 0 48).toNat
    let onChip (c : ChipNo) : Res (List Place) :=
      let w' := w.atPeer c (fedPart s t.fed c ref.part)
      if (s.chip c).stopped then stall s else globalPlaces s c w' n n.atomic pva len p true
    if there || reachable s t ref.chip then do
      let pls ← onChip ref.chip
      match ref.mirror with
      | some m =>
        if n.w then
          if !reachable s t m then meetingAt w pls (failAt Code.peerabsent p)
          else do
            let ms ← meetingAt w pls (onChip m)
            .ok (bothCopies pls ms)
        else .ok pls
      | none => .ok pls
    else match ref.mirror with
      | some m => if n.w || !reachable s t m then failAt Code.peerabsent p else onChip m
      | none => failAt Code.peerabsent p

/-- The places of a space-6 access. -/
def peerPlaces (s : State) (w : Who) (n : Need) (p : Word) (len : Nat) : Res (List Place) := do
  let (e, xs) ← peerEntry s w p
  let pls ← meeting w xs (peerPlacesOf s w n p len e false)
  .ok (pls.map fun pl => { pl with via := pl.via ++ xs })

/-- The steps of R66 on an access of `len` bytes at `p` through the translation of every byte: SPACE and RANK, then ALIGN where the
access asks for it, then the translation. `align` 1 asks for none. -/
def placesFound (s : State) (w : Who) (n : Need) (am : Am) (align : Nat) (stl : Bool) (p : Word) (len : Nat) :
    Res (List Place) :=
  (if n.w then asWrite else id) do
    spaceCheck s w n am stl p len
    needAt (decide (p.toNat % align = 0)) Code.align p
    let sp := ptrSpace p
    if 1 ≤ sp ∧ sp ≤ 5 then (List.range len).mapM fun i => bufPlace s w n am stl (ptrOff p i) p
    else if sp = 0 then do
      let xs ← globalPlaces s w.chip w n n.atomic p.toNat len p false
      if n.w then meetingAt w xs (addMirrors s w (s.team? w.chip w.team) xs) else .ok xs
    else peerPlaces s w n p len

/-- The last steps of R66 on bytes found: their class, and an error that nothing corrects. -/
def placesSound (s : State) (w : Who) (n : Need) (p : Word) (pls : List Place) : Res Unit :=
  (if n.w then asWrite else id) (meetingAt w pls do
    needAt (pls.all fun pl => pl.keys.all fun k => k.2 != 3) Code.cls p
    if n.r then soundRead s pls p else .ok ())

/-- Resolve an access of `len` bytes at `p`: every step of R66 in order. -/
def places (s : State) (w : Who) (n : Need) (am : Am) (align : Nat) (stl : Bool) (p : Word) (len : Nat) :
    Res (List Place) := do
  let pls ← placesFound s w n am align stl p len
  placesSound s w n p pls
  .ok pls

/-! ### Reading and writing resolved bytes -/

/-- Writer tags in rising order (R222, R412). -/
def Tag.num : Tag → Nat
  | .rank r => r
  | .engPlus _ => 2 ^ 20
  | .eng => 2 ^ 20 + 1

/-- R222: a write to a byte that may already hold a delta. -/
def mergeDelta (old : Option DeltaByte) (new : DeltaByte) : DeltaByte :=
  match old with
  | none => new
  | some o =>
    if o.tag.num = new.tag.num then { new with conf := o.conf }
    else if o.tag.num < new.tag.num then { new with conf := true }
    else { o with conf := true }

/-- Whether two teams share a superstep: one team, or two of a federation (R216). -/
def sameStep (s : State) (a b : ChipNo × Word32) : Bool :=
  a == b || s.feds.any fun f => f.members.contains a && f.members.contains b

/-- A write of a versioned byte: the deltas of one superstep meet under R222, whichever team of a federation made them. -/
def putDelta (s : State) (key : Nat) (new : DeltaByte) : List (Nat × DeltaByte) :=
  let mine (d : Nat × DeltaByte) : Bool := d.1 == key && sameStep s (d.2.chip, d.2.team) (new.chip, new.team)
  if s.deltas.any mine then s.deltas.map fun d => if mine d then (key, mergeDelta (some d.2) new) else d
  else s.deltas ++ [(key, new)]

/-- The clamp of a core (R206): slots in use, and slots and overflow entries there are. -/
def clampUsed (s : State) (e : EP) : Nat :=
  let held := (s.deltas.filter fun d => isBufKey d.1 && bufKeyEp d.1 == e).map fun d => d.1 / 64
  let landed := (s.landings.filter fun l => l.ep == e).map fun l => l.key / 64
  (held ++ landed).eraseDups.length + (s.undo.filter fun u => u.logger == e).length

def clampCap (s : State) (e : EP) : Nat :=
  let cfg := (s.core e).reg 0x128 0
  Config.clampSlots + (if isOpt e || cfg.extractLsb' 20 37 == 0 then 0 else 8192 * 2 ^ (cfg.extractLsb' 8 4).toNat)

/-- Whether a line of a typed buffer has its slot already: a delta of the team, or a landing, which is held as one (R191, R206). -/
def lineHeld (s : State) (chip : ChipNo) (team : Word32) (line : Nat) : Bool :=
  (s.deltas.any fun d => d.1 / 64 == line && d.2.chip == chip && d.2.team == team) ||
  s.landings.any fun l => l.key / 64 == line && l.chip == chip && l.team == team

/-- Whether a live line's contents are logged already in the superstep (R206). -/
def lineLogged (s : State) (w : Who) (line : Nat) : Bool :=
  s.undo.any fun u => u.key / 64 == line && sameStep s (u.chip, u.team) (w.chip, w.team)

/-- The slots that a line of deltas or an undo entry would newly take: (clamp owner, line, is undo). -/
def newSlots (s : State) (w : Who) (ks : List (Nat × Nat)) : List (EP × Nat × Bool) :=
  (ks.filterMap fun k =>
    let line := k.1 / 64
    if k.2 = 0 then
      if isBufKey k.1 && !lineHeld s w.chip w.team line then some (bufKeyEp k.1, line, false) else none
    else if k.2 = 1 then
      if lineLogged s w line then none else some (w.ep, line, true)
    else none).eraseDups

/-- The physical key of byte `off` of record i (R312): the lines found at launch. -/
def Team.recordKey (t : Team) (i off : Nat) : Nat :=
  let va := t.rectab.toNat % 4096 + 128 * i + off
  (t.recPages[va / 4096]?).getD 0 + va % 4096

/-- Bytes of a working half: those of a record's bytes 0-77 (R315). -/
def workHalfBytes : Nat := 78

/-- Bytes in use of the region that a controller keeps its redo log, deferred reductions and working halves in (R207, R315;
notes/assumptions/7.md). -/
def redoUsed (s : State) (a : EP) : Nat :=
  (s.deltas.filter fun d => !isBufKey d.1 && farAgentOf d.1 == a).length +
  ((s.reds.filter fun r => farAgentOf r.key == a).map fun r => r.bytes).sum +
  workHalfBytes * (s.teams.map fun t => (t.stats.filter fun r => r.work.isSome && farAgentOf (t.recordKey r.idx 0) == a).length).sum

/-- Whether the region of a byte's controller has no room for a versioned write to global memory (R207). -/
def redoFull (s : State) (pls : List Place) : Bool :=
  (pls.flatMap Place.keys).any fun k => k.2 == 0 && !isBufKey k.1 && decide (Config.redoBytes ≤ redoUsed s (farAgentOf k.1))

/-- Enough slots for an access (R206). -/
def clampRoom (s : State) (w : Who) (pls : List Place) : Bool :=
  let ns := newSlots s w (pls.flatMap Place.keys)
  !redoFull s pls && (ns.map (·.1)).eraseDups.all fun e =>
    decide (clampUsed s e + (ns.filter fun n => n.1 == e).length ≤ clampCap s e)

/-- A vote for an abort cause (R199). -/
def addVote (s : State) (chip : ChipNo) (team : Word32) (v : Vote) : State :=
  s.modTeam chip team fun t => { t with votes := t.votes ++ [v] }

/-- A vote for LINK, whose cause PC is the lowest rank's SSYNC (R200), carries this rank until the decision. -/
def linkRank : Nat := 4096

def voteLink (s : State) (chip : ChipNo) (team : Word32) : State := addVote s chip team { cause := 3, pc := 0, rank := linkRank, ctx := 0 }

/-- Log a live line's committed contents once per superstep (R206). -/
def logLine (s : State) (w : Who) (key : Nat) : State :=
  let base := key / 64 * 64
  if lineLogged s w (key / 64) then s
  else { s with undo := s.undo ++ [{ key := base, chip := w.chip, team := w.team, logger := w.ep, old := s.mem.getBytes base 64 }] }

/-- Write one byte at a key of a class, as R206, R219 and R221 say. -/
def writeKey (s : State) (w : Who) (key cls : Nat) (b : Byte) : State :=
  if w.service || 2 ≤ cls then { s with mem := s.mem.set key b }
  else if cls = 1 then
    let s := logLine s w key
    { s with mem := s.mem.set key b }
  else { s with deltas := putDelta s key { val := b, tag := w.writeTag, chip := w.chip, team := w.team, conf := false } }

/-- The interface of a chip whose frozen set holds a byte: a PMASK word of a launch-queue descriptor that a locked or
running interface owns (R434). -/
def frozenBy (s : State) (key : Nat) : Option (ChipNo × Nat) :=
  if isBufKey key then none
  else
    let chip := physChip key
    let c := s.chip chip
    let pa := physPa key
    ((List.range 8).find? fun i =>
      (match c.host.ifaces.toList[i]? with | some f => f.state == 1 || f.state == 2 | none => false) &&
      ([2 * i, 2 * i + 1] : List Nat).any fun q =>
        let d := (c.reg (0x110 + q) 0).toNat / 64 * 64
        d != 0 && decide (d + 12 ≤ pa) && decide (pa < d + 16)).map fun i => (chip, i)

/-- The interface moves to ERROR; its teams are halted before anything else moves (R434, R435). -/
def breakIface (s : State) (x : ChipNo × Nat) : State :=
  s.modChip x.1 fun c =>
    let broken (f : Iface) : Iface := { f with state := 3, halting := true }
    { c with host := { c.host with ifaces := c.host.ifaces.setIfInBounds x.2 (broken ((c.host.ifaces.toList[x.2]?).getD Iface.reset)) } }

/-- The interfaces whose frozen sets hold a byte of a range. -/
def frozenIn (s : State) (key n : Nat) : List (ChipNo × Nat) :=
  if isBufKey key || (s.chip (physChip key)).host.ifaces.toList.all fun f => f.state != 1 && f.state != 2 then []
  else ((List.range n).filterMap fun i => frozenBy s (key + i)).eraseDups

/-- Write committed bytes. A byte of a frozen set keeps its value, and its interface moves to ERROR (R434). -/
def putMem (s : State) (key : Nat) (bs : List Byte) : State :=
  match frozenIn s key bs.length with
  | [] => { s with mem := s.mem.setBytes key bs }
  | xs =>
    let free := bs.zipIdx.filter fun b => (frozenBy s (key + b.2)).isNone
    xs.foldl breakIface { s with mem := free.foldl (fun m b => m.set (key + b.2) b.1) s.mem }

/-- Put logged bytes back. A byte that has kept its value is not written, so a frozen set that it lies in is not touched (R434). -/
def restoreMem (s : State) (key : Nat) (bs : List Byte) : State :=
  match frozenIn s key bs.length with
  | [] => { s with mem := s.mem.setBytes key bs }
  | _ =>
    let new := bs.zipIdx.filter fun b => s.mem.get (key + b.2) != b.1
    let free := new.filter fun b => (frozenBy s (key + b.2)).isNone
    (new.filterMap fun b => frozenBy s (key + b.2)).eraseDups.foldl breakIface
      { s with mem := free.foldl (fun m b => m.set (key + b.2) b.1) s.mem }

/-- Write each byte and its mirror copy by the rules of their classes. A byte of a frozen set is not written, and its interface moves
to ERROR (R390, R434). -/
def writeBytes (s : State) (w : Who) (pls : List Place) (bs : List Byte) : State :=
  let all := (pls.zip bs).flatMap fun q => q.1.keys.map fun k => (k, q.2)
  let free := all.filter fun k => (frozenBy s k.1.1).isNone
  (all.filterMap fun k => frozenBy s k.1.1).eraseDups.foldl breakIface (free.foldl (fun s k => writeKey s w k.1.1 k.1.2 k.2) s)

/-- The entries of a core's overflow area that have been taken since its clamp held `before` slots: 128 bytes each, of line
data and tags in an order that the manual does not give (R206, R210; free values, notes/assumptions/53.md). -/
def spill (s : State) (e : EP) (before : Nat) : State :=
  let cfg := (s.core e).reg 0x128 0
  let base := bits cfg.toNat 20 37 * 2 ^ 20
  let first := if before < Config.clampSlots then Config.clampSlots else before
  (List.range (clampUsed s e - first)).foldl (fun s i =>
    let va := base + 128 * (first - Config.clampSlots + i)
    match walk s (epChip e) (partOf e) va with
    | .ok l =>
      let bytes := (List.range 16).flatMap fun j => bytesOf (Config.freeWord (s.freeIx + j)).toNat 8
      { s with freeIx := s.freeIx + 16, mem := s.mem.setBytes (physKey (epChip e) (leafPa s (epChip e) (partOf e) l va)) bytes }
    | .error _ => s) s

/-- What the clamps hold beyond their slots goes to the overflow areas. -/
def spillAll (before s : State) (w : Who) (ks : List (Nat × Nat)) : State :=
  ((newSlots before w ks).map (·.1)).eraseDups.foldl (fun s e =>
    if clampUsed s e ≤ Config.clampSlots then s else spill s e (clampUsed before e)) s

/-- Lines written whole hold no error any more. -/
def mendLines (s : State) (pls : List Place) : State :=
  if s.poison.isEmpty then s
  else { s with poison := s.poison.filter fun l => decide ((pls.filter fun pl => pl.key / 64 == l).length < 64) }

/-- Write resolved bytes as one access. A write that finds no room is rejected and votes CAPACITY (R206, R207). -/
def writePlaces (s : State) (w : Who) (ctx : BitVec 2) (pc : Word) (pls : List Place) (bs : List Byte) : State :=
  let s := touch s w pls
  if w.service || clampRoom s w pls then spillAll s (mendLines (writeBytes s w pls bs) pls) w (pls.flatMap Place.keys)
  else addVote s w.chip w.team { cause := 8, pc := pc, rank := w.rank, ctx := ctx }

/-! ### The executing context as an agent -/

/-- A core that runs a service program, or the collier (R419). -/
def isService (s : State) (e : EP) : Bool := epUnit e == 1088 || (s.core e).service

def tagOf (e : EP) (rank : Nat) : Tag := if isOpt e then .engPlus e.toNat else .rank rank

/-- The record's LIMIT field, as the device finds it. -/
def limitOf (s : State) (chip : ChipNo) (part : Nat) (r : Word) : Nat :=
  match walk s chip part (r.toNat + 56) with
  | .error _ => 0
  | .ok l => leNat ((List.range 8).map fun i =>
      if planeHidden l.cw (r.toNat + 56 + i) then 0 else s.mem.get (physKey chip (leafPa s chip part l (r.toNat + 56) + i)))

/-- The partition whose root serves a core of a team (R337). -/
def partFor (s : State) (chip : ChipNo) (team : Word32) (e : EP) : Nat :=
  if isCompute e then partOf e else match s.team? chip team with
    | some t => t.part
    | none => 0

/-- The executing context's control or vector stream (R217). -/
def ctxWho (s : State) (vec : Bool) : Who :=
  let c := s.cx
  let part := partFor s c.chip c.team c.ep
  { chip := c.chip, team := c.team, rank := c.rank, ep := c.ep, kind := if vec then .vector else .control, priv := c.priv,
    service := isService s c.ep, part := part, gmask := isCompute c.ep,
    stack := some (limitOf s c.chip part c.recA, (c.capG2.getD (c.gr 2)).toNat),
    readTag := tagOf c.ep c.rank, writeTag := tagOf c.ep c.rank }

/-- An agent that acts for a record: its missing translations are judged by that record's stack (R157). -/
def Who.onStack (w : Who) (s : State) (recA : Word) (g2 : Option Word) : Who :=
  { w with stack := g2.map fun g => (limitOf s w.chip w.part recA, g.toNat) }

/-- An engine of a core, for a rank of a team. -/
def engineWho (s : State) (e : EP) (kind : AgentKind) (chip : ChipNo) (team : Word32) (rank : Nat) : Who :=
  { chip := chip, team := team, rank := rank, ep := e, kind := kind,
    priv := if epUnit e = 1088 then .collier else if (s.core e).service then .service else .user, service := isService s e,
    part := partFor s chip team e, gmask := isCompute e, stack := none, readTag := tagOf e rank,
    writeTag := match kind with | .landing | .collective => .eng | _ => tagOf e rank }

/-! ### What the device reads and writes on its own account -/

/-- The agent of what the device reads and writes on its own account in a partition's space. -/
def ownWho (s : State) (chip : ChipNo) (part : Nat) (team : Word32) : Who :=
  { engineWho s (mkEp chip (decide (4 ≤ part)) 0) .control chip team 0 with part := part, service := true, gmask := false }

/-- The bytes of a range that the device reaches on its own account, if every page is mapped, its own, and writable where it
writes; a byte that a plane hides is not (R272). -/
def ownPlaces (s : State) (chip : ChipNo) (part va n : Nat) (wr : Bool) : Option (List Place) :=
  ((pageChunks (n + 1) va n).mapM fun (a, m) =>
    match walk s chip part a with
    | .error _ => none
    | .ok l =>
      let pls := (List.range m).map fun i => pagePlace s (XUse.plain chip part l a) (a + i) (BitVec.ofNat 64 (a + i)) false
      if cwOwner l.cw || cwClass l.cw == 3 || (wr && (!l.bit 3 || pls.any fun pl => pl.zero)) then none else some pls).map List.flatten

/-- The mirror copies of a range that the device writes for a team (R389); one that cannot be reached is left out
(notes/assumptions/136.md). -/
def ownMirrors (s : State) (t : Team) (va n : Nat) : List (Option Nat) :=
  if !feature s t.chip 4 then []
  else match (ownPlaces s t.chip t.part va n true).map fun pls => addMirrors s (ownWho s t.chip t.part t.id) (some t) pls with
    | some (.ok pls) => pls.map fun pl => pl.mirror.map fun m => m.1
    | _ => []

end Sys2Proof.Machine
end

