-- ==== Sys2Proof/Machine/Stats.lean ====
section
/-! DEFINITION. Tensor statistics: what a written element contributes (R316), the updates that writers send (R317) and how
two halves merge (R318, R319). -/
namespace Sys2Proof.Machine

/-- A half that holds no update. -/
def halfEmpty : Half' := { bins := List.replicate 32 0, amax := 0, count := 0, nans := 0, infs := 0, sats := 0 }

/-- Floor of the base-2 logarithm of m * 2^e, m ≠ 0. -/
def floorLog2 (m : Nat) (e : Int) : Int := (log2 m : Int) + e

/-- The histogram bin of a finite non-zero value (R316). -/
def statBin (m : Nat) (e : Int) : Nat :=
  let i := floorLog2 m e + 25
  if i < 0 then 0 else if 31 < i then 31 else i.toNat

/-- An element written: its record, its value, whether its conversion saturated, whether it stands for a NaN (R316). -/
structure StatEl where
  idx : Nat
  v : FV
  sat : Bool
  asNan : Bool
  deriving DecidableEq, Repr

/-- What one element adds (R316). -/
def contribute (h : Half') (v : FV) (sat asNan : Bool) : Half' :=
  let h := { h with count := h.count + 1, sats := h.sats + sat.toNat, nans := h.nans + asNan.toNat }
  match v with
  | .nan _ _ => { h with nans := h.nans + 1 }
  | .inf _ => { h with infs := h.infs + 1, amax := 0x7F800000 }
  | .fin _ m e =>
    if m = 0 then h
    else
      let a := (fp32.round .ru false m e).1
      { h with amax := if h.amax.toNat < a then BitVec.ofNat 32 a else h.amax,
               bins := h.bins.modify (statBin m e) (· + 1) }

/-- Merge two halves (R318): AMAX takes the maximum, everything else a saturating sum. -/
def mergeHalf (a b : Half') : Half' :=
  { bins := (a.bins.zip b.bins).map fun p => satAdd 16 p.1 p.2,
    amax := if a.amax.toNat < b.amax.toNat then b.amax else a.amax,
    count := satAdd 32 a.count b.count, nans := satAdd 16 a.nans b.nans, infs := satAdd 16 a.infs b.infs,
    sats := satAdd 16 a.sats b.sats }

/-- The elements that bytes of bound pages write wholly: record index and value. Raw and SBP pages, typed buffers and
peer bytes contribute nothing (R316, R317). -/
def writtenElems : List (Place × Byte) → List (Nat × FV)
  | [] => []
  | (pl, b) :: rest =>
    let f := cwFmt pl.cw
    let here : List (Nat × FV) :=
      if isBufKey pl.key || pl.peer || cwRidx pl.cw == 0xFFFF || decide (0x10 ≤ f) then []
      else
        let bitsE := fmtBits f
        if bitsE < 8 then
          (List.range (8 / bitsE)).map fun i => (cwRidx pl.cw, fmtVal f false (bits b.toNat (bitsE * i) bitsE))
        else
          let n := bitsE / 8
          let run := ((pl, b) :: rest).take n
          if pl.va.toNat % n == 0 && run.length == n && (run.zipIdx.all fun q => q.1.1.va == pl.va + BitVec.ofNat 64 q.2) then
            [(cwRidx pl.cw, fmtVal f false (leNat (run.map (·.2))))]
          else []
    here ++ writtenElems rest

/-- Send contributions as one update per record (R318), for a team whose NREC lies above the index (R312). -/
def sendStats (s : State) (chip : ChipNo) (team : Word32) (src : EP) (pc : Word) (elems : List StatEl) : State :=
  match s.team? chip team with
  | none => s
  | some t =>
    let idxs := ((elems.map fun e => e.idx).eraseDups).filter fun i => decide (i < t.nrec)
    idxs.foldl (fun s i =>
      let half := (elems.filter fun e => e.idx == i).foldl (fun h e => contribute h e.v e.sat e.asNan) halfEmpty
      let (id, s) := s.freshId
      { s with updates := s.updates ++ [{ id := id, chip := chip, team := team, idx := i, src := src, pc := pc, half := half }] }) s

/-- The updates of a plain write (R317). -/
def writeStats (s : State) (w : Who) (pc : Word) (pls : List Place) (bs : List Byte) : State :=
  sendStats s w.chip w.team w.ep pc ((writtenElems (pls.zip bs)).map fun e => { idx := e.1, v := e.2, sat := false, asNan := false })

/-- A store by an engine or a stream with its statistics; one that is rejected writes nothing and sends none (R206, R317). -/
def storePlaces (s : State) (w : Who) (ctx : BitVec 2) (pc : Word) (pls : List Place) (bs : List Byte) : State :=
  let t := writePlaces s w ctx pc pls bs
  if w.service || clampRoom (touch s w pls) w pls then writeStats t w pc pls bs else t

/-- A team's record part outside the table. -/
def Team.statRec (t : Team) (i : Nat) : StatRec :=
  (t.stats.find? fun r => r.idx == i).getD { idx := i, work := none, clr := none }
def Team.setStat (t : Team) (r : StatRec) : Team :=
  { t with stats := t.stats.filter (fun x => x.idx != r.idx) ++ [r] }

/-- Whether a record's home has room for its working half: it holds one already, or its region takes one more (R315). -/
def halfRoom (s : State) (t : Team) (i : Nat) : Bool :=
  (t.statRec i).work.isSome || decide (redoUsed s (farAgentOf (t.recordKey i 0)) + workHalfBytes ≤ Config.redoBytes)

/-- The committed half and configuration as the table holds it (R314). -/
def committed (s : State) (t : Team) (i : Nat) : Half' :=
  let rd (off n : Nat) := leNat (s.mem.getBytes (t.recordKey i off) n)
  { bins := (List.range 32).map fun b => rd (2 * b) 2, amax := BitVec.ofNat 32 (rd 64 4), count := rd 68 4,
    nans := rd 72 2, infs := rd 74 2, sats := rd 76 2 }

/-- Write bytes of a record, and their mirror copies (R314, R389). -/
def putRecBytes (s : State) (t : Team) (i off : Nat) (bs : List Byte) : State :=
  let ms := ownMirrors s t (t.rectab.toNat + 128 * i + off) bs.length
  (ms.zip bs).foldl (fun s m => match m.1 with | some k => putMem s k [m.2] | none => s) (putMem s (t.recordKey i off) bs)

/-- Write a record's 128 bytes (R314). -/
def putRecord (s : State) (t : Team) (i : Nat) (h : Half') (thresh fold fmt : Nat) (hsat : Bool) : State :=
  let bs := ((h.bins.take 32).map fun b => bytesOf b 2).flatten ++ bytesOf h.amax.toNat 4 ++ bytesOf h.count 4 ++
    bytesOf h.nans 2 ++ bytesOf h.infs 2 ++ bytesOf h.sats 2 ++ bytesOf thresh 2 ++ bytesOf fold 4 ++ bytesOf fmt 1 ++
    bytesOf (if hsat then 2 else 0) 1 ++ List.replicate 42 0
  putRecBytes s t i 0 bs

/-- Whether adding a half saturates some count or bin (R319). -/
def addSaturates (a b : Half') : Bool :=
  (a.bins.zip b.bins).any (fun p => decide (2 ^ 16 ≤ p.1 + p.2)) || decide (2 ^ 32 ≤ a.count + b.count) ||
  decide (2 ^ 16 ≤ a.nans + b.nans) || decide (2 ^ 16 ≤ a.infs + b.infs) || decide (2 ^ 16 ≤ a.sats + b.sats)

/-- R319 for one record of a team at the commit of superstep `ssn`. -/
def foldRecord (s : State) (t : Team) (ssn : Nat) (clears : Bool) (r : StatRec) : State :=
  let rd (off n : Nat) := leNat (s.mem.getBytes (t.recordKey r.idx off) n)
  match r.clr, clears with
  | some c, true =>
    putRecord s t r.idx halfEmpty (bits c.1.toNat 0 16) ssn (bits c.1.toNat 16 5) false
  | _, _ =>
    match r.work with
    | some w =>
      let old := committed s t r.idx
      putRecord s t r.idx (mergeHalf old w) (rd 78 2) ssn (rd 84 1) (testBit (rd 85 1) 1 || addSaturates old w)
    | none => s

/-- Fold every record of a team. `clears` is false at a RESCALE-only abort (R320). -/
def foldStats (s : State) (t : Team) (ssn : Nat) (clears : Bool) : State :=
  let s := t.stats.foldl (fun s r => foldRecord s t ssn clears r) s
  s.modTeam t.chip t.id fun t => { t with stats := [] }

end Sys2Proof.Machine
end

