-- ==== Sys2Proof/Machine/Operands.lean ====
section
/-! DEFINITION. Operand forms: which registers an instruction names and writes (R9, R24), the B operands (R27, R40, R74),
the fields of R18, the addresses of vector accesses (R96-R98), and the privileges of the system registers (R383). -/
namespace Sys2Proof
open Machine

/-! ### Registers named and written -/

/-- Registers an instruction names, by file: g and v read or written, and what it writes (R9, R24). `gr` are the g
registers it reads. -/
structure Uses where
  gr : List GReg
  gw : List GReg
  v : List VReg
  vw : List VReg
  kw : List KReg
  pr : List PReg
  pw : List PReg
  sw : List Nat
  /-- A group of v registers runs past v31, as VSPLIT3's may once renamed (R107). -/
  overrun : Bool
  deriving DecidableEq, Repr

def Uses.none : Uses := { gr := [], gw := [], v := [], vw := [], kw := [], pr := [], pw := [], sw := [], overrun := false }

def BOp.gs : BOp → List GReg
  | .reg r => [r]
  | _ => []
def BReg.gs : BReg → List GReg
  | .reg r => [r]
  | _ => []
def VB.gs : VB → List GReg
  | .g r => [r]
  | _ => []
def VB.vs : VB → List VReg
  | .v r => [r]
  | _ => []
/-- A group of n registers from r. -/
def grpOf (r : GReg) (n : Nat) : List GReg := (List.range n).map (grpReg r)
def Size.group (sz : Size) (r : GReg) : List GReg :=
  match sz with
  | .f => grpOf r 4
  | .l => grpOf r 8
  | _ => [r]
def Uses.g (r w : List GReg) (ms : Ms) : Uses := { Uses.none with gr := r, gw := w, pr := [ms.idx] }
def VDest.uses (d : VDest) : Uses :=
  match d with
  | .v r => { Uses.none with v := [r], vw := [r] }
  | .g r => { Uses.none with gw := [r] }
  | .q _ => Uses.none

/-- A vector form of destination v register, sources and a B operand. -/
def Uses.vec (d : VReg) (as : List VReg) (b : VB) : Uses :=
  { Uses.none with gr := b.gs, v := d :: as ++ b.vs, vw := [d] }
def Uses.vdst (d : VDest) (a : VReg) (b : VB) : Uses :=
  { d.uses with gr := b.gs, v := d.uses.v ++ a :: b.vs }

/-- The registers of every instruction; an event of the device names none. -/
def Instr.uses : Instr → Uses
  | .add _ d a b ms | .sub _ d a b ms | .mul _ d a b ms | .mulh _ d a b ms | .mulhn _ d a b ms | .div _ d a b ms
  | .divn _ d a b ms | .remS _ d a b ms | .remn _ d a b ms | .andI _ d a b ms | .orI _ d a b ms | .xorI _ d a b ms
  | .andn _ d a b ms | .orn _ d a b ms | .shl _ d a b ms | .shr _ d a b ms | .sar _ d a b ms | .rol _ d a b ms
  | .minS _ d a b ms | .maxS _ d a b ms | .minn _ d a b ms | .maxn _ d a b ms => .g (a :: b.gs) [d] ms
  | .clz _ d a ms | .ctz _ d a ms | .popc _ d a ms | .brev _ d a ms | .sext d a _ ms | .zext d a _ ms
  | .bfx d a _ _ ms | .bfxn d a _ _ ms => .g [a] [d] ms
  | .bfi d a _ _ ms => .g [a, d] [d] ms
  | .cmp _ _ d a b ms => { Uses.g (a :: b.gs) [] ms with pw := [d] }
  | .sel d a b p _ ms => { Uses.g (a :: b.gs) [d] ms with pr := [ms.idx, p] }
  | .plog _ d a b ms => { Uses.g [] [] ms with pr := [ms.idx, a, b], pw := [d] }
  | .mov f ms =>
    match f with
    | .gFromG d a => .g [a] [d] ms
    | .gFromImm d _ => .g [] [d] ms
    | .gFromP d a => { Uses.g [] [d] ms with pr := [ms.idx, a] }
    | .pFromG d a => { Uses.g [a] [] ms with pw := [d] }
  | .li d _ => { Uses.none with gw := [d] }
  | .lcw d f ms =>
    match f with
    | .slot _ => .g [] [d] ms
    | .reg a => .g [a] [d] ms
  | .lea d a b _ _ ms => .g (a :: b.gs) [d] ms
  | .mkptr d a f _ ms =>
    match f with
    | .imm _ => .g [a] [d] ms
    | .reg b => .g [a, b] [d] ms
  | .ptrx _ d a ms => .g [a] [d] ms
  | .br _ ms => .g [] [] ms
  | .jmp _ => Uses.none
  | .jmpi a ms => .g [a] [] ms
  | .call d _ ms => .g [] [d] ms
  | .calli d a ms => .g [a] [d] ms
  | .ret a ms => .g [a] [] ms
  | .loop d _ ms => .g [d] [d] ms
  | .bsig _ => Uses.none
  | .endC ms | .nop ms => .g [] [] ms
  | .grow d _ _ ms => { Uses.g [] [] ms with pw := [d] }
  | .shrink _ _ ms => .g [] [] ms
  | .fadd _ d a b _ ms | .fsub _ d a b _ ms | .fmul _ d a b _ ms | .fdiv _ d a b _ ms => .g (a :: b.gs) [d] ms
  | .ffma _ d a b _ ms => .g (a :: d :: b.gs) [d] ms
  | .fsqrt _ d a _ ms => .g [a] [d] ms
  | .fmin _ d a b ms | .fmax _ d a b ms | .fsgn _ _ d a b ms => .g (a :: b.gs) [d] ms
  | .fcmp _ _ d a b ms => { Uses.g (a :: b.gs) [] ms with pw := [d] }
  | .fcvt d a _ ms => .g [a] [d] ms
  | .fclass _ d a ms => .g [a] [d] ms
  | .ld sz _ d a b _ ms => .g (a :: b.gs) (sz.group d) ms
  | .st sz _ d a b _ ms => .g (a :: b.gs ++ sz.group d) [] ms
  | .ldl _ d a b _ ms => .g (a :: b.gs) (grpOf d 8) ms
  | .stl _ d a b _ ms => .g (a :: b.gs ++ grpOf d 8) [] ms
  | .pref _ _ a b _ ms => .g (a :: b.gs) [] ms
  | .vadd _ d a b _ _ | .vsub _ d a b _ _ | .vmul _ d a b _ _ | .vfma _ d a b _ _ | .vdiv _ d a b _ _
  | .vdot2 _ d a b _ _ => .vec d [a] b
  | .vmin _ d a b _ | .vmax _ d a b _ | .vperm _ d a b _ => .vec d [a] b
  | .vand _ d a b _ | .vor _ d a b _ | .vxor _ d a b _ | .vshl _ d a b _ | .vshr _ d a b _ | .vsar _ d a b _ => .vec d [a] b
  | .vsqrt _ d a _ _ => { Uses.none with v := [d, a], vw := [d] }
  | .vabs _ d a _ | .vneg _ d a _ => { Uses.none with v := [d, a], vw := [d] }
  | .vcmp _ d a b _ => { Uses.none with gr := b.gs, v := a :: b.vs, kw := [d] }
  | .vsel _ d a b _ _ _ => .vec d [a] b
  | .vbcast _ d f _ =>
    match f with
    | .g a => { Uses.none with gr := [a], v := [d], vw := [d] }
    | .q _ => { Uses.none with v := [d], vw := [d] }
    | .lane a _ => { Uses.none with v := [d, a], vw := [d] }
  | .vextr _ d a _ _ => .vdst d a (.imm 0)
  | .vins _ d a _ _ => { Uses.none with gr := [a], v := [d], vw := [d] }
  | .vfirst _ d a _ => .vdst d a (.imm 0)
  | .viota _ d _ => { Uses.none with v := [d], vw := [d] }
  | .vslide _ _ d a b _ _ => { Uses.none with v := [d, a, b], vw := [d] }
  | .vreds _ d a b _ _ => .vdst d a b
  | .vredm _ _ d a b _ => .vdst d a b
  | .vcvt _ _ _ d a _ _ => { Uses.none with v := [d, a], vw := [d] }
  | .vsplit3 d a _ _ =>
    { Uses.none with v := [d, d + 1, d + 2, a], vw := [d, d + 1, d + 2], overrun := decide (30 ≤ d.toNat) }
  | .vld _ _ _ d a b _ _ => { Uses.none with gr := a :: b.gs, v := [d], vw := [d] }
  | .vst _ _ _ d a b _ _ => { Uses.none with gr := a :: b.gs, v := [d] }
  | .vlds _ _ d a b _ _ => { Uses.none with gr := [a, b], v := [d], vw := [d] }
  | .vgath _ _ d a b _ _ _ => { Uses.none with gr := [a], v := [d, b], vw := [d] }
  | .vscat _ _ d a b _ _ _ => { Uses.none with gr := [a], v := [d, b] }
  | .klog _ d _ _ => { Uses.none with kw := [d] }
  | .kpopc d _ | .kfirst d _ => { Uses.none with gw := [d] }
  | .kmov f =>
    match f with
    | .kk d _ => { Uses.none with kw := [d] }
    | .kg d a => { Uses.none with gr := [a], kw := [d] }
    | .gk d _ => { Uses.none with gw := [d] }
    | .ki d _ => { Uses.none with kw := [d] }
  | .ktest _ d _ _ => { Uses.none with pw := [d] }
  | .rep a _ _ _ _ => { Uses.none with gr := [a] }
  | .qcnt _ d _ ms => .g [] [d] ms
  | .qdrain _ f ms =>
    match f with
    | .drain _ => .g [] [] ms
    | .get d _ => .g [] [d] ms
    | .put _ a => .g [a] [] ms
  | .arm d a b ms | .dec d a b ms | .inc d a b ms => .g (a :: b.gs) [d] ms
  | .spawn a ms => .g [a] [] ms
  | .tspawn d a _ ms => { Uses.g [a] [] ms with pw := [d] }
  | .waita _ d a b ms => .g (a :: b.gs) [d] ms
  | .yield ms | .susp ms => .g [] [] ms
  | .arrive d a b ms => .g (a :: d :: b.gs) [d] ms
  | .await d a b ms => .g [a, b] [d] ms
  | .drop a b ms => .g [a, b] [] ms
  | .ssync d a b _ _ ms => .g [a, b] [d] ms
  | .ssnum d ms => .g [] [d] ms
  | .fuse _ ms | .split ms => .g [] [] ms
  | .tqpush a b ms => .g [a, b] [] ms
  | .tqpop d a ms => .g [a] [d] ms
  | .gwload a _ _ ms => .g [a] [] ms
  | .gwrun _ ms => .g [] [] ms
  | .gwstat d ms => .g [] [d] ms
  | .cond a b ms => .g (a :: b.gs) [] ms
  | .cpy a b ms => .g (grpOf a 4 ++ b.gs) [] ms
  | .pfl a _ ms => .g [a] [] ms
  | .ldacq sz _ _ d a b _ ms => .g (a :: b.gs) (sz.group d) ms
  | .strel sz _ _ d a b _ ms => .g (a :: b.gs ++ sz.group d) [] ms
  | .fence _ ms => .g [] [] ms
  | .aadd _ _ _ d a b ms | .aand _ _ _ d a b ms | .aor _ _ _ d a b ms | .axor _ _ _ d a b ms
  | .aswp _ _ _ d a b ms => .g (a :: b.gs) [d] ms
  | .amin _ _ _ _ d a b ms | .amax _ _ _ _ d a b ms => .g (a :: b.gs) [d] ms
  | .afadd _ _ _ _ d a b ms => .g (a :: b.gs) [d] ms
  | .acas _ _ _ d a b ms => .g (a :: d :: b.gs) [d] ms
  | .red _ _ _ _ _ a b ms => .g (a :: b.gs) [] ms
  | .pgq _ _ d a b _ ms => .g (a :: b.gs) [d] ms
  | .rred _ _ _ a b ms => .g (a :: b.gs) [] ms
  | .rflush one _ _ a ms => .g (if one then [a] else []) [] ms
  | .rstat f ms =>
    match f with
    | .entry d _ => .g [] (grpOf d 4) ms
    | .count d => .g [] [d] ms
    | .clear => .g [] [] ms
  | .fcas _ d a b w p ms =>
    { Uses.g (a :: grpOf b 4) (grpOf d (w.toNat + 1)) ms with pw := [p] }
  | .fenq _ d a b ms => .g [a, b] [d] ms
  | .fchase _ _ d a _ _ ms => .g [a] [d, d + 1] ms
  | .tsrd _ d b _ ms => .g b.gs [d] ms
  | .tsclr a b ms => .g (a :: b.gs) [] ms
  | .tsscale d b _ ms => .g b.gs [d] ms
  | .qnt _ d a b _ _ _ _ ms => .g (grpOf a 4 ++ b.gs) [d] ms
  | .qntl _ d a _ _ _ _ ms => .g (grpOf a 4) [d] ms
  | .dqnt _ _ a b _ _ _ _ _ ms => .g (grpOf a 4 ++ b.gs) [] ms
  | .kput a b ms | .kget a b ms => .g (grpOf a 4 ++ b.gs) [] ms
  | .kcoll a b _ ms => .g (grpOf a 4 ++ b.gs) [] ms
  | .fedj a b ms => .g (a :: b.gs) [] ms
  | .fedl ms => .g [] [] ms
  | .gqpush a ms => .g (grpOf a 4) [] ms
  | .gqpop d a ms => .g [a] [d] ms
  | .gqwin rl d a b ms => .g (a :: b.gs) (if rl then [] else [d]) ms
  | .gprio a _ ms => .g [a] [] ms
  | .ostep d b ms => .g b.gs [d] ms
  | .trap _ ms | .brk ms => .g [] [] ms
  | .fmsg _ d ms => .g [] (grpOf d 8) ms
  | .freply a b ms => .g (grpOf a 8 ++ b.gs) [] ms
  | .srd d _ ms => .g [] [d] ms
  | .swr a n ms => { Uses.g [a] [] ms with sw := [n.toNat] }
  | .tlbi all _ a b ms => .g (if all then [] else a :: b.gs) [] ms
  | .ident d _ ms => .g [] [d] ms
  | .halt ms => .g [] [] ms
  | _ => Uses.none

/-- The g registers a vector instruction reads at hand-off, in the order the save area keeps them (R75, R117). -/
def Instr.caps (i : Instr) : List GReg := i.uses.gr

/-- The granules that the instruction now issuing is judged by (R24): the context's, or those of its hand-off. -/
def Machine.Context.allot (c : Context) : Nat × Nat := c.vAllot.getD (c.gGran, c.vGran)

/-- Every g and v register an instruction names lies in the allotment (R24). -/
def allotOk (c : Context) (u : Uses) : Bool :=
  (u.gr ++ u.gw).all (fun r => decide (r.toNat < 8 * c.allot.1)) && (u.v.all fun r => decide (r.toNat < 4 * c.allot.2)) && !u.overrun

/-- R9: no register of one file written by both. g0 and p0 discard writes but are still named. -/
def pairClash (a b : Uses) : Bool :=
  a.gw.any b.gw.contains || a.vw.any b.vw.contains || a.kw.any b.kw.contains || a.pw.any b.pw.contains ||
  a.sw.any b.sw.contains

/-- The control-stream instructions that OR float flags into FFLAGS (R59). -/
def Instr.setsFlags : Instr → Bool
  | .fadd .. | .fsub .. | .fmul .. | .fdiv .. | .ffma .. | .fsqrt .. | .fmin .. | .fmax .. | .fcmp .. | .fcvt ..
  | .afadd .. | .qnt .. | .qntl .. | .dqnt .. => true
  | _ => false

/-- R9 on two instructions: FFLAGS counts as written by both when one of them is an SWR; flags that both OR do not count. -/
def Instr.clashes (x y : Instr) : Bool :=
  pairClash x.uses y.uses || (x.uses.sw.contains 0x10 && y.setsFlags) || (y.uses.sw.contains 0x10 && x.setsFlags)

/-- A constant-window slot that a B operand names (R27). -/
def BOp.cws : BOp → List (BitVec 8)
  | .cw c => [c]
  | _ => []
def BReg.cws : BReg → List (BitVec 8)
  | .cw c => [c]
  | _ => []

/-- The constant-window slots that a control-stream instruction reads at issue, through its C field (R27) or as LCW (R47). -/
def Instr.cws (s : State) : Instr → List (BitVec 8)
  | .add _ _ _ b _ | .sub _ _ _ b _ | .mul _ _ _ b _ | .mulh _ _ _ b _ | .mulhn _ _ _ b _ | .div _ _ _ b _
  | .divn _ _ _ b _ | .remS _ _ _ b _ | .remn _ _ _ b _ | .andI _ _ _ b _ | .orI _ _ _ b _ | .xorI _ _ _ b _
  | .andn _ _ _ b _ | .orn _ _ _ b _ | .shl _ _ _ b _ | .shr _ _ _ b _ | .sar _ _ _ b _ | .rol _ _ _ b _
  | .minS _ _ _ b _ | .maxS _ _ _ b _ | .minn _ _ _ b _ | .maxn _ _ _ b _ => b.cws
  | .cmp _ _ _ _ b _ | .sel _ _ b _ _ _ | .lea _ _ b _ _ _ => b.cws
  | .lcw _ f _ => match f with | .slot c => [c] | .reg a => [(s.g a).setWidth 8]
  | .fadd _ _ _ b _ _ | .fsub _ _ _ b _ _ | .fmul _ _ _ b _ _ | .fdiv _ _ _ b _ _ | .ffma _ _ _ b _ _ => b.cws
  | .fmin _ _ _ b _ | .fmax _ _ _ b _ | .fsgn _ _ _ _ b _ | .fcmp _ _ _ _ b _ => b.cws
  | .ld _ _ _ _ b _ _ | .st _ _ _ _ b _ _ | .ldl _ _ _ b _ _ | .stl _ _ _ b _ _ | .pref _ _ _ b _ _ => b.cws
  | .arm _ _ b _ | .dec _ _ b _ | .inc _ _ b _ | .waita _ _ _ b _ | .arrive _ _ b _ | .cond _ b _ | .cpy _ b _ => b.cws
  | .ldacq _ _ _ _ _ b _ _ | .strel _ _ _ _ _ b _ _ => b.cws
  | .aadd _ _ _ _ _ b _ | .aand _ _ _ _ _ b _ | .aor _ _ _ _ _ b _ | .axor _ _ _ _ _ b _ | .aswp _ _ _ _ _ b _ => b.cws
  | .amin _ _ _ _ _ _ b _ | .amax _ _ _ _ _ _ b _ | .afadd _ _ _ _ _ _ b _ | .acas _ _ _ _ _ b _ => b.cws
  | .red _ _ _ _ _ _ b _ | .pgq _ _ _ _ b _ _ | .rred _ _ _ _ b _ => b.cws
  | .tsrd _ _ b _ _ | .tsclr _ b _ | .tsscale _ b _ _ => b.cws
  | .qnt _ _ _ b _ _ _ _ _ | .dqnt _ _ _ b _ _ _ _ _ _ => b.cws
  | .kput _ b _ | .kget _ b _ | .kcoll _ b _ _ | .fedj _ b _ | .gqwin _ _ _ b _ | .ostep _ b _ => b.cws
  | .freply _ b _ | .tlbi _ _ _ b _ => b.cws
  | _ => []

/-! ### Predicates and masks (R18) -/

def Ms.on (m : Ms) (s : State) : Bool := s.p m.idx != m.inv

/-- The mask in force for a vector instruction. -/
def Ms.mask (m : Ms) (c : Context) : Mask :=
  let k0 := c.kr 0
  if m.idx = 0 then k0 else k0 &&& (if m.inv then ~~~(c.kr m.idx) else c.kr m.idx)

/-- Activity of element e of an n-element register (R73): a 64-bit element follows its even lane. -/
def elemOn (mask : Mask) (n e : Nat) : Bool := mask.getLsbD (if n = 8 then 2 * e else e)

/-! ### Scalar operands -/

/-- A constant-window slot (R27). -/
def Machine.State.cwSlot (s : State) (c : BitVec 8) : Nat := leNat (s.mem.getBytes (bufKey s.cx.ep 1 (8 * c.toNat)) 8)

def BReg.val (b : BReg) (s : State) : Word :=
  match b with
  | .reg r => s.g r
  | .cw c => BitVec.ofNat 64 (s.cwSlot c)

/-- R40: the B operand as a 64-bit value, the immediate sign-extended. -/
def BOp.val (b : BOp) (s : State) : Word :=
  match b with
  | .reg r => s.g r
  | .cw c => BitVec.ofNat 64 (s.cwSlot c)
  | .imm i => i.signExtend 64

/-- R40: extend a W-bit result. -/
def extend (w : Nat) (signed : Bool) (r : Nat) : Word :=
  if signed then sext64 w r else BitVec.ofNat 64 (r % 2 ^ w)

def Ty.width : Ty → Nat
  | .int t => t.bits
  | .flt t => match t with | .f64 => 64 | .f32 | .f19 => 32 | _ => 16

def Ty.isSigned : Ty → Bool
  | .int t => t.signed
  | .flt _ => false

/-! ### Vector operands (R72, R74) -/

/-- Elements of a register for a type. -/
def Ty.count (t : Ty) : Nat := if t.width = 64 then 8 else 16

/-- An element's value as its type holds it: bits [12:0] of FP19 are ignored and written as zero (R58, R72). -/
def Ty.clean (t : Ty) (x : Nat) : Nat :=
  match t with
  | .flt .f19 => x / 2 ^ 13 * 2 ^ 13
  | _ => x

/-- Element e of a register (R72): the low bits of its lane, or of its pair of lanes. -/
def elemOf (t : Ty) (v : VWord) (e : Nat) : Nat := t.clean (bits v.toNat ((if t.width = 64 then 64 else 32) * e) t.width)

/-- The 16-bit and narrower elements are written extended to 32 bits. -/
def laneOf (t : Ty) (x : Nat) : Nat :=
  if t.isSigned && decide (t.width < 32) then natOfInt 32 (sintOf t.width x) else t.clean (x % 2 ^ t.width)

/-- Replace bits [lo + len - 1 : lo] of a register. -/
def putBits (v : VWord) (lo len x : Nat) : VWord :=
  BitVec.ofNat 512 (v.toNat - bits v.toNat lo len * 2 ^ lo + x % 2 ^ len * 2 ^ lo)

def putElem (t : Ty) (v : VWord) (e x : Nat) : VWord :=
  let w := if t.width = 64 then 64 else 32
  putBits v (w * e) w (laneOf t x)

/-- Write each active element of a register with a function of its index (R73). -/
def mapElems (t : Ty) (mask : Mask) (old : VWord) (f : Nat → Nat) : VWord :=
  (List.range t.count).foldl (fun v e => if elemOn mask t.count e then putElem t v e (f e) else v) old

/-- A g operand reduced to the element width, an immediate or a window slot, as every element's value (R27, R74). -/
def VB.elem (b : VB) (s : State) (t : Ty) (e : Nat) : Nat :=
  match b with
  | .v r => elemOf t (s.v r) e
  | .cw c => t.clean (s.cwSlot c % 2 ^ t.width)
  | .g r => t.clean ((s.g r).toNat % 2 ^ t.width)
  | .imm i => t.clean ((i.signExtend 64).toNat % 2 ^ t.width)

/-- Rename a v register in a repetition's iteration (R107). -/
def renReg (r : RepState) (x : VReg) : VReg :=
  if decide (r.wb ≤ x.toNat) && decide (x.toNat < r.wb + r.ws) then
    BitVec.ofNat 5 (r.wb + (x.toNat - r.wb + r.iter * r.st) % r.ws)
  else x

def renVB (r : RepState) : VB → VB
  | .v x => .v (renReg r x)
  | b => b
def renDest (r : RepState) : VDest → VDest
  | .v x => .v (renReg r x)
  | d => d

/-- A body instruction as iteration i issues it (R107). -/
def renInstr (r : RepState) (i : Instr) : Instr :=
  let n := renReg r
  let b' := renVB r
  match i with
  | .vadd t d a b m ms => .vadd t (n d) (n a) (b' b) m ms
  | .vsub t d a b m ms => .vsub t (n d) (n a) (b' b) m ms
  | .vmul t d a b m ms => .vmul t (n d) (n a) (b' b) m ms
  | .vfma t d a b m ms => .vfma t (n d) (n a) (b' b) m ms
  | .vdiv t d a b m ms => .vdiv t (n d) (n a) (b' b) m ms
  | .vsqrt t d a m ms => .vsqrt t (n d) (n a) m ms
  | .vmin t d a b ms => .vmin t (n d) (n a) (b' b) ms
  | .vmax t d a b ms => .vmax t (n d) (n a) (b' b) ms
  | .vabs t d a ms => .vabs t (n d) (n a) ms
  | .vneg t d a ms => .vneg t (n d) (n a) ms
  | .vand t d a b ms => .vand t (n d) (n a) (b' b) ms
  | .vor t d a b ms => .vor t (n d) (n a) (b' b) ms
  | .vxor t d a b ms => .vxor t (n d) (n a) (b' b) ms
  | .vshl t d a b ms => .vshl t (n d) (n a) (b' b) ms
  | .vshr t d a b ms => .vshr t (n d) (n a) (b' b) ms
  | .vsar t d a b ms => .vsar t (n d) (n a) (b' b) ms
  | .vcmp c d a b ms => .vcmp c d (n a) (b' b) ms
  | .vsel t d a b k v ms => .vsel t (n d) (n a) (b' b) k v ms
  | .vbcast t d f ms => .vbcast t (n d) (match f with | .lane a x => .lane (n a) x | f => f) ms
  | .vextr t d a x ms => .vextr t (renDest r d) (n a) x ms
  | .vins t d a x ms => .vins t (n d) a x ms
  | .vfirst t d a ms => .vfirst t (renDest r d) (n a) ms
  | .viota t d ms => .viota t (n d) ms
  | .vperm t d a b ms => .vperm t (n d) (n a) (b' b) ms
  | .vslide t u d a b m ms => .vslide t u (n d) (n a) (n b) m ms
  | .vreds t d a b m ms => .vreds t (renDest r d) (n a) (b' b) m ms
  | .vredm t x d a b ms => .vredm t x (renDest r d) (n a) (b' b) ms
  | .vdot2 t d a b m ms => .vdot2 t (n d) (n a) (b' b) m ms
  | .vcvt x y p d a m ms => .vcvt x y p (n d) (n a) m ms
  | .vsplit3 d a h ms => .vsplit3 (n d) (n a) h ms
  | .vld z p am d a b o ms => .vld z p am (n d) a b o ms
  | .vst z p am d a b o ms => .vst z p am (n d) a b o ms
  | .vlds z am d a b o ms => .vlds z am (n d) a b o ms
  | .vgath z am d a b h o ms => .vgath z am (n d) a (n b) h o ms
  | .vscat z am d a b h o ms => .vscat z am (n d) a (n b) h o ms
  | i => i

/-! ### Vector addresses (R95-R98) -/

def VSize.bytes : VSize → Nat
  | .d => 8 | .w => 4 | .h | .hn => 2 | .b | .bn => 1
/-- Elements that a vector access of a size moves. -/
def VSize.elems : VSize → Nat
  | .d => 8 | _ => 16
/-- The span of an access (R96). -/
def VSize.span (sz : VSize) : Nat := sz.bytes * sz.elems
/-- How a loaded element lies in its lane: sign-extended, zero-extended, or whole. -/
def VSize.ty : VSize → Ty
  | .d => .int .n64 | .w => .int .n32 | .h => .int .i16 | .b => .int .i8 | .hn => .int .n16 | .bn => .int .n8

/-- The address of element e of VLD and VST in iteration i. -/
def vldAddr (s : State) (sz : VSize) (step : Bool) (a : GReg) (b : BReg) (off : Word32) (e : Nat) : Word :=
  let d := b.val s + off.signExtend 64 + (if step then BitVec.ofNat 64 (s.cx.iterNo * sz.span) else 0)
  ptrOff (ptrAdd (s.g a) d) (e * sz.bytes)
def vldsAddr (s : State) (a b : GReg) (off : Word32) (e : Nat) : Word :=
  ptrAdd (s.g a) (off.signExtend 64 + BitVec.ofNat 64 e * s.g b)
def vgathAddr (s : State) (sz : VSize) (a : GReg) (b : VReg) (sh : BitVec 2) (off : Word32) (e : Nat) : Word :=
  let lane := if sz = .d then 2 * e else e
  let idx := sext64 32 (bits (s.v b).toNat (32 * lane) 32)
  ptrAdd (s.g a) ((idx <<< sh.toNat) + off.signExtend 64)

/-- What a vector memory instruction touches: whether it writes, its mode, its element size and its active addresses. -/
def vecAccess (s : State) (i : Instr) : Option (Bool × Am × Nat × List (Nat × Word)) :=
  let go (wr : Bool) (am : Am) (sz : VSize) (ms : Ms) (f : Nat → Word) :=
    some (wr, am, sz.bytes, ((List.range sz.elems).filter fun e => elemOn (ms.mask s.cx) sz.elems e).map fun e => (e, f e))
  match i with
  | .vld sz step am _ a b off ms => go false am sz ms (vldAddr s sz step a b off)
  | .vst sz step am _ a b off ms => go true am sz ms (vldAddr s sz step a b off)
  | .vlds sz am _ a b off ms => go false am sz ms (vldsAddr s a b off)
  | .vgath sz am _ a b sh off ms => go false am sz ms (vgathAddr s sz a b sh off)
  | .vscat sz am _ a b sh off ms => go true am sz ms (vgathAddr s sz a b sh off)
  | _ => none

def Instr.isVecMem : Instr → Bool
  | .vld .. | .vst .. | .vlds .. | .vgath .. | .vscat .. => true
  | _ => false

/-- The constant-window slots that a vector instruction reads as it issues (R27). -/
def Instr.vcws (i : Instr) : List (BitVec 8) :=
  let isCw (b : VB) : List (BitVec 8) := match b with | .cw c => [c] | _ => []
  match i with
  | .vadd _ _ _ b _ _ | .vsub _ _ _ b _ _ | .vmul _ _ _ b _ _ | .vfma _ _ _ b _ _ | .vdiv _ _ _ b _ _
  | .vdot2 _ _ _ b _ _ | .vreds _ _ _ b _ _ => isCw b
  | .vmin _ _ _ b _ | .vmax _ _ _ b _ | .vperm _ _ _ b _ | .vcmp _ _ _ b _ | .vredm _ _ _ _ b _ => isCw b
  | .vand _ _ _ b _ | .vor _ _ _ b _ | .vxor _ _ _ b _ | .vshl _ _ _ b _ | .vshr _ _ _ b _ | .vsar _ _ _ b _ => isCw b
  | .vsel _ _ _ b _ _ _ => isCw b
  | .vld _ _ _ _ _ b _ _ | .vst _ _ _ _ _ b _ _ => b.cws
  | _ => []

/-- Whether a vector instruction reads the constant window. -/
def Instr.readsWindow (i : Instr) : Bool := !i.vcws.isEmpty

/-! ### The vector side's standing -/

/-- The v and k registers that decide a vector instruction's addresses: its index vector and its masks. -/
def Instr.indexRegs : Instr → List VReg
  | .vgath _ _ _ _ b _ _ _ | .vscat _ _ _ _ b _ _ _ => [b]
  | _ => []
def Instr.maskRegs : Instr → List KReg
  | .vld _ _ _ _ _ _ _ ms | .vst _ _ _ _ _ _ _ ms | .vlds _ _ _ _ _ _ ms | .vgath _ _ _ _ _ _ _ ms
  | .vscat _ _ _ _ _ _ _ ms => [0, ms.idx]
  | _ => []

/-- R75: the writes of earlier vector instructions that a hand-off waits for are those of the registers it reads. -/
def Uses.readsOnly (u : Uses) : Uses := { u with gw := [], pw := [], v := [], vw := [] }


/-- The instruction of an entry, where its slot decodes. -/
def Machine.VEntry.instr? (e : VEntry) : Option Instr :=
  match e.op with
  | .legal i => some i
  | .illegal _ => none

/-- The registers an entry names. -/
def Machine.VEntry.uses (e : VEntry) : Uses := (e.instr?.map Instr.uses).getD Uses.none

/-- Whether an entry holds a REP. -/
def Machine.VEntry.isRep (e : VEntry) : Bool := match e.op with | .legal (.rep ..) => true | _ => false

/-- Whether a queue access of a vector instruction would stall (R100). -/
def queueStalls (c : Context) (i : Instr) : Bool :=
  match i with
  | .vbcast _ _ (.q a) _ => (c.qr a).isEmpty
  | .vextr _ (.q d) _ _ _ => decide (8 ≤ (c.qr d).length)
  | .vreds _ (.q d) _ _ _ _ => decide (8 ≤ (c.qr d).length)
  | .vredm _ _ (.q d) _ _ _ => decide (8 ≤ (c.qr d).length)
  | _ => false

/-- The next instruction of the vector stream with its captured operands: the repetition before the queue (R107). -/
def vecNext (c : Context) : Option VEntry :=
  if c.rep.active then c.rep.body[c.rep.idx]?
  else c.vq.head?

def vecBusy (c : Context) : Bool := c.rep.active || !c.vq.isEmpty

/-- The vector stream stands at an instruction that waits for a queue, or at a REP whose body is not captured whole. -/
def vecHeld (c : Context) : Bool :=
  match vecNext c with
  | some e => e.instr?.any (queueStalls c) || (e.isRep && !c.rep.loaded)
  | none => false

/-- The vector stream stands at a read of an empty q0-q3 (R103). -/
def vecStarved (c : Context) : Bool :=
  match (vecNext c).bind Machine.VEntry.instr? with
  | some (.vbcast _ _ (.q q) _) => (c.qr q).isEmpty && decide (q.toNat < 4)
  | _ => false

/-- The count that a REP's hand-off has read. -/
def repCount (e : VEntry) : Word :=
  match e.caps with
  | (_, n) :: _ => n
  | [] => 0

/-- The executions that the vector stream still owes, in order: the entry and, for a body's, its iteration (R107). -/
def vecOwed (c : Context) : List (VEntry × Option Nat) :=
  let r := c.rep
  let pass (body : List VEntry) (i : Nat) : List (VEntry × Option Nat) := body.map fun e => (e, some i)
  let passes (lo n : Nat) : List (VEntry × Option Nat) := (List.range n).flatMap fun k => pass r.body (lo + k)
  let queued : List (VEntry × Option Nat) := c.vq.flatMap fun e =>
    if e.isRep then (if r.loaded then passes 0 (bits (repCount e).toNat 0 32) else []) else [(e, none)]
  if r.active then pass (r.body.drop r.idx) r.iter ++ passes (r.iter + 1) (r.remain - 1) ++ queued else queued

/-- Every vector instruction that waits to issue. -/
def vecWaiting (c : Context) : List VEntry := (if c.rep.active || c.rep.loaded then c.rep.body else []) ++ c.vq

/-- A vector instruction that touches memory or reads the constant window. -/
def Machine.VEntry.touches (e : VEntry) : Bool := e.instr?.any fun i => i.isVecMem || i.readsWindow
/-- A vector load or store. -/
def Machine.VEntry.isMem (e : VEntry) : Bool := e.instr?.any Instr.isVecMem

/-- The vector instructions that may set a float flag (R80, R82, R89-R94). -/
def Instr.vecFlags (i : Instr) : Bool :=
  match i with
  | .vadd (.flt _) .. | .vsub (.flt _) .. | .vmul (.flt _) .. | .vfma (.flt _) .. | .vdiv (.flt _) .. | .vsqrt .. => true
  | .vmin (.flt _) .. | .vmax (.flt _) .. | .vcmp (.flt _ _) .. | .vreds (.flt _) .. | .vredm (.flt _) .. => true
  | .vdot2 .. | .vcvt .. | .vsplit3 .. => true
  | _ => false

/-- Float flags of an earlier vector instruction have not reached FFLAGS yet (R80). -/
def flagsDue (c : Context) : Bool := (vecWaiting c).any fun e => e.instr?.any Instr.vecFlags

/-! ### System register privileges (R383) -/

def Priv.level : Priv → Nat
  | .user => 0
  | .service => 1
  | .collier => 2

/-- The lowest privilege that may read a register, and the lowest that may write it (3: none may); nothing for a number
that is not assigned. -/
def srAccess (n : Nat) : Option (Nat × Nat) :=
  let isIn (lo hi : Nat) : Bool := decide (lo ≤ n) && decide (n ≤ hi)
  if n = 0 ∨ n = 1 then some (0, 3)
  else if n = 0x10 then some (0, 0)
  else if isIn 0x11 0x13 then some (0, 1)
  else if n = 0x100 || isIn 0x110 0x11F || isIn 0x120 0x122 || isIn 0x128 0x131 || isIn 0x138 0x14F then some (1, 1)
  else if n = 0x200 then some (0, 3)
  else if isIn 0x208 0x20B then some (0, 0)
  else if isIn 0x210 0x217 || isIn 0x220 0x222 then some (1, 1)
  else if n = 0x228 || isIn 0x230 0x23F then some (0, 3)
  else if n = 0x300 then some (0, 1)
  else if n = 0x301 ∨ n = 0x302 then some (0, 3)
  else if isIn 0x310 0x323 then some (0, 0)
  else if n = 0x500 then some (0, 1)
  else if n = 0x501 ∨ n = 0x502 then some (0, 3)
  else if isIn 0x510 0x51F then some (1, 3)
  else if n = 0x600 then some (0, 3)
  else if isIn 0x610 0x61B then some (0, 1)
  else if n = 0x620 then some (1, 2)
  else if n = 0x628 || isIn 0x630 0x63B then some (0, 3)
  else if isIn 0x710 0x713 then some (0, 0)
  else if n = 0x720 then some (0, 3)
  else if isIn 0x730 0x750 then some (1, 1)
  else if isIn 0x760 0x767 then some (1, 3)
  else if n = 0x800 then some (1, 3)
  else if n = 0x810 then some (1, 2)
  else if isIn 0x820 0x822 then some (1, 3)
  else if isIn 0x830 0x833 || isIn 0x848 0x84F then some (0, 3)
  else if n = 0x860 then some (1, 1)
  else if isIn 0x864 0x867 || n = 0x878 then some (1, 3)
  else none

/-- The privilege an instruction needs (R360, R236, R379). -/
def Instr.privNeed : Instr → Nat
  | .fmsg .. | .freply .. | .tlbi .. => 1
  | .halt .. => 2
  | .srd _ n _ => ((srAccess n.toNat).map (·.1)).getD 0
  | .swr _ n _ => ((srAccess n.toNat).map (·.2)).getD 0
  | _ => 0

end Sys2Proof
end

