-- ==== Sys2Proof/Machine/Ops.lean ====
section
/-! DEFINITION. The shared operations: the device's own reads and writes of records and save areas (R115-R117), ready queues
(R120), suspension and binding (R118, R119), fault messages (R349), TAKING AN EXCEPTION (R144) and the return from one
(R145), ricks (R324-R328), the memory accesses of the two streams (R66-R68, R95), and the wrappers every instruction's
meaning is built from. -/
namespace Sys2Proof.Machine

/-! ### The device's own accesses -/

/-- A byte that the device itself reaches by virtual address: its place, by a walk of its own. -/
def devPlaces (s : State) (w : Who) (va n : Nat) : Res (List Place) := do
  let parts ← (pageChunks (n + 1) va n).mapM fun (a, m) =>
    match walk s w.chip w.part a with
    | .error _ => (.error (.halt (.deviceAccess (BitVec.ofNat 64 a))) : Res (List Place))
    | .ok l => .ok ((List.range m).map fun i => pagePlace s (XUse.plain w.chip w.part l a) (a + i) (BitVec.ofNat 64 (a + i)) false)
  .ok parts.flatten

/-- A byte that a plane hides reads as zero (R272). -/
def devRead (s : State) (w : Who) (va : Word) (n : Nat) : Res (List Byte) := do
  let pls ← devPlaces s w va.toNat n
  .ok (pls.map fun pl => if pl.zero then 0 else s.mem.get pl.key)

def devReadNat (s : State) (w : Who) (va : Word) (n : Nat) : Res Nat := do
  let bs ← devRead s w va n
  .ok (leNat bs)

/-- The lines of a range: where the range enters each, and how many of its bytes lie there. -/
def lineChunks : Nat → Nat → Nat → List (Nat × Nat)
  | 0, _, _ => []
  | _, _, 0 => []
  | f + 1, a, n + 1 =>
    let room := 64 - a % 64
    if n + 1 ≤ room then [(a, n + 1)] else (a, room) :: lineChunks f (a + room) (n + 1 - room)

/-- Bytes of one line that the device writes: their first place, with its mirror copy, and how many. -/
structure Span where
  pl : Place
  n : Nat
  deriving DecidableEq, Repr

/-- The spans of a range that the device itself writes. A mirror copy that cannot be reached is left out, since no instruction of a
context makes the write (R389; DEDUCED, notes/assumptions/136.md). A line lies in one plane. -/
def devSpans (s : State) (w : Who) (va n : Nat) : Res (List Span) := do
  let parts ← (pageChunks (n + 1) va n).mapM fun (a, m) =>
    match walk s w.chip w.part a with
    | .error _ => (.error (.halt (.deviceAccess (BitVec.ofNat 64 a))) : Res (List Span))
    | .ok l => (lineChunks (m + 1) a m).mapM fun q =>
      let pl := pagePlace s (XUse.plain w.chip w.part l a) q.1 (BitVec.ofNat 64 q.1) false
      (match addMirrors s w (s.team? w.chip w.team) [pl] with
        | .ok [pl] => .ok { pl := pl, n := q.2 }
        | _ => .ok { pl := pl, n := q.2 } : Res Span)
  .ok parts.flatten

/-- Whether the line of a span needs a slot of the clamp of `w.ep` that is not there (R206). -/
def spanRejected (s : State) (w : Who) (key cls : Nat) : Bool :=
  !w.service && cls != 2 && !lineLogged s w (key / 64) && decide (clampCap s w.ep ≤ clampUsed s w.ep)

/-- The vote of a device write that finds no room: the executing context's instruction brought it about when it belongs to the
team, and else its PC is not stated (R206; notes/assumptions/8.md). -/
def rejectSpan (s : State) (w : Who) : State :=
  let c := s.cx
  if c.bound && c.chip == w.chip && c.team == w.team then
    addVote s w.chip w.team { cause := 8, pc := c.ipc, rank := c.rank, ctx := c.no }
  else addVote { s with freeIx := s.freeIx + 1 } w.chip w.team { cause := 8, pc := Config.freeWord s.freeIx, rank := w.rank, ctx := 0 }

/-- Write bytes inside one line. A line logged beyond the clamp's slots goes to the overflow area (R206). -/
def putSpan (s : State) (w : Who) (key cls : Nat) (bs : List Byte) : State :=
  if spanRejected s w key cls then rejectSpan s w
  else if w.service || cls == 2 then putMem s key bs
  else spillAll s (putMem (logLine s w key) key bs) w [(key, 1)]

/-- Write the bytes of spans. A live line is logged in the clamp of `w.ep`; one that finds no slot is not written, and the
team votes CAPACITY (R206). A line that a plane hides is not written (R272). -/
def putSpans (s : State) (w : Who) : List Span → List Byte → State
  | [], _ => s
  | x :: rest, bs =>
    let put (s : State) (k : Nat × Nat) : State := putSpan s w k.1 k.2 (bs.take x.n)
    putSpans (if x.pl.zero then s else x.pl.keys.foldl put s) w rest (bs.drop x.n)

/-- A write of the device. -/
def devWrite (s : State) (w : Who) (va : Word) (bs : List Byte) : Res State := do
  let sp ← devSpans s w va.toNat bs.length
  .ok (putSpans s w sp bs)

def devWriteNat (s : State) (w : Who) (va : Word) (v n : Nat) : Res State := devWrite s w va (bytesOf v n)

/-- The device acting for a core of a team. -/
def devWho (s : State) (e : EP) (chip : ChipNo) (team : Word32) : Who := engineWho s e .control chip team 0

/-! ### Continuation records (R115) -/

structure Rec where
  pc : Word
  status : Nat
  allot : Nat
  save : Word
  count : Nat
  armed : Nat
  waitp : Word
  sstep : Nat
  team : Nat
  link : Word
  limit : Word
  deriving DecidableEq, Repr

def Rec.st (r : Rec) : Nat := bits r.status 0 4
def Rec.prio (r : Rec) : Nat := bits r.status 4 2
def Rec.grole (r : Rec) : Nat := bits r.status 6 2
def Rec.uflow (r : Rec) : Bool := testBit r.status 8
def Rec.pin (r : Rec) : Bool := testBit r.status 9
def Rec.home (r : Rec) : Nat := bits r.status 12 12
def Rec.ggran (r : Rec) : Nat := bits r.allot 0 5
def Rec.vgran (r : Rec) : Nat := bits r.allot 8 4
def Rec.k0 (r : Rec) : Nat := bits r.allot 16 16

/-- The STATE codes of R115. -/
def stReady : Nat := 0
def stRunning : Nat := 1
def stParked : Nat := 2
def stWaitCounter : Nat := 3
def stWaitAddress : Nat := 4
def stWaitQueue : Nat := 5
def stWaitBarrier : Nat := 6
def stDone : Nat := 7

def recOfBytes (bs : List Byte) : Rec :=
  let f (o n : Nat) : Nat := leNat ((bs.drop o).take n)
  { pc := BitVec.ofNat 64 (f 0 8), status := f 8 4, allot := f 12 4, save := BitVec.ofNat 64 (f 16 8), count := f 24 4,
    armed := f 28 4, waitp := BitVec.ofNat 64 (f 32 8), sstep := f 40 4, team := f 44 4, link := BitVec.ofNat 64 (f 48 8),
    limit := BitVec.ofNat 64 (f 56 8) }

def readRec (s : State) (w : Who) (a : Word) : Res Rec := do
  let bs ← devRead s w a 64
  .ok (recOfBytes bs)

/-- Write one field of a record. -/
def putRec (s : State) (w : Who) (a : Word) (off n v : Nat) : Res State := devWriteNat s w (a + BitVec.ofNat 64 off) v n

/-- Change bits [lo + len - 1 : lo] of a record's STATUS. -/
def putStatus (s : State) (w : Who) (a : Word) (lo len v : Nat) : Res State := do
  let st ← devReadNat s w (a + 8) 4
  putRec s w a 8 4 (st - bits st lo len * 2 ^ lo + v % 2 ^ len * 2 ^ lo)

def putState (s : State) (w : Who) (a : Word) (st : Nat) : Res State := putStatus s w a 0 4 st

/-- The range checks of R116 item 3 on a record of a team. R115 names GROLE 0 to 2 and R116 does not name the reserved value 3: a
record with it fails with SPACE, as a reserved field that is not zero does (DESIGN CHOICE, notes/assumptions/130.md). -/
def recFieldsOk (t : Team) (r : Rec) (opt : Bool) : Bool :=
  decide (r.st ≤ 7) && r.grole != 3 && bits r.status 24 8 == 0 && bits r.status 10 2 == 0 && bits r.allot 12 4 == 0 &&
  bits r.allot 5 3 == 0 && decide (2 ≤ r.ggran) && decide (r.ggran ≤ 16) && decide (2 ≤ r.vgran) && decide (r.vgran ≤ 8) &&
  (opt || decide (r.home < t.size)) && r.team == t.id.toNat

/-- R116 on a record that is about to be made ready: ALIGN, CLASS, SPACE. -/
def recCheck (s : State) (w : Who) (t : Team) (a : Word) (opt : Bool) : Res Unit := do
  needAt (decide (a.toNat % 64 = 0)) Code.align a
  let pls ← devPlaces s w a.toNat 64
  needAt (pls.all fun pl => pl.cls == 1) Code.cls a
  let r ← readRec s w a
  needAt (recFieldsOk t r opt) Code.space a

/-! ### Ready queues (R120) -/

/-- The ready queue that serves a core: its cluster's, or its own for an optimiser core or the collier (R411). -/
def queueKey (e : EP) : Nat :=
  (epChip e).toNat * 2 ^ 16 + (epDie e).toNat * 2 ^ 14 + (if isCompute e then clusterIx e else 2 ^ 13 + epUnit e)

def State.readyQ (s : State) (key : Nat) : ReadyQ := alGet s.ready key (Vector.replicate 4 [])
def State.setReadyQ (s : State) (key : Nat) (q : ReadyQ) : State := { s with ready := alPut s.ready key q }

/-- One level of a queue. -/
def ReadyQ.level (q : ReadyQ) (l : Nat) : List ReadyRec := (q.toList[l]?).getD []
def ReadyQ.setLevel (q : ReadyQ) (l : Nat) (x : List ReadyRec) : ReadyQ := q.setIfInBounds l x

/-- The rank of a compute core in its team's rectangle. -/
def Team.rankOf (t : Team) (e : EP) : Nat := (coreY e - t.y0) * t.w + (coreX e - t.x0)

/-- The core whose queue takes a record: its optimiser core, or HOME. -/
def homeOf (t : Team) (a : Word) (r : Rec) : EP := (t.optRecs.lookup a).getD (t.coreOf r.home)

/-- Write the LINK field of the record before another in a list (R115, R120). -/
def setLink (s : State) (r : ReadyRec) (home : EP) (v : Word) : Res State :=
  devWriteNat s (devWho s home r.chip r.team) (r.recA + 48) v.toNat 8

/-- Append to a level: the LINK of the old tail names the record, the record's own is 0. -/
def appendLevel (s : State) (key l : Nat) (r : ReadyRec) (home : EP) : Res State := do
  let q := s.readyQ key
  let lvl := q.level l
  let s ← match lvl.getLast? with
    | some p => setLink s p home r.recA
    | none => .ok s
  let s ← setLink s r home 0
  .ok (s.setReadyQ key (q.setLevel l (lvl ++ [r])))

/-- Take a record out of a level: the one before it names the one after it. -/
def removeLevel (s : State) (key l : Nat) (r : ReadyRec) (home : EP) : Res State := do
  let q := s.readyQ key
  let lvl := q.level l
  let before := lvl.takeWhile fun x => x.recA != r.recA || x.chip != r.chip
  let after := (lvl.drop (before.length + 1))
  let s ← match before.getLast? with
    | some p => setLink s p home ((after.head?.map (·.recA)).getD 0)
    | none => .ok s
  .ok (s.setReadyQ key (q.setLevel l (before ++ after)))

/-- A record in a list names the one after it, unless it does already. -/
def relinkRec (s : State) (q : ReadyRec × Word) : State :=
  match s.team? q.1.chip q.1.team with
  | none => s
  | some t =>
    match readRec s (devWho s (t.coreOf 0) q.1.chip q.1.team) q.1.recA with
    | .error _ => s
    | .ok x => if x.link = q.2 then s else (setLink s q.1 (homeOf t q.1.recA x) q.2).toOption.getD s

/-- The LINK fields along a list that has changed (R115, R120). -/
def relinkLevel (s : State) (l : List ReadyRec) : State :=
  (l.zip ((l.drop 1).map (fun r => r.recA) ++ [0])).foldl relinkRec s

/-- The members of a record's gang, in rank order; none when it is solo (R136). -/
def gangOf (t : Team) (a : Word) : List (Word × EP) :=
  match t.gangs.find? fun g => g.2.any fun m => m.1 == a with
  | some g => g.2
  | none => []

/-- A member leaves its gang by SPLIT or END (R185). Those that stay are a gang of their own, which the lowest of them leads: the
manual says nothing of a SPLIT or an END that only some members execute (DESIGN CHOICE, notes/assumptions/128.md). -/
def leaveGang (s : State) (chip : ChipNo) (team : Word32) (a : Word) : Res State :=
  match s.team? chip team with
  | none => .ok s
  | some t =>
    match gangOf t a with
    | [] => .ok s
    | l :: ms => do
      let stay := (l :: ms).filter fun m => m.1 != a
      let rest := t.gangs.filter fun g => !(g.2.any fun m => m.1 == a)
      match stay with
      | [] => .ok (s.modTeam chip team fun t => { t with gangs := rest })
      | n :: _ =>
        let s := s.modTeam chip team fun t => { t with gangs := rest ++ [(n.1, stay)] }
        if n.1 = l.1 then .ok s
        else do
          let s ← putStatus s (devWho s n.2 chip team) n.1 6 2 1
          let follow (c : Context) : Context :=
            if c.bound && c.chip == chip && c.team == team && c.gang == some l.1 then { c with gang := some n.1 } else c
          .ok { s with cx := follow s.cx, others := s.others.map follow }

/-- Make a record READY at the tail of level PRIO of its queue (R120); a gang becomes READY with its leader (R138). -/
def makeReady (s : State) (chip : ChipNo) (team : Word32) (a : Word) : Res State :=
  match s.team? chip team with
  | none => .ok s
  | some t => do
    let w0 := devWho s (t.coreOf 0) chip team
    let r ← readRec s w0 a
    let home := homeOf t a r
    let w := devWho s home chip team
    let s ← putState s w a stReady
    let s ← (gangOf t a).foldlM (fun s m => putState s (devWho s m.2 chip team) m.1 stReady) s
    appendLevel s (queueKey home) r.prio { recA := a, chip := chip, team := team, since := s.time } home

/-- Write a woken record's register in its save area (R206: logged in HOME's clamp). A write to g0 is discarded. -/
def wakeWriteOne (s : State) (chip : ChipNo) (team : Word32) (a : Word) (d : GReg) (v : Word) : Res State :=
  match s.team? chip team with
  | none => .ok s
  | some t => do
    let r ← readRec s (devWho s (t.coreOf 0) chip team) a
    let w := devWho s (homeOf t a r) chip team
    if d = 0 then .ok s else devWriteNat s w (r.save + BitVec.ofNat 64 (8 * d.toNat)) v.toNat 8

/-- Write a woken record's register, and its gang's, whose wait the leader's record carries (R171). -/
def wakeWrite (s : State) (chip : ChipNo) (team : Word32) (a : Word) (d : GReg) (v : Word) : Res State :=
  match s.team? chip team with
  | none => .ok s
  | some t => do
    let s ← wakeWriteOne s chip team a d v
    ((gangOf t a).filter fun m => m.1 != a).foldlM (fun s m => wakeWriteOne s chip team m.1 d v) s

/-- Forget a record's wait. -/
def dropWait (s : State) (chip : ChipNo) (team : Word32) (a : Word) : State :=
  { s with waiters := s.waiters.filter fun x => !(x.chip == chip && x.team == team && x.recA == a) }

/-! ### The save area (R117) -/

def RepState.repst (r : RepState) : Nat := r.iter % 2 ^ 32 * 2 ^ 32 + r.remain % 2 ^ 32
def RepState.repcfg (r : RepState) : Nat :=
  r.active.toNat * 2 ^ 29 + r.st * 2 ^ 24 + r.ws * 2 ^ 18 + r.wb * 2 ^ 13 + r.idx * 2 ^ 9 + r.n * 2 ^ 5

/-- The words that a saved vector instruction keeps of its hand-off: up to three g operands, then the allotment and g2
(notes/assumptions/9.md). -/
def VEntry.kept (e : VEntry) : List Word :=
  let ops := ((e.instr?.map Instr.caps).getD []).take 3 |>.map fun r => (e.caps.lookup r.toNat).getD 0
  ops ++ List.replicate (3 - ops.length) 0 ++ [BitVec.ofNat 64 (e.gGran + 2 ^ 8 * e.vGran), e.g2]

/-- A saved vector instruction: 12 instruction bytes, 4 reserved, its PC, five operands. -/
def VEntry.save (e : VEntry) : List Byte :=
  let word : Nat := match e.op with
    | .legal i => (match encode i with | some (_, w) => w.toNat | none => 0)
    | .illegal w => w.toNat
  bytesOf word 12 ++ bytesOf 0 4 ++ bytesOf e.pc.toNat 8 ++ (e.kept.map fun o => bytesOf o.toNat 8).flatten

def loadEntry (bs : List Byte) : VEntry :=
  let word : Slot := BitVec.ofNat 96 (leNat (bs.take 12))
  let opnd (k : Nat) : Word := BitVec.ofNat 64 (leNat ((bs.drop (24 + 8 * k)).take 8))
  let op : VOp := match decode true word with | .ok i => .legal i | .error _ => .illegal word
  let regs := match op with | .legal i => i.caps.take 3 | .illegal _ => []
  { op := op, pc := BitVec.ofNat 64 (leNat ((bs.drop 16).take 8)),
    caps := regs.zipIdx.map fun p => (p.1.toNat, opnd p.2),
    gGran := bits (opnd 3).toNat 0 8, vGran := bits (opnd 3).toNat 8 8, g2 := opnd 4 }

/-- What a suspension writes: the registers of the allotment and the fields in use, by offset. -/
def saveList (c : Context) : List (Nat × List Byte) :=
  [ (0x0000, ((c.g.toList.take (8 * c.gGran)).zipIdx.map fun q => bytesOf (if q.2 = 0 then 0 else q.1.toNat) 8).flatten),
    (0x0400, ((c.v.toList.take (4 * c.vGran)).map fun v => bytesOf v.toNat 64).flatten),
    (0x0C00, (c.k.toList.map fun k => bytesOf k.toNat 2).flatten),
    (0x0C10, bytesOf ((c.p.toList.zipIdx.map fun q => if q.2 = 0 then 1 else q.1.toNat * 2 ^ q.2).sum) 1),
    (0x0C18, bytesOf c.fflags.toNat 8),
    (0x0C20, bytesOf c.rep.repst 8), (0x0C28, bytesOf c.rep.repcfg 8), (0x0C30, bytesOf c.rep.pc.toNat 8),
    (0x0C40, (c.q.toList.map fun q => bytesOf q.length 1).flatten),
    (0x0C48, bytesOf c.vq.length 8) ] ++
  (c.q.toList.zipIdx.map fun q => (0x0C80 + 64 * q.2, (q.1.map fun e => bytesOf e.toNat 8).flatten)) ++
  (c.vq.take 32).zipIdx.map (fun e => (0x1000 + 64 * e.2, e.1.save)) ++
  (if c.rep.active || c.rep.loaded then c.rep.body.zipIdx.map fun e => (0x1800 + 64 * e.2, e.1.save) else [])

def putSave (s : State) (w : Who) (save : Word) (cells : List (Nat × List Byte)) : Res State :=
  cells.foldlM (fun s c => if c.2.isEmpty then .ok s else devWrite s w (save + BitVec.ofNat 64 c.1) c.2) s

/-- Whether a range that the device reads on its own account lies in a line with an error that nothing corrects (R200). -/
def devHurt (s : State) (w : Who) (va : Word) (n : Nat) : Bool :=
  match devPlaces s w va.toNat n with
  | .ok pls => pls.any fun pl => !pl.zero && s.poison.contains (pl.key / 64)
  | .error _ => false

/-- Load a context from a record and its save area (R118 steps 2 and 3). An error met there makes the context's first issue fault
PARITY (R200). -/
def loadContext (s : State) (w : Who) (e : EP) (no : BitVec 2) (pv : Priv) (rank : Nat) (a : Word) (r : Rec) : Res Context := do
  let rd (o n : Nat) := devRead s w (r.save + BitVec.ofNat 64 o) n
  let gb ← rd 0 (64 * r.ggran)
  let vb ← rd 0x400 (256 * r.vgran)
  let kb ← rd 0xC00 16
  let mb ← rd 0xC10 0x48
  let qb ← rd 0xC80 512
  let f (o n : Nat) : Nat := leNat ((mb.drop (o - 0xC10)).take n)
  let nv := f 0xC48 8 % 64
  let vb2 ← if nv = 0 then .ok [] else rd 0x1000 (64 * nv)
  let cfg := f 0xC28 8
  let st := f 0xC20 8
  let vq := (List.range nv).map fun i => loadEntry ((vb2.drop (64 * i)).take 64)
  let loaded := vq.any VEntry.isRep
  let active := testBit cfg 29
  let nb := bits cfg 5 4
  let bb ← if active || loaded then rd 0x1800 (64 * nb) else .ok []
  let c := Context.idle e no
  let at_ (o n : Nat) : Bool := devHurt s w (r.save + BitVec.ofNat 64 o) n
  .ok { c with
    hurt := !s.poison.isEmpty && (devHurt s w a 64 || at_ 0 (64 * r.ggran) || at_ 0x400 (256 * r.vgran) || at_ 0xC00 0x280 ||
      at_ 0x1000 (64 * nv) || ((active || loaded) && at_ 0x1800 (64 * nb))),
    mode := .running, priv := pv, chip := w.chip, team := w.team, rank := rank, recA := a, pc := r.pc, gGran := r.ggran,
    vGran := r.vgran,
    g := Vector.ofFn fun (i : Fin 128) => if i.val < 8 * r.ggran then BitVec.ofNat 64 (leNat ((gb.drop (8 * i.val)).take 8)) else 0,
    v := Vector.ofFn fun (i : Fin 32) => if i.val < 4 * r.vgran then BitVec.ofNat 512 (leNat ((vb.drop (64 * i.val)).take 64)) else 0,
    k := Vector.ofFn fun (i : Fin 8) => if i.val = 0 then BitVec.ofNat 16 r.k0 else BitVec.ofNat 16 (leNat ((kb.drop (2 * i.val)).take 2)),
    p := Vector.ofFn fun (i : Fin 8) => testBit (f 0xC10 1) i.val,
    q := Vector.ofFn fun (i : Fin 8) =>
      (List.range (f (0xC40 + i.val) 1 % 9)).map fun j => BitVec.ofNat 64 (leNat ((qb.drop (64 * i.val + 8 * j)).take 8)),
    fflags := BitVec.ofNat 5 (f 0xC18 8),
    rep := { RepState.reset with
      active := active, loaded := loaded, pc := BitVec.ofNat 64 (f 0xC30 8), wb := bits cfg 13 5, ws := bits cfg 18 6,
      st := bits cfg 24 5, n := nb, idx := bits cfg 9 4, iter := bits st 32 32, remain := bits st 0 32,
      body := if active || loaded then (List.range nb).map fun i => loadEntry ((bb.drop (64 * i)).take 64) else [] },
    vq := vq, reissuing := active || !vq.isEmpty }

/-! ### Suspension and binding (R118, R119) -/

def slotAfter (c : Context) : Word := nextSlot (c.pairEnd.getD c.ipc)

/-- A context that is idle again: when its streams last issued stands (R113). -/
def Context.freed (c : Context) : Context := { Context.idle c.ep c.no with ranC := c.ranC, ranV := c.ranV }

/-- Give a context's granules back and leave it idle (R119 steps 3 and 4). -/
def releaseCx (s : State) : State :=
  let c := s.cx
  let s := s.modCore c.ep fun k =>
    { k with freeG := k.freeG + c.gGran, freeV := k.freeV + c.vGran, idleSince := s.time,
             mx := { k.mx with waiting := k.mx.waiting.filter fun w => w.ctx != c.no || w.walker,
                               claims := k.mx.claims.filter fun x => x != c.no } }
  { s with cx := c.freed }

/-- Suspend the executing continuation (R119): its record's PC becomes `pc`, its STATE `st`, WAITP `waitp`. -/
def suspendCx (s : State) (st : Nat) (waitp pc : Word) : Res State := do
  let c := s.cx
  let w := devWho s c.ep c.chip c.team
  let r ← readRec s w c.recA
  let s ← putSave s w r.save (saveList c)
  let s ← putRec s w c.recA 0 8 pc.toNat
  let s ← putState s w c.recA st
  let s ← putRec s w c.recA 12 4 ((c.kr 0).toNat * 2 ^ 16 + c.vGran * 2 ^ 8 + c.gGran)
  let s ← putRec s w c.recA 32 8 waitp.toNat
  let ssn : Nat := ((s.team? c.chip c.team).map fun t => t.ssn.toNat).getD 0
  let s ← putRec s w c.recA 40 4 ssn
  .ok (releaseCx s)

/-- Suspend and record what the continuation waits for. -/
def suspendFor (s : State) (st : Nat) (waitp : Word) (k : WaitKind) : Res State := do
  let c := s.cx
  let s ← suspendCx s st waitp (slotAfter c)
  .ok { s with waiters := s.waiters ++ [{ chip := c.chip, team := c.team, recA := c.recA, ep := c.ep, kind := k }],
               note := .transfer }

def privOf (s : State) (e : EP) : Priv :=
  if epUnit e = 1088 then .collier else if (s.core e).service then .service else .user

/-- Whether a core's pool holds a record's allotment (R118 step 1). -/
def poolHolds (s : State) (e : EP) (r : Rec) : Bool :=
  decide (r.ggran ≤ (s.core e).freeG) && decide (r.vgran ≤ (s.core e).freeV)

/-- Bind a record to an idle context (R118). -/
def bindRec (s : State) (e : EP) (no : BitVec 2) (chip : ChipNo) (team : Word32) (a : Word) : Res State := do
  let w := devWho s e chip team
  let r ← readRec s w a
  let s ← putState s w a stRunning
  let c ← loadContext s w e no (privOf s e) (s.core e).rank a r
  let s := (wakeCore s e).modCore e fun k => { k with freeG := k.freeG - r.ggran, freeV := k.freeV - r.vgran }
  let old := s.ctx e no
  .ok (s.setCtx { c with ranC := old.ranC, ranV := old.ranV })

/-! ### Fault messages (R349, R377) -/

def Msg.flagNotice : Byte := 1
def Msg.flagEngine : Byte := 2
def Msg.flagRick : Byte := 4
def Msg.flagVotes : Byte := 0x40

def Msg.bytes (m : Msg) : List Byte :=
  bytesOf m.code.toNat 2 ++ bytesOf m.ctx.toNat 1 ++ [m.flags] ++ bytesOf m.rank.toNat 2 ++ bytesOf m.aborts.toNat 2 ++
  bytesOf m.pc.toNat 8 ++ bytesOf m.addr.toNat 8 ++ bytesOf m.recA.toNat 8 ++ bytesOf m.sstep.toNat 4 ++
  bytesOf m.team.toNat 4 ++ bytesOf m.srcep.toNat 4 ++ bytesOf m.seq.toNat 2 ++ bytesOf 0 2 ++ bytesOf m.extra0.toNat 8 ++
  bytesOf m.extra1.toNat 8

/-- The eight words of a message, lowest first. -/
def Msg.words (m : Msg) : List Word :=
  (List.range 8).map fun i => BitVec.ofNat 64 (leNat ((m.bytes.drop (8 * i)).take 8))

/-- Where a team's messages go. -/
def svcOf (s : State) (chip : ChipNo) (team : Word32) : EP :=
  ((s.team? chip team).map (·.svc)).getD (collierEp chip)

/-- A fault message of a team with the superstep and attempt of the moment. -/
def mkMsg (s : State) (chip : ChipNo) (team : Word32) (code : BitVec 16) (ctx : BitVec 2) (flags : Byte) (rank : Nat)
    (pc addr recA : Word) (src : EP) (seq : BitVec 16) (x0 x1 : Word) : Msg :=
  let t := s.team? chip team
  { code := code, ctx := ctx, flags := flags, rank := BitVec.ofNat 12 rank,
    aborts := BitVec.ofNat 16 ((t.map (·.attempts)).getD 0), pc := pc, addr := addr, recA := recA,
    sstep := (t.map (·.ssn)).getD 0, team := team, srcep := src, seq := seq, extra0 := x0, extra1 := x1 }

/-- The FMSG waiter of a service core. -/
def mailWaiter (s : State) (e : EP) : Option Waiter :=
  s.waiters.find? fun x => x.ep == e && (match x.kind with | .mailbox _ => true | _ => false)

/-- Hand a message to a suspended FMSG (R377): none where its record fails R116. -/
def giveMail (s : State) (x : Waiter) (m : Msg) : Res (Option State) :=
  match x.kind, s.team? x.chip x.team with
  | .mailbox d, some t =>
    match recCheck s (devWho s (t.coreOf 0) x.chip x.team) t x.recA (t.optRecs.lookup x.recA).isSome with
    | .error (.halt f) => .error (.halt f)
    | .error _ => .ok none
    | .ok _ => do
      let s ← (m.words.zipIdx).foldlM (fun s q => wakeWriteOne s x.chip x.team x.recA (grpReg d q.2) q.1) s
      let s ← makeReady (dropWait s x.chip x.team x.recA) x.chip x.team x.recA
      .ok (some s)
  | _, _ => .ok none

/-- A message at the mailbox of a collier is a collier event (R440). -/
def noteMail (s : State) (e : EP) : State :=
  if epUnit e = 1088 then s.modChip (epChip e) fun c => { c with col := { c.col with event := true } } else s

/-- Post a message to a mailbox (R377). -/
def postMsg (s : State) (e : EP) (m : Msg) : Res State := do
  let s := noteMail s e
  let k := s.core e
  let keep : State := s.setCore e { k with mbox := k.mbox ++ [m] }
  if k.mbox.length < 256 then
    match mailWaiter s e with
    | some x => do
      let r ← giveMail s x m
      .ok (r.getD keep)
    | none => .ok keep
  else if m.flags.getLsbD 0 then .ok (s.setCore e { k with mboxLost := satAdd 32 k.mboxLost 1 })
  else .ok { s with fabricMsgs := s.fabricMsgs ++ [(e, m)] }

/-- Take the oldest message; one that waits in the fabric enters (R377). -/
def takeMail (s : State) (e : EP) : Option (Msg × State) :=
  let k := s.core e
  match k.mbox with
  | [] => none
  | m :: ms =>
    match s.fabricMsgs.find? (fun f => f.1 == e) with
    | some f =>
      let s := s.setCore e { k with mbox := ms ++ [f.2] }
      some (m, { s with fabricMsgs := s.fabricMsgs.erase f })
    | none => some (m, s.setCore e { k with mbox := ms })

/-! ### Taking an exception (R144) and the return from one (R145) -/

def Trap.flags (t : Trap) (vec : Bool) : Byte :=
  BitVec.ofNat 8 ((vec || t.vector).toNat * 8 + t.write.toNat * 16 + t.fetch.toNat * 32 + t.cause.isSome.toNat * 64)

/-- The PC that a fault's message reports. -/
def faultPc (c : Context) (t : Trap) : Word := t.pc.getD c.ipc

/-- The PC the parked record holds: the faulting slot, the slot after a TRAP or BRK (R376), or the next control-stream slot
for a fault of the vector stream (R78). In a pair the slot after a TRAP or BRK of the first slot is the second, which has had
no effect, and after one of the second slot it is the slot after the pair, though the first has had no effect either (R9
reports both at the first slot; DEDUCED, notes/assumptions/14.md). -/
def parkedPc (c : Context) (t : Trap) : Word :=
  match c.vsrc with
  | .control => t.resume.getD (faultPc c t)
  | _ => c.pc

/-- R106: cancel a capture that did not complete; neither the REP nor a captured slot then has an effect. -/
def cancelCapture (s : State) : State :=
  { s with cx := { s.cx with rep := RepState.reset, vq := s.cx.vq.dropLast } }

/-- Cut off a capture: it starts again from its REP (notes/assumptions/10.md). -/
def dropCapture (s : State) : State :=
  if s.cx.rep.capturing then (cancelCapture s).setPc s.cx.rep.pc else s

/-- A fatal event (R424): the package stops, every existing interface is in ERROR, every IDE key is retired, the cause is
recorded, and the physical function reports it. -/
def fatalStop (s : State) (chip : ChipNo) (cause : FatalCause) : State :=
  let bits : BitVec 4 := match cause with
    | .shadow die => if die then 9 else 1
    | .bridge => 2
    | .collier => 4
  let broken (f : Iface) : Iface := if f.state == 4 then f else { f with state := 3, scrubbing := false, halting := false }
  let keyless (x : Ide) : Ide := { x with key0 := none, key1 := none, secure := false, insecure := false }
  let port (h : HostPort) : HostPort := { h with ifaces := h.ifaces.map broken, ides := h.ides.map keyless }
  let errs (e : Errs) : Errs := { e with fatal := e.fatal ||| bits, aer := (.pf, 2, 0, 0, 0) :: e.aer }
  s.modChip chip fun c => { c with stopped := true, host := port c.host, errs := errs c.errs }

/-- TAKING AN EXCEPTION (R144): once every earlier vector instruction has completed (R78), the continuation suspends with
STATE PARKED-FAULT, the fault message goes to the service core's mailbox, a cause of its own is voted (R200), and the
context is idle. A fault of the collier's own continuation is a collier failure (R440). -/
def takeFault (s : State) (t : Trap) : Res State :=
  if epUnit s.cx.ep = 1088 then .ok { fatalStop s (epChip s.cx.ep) .collier with note := .trapped t } else
  let restart := s.cx.rep.capturing
  let s0 := s
  let s := dropCapture s
  let c := s.cx
  if c.vsrc == .control && vecBusy c then stall { s0 with cx := { s0.cx with faulting := true } }
  else do
    let m := mkMsg s c.chip c.team t.code c.no (t.flags (c.vsrc != .control)) c.rank (faultPc c t) t.addr c.recA c.ep 0
      t.extra0 t.extra1
    let attempts := ((s.team? c.chip c.team).map (·.attempts)).getD 0
    let s ← suspendCx s stParked 0 (if restart then c.pc else parkedPc c t)
    let kind := WaitKind.parked m.sstep attempts (faultPc c t) t.addr t.cause.isSome false
    let x : Waiter := { chip := c.chip, team := c.team, recA := c.recA, ep := c.ep, kind := kind }
    let s := { s with waiters := s.waiters ++ [x] }
    let s := match t.cause with
      | some k => addVote s c.chip c.team { cause := k, pc := faultPc c t, rank := c.rank, ctx := c.no }
      | none => s
    let s := applyMeets s t
    let s ← postMsg s (svcOf s c.chip c.team) m
    .ok { s with note := .trapped t }

/-- R116 on a record that is about to be placed or bound, and on every member of its gang. -/
def recsCheck (s : State) (t : Team) (a : Word) : Res Unit := do
  recCheck s (devWho s (t.coreOf 0) t.chip t.id) t a (t.optRecs.lookup a).isSome
  ((gangOf t a).filter fun m => m.1 != a).forM fun m => recCheck s (devWho s m.2 t.chip t.id) t m.1 false

/-- Make a suspended record ready again. A gang becomes READY, as one unit under its leader's record, when none of its members
waits any more (R138). A record that fails R116 faults what makes it ready. -/
def readyParked (s : State) (chip : ChipNo) (team : Word32) (a : Word) : Res State :=
  let s := dropWait s chip team a
  match s.team? chip team with
  | none => .ok s
  | some t =>
    let lead := ((gangOf t a).head?.map fun m => m.1).getD a
    let open_ := s.waiters.any fun x => x.chip == chip && x.team == team && ((gangOf t a).any fun q => q.1 == x.recA)
    if open_ then .ok s
    else do
      recsCheck s t lead
      makeReady s chip team lead

/-- The same where no instruction makes the record ready: a record that fails R116 is not placed, and waits no more (R116;
DEDUCED, notes/assumptions/22.md). -/
def readyIfOk (s : State) (chip : ChipNo) (team : Word32) (a : Word) : Res State :=
  match readyParked s chip team a with
  | .error (.trap _) => .ok (dropWait s chip team a)
  | r => r

/-! ### Ricks (R324-R328) -/

def bump16 (n : Nat) : Nat := satAdd 16 n 1

/-- Why a rick leaves (R327, R329). -/
inductive RickWhy where
  | size | age | flush | evict
  deriving DecidableEq, Repr

/-- A cord leaves for its destination. One for another chip takes its route now; without one its elements are lost, and the team
votes LINK (R391, R398; DEDUCED, notes/assumptions/118.md). -/
def cordLeaves (s : State) (c : Cord) : State :=
  let own := epChip c.src
  if epChip c.dest == own then { s with cords := s.cords ++ [c] }
  else match routePort s own (epChip c.dest) with
    | some p => sendParts { s with cords := s.cords ++ [c] } own (epChip c.dest) p 0 c.id [freePayload c.id]
    | none => voteLink s c.chip c.team

/-- A rick leaves as a cord of all its elements. -/
def sendRick (s : State) (src : EP) (i : Nat) (why : RickWhy) : State :=
  let k := s.core src
  match k.ricks.toList[i]? with
  | some r =>
    match r.dest, r.elems with
    | some d, _ :: _ =>
      let (id, s) := s.freshId
      let k := { k with ricks := k.ricks.setIfInBounds i { dest := none, elems := [] } }
      let k := match why with
        | .size => { k with rkSize := bump16 k.rkSize }
        | .age => { k with rkAge := bump16 k.rkAge }
        | .flush => { k with rkFlush := bump16 k.rkFlush }
        | .evict => { k with rkEvict := bump16 k.rkEvict }
      let s := s.setCore src k
      let c : Cord := { id := id, src := src, chip := k.chip, team := k.team, rank := k.rank, dest := d, elems := r.elems, done := 0,
                        failed := [], came := false, seq := 0 }
      cordLeaves s c
    | _, _ => s
  | none => s

/-- Ricks of a core that hold elements, by index, with the destination. -/
def openRicks (k : Core) : List (Nat × EP) :=
  k.ricks.toList.zipIdx.filterMap fun q => match q.1.dest with | some d => if q.1.elems.isEmpty then none else some (q.2, d) | none => none

def flushAll (s : State) (src : EP) : State := (openRicks (s.core src)).foldl (fun s q => sendRick s src q.1 .flush) s

/-- Whether a core holds a rick for one of some destinations. -/
def rickFor (s : State) (src : EP) (ds : List EP) : List Nat :=
  ((openRicks (s.core src)).filter fun q => ds.contains q.2).map (·.1)

/-- Enter one element (R326, R328). -/
def enterElem (s : State) (src dest : EP) (e : RickElem) : State :=
  let k := s.core src
  let put (s : State) (i : Nat) : State :=
    let s := s.modCore src fun k =>
      let r : Rick := { dest := some dest, elems := ((k.ricks.toList[i]?).map (·.elems)).getD [] ++ [e] }
      { k with ricks := k.ricks.setIfInBounds i r }
    if (((s.core src).ricks.toList[i]?).map fun r => r.elems.length).getD 0 = 16 then sendRick s src i .size else s
  match (openRicks k).find? fun q => q.2 == dest with
  | some q => put s q.1
  | none =>
    match k.ricks.toList.findIdx? fun r => r.elems.isEmpty with
    | some i => put s i
    | none =>
      let last (r : Rick) : Nat := (r.elems.getLast?.map (·.time)).getD 0
      let oldest := k.ricks.toList.foldl (fun m r => if last r < m then last r else m) s.time
      let i := (k.ricks.toList.findIdx? fun r => last r == oldest).getD 0
      put (sendRick s src i .evict) i

/-- An access to destinations whose rick is held: the rick leaves, and the access waits until the cord is applied (R333). -/
def orderRicks (s : State) (src : EP) (ds : List EP) : Res State :=
  match rickFor s src ds with
  | [] => if s.cords.any fun c => c.src == src && ds.contains c.dest then stall s else .ok s
  | is => stall (is.foldl (fun s i => sendRick s src i .flush) s)

/-- An access that flushes no rick is performed after the elements of its own context for the same destinations (R77, R333): it
waits until they have left by themselves and been applied. -/
def awaitRicks (s : State) (src : EP) (recA : Word) (ds : List EP) : Res State :=
  let mine (x : RickElem) : Bool := x.recA == recA
  if (s.core src).ricks.toList.any (fun r => r.dest.any ds.contains && r.elems.any mine) ||
      s.cords.any (fun c => c.src == src && ds.contains c.dest && c.elems.any mine) then stall s else .ok s

/-- Every rick leaves, and every cord returns its status, before a release of scope cluster or wider (R232). -/
def drainRicks (s : State) (src : EP) : Res State :=
  if !(openRicks (s.core src)).isEmpty then stall (flushAll s src)
  else if s.cords.any (fun c => c.src == src) || s.statuses.any (fun c => c.src == src) then stall s
  else .ok s

/-- An operation that a far agent performs on a global byte (R334, R336). -/
def countFar (s : State) (key : Nat) : State :=
  if isBufKey key then s
  else
    let a := farAgentOf key
    let j := 8 * (epDie a).toNat + (epUnit a - 1040)
    s.modChip (epChip a) fun c => { c with faOps := alPut c.faOps j (satAdd 32 (alGet c.faOps j 0) 1) }

def countFarAt (s : State) (pls : List Place) : State :=
  match pls with
  | pl :: _ => countFar s pl.key
  | [] => s

/-! ### The request queues of the far agents (R334, R335) -/

/-- The cords in the request queue of a far agent, in the order in which they arrived. -/
def agentQueue (s : State) (e : EP) : List Cord := s.cords.filter fun c => c.dest == e && c.came

/-- The operations of contexts in the request queue of a far agent. -/
def agentReqs (s : State) (e : EP) : List FarReq :=
  s.contexts.filterMap fun c => c.req.filter fun r => c.bound && r.pc == c.pc && r.agent == e

/-- Whether something that arrived before a number stands in the queue of an agent. -/
def farAhead (s : State) (a : EP) (seq : Nat) : Bool :=
  (agentQueue s a).any (fun c => decide (c.seq < seq)) || (agentReqs s a).any fun r => decide (r.seq < seq)

/-- The request of the executing context's instruction. -/
def State.myReq (s : State) : Option FarReq := s.cx.req.filter fun r => r.pc == s.cx.pc

/-- Whether the instruction waits in a request queue. A slot of a pair and a gang's instruction, which take effect with others,
pass the queue at once (DEDUCED, notes/assumptions/52.md). -/
def farQueues (s : State) : Bool := s.cx.gang.isNone && s.cx.pairEnd.isNone

/-- Enter a request queue. -/
def enterQueue (s : State) (a : EP) (c : Option Chase) : State :=
  let (id, s) := s.freshId
  { s with cx := { s.cx with req := some { seq := id, agent := a, pc := s.cx.pc, chase := c } } }

/-- An operation on bytes at a far agent waits for what has arrived there before it, as for a slow load (R334). `order` is what the
context's own earlier accesses ask of it; an operation that stands in the queue has met that. -/
def farTurn (s : State) (pls : List Place) (order : Res Unit) : Res Unit :=
  match pls with
  | [] => order
  | pl :: _ =>
    let a := farAgentOf pl.key
    if isBufKey pl.key || !farQueues s then order
    else match s.myReq with
      | some r => if r.agent != a then stall (enterQueue s a r.chase) else if farAhead s a r.seq then stall s else .ok ()
      | none => do
        order
        if farAhead s a s.nextId then stall (enterQueue s a none) else .ok ()

/-! ### Accesses of the executing context -/

/-- The keys of a constant-window slot of the executing core (R27). -/
def cwKeys (e : EP) (c : BitVec 8) : List Nat := (List.range 8).map fun i => bufKey e 1 (8 * c.toNat + i)

/-- What one owed execution of the vector stream touches: whether it writes, the keys, and whether the addresses are still
unknown, because an execution before it writes the register that gives them. -/
structure Owed where
  write : Bool
  keys : List Nat
  unknown : Bool
  /-- A store with an element bound for a rick (R326). -/
  ricks : Bool
  deriving DecidableEq, Repr

/-- One owed execution, after those before it have written some v and k registers. -/
def owedBy (s : State) (vw : List VReg) (kw : List KReg) (e : VEntry) (it : Option Nat) (i : Instr) : Owed :=
  let s' := { s with cx := { s.cx with caps := e.caps, capG2 := some e.g2, vsrc := .queue, iterNo := it.getD 0 } }
  let known := !(i.indexRegs.any vw.contains || i.maskRegs.any kw.contains)
  let cw := (i.vcws.flatMap (cwKeys s.cx.ep))
  match vecAccess s' i with
  | none => { write := false, keys := cw, unknown := false, ricks := false }
  | some (wr, am, n, addrs) =>
    let keys := (addrs.map fun a =>
      match places s' (ctxWho s' true) (if wr then Need.write else Need.read) am 1 false a.2 n with
      | .ok pls => pls.map (·.key)
      | .error _ => []).flatten
    let far := addrs.any fun a => decide (1 ≤ ptrSpace a.2) && decide (ptrSpace a.2 ≤ 4) && isCompute s.cx.ep &&
      (List.range n).any fun j => match (route s (ctxWho s' true) am (ptrOff a.2 j)).1 with | some e => e != s.cx.ep | none => false
    { write := wr, keys := keys ++ cw, unknown := !known, ricks := wr && (!known || far) }

/-- Every owed execution in order. -/
def owedAux (s : State) : List VReg → List KReg → List (VEntry × Option Nat) → List Owed
  | _, _, [] => []
  | vw, kw, (e, it) :: rest =>
    match e.instr? with
    | none => owedAux s vw kw rest
    | some i =>
      let j := match it with | some n => renInstr { s.cx.rep with iter := n } i | none => i
      owedBy s vw kw e it j :: owedAux s (vw ++ j.uses.vw) (kw ++ j.uses.kw) rest

def pendingOwed (s : State) : List Owed := owedAux s [] [] (vecOwed s.cx)

/-- R77: a control-stream access waits for vector accesses before it to common bytes. While the vector stream can move, it
waits for all of them; while the stream stands at a queue, for those that share a byte or whose addresses are not known. -/
def orderStreams (s : State) (wr : Bool) (keys : List Nat) : Res Unit :=
  let c := s.cx
  if c.vsrc != .control then .ok ()
  else if (vecWaiting c).any VEntry.touches then
    if vecBusy c && !vecHeld c then stall s
    else if (pendingOwed s).any fun p => (p.write || wr) && (p.unknown || p.keys.any keys.contains) then stall s
    else .ok ()
  else .ok ()

/-- No constant-window slot of a list lies in a line with an error that nothing corrects. -/
def windowClean (s : State) (slots : List (BitVec 8)) : Bool :=
  slots.all fun c => !s.poison.contains (bufKey s.cx.ep 1 (8 * c.toNat) / 64)

/-- A read of constant-window slots meets such an error: PARITY, which votes its cause (R200). -/
def windowSound (s : State) (slots : List (BitVec 8)) : Res Unit :=
  if windowClean s slots then .ok () else .error (.trap { Trap.of Code.parity with cause := some 1 })

/-- R27, R77: a C-field read of the control stream is ordered as a load of its slot. -/
def orderWindow (s : State) (slots : List (BitVec 8)) : Res Unit :=
  match slots with
  | [] => .ok ()
  | cs => do
    orderStreams s false (cs.flatMap (cwKeys s.cx.ep))
    windowSound s cs

/-- R326: an element of the control stream enters its rick after those of the vector stores before it. -/
def orderEntry (s : State) : Res Unit :=
  let c := s.cx
  if c.vsrc != .control then .ok ()
  else if (vecWaiting c).any VEntry.isMem then
    if vecBusy c && !vecHeld c then stall s
    else if (pendingOwed s).any fun p => p.ricks then stall s
    else .ok ()
  else .ok ()

/-- Read `n` bytes at `p` for the executing context: the state that has made the access, and the bytes. -/
def loadAt (s : State) (am : Am) (align : Nat) (p : Word) (n : Nat) : Res (State × List Byte) := do
  let w := ctxWho s (s.cx.vsrc != .control)
  let pls ← places s w .read am align false p n
  let _ ← orderStreams s false (pls.map (·.key))
  let _ ← orderRicks s s.cx.ep (pls.map (·.dest)).eraseDups
  .ok (touch s w pls, readPlaces s w pls)

/-- Write bytes at `p` as one access of the executing context; `flush` tells whether it flushes the rick of its destination, or
waits for its own elements there (R77, R333). -/
def storeAt (s : State) (flush : Bool) (am : Am) (align : Nat) (stl : Bool) (p : Word) (bs : List Byte) : Res State := do
  let w := ctxWho s (s.cx.vsrc != .control)
  let pls ← places s w .write am align stl p bs.length
  let _ ← orderStreams s true (pls.map (·.key))
  let ds := (pls.map (·.dest)).eraseDups
  let _ ← if flush then orderRicks s s.cx.ep ds else awaitRicks s s.cx.ep s.cx.recA ds
  .ok (storePlaces s w s.cx.no s.cx.ipc pls bs)

/-- A plain store: one of size .f or .l flushes, one of up to 8 bytes does not (R333). -/
def storePlain (s : State) (am : Am) (align : Nat) (stl : Bool) (p : Word) (bs : List Byte) : Res State :=
  storeAt s (decide (8 < bs.length)) am align stl p bs

/-- What R77 and R333 ask of an access that flushes the ricks of its destinations. -/
def accessOrder (s : State) (wr : Bool) (pls : List Place) : Res Unit := do
  orderStreams s wr (pls.map (·.key))
  let _ ← orderRicks s s.cx.ep (pls.map (·.dest)).eraseDups
  .ok ()

/-- The core and offset of each byte of an access in spaces 1-4, under the checks made at issue (R304, R325). -/
def issueRoute (s : State) (w : Who) (am : Am) (p : Word) (n : Nat) : Res (List (Option EP × Nat)) := asWrite do
  needAt (amOk am (ptrSpace p)) Code.space p
  needAt (p.extractLsb' 20 28 == 0) Code.space p
  let rs := (List.range n).map fun i => route s w am (ptrOff p i)
  needAt (rs.all fun r => r.1.isSome) Code.rank p
  needAt (rs.isEmpty || bufRankOk s w am p) Code.rank p
  .ok rs

/-- Whether a store of up to 8 bytes becomes rick elements: some byte lies in another core's buffer (R324). -/
def goesByRick (s : State) (am : Am) (p : Word) (n : Nat) : Bool :=
  decide (1 ≤ ptrSpace p) && decide (ptrSpace p ≤ 4) && isCompute s.cx.ep &&
    (List.range n).any fun i => match (route s (ctxWho s false) am (ptrOff p i)).1 with | some e => e != s.cx.ep | none => false

/-- Consecutive destination bytes grouped by core and aligned 8-byte word (R325): (core, first offset, bytes). -/
def wordPieces : List ((EP × Nat) × Byte) → List (EP × Nat × List Byte)
  | [] => []
  | ((e, o), b) :: rest =>
    match wordPieces rest with
    | (e', o', bs) :: more =>
      if e = e' && o' == o + 1 && o / 8 == o' / 8 then (e, o, b :: bs) :: more else (e, o, [b]) :: (e', o', bs) :: more
    | [] => [(e, o, [b])]

/-- The elements of a store by rick, and its own-core bytes. -/
def rickElems (s : State) (p : Word) (sp : Nat) (rs : List (Option EP × Nat)) (bs : List Byte) : List (EP × RickElem) :=
  let here := (rs.zip bs).filterMap fun q => q.1.1.map fun e => ((e, q.1.2), q.2)
  let ssn := (s.myTeam.map (·.ssn)).getD 0
  (wordPieces (here.filter fun q => q.1.1 != s.cx.ep)).map fun (e, o, b) =>
    (e, { addr := p, dst := bufKey e sp o, global := false, entry := none, bytes := b.length, op := .store,
          opnd := BitVec.ofNat 64 (leNat b), ctx := s.cx.no, recA := s.cx.recA, pc := s.cx.ipc, ssn := ssn, time := s.time,
          team := s.cx.team, rank := s.cx.rank, late := false })

/-- The own-core bytes of a store by rick, checked. -/
def ownPieces (s : State) (w : Who) (am : Am) (p : Word) (is : List Nat) : Res (List Place) := do
  let pls ← is.mapM fun i => bufPlace s w .write am false (ptrOff p i) p
  needAt (pls.all fun pl => pl.cls != 3) Code.cls p
  .ok pls

/-- A store of up to 8 bytes: plain, or by rick (R324). -/
def storeSmall (s : State) (am : Am) (p : Word) (bs : List Byte) : Res State :=
  if goesByRick s am p bs.length then do
    let w := ctxWho s (s.cx.vsrc != .control)
    let rs ← (issueRoute s w am p bs.length : Res _)
    let own := (rs.zip bs).zipIdx.filter fun q => q.1.1.1 == some s.cx.ep
    let pls ← asWrite (ownPieces s w am p (own.map fun q => q.2))
    let _ ← orderStreams s true (rs.filterMap fun r => r.1.map fun e => bufKey e (ptrSpace p) r.2)
    let _ ← orderEntry s
    let s := (rickElems s p (ptrSpace p) rs bs).foldl (fun s q => enterElem s s.cx.ep q.1 q.2) s
    .ok (storePlaces s w s.cx.no s.cx.ipc pls (own.map fun q => q.1.2))
  else storePlain s am 1 false p bs

/-! ### The wrappers -/

/-- Every outcome of a meaning: an effect, an exception taken on the state before, a stall, a stop. -/
def finish (s : State) (r : Res State) : Host.Outcome State Fault Refusal :=
  match r with
  | .ok s' => .next s'
  | .error (.wait s') => .next { s' with note := .stalled }
  | .error (.halt f) => .fault f
  | .error (.trap t) =>
    match takeFault s t with
    | .ok s' => .next s'
    | .error (.wait s') => .next { s' with note := .stalled }
    | .error (.halt f) => .fault f
    | .error (.trap _) => .next { s with note := .trapped t }

/-- R38, R76: a control-stream instruction waits for vector instructions before it that write a register it names. -/
def scalarHazard (c : Context) (u : Uses) : Bool :=
  (vecWaiting c).any fun e =>
    let w := e.uses
    w.gw.any (fun r => r != 0 && (u.gr.contains r || u.gw.contains r)) ||
    w.pw.any fun r => r != 0 && (u.pr.contains r || u.pw.contains r)

/-- Class 6 of R32. -/
def class6 (s : State) (i : Instr) : Res Unit := do
  need (decide (i.privNeed ≤ s.cx.priv.level)) Code.priv
  need (allotOk s.cx i.uses) Code.allot

/-- A control-stream instruction: class 6, the predicate (R18), then its body. Its note says that the PC moves to the next
slot, unless the body says otherwise. -/
def scalar (i : Instr) (ms : Ms) (s : State) (body : State → Res State) : Host.Outcome State Fault Refusal :=
  let s := { s with note := .done }
  finish s (do
    class6 s i
    if scalarHazard s.cx i.uses then stall s
    else if ms.on s then do
      orderWindow s (i.cws s)
      body s
    else .ok s)

/-- No predicate (R15, and BSIG). -/
def Ms.always : Ms := { inv := false, idx := 0 }

/-- The operands a vector instruction captures at hand-off (R75). -/
def capture (s : State) (i : Instr) : List (Nat × Word) := i.caps.map fun r => (r.toNat, s.g r)

/-- The entry of a vector slot that the executing context hands off or captures. -/
def entryOf (s : State) (op : VOp) : VEntry :=
  { op := op, pc := s.cx.ipc, caps := (match op with | .legal i => capture s i | .illegal _ => []),
    gGran := s.cx.gGran, vGran := s.cx.vGran, g2 := s.g 2 }

/-- The context as its control stream issues again. -/
def Context.toControl (c : Context) : Context :=
  { c with vsrc := .control, caps := [], vAllot := none, capG2 := none, iterNo := 0 }

/-- Hand a vector slot to the issue queue; a full queue stalls the control stream (R75). -/
def handOff (s : State) (op : VOp) : State :=
  if 32 ≤ s.cx.vq.length then { s with note := .stalled } else { s with cx := { s.cx with vq := s.cx.vq ++ [entryOf s op] } }

/-- Capture a vector slot into the repetition's body (R106). -/
def captureSlot (s : State) (op : VOp) : State :=
  let c := s.cx
  let r : RepState := { c.rep with body := c.rep.body ++ [entryOf s op] }
  let done := decide (r.n ≤ r.body.length)
  { s with cx := { c with rep := { r with capturing := !done, loaded := done } } }

/-- Advance the vector stream past the instruction that has issued: the repetition's index and iteration, or the queue
(R107). Once the last iteration has issued, ACTIVE, IDX and REMAIN are 0, ITER is the count, and the other fields of REPST,
REPCFG and REPPC stand as they are (R108 does not say; DESIGN CHOICE, notes/assumptions/109.md). -/
def vecAdvance (s : State) : State :=
  let c := s.cx
  match c.vsrc with
  | .control => s
  | .queue => { s with cx := { c.toControl with vq := c.vq.tail } }
  | .repetition =>
    let r := c.rep
    let r := if r.idx + 1 < r.n then { r with idx := r.idx + 1 }
      else if r.remain ≤ 1 then { r with active := false, idx := 0, iter := r.iter + 1, remain := 0, body := [] }
      else { r with idx := 0, iter := r.iter + 1, remain := r.remain - 1 }
    { s with cx := { c.toControl with rep := r } }

/-- A vector memory access has been performed: the operations forked behind it wait for one less (R233). -/
def paid (s : State) (i : Instr) (recA : Word) : State :=
  let one (r : Word) (n : Nat) : Nat := if r == recA then n - 1 else n
  if !i.isVecMem || s.cores.all (fun (k : Nat × Core) =>
      k.2.walker.behind == 0 && k.2.engine.all (fun o => o.behind == 0) && k.2.mx.queue.all fun x => x.behind == 0) then s
  else { s with cores := s.cores.map fun (k : Nat × Core) =>
    let c := k.2
    (k.1, { c with
      engine := c.engine.map fun o => { o with behind := one o.recA o.behind },
      mx := { c.mx with queue := c.mx.queue.map fun x => { x with behind := one x.recA x.behind } },
      walker := { c.walker with behind := one c.walker.recA c.walker.behind } }) }

/-- A context of the executing core whose vector stream could issue: it shares the vector unit (R113). -/
def vecReady (c : Context) : Bool := (c.mode == .running || c.mode == .syncing) && (vecNext c).isSome && !vecHeld c

/-- No other context of the executing core has a vector instruction to issue. -/
def unitFree (s : State) : Bool :=
  s.others.all fun c => c.ep != s.cx.ep || !vecReady c

/-- A vector-stream instruction. Met by the control stream it is captured into a repetition's body (R106), handed to the
issue queue (R75), or, when the vector stream and the vector unit are idle, issued at once (notes/assumptions/9.md); from the
queue or the repetition it takes effect. A fault is raised by the vector stream, so the instruction is in the queue then (R78).
A body slot that reads a g register which an earlier slot of the same body writes is captured with the register's value of the
capture and does not wait: R107 reads the operands once at capture, when no iteration can have issued, and R75's wait at
hand-off could never end (DESIGN CHOICE, notes/assumptions/109.md). -/
def vector (i : Instr) (s : State) (body : State → Res State) : Host.Outcome State Fault Refusal :=
  let s := { s with note := .done }
  let c := s.cx
  let e : VEntry := entryOf s (.legal i)
  match c.vsrc with
  | .control =>
    if scalarHazard c i.uses.readsOnly then .next { s with note := .stalled }
    else if c.rep.capturing then .next (captureSlot s (.legal i))
    else if vecBusy c || !unitFree s || !windowClean s i.vcws || (match class6 s i with | .ok _ => false | .error _ => true) then
      .next (handOff s (.legal i))
    else
      match body { s with cx := { c with
        vsrc := .queue, caps := e.caps, vAllot := some (e.gGran, e.vGran), capG2 := some e.g2, ranV := s.time + 1 } } with
      | .ok s' => .next { s' with cx := s'.cx.toControl }
      | .error (.halt f) => .fault f
      | .error (.wait s') => .next { s' with cx := { s'.cx.toControl with vq := [e], ranV := c.ranV } }
      | .error (.trap _) => .next { s with cx := { c with vq := [e] } }
  | _ =>
    let r : Res State := do
      class6 s i
      windowSound s i.vcws
      let s' ← body s
      .ok (paid (vecAdvance s') i c.recA)
    match r with
    | .error (.wait s') => .next { s' with note := .stalled, cx := s'.cx.toControl }
    | r => finish s r

/-- A vector slot that does not decode: it is captured or handed off as any other, and faults when it issues (R32, R78). -/
def illegalSlot (s : State) (w : Slot) : State :=
  if s.cx.rep.capturing then captureSlot s (.illegal w) else handOff s (.illegal w)

/-- An event of the device: its effect, or a stop of the model. -/
def event (s : State) (r : Res State) : Host.Outcome State Fault Refusal :=
  match r with
  | .ok s' => .next { s' with note := .done }
  | .error (.wait s') => .next { s' with note := .stalled }
  | .error (.halt f) => .fault f
  | .error (.trap t) => .next { s with note := .trapped t }

/-- A release of scope cluster or wider, or of R170: every earlier access is performed first. Scalar accesses are performed
as they issue; vector accesses and rick elements are waited for. An operation that waits at a far agent has waited for them. -/
def release (s : State) : Res State := do
  if s.myReq.isSome then .ok s
  else if (vecWaiting s.cx).any VEntry.isMem then stall s
  else drainRicks s s.cx.ep

/-- A release of any scope (R230, R232). -/
def releaseScope (s : State) (sc : Scope) : Res State :=
  if s.myReq.isSome then .ok s
  else match sc with
  | .context | .core => if (vecWaiting s.cx).any VEntry.isMem then stall s else .ok s
  | _ => release s

/-- The vector memory executions that a context still owes (R233). -/
def owedMem (c : Context) : Nat := ((vecOwed c).filter fun q => q.1.isMem).length

/-- Whether every access before the fork of an operation has been performed: the vector accesses it is behind, and the rick
elements that its record entered before it (R233). -/
def forkReady (s : State) (e : EP) (recA : Word) (behind forked : Nat) : Bool :=
  let early (x : RickElem) : Bool := x.recA == recA && decide (x.time < forked)
  behind == 0 && !((s.core e).ricks.toList.any fun r => r.elems.any early) &&
  !(s.cords.any fun c => c.src == e && c.elems.any early)

/-- An operation that reads some bytes when it issues (KCOLL, GQPUSH): the vector accesses and the rick elements before it that
could touch them have been performed first (R77, R233, R365). Its other accesses wait as `forkReady` says. -/
def forkOrder (s : State) (keys : List Nat) : Res Unit := do
  orderStreams s false keys
  if forkReady s s.cx.ep s.cx.recA 0 (s.time + 1) then .ok () else stall s

/-- Wait until no vector instruction of the context waits; a stream held at a queue is left for R103. -/
def vecDone (s : State) : Res Unit := if vecBusy s.cx then stall s else .ok ()

end Sys2Proof.Machine
end

