-- ==== Sys2Proof/Machine/Fetch.lean ====
section
/-! DEFINITION. Fetching: lines, templates and parity (R6-R13), the checks of a transfer's target (R11). -/
namespace Sys2Proof.Machine

/-! ### Line words (R7, R8) -/

def lineWord (l : Line) : Nat := (l.extractLsb' 0 32).toNat
def lineSlot (l : Line) (i : Nat) : Slot := l.extractLsb' (32 + 96 * i) 96
def lineTgt (l : Line) (i : Nat) : Bool := testBit (lineWord l) i
def lineTmpl (l : Line) (i : Nat) : Nat := bits (lineWord l) (5 + 2 * i) 2
/-- LPAR: bits [20:0] have even parity. -/
def lparOk (l : Line) : Bool := popCount (bits (lineWord l) 0 21) 21 % 2 == 0
/-- SPAR of a slot; an empty slot's bit is ignored. -/
def sparOk (l : Line) (i : Nat) : Bool :=
  lineTmpl l i == 3 || (popCount (lineSlot l i).toNat 96 % 2 == 1) == testBit (lineWord l) (15 + i)
/-- R13: reserved bits and the placement of pairs. -/
def lineOk (l : Line) : Bool :=
  bits (lineWord l) 21 11 == 0 && lineTmpl l 4 != 1 &&
  (List.range 4).all fun i => lineTmpl l i != 1 || lineTmpl l (i + 1) == 0

def pcSlot (pc : Word) : Nat := (pc.extractLsb' 0 3).toNat
def pcLine (pc : Word) : Word := (pc >>> 6) <<< 6
/-- R11: a slot index of 0-4, and zero bits [5:3] and [63:57]. -/
def pcShape (pc : Word) : Bool := decide (pcSlot pc < 5) && pc.extractLsb' 3 3 == 0 && pc.extractLsb' 57 7 == 0

/-- A fault met in fetching: FETCH is set, and ADDR holds the PC entered (R342, R349). A fault of the fetch's translation keeps
the cause that it votes (R346). -/
def fetchTrap (t : Trap) (pc : Word) (cause : Option Nat) : Stop :=
  .trap { t with addr := pc, fetch := true, write := false, vector := false, cause := cause }

/-- The line at a PC: the fetch translation (R342), the instruction cache, the line-word parity with one refetch from
memory (R12), and the checks of R13. A line that memory holds with an error it cannot correct disagrees too (R421). -/
def fetchLine (s : State) (pc : Word) : Res (State × Line) := do
  let w := ctxWho s false
  let va := (pcLine pc).extractLsb' 0 57
  let pls ← match globalPlaces s w.chip w .fetch false va.toNat 64 pc false with
    | .ok p => .ok p
    | .error (.trap t) => .error (fetchTrap t pc t.cause)
    | .error e => .error e
  if pls.any fun pl => pl.cls == 3 then .error (fetchTrap (Trap.of Code.cls) pc none)
  else
    let fromMem : Line := BitVec.ofNat 512 (leNat (readPlaces s w pls))
    let s := touch s w pls
    let k := s.core w.ep
    let cached := (k.icache.lookup (pcLine pc)).getD fromMem
    let lost := pls.any fun pl => s.poison.contains (pl.key / 64)
    if lost && !((k.icache.lookup (pcLine pc)).map lparOk).getD false then .error (fetchTrap (Trap.of Code.parity) pc (some 1))
    let (s, l) :=
      if lparOk cached then (s, cached)
      else if lparOk fromMem then (correctable s w.chip (reporter s w.chip w.part) bumpOther, fromMem)
      else (s, cached)
    if !lparOk l then .error (fetchTrap (Trap.of Code.parity) pc (some 1))
    else if !lineOk l then .error (fetchTrap (Trap.of Code.illine) pc none)
    else
      let s := s.modCore w.ep fun k => { k with icache := alPut k.icache (pcLine pc) l }
      .ok (s, l)

/-- Every check of R11 on the target of a transfer, in its order: the line's translation, its parity, its line word, then the
four of R11. They are reported at the transfer's own PC with the target as the address. -/
def checkTarget (s : State) (pc : Word) : Res State := do
  let (s, l) ← fetchLine s pc
  if pcShape pc && lineTgt l (pcSlot pc) && lineTmpl l (pcSlot pc) != 3 then
    .ok { s with cx := { s.cx with line := some (pcLine pc, l) } }
  else .error (fetchTrap (Trap.of Code.btarget) pc none)

/-- Take a transfer of control (R11): nothing happens unless every check of the target passes. -/
def transfer (s : State) (pc : Word) : Res State := do
  let s ← checkTarget s pc
  .ok { s with cx := { s.cx with pc := pc }, note := .transfer }

/-- Enter a line at a PC unless the context stands in it: the line and the state that has fetched it. -/
def enterLine (s : State) (pc : Word) : Res (State × Line) :=
  match s.cx.line with
  | some (a, l) => if a = pcLine pc then .ok (s, l) else go
  | none => go
where
  go : Res (State × Line) := do
    let (s, l) ← fetchLine s pc
    .ok ({ s with cx := { s.cx with line := some (pcLine pc, l) } }, l)

/-- The slot parity with one refetch (R12): the line with the slot repaired, or the fault; a refetch whose translation fails
raises that fault. -/
def checkSpar (s : State) (pc : Word) (l : Line) (i : Nat) : Res (State × Line) :=
  if sparOk l i then .ok (s, l)
  else
    let w := ctxWho s false
    match globalPlaces s w.chip w .fetch false (pcLine pc).toNat 64 pc false with
    | .ok pls =>
      let m : Line := BitVec.ofNat 512 (leNat (readPlaces s w pls))
      let lost := pls.any fun pl => s.poison.contains (pl.key / 64)
      if sparOk m i && lparOk m && lineOk m && !lost then
        let s := touch s w pls
        let s := correctable s w.chip (reporter s w.chip w.part) bumpOther
        let s := s.modCore w.ep fun k => { k with icache := alPut k.icache (pcLine pc) m }
        .ok ({ s with cx := { s.cx with line := some (pcLine pc, m) } }, m)
      else .error (fetchTrap (Trap.of Code.parity) pc (some 1))
    | .error (.trap t) => .error (fetchTrap t pc t.cause)
    | .error e => .error e

end Sys2Proof.Machine
end

