-- ==== Sys2Proof/Machine/Issue.lean ====
section
/-! DEFINITION. Issuing: the control stream's slot or pair (R8-R10), the order of the fetch and decode faults (R32), block
signatures (R54), gangs (R136-R138), and the vector stream's next instruction (R75, R107). The meaning of an instruction
comes in as `run`; Machine/Step.lean gives `exec`. -/
namespace Sys2Proof.Machine

abbrev Out := Host.Outcome State Fault Refusal
abbrev Run := Instr → State → Out

/-- A transfer of control, for R54. -/
def isTransfer : Instr → Bool
  | .br .. | .jmp .. | .jmpi .. | .call .. | .calli .. | .ret .. | .loop .. => true
  | _ => false

/-- Instructions that may stand in no slot of a pair: ILLOP (R168, R359). -/
def noPair : Instr → Bool
  | .spawn .. | .waita .. | .yield .. | .susp .. | .arrive .. | .await .. | .ssync .. | .fuse .. | .split .. | .tqpush ..
  | .tqpop .. | .fmsg .. | .tlbi .. | .halt .. | .fedj .. | .fedl .. | .gqpop .. => true
  | _ => false

/-- GROW and SHRINK, whatever their other fields: ILLINE in a pair (R9). -/
def isGrow (w : Slot) : Bool := w.extractLsb' 88 8 == 0x4A || w.extractLsb' 88 8 == 0x4B

/-- A vector slot that holds a REP, well formed or not (R106). -/
def isRepSlot (w : Slot) : Bool := w.extractLsb' 88 8 == 0xB8

/-- An END whose predicate is on. -/
def endsNow (s : State) : Instr → Bool
  | .endC ms => ms.on s
  | _ => false

def isBsig : Instr → Bool
  | .bsig _ => true
  | _ => false

/-- The queue that an instruction of the control stream discards (R102). -/
def drains : Instr → Option QReg
  | .qdrain false (.drain q) _ => some q
  | _ => none

/-- The GPTAB register whose entry a GPRIO sets (R374). -/
def gptabOf (s : State) : Instr → List Nat
  | .gprio a _ _ => [0x710 + (s.g a).toNat % 64 / 16]
  | _ => []

/-- R9 on a GPTAB register, which GPRIO names by its operand: two GPRIO, or a GPRIO and an SWR, that write the same. -/
def gptabClash (s : State) (x y : Instr) : Bool :=
  let regs (i : Instr) : List Nat := i.uses.sw ++ gptabOf s i
  (regs x).any (regs y).contains

/-- A GPRIO whose operand an earlier vector instruction has still to write (R76): the registers of its pair are not known yet. -/
def gptabUnknown (s : State) (i : Instr) : Bool := !(gptabOf s i).isEmpty && scalarHazard s.cx i.uses

/-- Prepare the context for the instruction of a slot. A request that an instruction at another PC left is no longer one. -/
def beginSlot (s : State) (pc : Word) (pairEnd : Option Word) : State :=
  { s with note := .done, cx := { s.cx.toControl with
      ipc := pc, pairEnd := pairEnd, faulting := false, reissuing := false, ranC := s.time + 1, req := s.myReq } }

/-- Accumulate slots into the open signature block (R54). -/
def sigAdd (sig : Option (BitVec 16 × BitVec 16)) (ws : List Slot) : Option (BitVec 16 × BitVec 16) :=
  sig.map fun p => (p.1, ws.foldl (fun c w => crc16 c (bytesOf w.toNat 12)) p.2)

def sigBad (sig : Option (BitVec 16 × BitVec 16)) : Bool :=
  match sig with
  | some (e, a) => e != a
  | none => false

/-- The trap of a block signature (R54): it votes CFSIG. -/
def sigTrap : Trap := { Trap.of Code.cfsig with cause := some 4 }

/-- An exception raised before or around an instruction. -/
def raise (s : State) (t : Trap) : Out := finish s (.error (.trap t))

/-- The fault of a context, or of a matrix unit, whose state holds an error that nothing corrects (R200): what it issues next
meets it. -/
def hurtTrap : Trap := { Trap.of Code.parity with cause := some 1 }

/-- Raise a fault of the control stream. A capture in progress is cancelled and the record's PC is the REP's, so that a
resume captures again (notes/assumptions/10.md); while an earlier vector instruction is still to complete, the capture and
the fault stand (R78). -/
def raiseControl (s : State) (e : Stop) : Out :=
  let c := s.cx
  match e with
  | .trap t =>
    if c.rep.capturing then
      match takeFault (cancelCapture s) { t with pc := some c.rep.pc } with
      | .error (.wait _) => .next { s with note := .stalled, cx := { c with faulting := true } }
      | r => finish s r
    else raise s t
  | .wait s' => .next { s' with note := .stalled }
  | .halt f => .fault f

/-- After an instruction that took effect: the PC moves on, unless the instruction has dealt with it (R10). -/
def advancePc (s : State) (next : Word) : State :=
  match s.note with
  | .done => { s with cx := { s.cx with pc := next, entered := false } }
  | .transfer => { s with cx := { s.cx with entered := false } }
  | _ => s

/-- The end of a control-stream issue: a stall leaves the signature as it was; a taken transfer ends the block (R54). -/
def afterIssue (s0 : State) (transferred : Bool) (next : Word) (o : Out) : Out :=
  match o with
  | .next s' =>
    match s'.note with
    | .stalled => .next { s' with cx := { s'.cx with sig := s0.cx.sig, ranC := s0.cx.ranC } }
    | .trapped _ => .next s'
    | _ =>
      let took := transferred && s'.note == .transfer
      if took && sigBad s'.cx.sig then
        match takeFault s' { sigTrap with resume := some s'.cx.pc } with
        | .ok t => .next t
        | .error (.halt f) => .fault f
        | .error _ => .next { s0 with note := .stalled }
      else
        let s'' := if took then { s' with cx := { s'.cx with sig := none } } else s'
        .next (advancePc s'' next)
  | o => o

/-- One slot. -/
def issueOne (run : Run) (s : State) (pc : Word) (w : Slot) (i : Instr) : Out :=
  let s1 := beginSlot s pc none
  let s2 := if isBsig i then s1 else { s1 with cx := { s1.cx with sig := sigAdd s1.cx.sig [w] } }
  afterIssue s (isTransfer i) (nextSlot pc) (run i s2)

/-- The state that an instruction leaves when it stalls. -/
def stalledAt (o : Out) : Option State :=
  match o with
  | .next a => if a.note == .stalled then some a else none
  | _ => none

/-- The fault that an instruction raises. -/
def Note.isTrap : Note → Option Trap
  | .trapped t => some t
  | _ => none

def trapOf (o : Out) : Option Trap :=
  match o with
  | .next a => a.note.isTrap
  | _ => none

/-- The registers of a context replaced by the operands of before the pair (R9). -/
def operandsOf (g : Vector Word 128) (p : Vector Bool 8) (c : Context) : Context := { c with g := g, p := p }

/-- What the second of two wrote, joined to what the first left (R9): they write no register of one file both. A context that
the second has released stays as it is. -/
def joinRegs (g : Vector Word 128) (p : Vector Bool 8) (first second : Context) : Context :=
  if !second.bound then second
  else { second with
    g := Vector.zipWith (fun x y => if y.1 = y.2 then x else y.2) first.g (Vector.zipWith Prod.mk g second.g),
    p := Vector.zipWith (fun x y => if y.1 = y.2 then x else y.2) first.p (Vector.zipWith Prod.mk p second.p) }

/-- Instructions that only read what a partner in the same pair may write: they see it as it was before (R9). -/
def readsBefore : Instr → Bool
  | .srd .. | .qcnt .. => true
  | _ => false

/-- Instructions whose effect a partner may have to wait for: elements in a rick, a command in the matrix queue. -/
def heldBack : Instr → Bool
  | .st .. | .strel .. | .rred .. | .stl .. => true
  | _ => false

/-- The queues that the second of two meets: those of before the pair where the first discards one, so that a GET still takes
what stood there (R9), else those that the first has left, so that two appends keep the slot order. -/
def queuesFor (i : Instr) (s a : State) : Vector (List Word) 8 := if (drains i).isSome then s.cx.q else a.cx.q

/-- The queues after both: what the first has discarded is gone. -/
def queuesAfter (i : Instr) (a b : Context) : Context :=
  match drains i with
  | some r => if (a.qr r).isEmpty then b.setQr r [] else b
  | none => b

/-- The second of two after the first, `i`: `a` is the state that the first has left, `s` that of before the pair. -/
def secondRun (run : Run) (s a : State) (i j : Instr) (ipc : Word) (sig : Option (BitVec 16 × BitVec 16)) : Out :=
  if readsBefore j then
    match run j { s with note := .done, cx := { s.cx with ipc := ipc, sig := sig } } with
    | .next b =>
      if b.note == .stalled then .next b
      else .next { a with note := b.note, cx := { joinRegs s.cx.g s.cx.p a.cx b.cx with
        pc := a.cx.pc, sig := sig, q := a.cx.q, fflags := a.cx.fflags, line := a.cx.line } }
    | o => o
  else
    match run j { a with note := .done, cx := { operandsOf s.cx.g s.cx.p a.cx with ipc := ipc, sig := sig, q := queuesFor i s a } } with
    | .next b => .next { b with cx := queuesAfter i a.cx (joinRegs s.cx.g s.cx.p a.cx b.cx) }
    | o => o

/-- Both slots take effect, `i` first: the transfer of either stands; of two, one by a free value (notes/assumptions/18.md).
The PC of the slot that has transferred is the one that a signature check reports (R54). `first` is the pair's first slot.
When the second has to wait for what the first has done, the first stands and the second is left to issue (DEDUCED,
notes/assumptions/14.md); when it has to wait for room that the first has taken, the pair waits as one. Two QDRAIN.GET of one
queue take its entries in slot order (R9 orders appends only; DESIGN CHOICE, notes/assumptions/14.md). -/
def runBoth (run : Run) (s : State) (i j : Instr) (first pcJ next : Word) (si : State)
    (sigJ : State → Option (BitVec 16 × BitVec 16)) : Out :=
  match run i si with
  | .next a =>
    match secondRun run s a i j pcJ (sigJ a) with
    | .next b =>
      match b.note with
      | .stalled =>
        if heldBack i then
          let rest : PairHalf := { pc := pcJ, next := next, first := first, sig := sigJ a, g := s.cx.g, p := s.cx.p }
          .next { b with note := .transfer, cx := { b.cx with
            pc := pcJ, half := some rest, pairEnd := none, sig := a.cx.sig, g := a.cx.g, p := a.cx.p, entered := false } }
        else .next { s with note := .stalled }
      | .trapped t => .next { b with note := .trapped t }
      | n =>
        let both := n == .transfer && a.note == .transfer && b.cx.bound
        let byFirst := if both then Config.freeBit b.freeIx else a.note == .transfer && b.cx.bound
        let c := if byFirst then { b.cx with pc := a.cx.pc, ipc := si.cx.ipc } else b.cx
        .next { b with cx := c, note := if a.note == .transfer then .transfer else n,
                       freeIx := b.freeIx + both.toNat }
    | o => o
  | o => o

/-- A pair issues as a unit: a fault of either leaves no effect and is reported at the first slot, the lower slot's before the
upper's (R9). An END that takes effect leaves its context last. Each slot enters the signature block that stands at it: a BSIG
ends the block before its own slot and opens the one of the next (R54). Two choices, notes/assumptions/14.md: a BSIG that ends a
block with the wrong CRC is a fault of its pair, as R9 says, so that neither slot has effect and the record's PC is the first
slot's, although R54 raises CFSIG after the BSIG; and a taken transfer that ends such a block raises CFSIG after both slots
have taken effect, as R54 says, reported at the slot of the transfer. -/
def issuePair (run : Run) (s : State) (pc : Word) (w1 w2 : Slot) (i : Instr) (j : Except Reject Instr) : Out :=
  let pc2 := nextSlot pc
  let slot (p : Word) (sig : Option (BitVec 16 × BitVec 16)) : State :=
    let b := beginSlot s p (some pc2)
    { b with cx := { b.cx with sig := sig } }
  let s1 := slot pc (if isBsig i then s.cx.sig else sigAdd s.cx.sig [w1])
  let report (x : State) (t : Trap) : Out :=
    raise x { t with pc := some pc, resume := if t.code == Code.cfsig then none else t.resume }
  let stall (a : State) : Out := .next { a with cx := { operandsOf s.cx.g s.cx.p a.cx with q := s.cx.q, sig := s.cx.sig, ranC := s.cx.ranC } }
  let o1 := run i s1
  match (if noPair i then some (Trap.of Code.illop) else trapOf o1), stalledAt o1 with
  | some t, _ => report s1 t
  | none, some a => stall a
  | none, none =>
    match o1 with
    | .next a =>
      -- the block in which the second slot stands
      let sig2 (a : State) (j : Instr) : Option (BitVec 16 × BitVec 16) :=
        let open_ := if isBsig i then a.cx.sig else s1.cx.sig
        if isBsig j then open_ else sigAdd open_ [w2]
      match j with
      | .error _ => report (slot pc2 none) (Trap.of Code.illop)
      | .ok j =>
        let s2 := slot pc2 (sig2 a j)
        let o2 := run j s2
        match (if noPair j then some (Trap.of Code.illop) else trapOf o2), stalledAt o2 with
        | some t, _ => report s2 t
        | none, some b => stall b
        | none, none =>
          let next := nextSlot pc2
          let o := if endsNow s1 i then runBoth run s j i pc pc next s2 (fun _ => s1.cx.sig)
            else runBoth run s i j pc pc2 next s1 (fun a => sig2 a j)
          match trapOf o with
          | some t => report s2 t
          | none => afterIssue s (isTransfer i || isTransfer j) next o
    | o => o

/-- What stands at the control stream's PC: an empty slot, one instruction, a vector slot that does not decode, or a pair. -/
inductive Fetched where
  | empty
  | one (w : Slot) (i : Instr)
  | illegal (w : Slot)
  | pair (w1 w2 : Slot) (i : Instr) (j : Except Reject Instr)

/-- Fetch and decode at the PC, in the order of R32: the line, class 3, slot parity, the rules of a pair, decode. A PC that
falls through past the last line of the address space names no slot and faults BTARGET there (R10 says nothing of it; DESIGN
CHOICE, notes/assumptions/107.md). A parity disagreement of a pair's second slot is reported at the first slot's PC, in PC and
in ADDR (R12 and R9 say one each; DEDUCED, notes/assumptions/107.md). -/
def fetchSlot (s : State) : Res (State × Fetched) := do
  let pc := s.cx.pc
  let s := { s with cx := { s.cx with ipc := pc, pairEnd := none, vsrc := .control } }
  let (s, l) ← enterLine s pc
  let i := pcSlot pc
  if !pcShape pc || (s.cx.entered && (!lineTgt l i || lineTmpl l i == 3)) then .error (fetchTrap (Trap.of Code.btarget) pc none)
  else if lineTmpl l i = 3 then .ok (s, .empty)
  else
    let (s, l) ← checkSpar s pc l i
    let illop : Res (State × Fetched) := fail Code.illop
    let w := lineSlot l i
    if lineTmpl l i = 1 && s.cx.half.isNone then
      let (s, l) ← checkSpar s pc l (i + 1)
      let w1 := lineSlot l i
      let w2 := lineSlot l (i + 1)
      let a := decode false w1
      let b := decode false w2
      let bad := lineTgt l (i + 1) || isGrow w1 || isGrow w2 ||
        (match a, b with | .ok x, .ok y => x.clashes y | _, _ => false)
      if bad then .error (fetchTrap (Trap.of Code.illine) pc none)
      else if (match a, b with | .ok x, .ok y => gptabUnknown s x || gptabUnknown s y | _, _ => false) then stall s
      else if (match a, b with | .ok x, .ok y => gptabClash s x y | _, _ => false) then
        .error (fetchTrap (Trap.of Code.illine) pc none)
      else if s.cx.rep.capturing then illop
      else match a with
        | .error _ => illop
        | .ok x => .ok (s, .pair w1 w2 x b)
    else if lineTmpl l i = 2 then
      if s.cx.rep.capturing && isRepSlot w then illop
      else match decode true w with
        | .error _ => .ok (s, .illegal w)
        | .ok x => .ok (s, .one w x)
    else if s.cx.rep.capturing then illop
    else match decode false w with
      | .error _ => illop
      | .ok x => .ok (s, .one w x)

/-- The slot of a pair that was left to issue, with the operands of before the pair. A fault that it meets only now is reported
at the pair's first slot (R9); the other slot's effect stands, and the record's PC is the slot that is left
(notes/assumptions/14.md). -/
def issueHalf (run : Run) (s : State) (h : PairHalf) (i : Instr) : Out :=
  let b := beginSlot s h.pc none
  let x := { b with cx := { operandsOf h.g h.p b.cx with sig := h.sig } }
  match run i x with
  | .next a =>
    match a.note with
    | .trapped t => raise { x with cx := { x.cx with g := s.cx.g, p := s.cx.p } } { t with pc := some h.first, resume := some (t.resume.getD h.pc) }
    | .stalled => .next { a with cx := { a.cx with g := s.cx.g, p := s.cx.p, sig := s.cx.sig, ranC := s.cx.ranC } }
    | _ => afterIssue s (isTransfer i) h.next (.next { a with cx := { joinRegs h.g h.p s.cx a.cx with half := none } })
  | o => o

/-- A vector slot that does not decode is handed off, and faults when the vector stream issues it (R78). -/
def issueIllegal (s : State) (w : Slot) : Out :=
  let b := beginSlot s s.cx.pc none
  afterIssue s false (nextSlot s.cx.pc) (.next (illegalSlot { b with cx := { b.cx with sig := sigAdd b.cx.sig [w] } } w))

/-- The control stream of the executing context issues. -/
def issueControl (run : Run) (s : State) : Out :=
  if s.cx.hurt then raiseControl { s with cx := { s.cx.toControl with ipc := s.cx.pc, pairEnd := none } } (.trap hurtTrap)
  else match fetchSlot s with
  | .error e => raiseControl { s with cx := { s.cx.toControl with ipc := s.cx.pc, pairEnd := none } } e
  | .ok (s, .empty) => .next { s with note := .done, cx := { s.cx with pc := nextSlot s.cx.pc, entered := false, ranC := s.time + 1 } }
  | .ok (s, .one w i) =>
    match s.cx.half with
    | some h => issueHalf run s h i
    | none => issueOne run s s.cx.pc w i
  | .ok (s, .illegal w) => issueIllegal s w
  | .ok (s, .pair w1 w2 i j) => issuePair run s s.cx.pc w1 w2 i j

/-- The executing context as its vector stream issues an entry: with the operands of the hand-off, and the allotment that
judges the entry: that of its hand-off, of a body's v registers the one in force now (R24, R107; DEDUCED,
notes/assumptions/9.md). -/
def vectorCx (s : State) (e : VEntry) : Context :=
  let c := s.cx
  let inRep := c.rep.active
  { c with
    vsrc := if inRep then .repetition else .queue, caps := e.caps, capG2 := some e.g2,
    vAllot := some (e.gGran, if inRep then c.vGran else e.vGran), ipc := e.pc, pairEnd := none,
    iterNo := if inRep then c.rep.iter else 0, ranV := s.time + 1 }

/-- The vector stream of the executing context issues the repetition's next instruction, or the queue's (R107). -/
def issueVector (run : Run) (s : State) : Out :=
  match vecNext s.cx with
  | none => .next { s with note := .stalled }
  | some e =>
    let x := { s with cx := vectorCx s e, note := .done }
    match (if s.cx.hurt then none else e.instr?) with
    | none => raise x (if s.cx.hurt then hurtTrap else Trap.of Code.illop)
    | some i =>
      match run (if s.cx.rep.active then renInstr s.cx.rep i else i) x with
      | .next a => if a.note == .stalled then .next { a with cx := { a.cx with ranV := s.cx.ranV } } else .next a
      | o => o

/-! ### Gangs (R136-R138) -/

/-- The context bound to a member's record. -/
def memberCx (s : State) (t : Team) (m : Word × EP) : Option Context :=
  s.contexts.find? fun c => c.ep == m.2 && c.bound && c.recA == m.1 && c.chip == t.chip && c.team == t.id

/-- Issue on one member, the rest of the machine as it stands. -/
def issueMember (issue : State → Out) (s : State) (c : Context) : Out := issue (s.switchTo c.ep c.no)

/-- Issue on every member in rank order, collecting the notes and the PCs the members reach. -/
def issueMembers (issue : State → Out) : State → List Context → List (Context × Note × Word) → Except Out (State × List (Context × Note × Word))
  | s, [], acc => .ok (s, acc)
  | s, c :: cs, acc =>
    match issueMember issue s c with
    | .next a => issueMembers issue a cs (acc ++ [(c, a.note, (a.ctx c.ep c.no).pc)])
    | o => .error o

/-- A member as it parks: at its control slot, or at the entry that its vector stream stands at. -/
def memberAt (s : State) (vec : Bool) : State :=
  if vec then
    match vecNext s.cx with
    | some e => { s with cx := vectorCx s e }
    | none => { s with cx := { s.cx with ipc := s.cx.pc, pairEnd := none } }
  else { s with cx := { s.cx.toControl with ipc := s.cx.pc, pairEnd := none } }

/-- Park every member of a gang: a faulting one by its fault, the others without a message (R138). A fault of the control
streams waits for the vector instructions before it, of the vector streams for nothing (R78). -/
def parkGang (s : State) (vec : Bool) (ms : List (Context × Option Trap)) : Res State :=
  if !vec && ms.any (fun m => vecBusy (dropCapture (s.switchTo m.1.ep m.1.no)).cx) then
    stall (ms.foldl (fun s m => s.modCtx m.1.ep m.1.no fun c => { c with faulting := true }) s)
  else
    ms.foldlM (fun s m => do
      let s := memberAt (s.switchTo m.1.ep m.1.no) vec
      match m.2 with
      | some t => takeFault s t
      | none => do
        let s := dropCapture s
        suspendCx s stParked 0 s.cx.pc) s

/-- The members that would stall make what progress a stall makes; whether any of them stalls. -/
def stallMembers (issue : State → Out) (s : State) (ms : List Context) : State × Bool :=
  ms.foldl (fun p c =>
    match stalledAt (issueMember issue p.1 c) with
    | some a => (a, true)
    | none => p) (s, false)

/-- The outcome of parking a gang. -/
def parked (s : State) (vec : Bool) (ms : List (Context × Option Trap)) : Out :=
  match parkGang s vec ms with
  | .ok a => .next a
  | .error (.wait a) => .next { a with note := .stalled }
  | .error (.halt f) => .fault f
  | .error (.trap _) => .next { s with note := .stalled }

/-- Whether the members that still follow the gang's fetch agree on a transfer (R137): a member that has arrived at its SSYNC or
suspended has made none. -/
def agreeing (s : State) (notes : List (Context × Note × Word)) : Bool :=
  let here := notes.filter fun n => let c := s.ctx n.1.ep n.1.no; c.bound && c.mode == .running
  match here with
  | [] => true
  | n :: ns => ns.all fun m => m.2.1 == n.2.1 && (m.2.1 != .transfer || m.2.2 == n.2.2)

/-- Whether a context's record still belongs to a gang. -/
def inGang (s : State) (c : Context) : Bool := (s.team? c.chip c.team).any fun t => !(gangOf t c.recA).isEmpty

/-- A gang issues one instruction on every member (R136): a stall of any stalls all; a fault of any leaves no effect and
parks all (R138); members that disagree on a transfer all fault GROUP (R137). An SSYNC that is on for some members only
arrives for these (R171); the others stand behind it, and as a stall of any member stalls all they issue no more until it
completes (DEDUCED, notes/assumptions/128.md). -/
def issueGang (issue : State → Out) (vec : Bool) (s : State) (ms : List Context) : Out :=
  let st := stallMembers issue s ms
  if st.2 then .next { st.1 with note := .stalled }
  else match issueMembers issue s ms [] with
  | .error o => o
  | .ok (s', notes) =>
    if notes.any fun n => n.2.1 == .stalled then .next { s with note := .stalled }
    else
      let traps := notes.map fun n => (n.1, n.2.1.isTrap)
      let gone := ms.filter fun c => !(s'.ctx c.ep c.no).bound && inGang s' c
      if traps.any fun t => t.2.isSome then parked s vec traps
      else if !gone.isEmpty && gone.length < ms.length then
        -- a member's ARRIVE suspends: the gang suspends as one, each member at the slot it has reached (R138, R171)
        match (ms.filter fun c => (s'.ctx c.ep c.no).bound).foldlM (fun s c =>
            let s := s.switchTo c.ep c.no
            suspendCx s stWaitBarrier 0 s.cx.pc) s' with
        | .ok a => .next a
        | .error (.halt f) => .fault f
        | .error _ => .next { s with note := .stalled }
      else if !agreeing s' notes then parked s vec (ms.map fun c => (c, some (Trap.of Code.group)))
      else .next s'

/-- An instruction with which a gang suspends as one, with its result register and its predicate (R171). -/
def gangWait : Instr → Option (GReg × Ms)
  | .waita _ d _ _ ms | .await d _ _ ms => some (d, ms)
  | .yield ms | .susp ms => some (0, ms)
  | _ => none

/-- The instruction that the leader's context stands at, when it is one with which a gang suspends. -/
def gangWaitAt (s : State) : Option (Slot × GReg × Ms) :=
  match fetchSlot s with
  | .ok (_, .one w i) => (gangWait i).map fun q => (w, q.1, q.2)
  | _ => none

/-- A member past a slot that its gang's leader has executed for it: the slot enters the member's signature block (R54). -/
def Context.followed (m : Context) (w : Slot) (lead : Context) : Context :=
  { m with pc := lead.pc, entered := false, sig := sigAdd m.sig [w], ranC := lead.ranC, faulting := false, reissuing := false }

/-- The leader's operands alone, its predicate among them, define the wait; its result is written on every member, and every
member suspends with it (R138, R171). Predicated off, it has no effect on any member (R168). -/
def issueGangWait (issue : State → Out) (s : State) (w : Slot) (d : GReg) (p : Ms) (ms : List Context) : Out :=
  match ms with
  | [] => issue s
  | l :: rest =>
    match issueMember issue s l with
    | .next a =>
      match a.note with
      | .trapped t => parked s false ((l, some t) :: rest.map fun c => (c, none))
      | .stalled => .next a
      | _ =>
        let lead := a.ctx l.ep l.no
        let takes := p.on (s.switchTo l.ep l.no)
        let step (s : State) (c : Context) : Res State :=
          if lead.bound then
            let m := s.ctx c.ep c.no
            .ok (s.setCtx ((if takes then m.setGr d (lead.gr d) else m).followed w lead))
          else do
            let r ← readRec s (devWho s l.ep l.chip l.team) l.recA
            let s := s.switchTo c.ep c.no
            suspendCx s r.st 0 (nextSlot s.cx.pc)
        match rest.foldlM step a with
        | .ok b => .next b
        | .error (.halt f) => .fault f
        | .error _ => .next { s with note := .stalled }
    | o => o

/-- The members of the executing context's gang that are bound, in rank order. -/
def boundGang (s : State) : List Context :=
  match s.cx.gang, s.myTeam with
  | some l, some t => (gangOf t l).filterMap (memberCx s t)
  | _, _ => []

/-- A vector stream issues: alone, or on every member of its gang. -/
def issueVecAgent (issue : State → Out) (s : State) : Out :=
  match s.cx.gang with
  | none => issue s
  | some _ => issueGang issue true s (boundGang s)

/-- A control stream issues: alone, or as the leader of its gang, all of whose members can issue then. -/
def issueAgent (issue : State → Out) (s : State) : Out :=
  match s.cx.gang with
  | none => issue s
  | some _ =>
    let ms := boundGang s
    if ms.any fun c => c.mode != .running then .next { s with note := .stalled }
    else match gangWaitAt s with
      | some (w, d, p) => issueGangWait issue s w d p ms
      | none => issueGang issue false s ms

end Sys2Proof.Machine
end

