-- ==== Sys2Proof/Machine/Elems.lean ====
section
/-! DEFINITION. Elements of a format in memory (R265, R270), the format records of typed-buffer regions (R281), and what
every engine shares: the checks of a completion word (R189) and the message of a fault (R248, R349). -/
namespace Sys2Proof.Machine

/-! ### Elements in memory (R265, R270) -/

/-- A range of elements: its format code, its block size, its pointer, its places. -/
structure ElemRange where
  fmt : Nat
  blk : Nat
  n : Nat
  pls : List Place
  deriving DecidableEq, Repr

def isSbp (fmt : Nat) : Bool := decide (0x10 ≤ fmt) && decide (fmt ≤ 0x17)

/-- The bytes that n elements of a format take. -/
def elemBytes (fmt n : Nat) : Nat := if isSbp fmt then n else (n * fmtBits fmt + 7) / 8

/-- The alignment of an element pointer (R299). -/
def elemAlign (fmt : Nat) : Nat := if isSbp fmt then 64 else if fmtBits fmt < 8 then 1 else fmtBits fmt / 8

/-- The byte in which element i begins; for SBP that of its sign plane. -/
def elemAt (fmt blk i : Nat) : Nat := if isSbp fmt then i / blk * blk + i % blk / 8 else i * fmtBits fmt / 8

/-- Elements out of bytes. -/
def unpackElems (fmt blk n : Nat) (bs : List Byte) : List Nat :=
  let v := leNat bs
  (List.range n).map fun i =>
    if isSbp fmt then
      let at_ := elemAt fmt blk i
      ((List.range 8).map fun k => bits v ((at_ + k * (blk / 8)) * 8 + i % 8) 1 * 2 ^ (7 - k)).sum
    else bits v (fmtBits fmt * i) (fmtBits fmt)

/-- Elements into bytes; what the last byte of a run of short elements holds beyond them stays as it was. -/
def packElems (fmt blk : Nat) (xs : List Nat) (old : Byte) : List Byte :=
  if isSbp fmt then
    let v := (xs.zipIdx.map fun q =>
      ((List.range 8).map fun k => bits q.1 (7 - k) 1 * 2 ^ ((elemAt fmt blk q.2 + k * (blk / 8)) * 8 + q.2 % 8)).sum).sum
    bytesOf v xs.length
  else
    let w := fmtBits fmt
    let v := (xs.zipIdx.map fun q => q.1 % 2 ^ w * 2 ^ (w * q.2)).sum
    let used := w * xs.length
    let n := (used + 7) / 8
    let keep := if used % 8 = 0 then 0 else old.toNat / 2 ^ (used % 8) * 2 ^ used
    bytesOf (v + keep) n

/-- A delivered element: its pattern, its flags, S's increment, the record's saturation, a NaN written as a number. -/
structure QElem where
  code : Nat
  flags : Fl
  s : Bool
  sat : Bool
  asNan : Bool
  deriving DecidableEq, Repr

/-! ### Format records -/

/-- The reset value of MXRFMT0-3 (R281): every region raw. -/
def mxrfmtReset : Word := 0x1F1F1F1F1F1F1F1F

/-- The format record of a region of WB (space 2) or AB (space 3): FMT, GEOM, PRND (R281). -/
def regionFmt (s : State) (e : EP) (sp off : Nat) : Nat × Nat × Bool :=
  let region := off / (bufSize e sp / 16)
  let r := (s.core e).reg (0x320 + 2 * (sp - 2) + region / 8) mxrfmtReset
  let f := bits r.toNat (8 * (region % 8)) 8
  (f % 32, bits f 5 2, testBit f 7)

/-! ### Engines -/

/-- The checks of a completion word at issue (R189 item 4). -/
def cwCheck (s : State) (w : Who) (p : Word) : Res Unit := asWrite do
  let _ ← spaceCheck s w .write .lin false p 8
  needAt (decide (ptrSpace p ≤ 1)) Code.space p
  needAt (p.toNat % 8 == 0) Code.align p

/-- Post the message of a fault that an engine meets; the continuation is not parked (R189, R248, R349), and a cause of its own
is voted (R200). -/
def engineFault (s : State) (e : EP) (ctx : BitVec 2) (rank : Nat) (pc recA : Word) (seq : BitVec 16) (t : Trap) : Res State :=
  let k := s.core e
  let flags := Msg.flagEngine ||| (t.flags false &&& 0x50)
  let s := match t.cause with
    | some v => addVote s k.chip k.team { cause := v, pc := pc, rank := rank, ctx := ctx }
    | none => s
  let s := applyMeets s t
  postMsg s (svcOf s k.chip k.team) (mkMsg s k.chip k.team t.code ctx flags rank pc t.addr recA e seq t.extra0 t.extra1)

end Sys2Proof.Machine
end

