-- ==== Sys2Proof/Machine/MxCmd.lean ====
section
/-! DEFINITION. Matrix commands: their layout (R246, R247), their operands (R253) and the checks of the queue window (R248). -/
namespace Sys2Proof.Machine

/-! ### The layout (R246) -/

def cmdBits (l : Line) (lo len : Nat) : Nat := (l.extractLsb' lo len).toNat
def cmdCode (l : Line) : Nat := cmdBits l 0 8
def cmdAfmt (l : Line) : Nat := cmdBits l 8 5
def cmdBfmt (l : Line) : Nat := cmdBits l 16 5
def cmdSet (l : Line) : Nat := cmdBits l 24 1
def cmdAccum (l : Line) : Bool := l.getLsbD 25
def cmdShare (l : Line) : Bool := l.getLsbD 26
def cmdCksum (l : Line) : Bool := l.getLsbD 27
def cmdTrans (l : Line) : Bool := l.getLsbD 28
def cmdBoth (l : Line) : Bool := l.getLsbD 29
def cmdM (l : Line) : Nat := cmdBits l 32 6
def cmdN (l : Line) : Nat := cmdBits l 38 6
def cmdK (l : Line) : Nat := cmdBits l 44 13
def cmdStep (l : Line) : Nat := cmdBits l 44 4
def cmdLines (l : Line) : Nat := cmdBits l 48 8
def cmdEnable (l : Line) : Bool := l.getLsbD 44
def cmdClear (l : Line) : Bool := l.getLsbD 45
def cmdAptr (l : Line) : Word := l.extractLsb' 64 64
def cmdBptr (l : Line) : Word := l.extractLsb' 128 64
def cmdAstr (l : Line) : Nat := cmdBits l 192 32
def cmdBstr (l : Line) : Nat := cmdBits l 224 32
def cmdGmask (l : Line) : BitVec 16 := l.extractLsb' 256 16
def cmdDspace (l : Line) : Nat := cmdBits l 316 4
def cmdDoff (l : Line) : Nat := cmdBits l 288 20
def cmdCwptr (l : Line) : Word := l.extractLsb' 320 64
def cmdCval (l : Line) : Word := l.extractLsb' 384 64
def cmdRidx (l : Line) : Nat := cmdBits l 448 16
def cmdRen (l : Line) : Bool := l.getLsbD 479
def cmdSeq (l : Line) : BitVec 16 := l.extractLsb' 480 16
/-- The rounding mode of a drain; none for a code beyond R19's. -/
def cmdRnd (l : Line) : Option Rnd :=
  match cmdBits l 16 3 with
  | 0 => some .rne | 1 => some .rz | 2 => some .ru | 3 => some .rd | 4 => some .rna | _ => none
/-- The destination pointer of a drain. -/
def cmdDst (l : Line) : Word := BitVec.ofNat 64 (cmdDspace l * 2 ^ 60 + 0xFFF * 2 ^ 48 + cmdDoff l)

/-- The fields each code uses (R247), as (lowest bit, bits). -/
def cmdUsed (l : Line) : List (Nat × Nat) :=
  let common := [(0, 8), (320, 64), (384, 64), (480, 16), (504, 1)]
  let mul := [(8, 5), (16, 5), (24, 1), (25, 1), (26, 1), (27, 1), (32, 6), (38, 6), (44, 13), (64, 64), (128, 64), (192, 32)]
  let share := if cmdShare l then [(256, 16)] else []
  common ++ match cmdCode l with
    | 1 => mul ++ share ++ [(28, 1), (224, 32)]
    | 2 => mul ++ share
    | 3 => [(24, 1), (29, 1)]
    | 4 => [(8, 5), (16, 3), (24, 1), (27, 1), (29, 1), (32, 6), (38, 6), (192, 32), (288, 20), (316, 4), (448, 16), (479, 1)]
    | 5 => [(44, 4), (48, 8), (64, 64), (128, 64)]
    | 6 => [(24, 1), (44, 1), (45, 1)]
    | _ => []

/-- Every bit outside the used fields is zero. -/
def cmdUnusedZero (l : Line) : Bool :=
  (List.range 512).all fun i => !l.getLsbD i || (cmdUsed l).any fun f => decide (f.1 ≤ i) && decide (i < f.1 + f.2)

/-! ### Classes and operands (R250, R253) -/

/-- The class of a format: its k-group size, 100 for D, 101 for S, 0 for none (R250). -/
def mxClass (f : Nat) : Nat :=
  match f with
  | 0 => 100 | 1 => 101 | 2 => 1 | 10 => 1 | 3 => 2 | 4 => 2
  | 5 => 4 | 6 => 4 | 11 => 4 | 12 => 4 | 20 => 4 | 21 => 4 | 22 => 4 | 23 => 4
  | 7 => 8 | 8 => 8 | 9 => 8 | 13 => 8 | 14 => 8 | 18 => 8 | 19 => 8
  | 15 => 16 | 17 => 16 | 16 => 32
  | _ => 0

def groupSize (cls : Nat) : Nat := if 100 ≤ cls then 1 else cls

/-- An operand as it is read: rows of elements from a pointer (R253). -/
structure MxOperand where
  ptr : Word
  stride : Nat
  fmt : Nat
  rows : Nat
  cols : Nat
  blk : Nat
  centre : Bool
  deriving DecidableEq, Repr

/-- The byte offsets that element (r, c) takes, and the bit at which it begins in the first. -/
def MxOperand.offs (o : MxOperand) (r c : Nat) : List Nat × Nat :=
  if isSbp o.fmt then
    let e := r * o.stride + c
    ((List.range (o.fmt - 0x0F)).map fun k => elemAt o.fmt o.blk e + k * (o.blk / 8), e % 8)
  else
    let w := fmtBits o.fmt
    if w < 8 then ([r * o.stride + c * w / 8], c * w % 8)
    else ((List.range (w / 8)).map fun i => r * o.stride + c * (w / 8) + i, 0)

/-- The unit's operand fetch as a rank (R253). -/
def operandWho (s : State) (e : EP) (rank : Nat) : Who :=
  let k := s.core e
  engineWho s e .operand k.chip k.team rank

/-- The core and offset that an operand pointer names, when it names a WB or AB (R280). -/
def operandHome (s : State) (e : EP) (rank : Nat) (p : Word) : Option (EP × Nat) :=
  if ptrSpace p = 2 ∨ ptrSpace p = 3 then
    let r := route s (operandWho s e rank) .lin p
    r.1.bind fun o => if sameCluster o e && decide (r.2 < bufSize o (ptrSpace p)) then some (o, r.2) else none
  else none

/-- The format record of the region that holds an operand's first byte; raw where there is none. -/
def operandRecord (s : State) (e : EP) (rank : Nat) (p : Word) : Nat × Nat × Bool :=
  match operandHome s e rank p with
  | some (o, off) => regionFmt s o (ptrSpace p) off
  | none => (0x1F, 0, false)

/-- The format that a format field stands for. -/
def resolveFmt (s : State) (e : EP) (rank : Nat) (p : Word) (code : Nat) : Nat :=
  if code = 0x1F then (operandRecord s e rank p).1 else code

def mkOperand (s : State) (e : EP) (rank : Nat) (p : Word) (code stride rows cols : Nat) : MxOperand :=
  let r := operandRecord s e rank p
  { ptr := p, stride := stride, fmt := resolveFmt s e rank p code, rows := rows, cols := cols, blk := 512 * 2 ^ r.2.1,
    centre := r.2.2 }

/-- The two operands of an mx.mma or mx.mmat; `panel` gives the lines of the exchange that B comes from (R255). -/
def operandA (s : State) (e : EP) (rank : Nat) (l : Line) : MxOperand :=
  mkOperand s e rank (cmdAptr l) (cmdAfmt l) (cmdAstr l) (cmdM l) (cmdK l)

def operandB (s : State) (e : EP) (rank : Nat) (l : Line) (panel : Nat) : MxOperand :=
  if cmdCode l = 2 then mkOperand s e rank (cmdBptr l) (cmdBfmt l) (64 * panel) (cmdN l) (cmdK l)
  else if cmdTrans l then mkOperand s e rank (cmdBptr l) (cmdBfmt l) (cmdBstr l) (cmdN l) (cmdK l)
  else mkOperand s e rank (cmdBptr l) (cmdBfmt l) (cmdBstr l) (cmdK l) (cmdN l)

/-- R30 on every byte that an operand touches, in a WB or AB of the cluster. -/
def operandBytesOk (s : State) (e : EP) (rank : Nat) (o : MxOperand) : Res Unit := do
  let w := operandWho s e rank
  (List.range o.rows).forM fun r => (List.range o.cols).forM fun c => (o.offs r c).1.forM fun b => do
    let pl ← bufPlace s w .read .lin false (ptrOff o.ptr b) o.ptr
    needAt (sameCluster pl.dest e) Code.space o.ptr

/-- The stride and pointer rules of R253. -/
def operandAlignOk (o : MxOperand) : Bool :=
  if isSbp o.fmt then o.ptr.toNat % 64 == 0 else o.stride % 4 == 0

/-- The lines of the most recent mx.xch queued on a unit (R255). -/
def lastXch (k : Core) : Option (Word × Nat) :=
  match (k.mx.queue.filter fun m => cmdCode m.cmd == 5).getLast? with
  | some m => some (cmdBptr m.cmd, cmdLines m.cmd)
  | none => k.mx.xch

/-! ### The checks of the window (R248) -/

def inRange (lo hi v : Nat) : Bool := decide (lo ≤ v) && decide (v ≤ hi)

/-- A plane-block drain holds whole blocks, and no row stride (R258). -/
def drainBlocksOk (s : State) (e : EP) (l : Line) : Bool :=
  if isSbp (cmdAfmt l) && cmdDspace l == 3 then
    let blk := 512 * 2 ^ (regionFmt s e 3 (cmdDoff l)).2.1
    cmdM l * cmdN l % blk == 0 && cmdAstr l == 0
  else true

/-- Check 2. -/
def cmdWellFormed (s : State) (e : EP) (rank : Nat) (l : Line) : Bool :=
  let code := cmdCode l
  let tile := inRange 1 32 (cmdM l) && inRange 1 32 (cmdN l)
  inRange 1 7 code && cmdUnusedZero l && !(cmdBoth l && cmdSet l == 1) &&
  (match code with
   | 1 | 2 => tile && inRange 1 4096 (cmdK l) && (cmdSet l == 0 || (resolveFmt s e rank (cmdAptr l) (cmdAfmt l) != 0 &&
       resolveFmt s e rank (cmdBptr l) (cmdBfmt l) != 0))
   | 4 => tile && (cmdRnd l).isSome && drainBlocksOk s e l
   | 5 => inRange 1 64 (cmdLines l)
   | _ => true)

/-- The destination formats of R258. -/
def drainPairing (l : Line) : Bool :=
  let f := cmdAfmt l
  decide (f < 0x18) && (match cmdDspace l with
    | 4 => if cmdBoth l then f == 0 else f == 1
    | 3 => (f == 0) == cmdBoth l
    | _ => true)

/-- Check 3. -/
def cmdFormatsOk (s : State) (e : EP) (rank : Nat) (l : Line) : Bool :=
  match cmdCode l with
  | 1 | 2 =>
    let known (p : Word) (c : Nat) : Bool := c != 0x1F || (operandHome s e rank p).isSome
    let a := mxClass (resolveFmt s e rank (cmdAptr l) (cmdAfmt l))
    let b := mxClass (resolveFmt s e rank (cmdBptr l) (cmdBfmt l))
    let ka := known (cmdAptr l) (cmdAfmt l)
    let kb := known (cmdBptr l) (cmdBfmt l)
    (!ka || a != 0) && (!kb || b != 0) && (!ka || !kb || a == b)
  | 4 => drainPairing l
  | _ => true

/-- The rows that a drain writes: (offset, bytes). -/
def drainRows (l : Line) : List (Nat × Nat) :=
  if isSbp (cmdAfmt l) then [(0, cmdM l * cmdN l)]
  else (List.range (cmdM l)).map fun m => (m * cmdAstr l, elemBytes (cmdAfmt l) (cmdN l))

/-- R30 on bytes of the own core's WB or AB for an exchange (R256). -/
def exchangeOk (s : State) (e : EP) (rank : Nat) (nd : Need) (p : Word) (len : Nat) : Res Unit := do
  let k := s.core e
  let w := engineWho s e .exchange k.chip k.team rank
  needAt (ptrSpace p == 2 || ptrSpace p == 3) Code.space p
  (List.range len).forM fun i => do
    let pl ← bufPlace s w nd .lin false (ptrOff p i) p
    needAt (pl.dest == e) Code.space p

/-- The reset value of MXSCHED of a step: j XOR step (R283). -/
def mxschedReset (step : Nat) : Word := BitVec.ofNat 64 (((List.range 16).map fun j => (j ^^^ step) * 2 ^ (4 * j)).sum)
/-- The destination of cluster index i in a step, from the core's own register. -/
def schedDest (k : Core) (step i : Nat) : Nat := bits (k.reg (0x310 + step) (mxschedReset step)).toNat (4 * i) 4

/-- The pointers of check 4. An exchange touches the fragment that the core's own schedule sends, and those that it has the
core receive (R256). A panel's pointer is held to check 4 alone: whether it names the exchange's panel is found when the command
executes (R255). -/
def cmdPointersOk (s : State) (e : EP) (rank : Nat) (l : Line) : Res Unit := do
  let k := s.core e
  match cmdCode l with
  | 1 | 2 => do
    operandBytesOk s e rank (operandA s e rank l)
    if cmdCode l = 2 then do
      needAt (operandHome s e rank (cmdBptr l)).isSome Code.space (cmdBptr l)
      match lastXch k with
      | some x => operandBytesOk s e rank (operandB s e rank l x.2)
      | none => .ok ()
    else operandBytesOk s e rank (operandB s e rank l 0)
  | 4 => do
    need (cmdDspace l == 3 || cmdDspace l == 4) Code.space
    let w := engineWho s e .drain k.chip k.team rank
    (drainRows l).forM fun r => (List.range r.2).forM fun i => do
      let _ ← bufPlace s w .write .lin false (ptrOff (cmdDst l) (r.1 + i)) (cmdDst l)
      .ok ()
  | 5 => do
    let len := 64 * cmdLines l
    let i := coreInCluster e
    exchangeOk s e rank .read (ptrOff (cmdAptr l) (len * schedDest k (cmdStep l) i)) len
    ((List.range 16).filter fun j => schedDest k (cmdStep l) j == i).forM fun j =>
      exchangeOk s e rank .write (ptrOff (cmdBptr l) (len * j)) len
  | _ => .ok ()
  if cmdCwptr l = 0 then .ok () else cwCheck s (engineWho s e .copy k.chip k.team rank) (cmdCwptr l)
  let nrec := ((s.team? k.chip k.team).map (·.nrec)).getD 0
  need (!(cmdCode l == 4 && cmdRen l) || decide (cmdRidx l < nrec)) Code.space
  match cmdCode l with
  | 1 => need (operandAlignOk (operandA s e rank l) && operandAlignOk (operandB s e rank l 0)) Code.align
  | 2 => need (operandAlignOk (operandA s e rank l) && operandAlignOk (operandB s e rank l 1)) Code.align
  | 4 => need (if isSbp (cmdAfmt l) then cmdDoff l % 64 == 0 else cmdAstr l % 4 == 0) Code.align
  | _ => .ok ()

/-- The checks in table order. -/
def checkCmd (s : State) (e : EP) (rank : Nat) (l : Line) : Res Unit := do
  if popCount l.toNat 512 % 2 != 0 then .error (.trap { Trap.of Code.parity with cause := some 1 })
  need (cmdWellFormed s e rank l) Code.illop
  need (cmdFormatsOk s e rank l) Code.fmt
  cmdPointersOk s e rank l
  need (!(cmdShare l && inRange 1 2 (cmdCode l)) || (cmdGmask l).getLsbD (coreInCluster e)) Code.illop

/-- The window takes a command: it enters the queue, or its STL faults with the window address (R248). -/
def enqueueCmd (s : State) (e : EP) (addr : Word) (x : MxEntry) : Res State :=
  match checkCmd s e x.rank x.cmd with
  | .ok _ =>
    .ok (s.modCore e fun k => { k with mx := { k.mx with queue := k.mx.queue ++ [x] } })
  | .error (.trap t) => .error (.trap { t with addr := addr })
  | .error x => .error x

end Sys2Proof.Machine
end

