-- ==== Sys2Proof/Machine/MemOps.lean ====
section
/-! DEFINITION. Meanings: basic memory instructions (R66-R70). -/
namespace Sys2Proof.Machine

/-- R66: the effective address. -/
def effAddr (s : State) (a : GReg) (b : BReg) (off : Word32) : Word := ptrAdd (s.g a) (b.val s + off.signExtend 64)

def Size.nbytes (sz : Size) : Nat :=
  match sz with
  | .d => 8 | .w | .wn => 4 | .h | .hn => 2 | .b | .bn => 1 | .f => 32 | .l => 64

/-- The words of loaded bytes, lowest register first (R25). -/
def wordsOf (bs : List Byte) : List Word :=
  (List.range (bs.length / 8)).map fun i => BitVec.ofNat 64 (leNat ((bs.drop (8 * i)).take 8))

/-- Write loaded bytes into the register or group that a size names (R21). -/
def putLoaded (s : State) (sz : Size) (d : GReg) (bs : List Byte) : State :=
  match sz with
  | .d => s.setG d (BitVec.ofNat 64 (leNat bs))
  | .w => s.setG d (sext64 32 (leNat bs))
  | .h => s.setG d (sext64 16 (leNat bs))
  | .b => s.setG d (sext64 8 (leNat bs))
  | .wn | .hn | .bn => s.setG d (BitVec.ofNat 64 (leNat bs))
  | .f | .l => s.setGroup d (wordsOf bs)

/-- The bytes that a store of a size takes from its register or group; g0 contributes zeros. -/
def storedBytes (s : State) (sz : Size) (d : GReg) : List Byte :=
  match sz with
  | .f => ((s.group d 4).map fun w => bytesOf w.toNat 8).flatten
  | .l => ((s.group d 8).map fun w => bytesOf w.toNat 8).flatten
  | sz => bytesOf (s.g d).toNat (Size.nbytes sz)

def execLd (sz : Size) (am : Am) (d a : GReg) (b : BReg) (off : Word32) (ms : Ms) (s : State) : Host.Outcome State Fault Refusal :=
  scalar (.ld sz am d a b off ms) ms s fun s => do
    let (s, bs) ← loadAt s am 1 (effAddr s a b off) (Size.nbytes sz)
    .ok (putLoaded s sz d bs)

/-- Stores of up to 8 bytes may travel by rick; groups never do (R324). -/
def execSt (sz : Size) (am : Am) (d a : GReg) (b : BReg) (off : Word32) (ms : Ms) (s : State) : Host.Outcome State Fault Refusal :=
  scalar (.st sz am d a b off ms) ms s fun s =>
    let p := effAddr s a b off
    let bs := storedBytes s sz d
    match sz with
    | .f | .l => storePlain s am 1 false p bs
    | _ => storeSmall s am p bs

/-- LDL and STL treat ea[5:0] as zero (R69). -/
def lineAddr (p : Word) : Word := (p >>> 6) <<< 6

/-- The fault of a line access carries ea as it was formed (R66), though its low bits count as zero (R69; DEDUCED,
notes/assumptions/123.md). -/
def atEa (ea : Word) (r : Res α) : Res α :=
  match r with
  | .error (.trap t) => .error (.trap (if t.addr == lineAddr ea then { t with addr := ea } else t))
  | x => x

def execLdl (am : Am) (d a : GReg) (b : BReg) (off : Word32) (ms : Ms) (s : State) : Host.Outcome State Fault Refusal :=
  scalar (.ldl am d a b off ms) ms s fun s => do
    let (s, bs) ← atEa (effAddr s a b off) (loadAt s am 1 (lineAddr (effAddr s a b off)) 64)
    .ok (putLoaded s .l d bs)

/-- Whether a line lies in the matrix unit's queue window of the executing compute core (R69). -/
def inWindow (s : State) (am : Am) (p : Word) : Bool :=
  let (core, off) := route s (ctxWho s false) am p
  ptrSpace p == 1 && isCompute s.cx.ep && core == some s.cx.ep && p.extractLsb' 20 28 == 0 &&
  decide (Config.winLo ≤ off) && decide (off < Config.winHi) &&
  (am == .lin || (s.myTeam.map Team.wholeClusters).getD false)

/-- An STL to the window waits for admission by the slot table (R277). The context's earlier writes are the fork's
(R233). -/
def waitAdmission (s : State) : Res State :=
  let c := s.cx
  let k := s.core c.ep
  if k.mx.waiting.any fun w => w.ctx == c.no && !w.walker then stall s
  else
    let x : MxWait := { ctx := c.no, since := s.time, walker := false, granted := false }
    stall (s.setCore c.ep { k with mx := { k.mx with waiting := k.mx.waiting ++ [x] } })

/-- Whether the slot table has admitted the context's STL. -/
def admitted (s : State) : Bool := (s.core s.cx.ep).mx.waiting.any fun w => w.ctx == s.cx.no && !w.walker && w.granted

/-- The context's STL waits no more: its entry and its claim go (R277). -/
def dropAdmission (s : State) (e : EP) (ctx : BitVec 2) : State :=
  s.modCore e fun k =>
    { k with mx := { k.mx with waiting := k.mx.waiting.filter fun w => w.ctx != ctx || w.walker,
                               claims := k.mx.claims.filter fun c => c != ctx } }

/-- A command as its line is written: the window performs the STL (R277). -/
def windowStl (s : State) (d : GReg) (p : Word) : Res State := do
  let c := s.cx
  let x : MxEntry := { cmd := BitVec.ofNat 512 (leNat (storedBytes s .l d)), ctx := c.no, recA := c.recA, pc := c.ipc, rank := c.rank,
                       stuck := false, cwOnly := false, at_ := 0, g2 := some (c.gr 2), behind := owedMem c, forked := s.time }
  enqueueCmd (dropAdmission s c.ep c.no) c.ep p x

def execStl (am : Am) (d a : GReg) (b : BReg) (off : Word32) (ms : Ms) (s : State) : Host.Outcome State Fault Refusal :=
  scalar (.stl am d a b off ms) ms s fun s =>
    let p := lineAddr (effAddr s a b off)
    if inWindow s am p then (if admitted s then windowStl s d p else waitAdmission s)
    else atEa (effAddr s a b off) (storePlain s am 1 false p (storedBytes s .l d))

/-- PREF makes the checks and the translation of an access to ea and asks the L1 for its line; one that would fault, or one
outside space 0, does nothing (R70). -/
def execPref (wr : Bool) (am : Am) (a : GReg) (b : BReg) (off : Word32) (ms : Ms) (s : State) : Host.Outcome State Fault Refusal :=
  scalar (.pref wr am a b off ms) ms s fun s =>
    let p := effAddr s a b off
    let w := ctxWho s false
    if ptrSpace p != 0 then .ok s
    else match places s w (if wr then .write else .read) am 1 false p 1 with
      | .ok pls => .ok (touch s w pls)
      | .error (.trap t) => .ok (applyRefetches s t)
      | .error _ => .ok s

end Sys2Proof.Machine
end

