-- ==== Sys2Proof/Machine/Scalar.lean ====
section
/-! DEFINITION. Meanings: integer instructions, compare, select, move and pointers (R40-R50). -/
namespace Sys2Proof.Machine

/-! ### Integer operations on the low W bits (R41-R44) -/

def opMulh (w x y : Nat) : Nat := natOfInt w (sintOf w x * sintOf w y / (2 ^ w : Int))
def opDiv (w x y : Nat) : Nat := if y = 0 then 2 ^ w - 1 else natOfInt w ((sintOf w x).tdiv (sintOf w y))
def opRem (w x y : Nat) : Nat := if y = 0 then x else natOfInt w ((sintOf w x).tmod (sintOf w y))
def opSar (w x y : Nat) : Nat := natOfInt w (sintOf w x / (2 ^ (y % w) : Int))
def opRol (w x y : Nat) : Nat := x * 2 ^ (y % w) % 2 ^ w + x / 2 ^ (w - y % w)
def opAndn (w x y : Nat) : Nat := x &&& (2 ^ w - 1 - y)
def opOrn (w x y : Nat) : Nat := x ||| (2 ^ w - 1 - y)
def opMinS (w x y : Nat) : Nat := if sintOf w y < sintOf w x then y else x
def opMaxS (w x y : Nat) : Nat := if sintOf w x < sintOf w y then y else x
def opMinU (x y : Nat) : Nat := if y < x then y else x
def opMaxU (x y : Nat) : Nat := if x < y then y else x

/-- Leading zeros of the low W bits. -/
def opClz (x : Nat) : Nat → Nat
  | 0 => 0
  | w + 1 => if testBit x w then 0 else 1 + opClz x w
/-- Trailing zeros from bit i on, at most n. -/
def ctzFrom (x i : Nat) : Nat → Nat
  | 0 => 0
  | n + 1 => if testBit x i then 0 else 1 + ctzFrom x (i + 1) n
/-- The low W bits in reverse order. -/
def opBrev (x : Nat) : Nat → Nat
  | 0 => 0
  | w + 1 => x % 2 * 2 ^ w + opBrev (x / 2) w

/-- R40: the shape of a binary integer instruction. -/
def intBin (i : Instr) (w : Nat) (sg : Bool) (d a : GReg) (b : BOp) (ms : Ms) (s : State) (f : Nat → Nat → Nat) :
    Host.Outcome State Fault Refusal :=
  scalar i ms s fun s => .ok (s.setG d (extend w sg (f ((s.g a).toNat % 2 ^ w) ((b.val s).toNat % 2 ^ w))))

/-- R43, R44: the shape of a unary one, its result a 64-bit value. -/
def intUn (i : Instr) (d a : GReg) (ms : Ms) (s : State) (f : Nat → Word) : Host.Outcome State Fault Refusal :=
  scalar i ms s fun s => .ok (s.setG d (f (s.g a).toNat))

def execAdd (ty : IntTy) (d a : GReg) (b : BOp) (ms : Ms) (s : State) : Host.Outcome State Fault Refusal :=
  intBin (.add ty d a b ms) ty.bits ty.signed d a b ms s fun x y => x + y
def execSub (ty : IntTy) (d a : GReg) (b : BOp) (ms : Ms) (s : State) : Host.Outcome State Fault Refusal :=
  intBin (.sub ty d a b ms) ty.bits ty.signed d a b ms s fun x y => x + 2 ^ ty.bits - y
def execMul (ty : IntTy) (d a : GReg) (b : BOp) (ms : Ms) (s : State) : Host.Outcome State Fault Refusal :=
  intBin (.mul ty d a b ms) ty.bits ty.signed d a b ms s fun x y => x * y
def execMulh (w : Width) (d a : GReg) (b : BOp) (ms : Ms) (s : State) : Host.Outcome State Fault Refusal :=
  intBin (.mulh w d a b ms) w.bits true d a b ms s (opMulh w.bits)
def execMulhn (w : Width) (d a : GReg) (b : BOp) (ms : Ms) (s : State) : Host.Outcome State Fault Refusal :=
  intBin (.mulhn w d a b ms) w.bits false d a b ms s fun x y => x * y / 2 ^ w.bits
def execDiv (w : Width) (d a : GReg) (b : BOp) (ms : Ms) (s : State) : Host.Outcome State Fault Refusal :=
  intBin (.div w d a b ms) w.bits true d a b ms s (opDiv w.bits)
def execDivn (w : Width) (d a : GReg) (b : BOp) (ms : Ms) (s : State) : Host.Outcome State Fault Refusal :=
  intBin (.divn w d a b ms) w.bits false d a b ms s fun x y => if y = 0 then 2 ^ w.bits - 1 else x / y
def execRemS (w : Width) (d a : GReg) (b : BOp) (ms : Ms) (s : State) : Host.Outcome State Fault Refusal :=
  intBin (.remS w d a b ms) w.bits true d a b ms s (opRem w.bits)
def execRemn (w : Width) (d a : GReg) (b : BOp) (ms : Ms) (s : State) : Host.Outcome State Fault Refusal :=
  intBin (.remn w d a b ms) w.bits false d a b ms s fun x y => if y = 0 then x else x % y
def execAndI (ty : IntTy) (d a : GReg) (b : BOp) (ms : Ms) (s : State) : Host.Outcome State Fault Refusal :=
  intBin (.andI ty d a b ms) ty.bits ty.signed d a b ms s fun x y => x &&& y
def execOrI (ty : IntTy) (d a : GReg) (b : BOp) (ms : Ms) (s : State) : Host.Outcome State Fault Refusal :=
  intBin (.orI ty d a b ms) ty.bits ty.signed d a b ms s fun x y => x ||| y
def execXorI (ty : IntTy) (d a : GReg) (b : BOp) (ms : Ms) (s : State) : Host.Outcome State Fault Refusal :=
  intBin (.xorI ty d a b ms) ty.bits ty.signed d a b ms s fun x y => x ^^^ y
def execAndn (ty : IntTy) (d a : GReg) (b : BOp) (ms : Ms) (s : State) : Host.Outcome State Fault Refusal :=
  intBin (.andn ty d a b ms) ty.bits ty.signed d a b ms s (opAndn ty.bits)
def execOrn (ty : IntTy) (d a : GReg) (b : BOp) (ms : Ms) (s : State) : Host.Outcome State Fault Refusal :=
  intBin (.orn ty d a b ms) ty.bits ty.signed d a b ms s (opOrn ty.bits)
def execShl (ty : IntTy) (d a : GReg) (b : BOp) (ms : Ms) (s : State) : Host.Outcome State Fault Refusal :=
  intBin (.shl ty d a b ms) ty.bits ty.signed d a b ms s fun x y => x * 2 ^ (y % ty.bits)
def execShr (ty : IntTy) (d a : GReg) (b : BOp) (ms : Ms) (s : State) : Host.Outcome State Fault Refusal :=
  intBin (.shr ty d a b ms) ty.bits ty.signed d a b ms s fun x y => x / 2 ^ (y % ty.bits)
def execSar (ty : IntTy) (d a : GReg) (b : BOp) (ms : Ms) (s : State) : Host.Outcome State Fault Refusal :=
  intBin (.sar ty d a b ms) ty.bits ty.signed d a b ms s (opSar ty.bits)
def execRol (ty : IntTy) (d a : GReg) (b : BOp) (ms : Ms) (s : State) : Host.Outcome State Fault Refusal :=
  intBin (.rol ty d a b ms) ty.bits ty.signed d a b ms s (opRol ty.bits)
def execClz (ty : IntTy) (d a : GReg) (ms : Ms) (s : State) : Host.Outcome State Fault Refusal :=
  intUn (.clz ty d a ms) d a ms s fun x => BitVec.ofNat 64 (opClz x ty.bits)
def execCtz (ty : IntTy) (d a : GReg) (ms : Ms) (s : State) : Host.Outcome State Fault Refusal :=
  intUn (.ctz ty d a ms) d a ms s fun x => BitVec.ofNat 64 (ctzFrom x 0 ty.bits)
def execPopc (ty : IntTy) (d a : GReg) (ms : Ms) (s : State) : Host.Outcome State Fault Refusal :=
  intUn (.popc ty d a ms) d a ms s fun x => BitVec.ofNat 64 (popCount x ty.bits)
def execBrev (ty : IntTy) (d a : GReg) (ms : Ms) (s : State) : Host.Outcome State Fault Refusal :=
  intUn (.brev ty d a ms) d a ms s fun x => extend ty.bits ty.signed (opBrev x ty.bits)
def execMinS (w : Width) (d a : GReg) (b : BOp) (ms : Ms) (s : State) : Host.Outcome State Fault Refusal :=
  intBin (.minS w d a b ms) w.bits true d a b ms s (opMinS w.bits)
def execMaxS (w : Width) (d a : GReg) (b : BOp) (ms : Ms) (s : State) : Host.Outcome State Fault Refusal :=
  intBin (.maxS w d a b ms) w.bits true d a b ms s (opMaxS w.bits)
def execMinn (w : Width) (d a : GReg) (b : BOp) (ms : Ms) (s : State) : Host.Outcome State Fault Refusal :=
  intBin (.minn w d a b ms) w.bits false d a b ms s opMinU
def execMaxn (w : Width) (d a : GReg) (b : BOp) (ms : Ms) (s : State) : Host.Outcome State Fault Refusal :=
  intBin (.maxn w d a b ms) w.bits false d a b ms s opMaxU
def execSext (d a : GReg) (n : BitVec 7) (ms : Ms) (s : State) : Host.Outcome State Fault Refusal :=
  intUn (.sext d a n ms) d a ms s fun x => sext64 n.toNat x
def execZext (d a : GReg) (n : BitVec 7) (ms : Ms) (s : State) : Host.Outcome State Fault Refusal :=
  intUn (.zext d a n ms) d a ms s fun x => BitVec.ofNat 64 (x % 2 ^ n.toNat)
def execBfx (d a : GReg) (pos : BitVec 6) (len : BitVec 7) (ms : Ms) (s : State) : Host.Outcome State Fault Refusal :=
  intUn (.bfx d a pos len ms) d a ms s fun x => sext64 len.toNat (bits x pos.toNat len.toNat)
def execBfxn (d a : GReg) (pos : BitVec 6) (len : BitVec 7) (ms : Ms) (s : State) : Host.Outcome State Fault Refusal :=
  intUn (.bfxn d a pos len ms) d a ms s fun x => BitVec.ofNat 64 (bits x pos.toNat len.toNat)
/-- BFI replaces bits of the old g[D] (R44). -/
def execBfi (d a : GReg) (pos : BitVec 6) (len : BitVec 7) (ms : Ms) (s : State) : Host.Outcome State Fault Refusal :=
  scalar (.bfi d a pos len ms) ms s fun s =>
    let old := (s.g d).toNat
    let p := pos.toNat
    let n := len.toNat
    .ok (s.setG d (BitVec.ofNat 64 (old - bits old p n * 2 ^ p + (s.g a).toNat % 2 ^ n * 2 ^ p)))

/-! ### Compare, select and move (R45-R47) -/

/-- An integer condition on W-bit operands (R45). -/
def icond (c : ICond) (w : Nat) (sg : Bool) (x y : Nat) : Bool :=
  let lt : Bool := if sg then decide (sintOf w x < sintOf w y) else decide (x < y)
  match c with
  | .eq => x == y
  | .ne => x != y
  | .lt => lt
  | .le => lt || x == y
  | .gt => !(lt || x == y)
  | .ge => !lt

def execCmp (c : ICond) (ty : IntTy) (d : PReg) (a : GReg) (b : BOp) (ms : Ms) (s : State) : Host.Outcome State Fault Refusal :=
  scalar (.cmp c ty d a b ms) ms s fun s =>
    .ok (s.setP d (icond c ty.bits ty.signed ((s.g a).toNat % 2 ^ ty.bits) ((b.val s).toNat % 2 ^ ty.bits)))

def execSel (d a : GReg) (b : BReg) (p : PReg) (inv : Bool) (ms : Ms) (s : State) : Host.Outcome State Fault Refusal :=
  scalar (.sel d a b p inv ms) ms s fun s => .ok (s.setG d (if s.p p != inv then s.g a else b.val s))

/-- The operations of PLOG and KLOG on one bit (R46, R99). -/
def logOp (op : LogOp) (x y : Bool) : Bool :=
  match op with
  | .and => x && y
  | .or => x || y
  | .xor => x != y
  | .andn => x && !y
  | .orn => x || !y
  | .nor => !(x || y)

def execPlog (op : LogOp) (d a b : PReg) (ms : Ms) (s : State) : Host.Outcome State Fault Refusal :=
  scalar (.plog op d a b ms) ms s fun s => .ok (s.setP d (logOp op (s.p a) (s.p b)))

def execMov (f : MovForm) (ms : Ms) (s : State) : Host.Outcome State Fault Refusal :=
  scalar (.mov f ms) ms s fun s =>
    match f with
    | .gFromG d a => .ok (s.setG d (s.g a))
    | .gFromImm d i => .ok (s.setG d (i.signExtend 64))
    | .gFromP d a => .ok (s.setG d (if s.p a then 1 else 0))
    | .pFromG d a => .ok (s.setP d (s.g a != 0))

def execLi (d : GReg) (imm : Word) (s : State) : Host.Outcome State Fault Refusal :=
  scalar (.li d imm) Ms.always s fun s => .ok (s.setG d imm)

def execLcw (d : GReg) (f : LcwForm) (ms : Ms) (s : State) : Host.Outcome State Fault Refusal :=
  scalar (.lcw d f ms) ms s fun s =>
    let c : BitVec 8 := match f with
      | .slot c => c
      | .reg a => (s.g a).setWidth 8
    .ok (s.setG d (BitVec.ofNat 64 (s.cwSlot c)))

/-! ### Pointers (R48-R50) -/

def execLea (d a : GReg) (b : BReg) (sh : BitVec 2) (off : Word32) (ms : Ms) (s : State) : Host.Outcome State Fault Refusal :=
  scalar (.lea d a b sh off ms) ms s fun s =>
    .ok (s.setG d (ptrAdd (s.g a) ((b.val s <<< sh.toNat) + off.signExtend 64)))

/-- MKPTR's result (R49). -/
def mkPtr (sp : BitVec 4) (f : BitVec 12) (a : Word) : Word :=
  if sp = 0 then (a.extractLsb' 0 57).setWidth 64
  else if sp = 6 then sp ++ f ++ a.extractLsb' 0 48
  else sp ++ f ++ (0 : BitVec 28) ++ a.extractLsb' 0 20

def execMkptr (d a : GReg) (f : MkForm) (sp : BitVec 4) (ms : Ms) (s : State) : Host.Outcome State Fault Refusal :=
  scalar (.mkptr d a f sp ms) ms s fun s =>
    let field : BitVec 12 := match f with
      | .imm i => i
      | .reg b => (s.g b).setWidth 12
    .ok (s.setG d (mkPtr sp field (s.g a)))

/-- The rank or peer field (R50). -/
def ptrField (p : Word) : Word := if 1 ≤ ptrSpace p ∧ ptrSpace p ≤ 6 then (p.extractLsb' 48 12).setWidth 64 else 0

/-- The address field (R50). -/
def ptrAddr (p : Word) : Word :=
  let s := ptrSpace p
  if 1 ≤ s ∧ s ≤ 5 then (p.extractLsb' 0 20).setWidth 64
  else if s = 0 then (p.extractLsb' 0 57).setWidth 64
  else if s = 6 then (p.extractLsb' 0 48).setWidth 64
  else p

def execPtrx (sel : PtrxSel) (d a : GReg) (ms : Ms) (s : State) : Host.Outcome State Fault Refusal :=
  scalar (.ptrx sel d a ms) ms s fun s =>
    let p := s.g a
    let r : Word := match sel with
      | .space => (p.extractLsb' 60 4).setWidth 64
      | .rank => ptrField p
      | .addr => ptrAddr p
      | .owner =>
        if 1 ≤ ptrSpace p ∧ ptrSpace p ≤ 5 ∧ ptrRank p = 0xFFF then BitVec.ofNat 64 (s.cwSlot 0xF0) else ptrField p
    .ok (s.setG d r)

end Sys2Proof.Machine
end

