-- ==== Sys2Proof/Machine/Atomics.lean ====
section
/-! DEFINITION. Meanings: acquire and release accesses, fences, atomics, reductions and page queries (R236-R244). -/
namespace Sys2Proof.Machine

/-! ### Ordering (R237, R238) -/

def execLdacq (sz : Size) (am : Am) (scope : Scope) (d a : GReg) (b : BReg) (off : Word32) (ms : Ms) (s : State) :
    Host.Outcome State Fault Refusal :=
  scalar (.ldacq sz am scope d a b off ms) ms s fun s => do
    let (s, bs) ← loadAt s am (Size.nbytes sz) (effAddr s a b off) (Size.nbytes sz)
    .ok (putLoaded s sz d bs)

def execStrel (sz : Size) (am : Am) (scope : Scope) (d a : GReg) (b : BReg) (off : Word32) (ms : Ms) (s : State) :
    Host.Outcome State Fault Refusal :=
  scalar (.strel sz am scope d a b off ms) ms s fun s => do
    let s ← releaseScope s scope
    storeAt s true am (Size.nbytes sz) false (effAddr s a b off) (storedBytes s sz d)

def execFence (scope : Scope) (ms : Ms) (s : State) : Host.Outcome State Fault Refusal :=
  scalar (.fence scope ms) ms s fun s => releaseScope s scope

/-! ### Atomics (R239-R241) -/

/-- The bytes of an atomic's size. -/
def ASize.nbytes (sz : ASize) : Nat :=
  match sz with
  | .d => 8
  | .w | .wn => 4

/-- The old value as g[D] receives it (R240). -/
def oldWord (sz : ASize) (old : Nat) : Word :=
  match sz with
  | .d => BitVec.ofNat 64 old
  | .w => sext64 32 old
  | .wn => BitVec.ofNat 64 old

/-- The checked word of an atomic: every check of R239, in order. `owned` admits a device atomic on a host-owned page (R353). -/
def atomicPlaces (s : State) (am : Am) (p : Word) (n : Nat) (owned : Bool) : Res (List Place) := do
  let w := ctxWho s false
  let need : Need := { r := true, w := true, x := false, atomic := owned }
  let pls ← places s w need am n false p n
  let versioned (pl : Place) : Bool := pl.cls == 0 && !(w.service && isBufKey pl.key)
  if pls.any versioned then meetingAt w pls (.error (.trap { Trap.on Code.cls p with write := true }))
  else do
    farTurn s pls (accessOrder s true pls)
    .ok pls

/-- Read, compute and write one word at its home; the old value goes to g[D]. `new` gives no value for a compare that
fails. -/
def atomicOp (s : State) (sz : ASize) (am : Am) (o : Ord) (d : GReg) (p : Word) (owned : Bool)
    (new : Nat → Option Nat × Fl) : Res State := do
  let s ← (if o.rel then releaseScope s o.scope else .ok s)
  let w := ctxWho s false
  let n := ASize.nbytes sz
  let pls ← atomicPlaces s am p n owned
  let s := touch s w pls
  let old := leNat (readPlaces s w pls)
  let r := new old
  let s := match r.1 with
    | some x => writePlaces s w s.cx.no s.cx.ipc pls (bytesOf x n)
    | none => s
  .ok (((countFarAt s pls).setG d (oldWord sz old)).orFlags r.2)

/-- The width in bits. -/
def ASize.width (sz : ASize) : Nat := 8 * ASize.nbytes sz

/-- An atomic of the family 0xD3 but AFADD. -/
def atomicInt (i : Instr) (sz : ASize) (am : Am) (o : Ord) (d a : GReg) (b : BReg) (owned : Bool) (ms : Ms) (s : State)
    (f : Nat → Nat → Nat) : Host.Outcome State Fault Refusal :=
  scalar i ms s fun s =>
    let x := (b.val s).toNat % 2 ^ ASize.width sz
    atomicOp s sz am o d (s.g a) owned fun old => (some (f old x % 2 ^ ASize.width sz), 0)

/-- AADD, ASWP and ACAS of sizes .d and .w travel as PCIe AtomicOps (R353). -/
def isAtomicOpSize : ASize → Bool
  | .wn => false
  | _ => true

def execAadd (sz : ASize) (am : Am) (o : Ord) (d a : GReg) (b : BReg) (ms : Ms) (s : State) : Host.Outcome State Fault Refusal :=
  atomicInt (.aadd sz am o d a b ms) sz am o d a b (isAtomicOpSize sz) ms s fun x y => x + y
def execAmin (u : Bool) (sz : ASize) (am : Am) (o : Ord) (d a : GReg) (b : BReg) (ms : Ms) (s : State) :
    Host.Outcome State Fault Refusal :=
  atomicInt (.amin u sz am o d a b ms) sz am o d a b false ms s fun x y => if u then opMinU x y else opMinS (ASize.width sz) x y
def execAmax (u : Bool) (sz : ASize) (am : Am) (o : Ord) (d a : GReg) (b : BReg) (ms : Ms) (s : State) :
    Host.Outcome State Fault Refusal :=
  atomicInt (.amax u sz am o d a b ms) sz am o d a b false ms s fun x y => if u then opMaxU x y else opMaxS (ASize.width sz) x y
def execAand (sz : ASize) (am : Am) (o : Ord) (d a : GReg) (b : BReg) (ms : Ms) (s : State) : Host.Outcome State Fault Refusal :=
  atomicInt (.aand sz am o d a b ms) sz am o d a b false ms s fun x y => x &&& y
def execAor (sz : ASize) (am : Am) (o : Ord) (d a : GReg) (b : BReg) (ms : Ms) (s : State) : Host.Outcome State Fault Refusal :=
  atomicInt (.aor sz am o d a b ms) sz am o d a b false ms s fun x y => x ||| y
def execAxor (sz : ASize) (am : Am) (o : Ord) (d a : GReg) (b : BReg) (ms : Ms) (s : State) : Host.Outcome State Fault Refusal :=
  atomicInt (.axor sz am o d a b ms) sz am o d a b false ms s fun x y => x ^^^ y
def execAswp (sz : ASize) (am : Am) (o : Ord) (d a : GReg) (b : BReg) (ms : Ms) (s : State) : Host.Outcome State Fault Refusal :=
  atomicInt (.aswp sz am o d a b ms) sz am o d a b (isAtomicOpSize sz) ms s fun _ y => y

/-- A float addition of 64 or 32 bits. -/
def faddBits (dbl : Bool) (rnd : Rnd) (x y : Nat) : Nat × Fl :=
  if dbl then (fspec .f64).add rnd x y else (fspec .f32).add rnd (x % 2 ^ 32) (y % 2 ^ 32)

def execAfadd (dbl : Bool) (am : Am) (o : Ord) (rnd : Rnd) (d a : GReg) (b : BReg) (ms : Ms) (s : State) :
    Host.Outcome State Fault Refusal :=
  scalar (.afadd dbl am o rnd d a b ms) ms s fun s =>
    let x := (b.val s).toNat
    atomicOp s (if dbl then .d else .w) am o d (s.g a) false fun old => let r := faddBits dbl rnd old x; (some r.1, r.2)

def execAcas (sz : ASize) (am : Am) (o : Ord) (d a : GReg) (b : BReg) (ms : Ms) (s : State) : Host.Outcome State Fault Refusal :=
  scalar (.acas sz am o d a b ms) ms s fun s =>
    let m := 2 ^ ASize.width sz
    let x := (b.val s).toNat % m
    let expect := (s.g d).toNat % m
    atomicOp s sz am o d (s.g a) (isAtomicOpSize sz) fun old => (if old = expect then some x else none, 0)

/-! ### Reductions (R243, R223) -/

/-- New(old, b) of R243 on a word of n bytes. -/
def redNew (op : RedOp) (n old b : Nat) : Nat :=
  let w := 8 * n
  let y := b % 2 ^ w
  (match op with
   | .add => old + y
   | .min u => if u then opMinU old y else opMinS w old y
   | .max u => if u then opMaxU old y else opMaxS w old y
   | .and => old &&& y
   | .or => old ||| y
   | .xor => old ^^^ y
   | .fadd rnd => (faddBits (n == 8) rnd old y).1) % 2 ^ w

/-- A reduction of checked bytes: deferred on versioned global memory, else applied at once. -/
def reduceAt (s : State) (w : Who) (ctx : BitVec 2) (pc : Word) (op : RedOp) (pls : List Place) (opnd : Word) : State :=
  let n := pls.length
  match pls with
  | [] => s
  | pl :: _ =>
    if pl.cls = 0 && !w.service then
      if redoFull s pls then addVote s w.chip w.team { cause := 8, pc := pc, rank := w.rank, ctx := ctx }
      else
        let (id, s) := (touch s w pls).freshId
        let r : RedEntry := { key := pl.key, bytes := n, op := op, opnd := opnd, rank := w.writeTag.num, seq := id,
                              chip := w.chip, team := w.team, mirror := pl.mirror.map (·.1) }
        { s with reds := s.reds ++ [r] }
    else writePlaces (countFar s pl.key) w ctx pc pls (bytesOf (redNew op n (leNat (readPlaces s w pls)) opnd.toNat) n)

/-- The places of a RED: both rights in global memory, W alone in a buffer (R239, R342). -/
def redPlaces (s : State) (am : Am) (p : Word) (n : Nat) : Res (List Place) := do
  let w := ctxWho s false
  let sp := ptrSpace p
  let need : Need := { r := !(1 ≤ sp && sp ≤ 5), w := true, x := false, atomic := false }
  let pls ← places s w need am n false p n
  if pls.any fun pl => pl.cls == 0 && isBufKey pl.key && !w.service then
    meetingAt w pls (.error (.trap { Trap.on Code.cls p with write := true }))
  else do
    farTurn s pls (accessOrder s true pls)
    .ok pls

def execRed (op : RedOp) (dbl : Bool) (am : Am) (rel : Bool) (scope : Scope) (a : GReg) (b : BReg) (ms : Ms) (s : State) :
    Host.Outcome State Fault Refusal :=
  scalar (.red op dbl am rel scope a b ms) ms s fun s => do
    let s ← (if rel then releaseScope s scope else .ok s)
    let pls ← redPlaces s am (s.g a) (if dbl then 8 else 4)
    .ok (reduceAt s (ctxWho s false) s.cx.no s.cx.ipc op pls (b.val s))

/-! ### PGQ (R244) -/

/-- What PGQ returns for an address. -/
def pageQuery (s : State) (st : Bool) (p : Word) : Word :=
  let w := ctxWho s false
  match walk s w.chip w.part (p.toNat % 2 ^ 57) with
  | .error _ => 0
  | .ok l =>
    if st then BitVec.ofNat 64 (1 + 2 * l.ps + 8 * (!isCompute w.ep || l.cw.getLsbD (groupOf w.ep)).toNat)
    else l.cw

/-- The AM of a page query must be LIN, since every other space faults (R31). -/
def execPgq (st : Bool) (am : Am) (d a : GReg) (b : BReg) (off : Word32) (ms : Ms) (s : State) : Host.Outcome State Fault Refusal :=
  scalar (.pgq st am d a b off ms) ms s fun s => do
    let p := effAddr s a b off
    needAt (ptrSpace p == 0 && amOk am 0 && p.extractLsb' 57 3 == 0) Code.space p
    .ok (s.setG d (pageQuery s st p))

end Sys2Proof.Machine
end

