-- ==== Sys2Proof/Machine/VecMem.lean ====
section
/-! DEFINITION. Meanings: vector memory (R95-R98), masks (R99), queues (R100-R103) and the repetition buffer (R105-R107). -/
namespace Sys2Proof.Machine

/-! ### Vector loads and stores -/

/-- Read every active element: each is checked in rising order before any is performed (R95). -/
def vecLoad (s : State) (am : Am) (sz : VSize) (ms : Ms) (f : Nat → Word) : Res (State × List (Nat × Nat)) := do
  let w := ctxWho s true
  let xs ← ((List.range sz.elems).filter (elemOn (ms.mask s.cx) sz.elems)).foldlM (fun (acc : List (Nat × List Place)) e =>
    (meetingAt w (acc.flatMap fun x => x.2) (do
      let pls ← places s w .read am 1 false (f e) sz.bytes
      let _ ← orderRicks s s.cx.ep (pls.map (·.dest)).eraseDups
      .ok (acc ++ [(e, pls)])) : Res (List (Nat × List Place)))) []
  .ok (xs.foldl (fun s x => touch s w x.2) s, xs.map fun x => (x.1, leNat (readPlaces s w x.2)))

/-- Put loaded elements into their lanes, extended as the size says (R96). -/
def putLanes (sz : VSize) (v : VWord) (xs : List (Nat × Nat)) : VWord := xs.foldl (fun v x => putElem sz.ty v x.1 x.2) v

/-- A vector load. -/
def vecLoadInto (s : State) (am : Am) (sz : VSize) (d : VReg) (ms : Ms) (f : Nat → Word) : Res State := do
  let (s, xs) ← vecLoad s am sz ms f
  .ok (s.setV d (putLanes sz (s.v d) xs))

/-- What an element of a vector store does once checked: the bytes written plainly, and the elements that enter ricks. -/
structure VPiece where
  pls : List Place
  bytes : List Byte
  ricks : List (EP × RickElem)
  deriving DecidableEq, Repr

/-- Every check of one element of a vector store (R95, R324, R325); an element that no rick carries waits for the elements of its own
context that ricks and cords hold for its bytes (R77). -/
def vecPiece (s : State) (am : Am) (p : Word) (bs : List Byte) : Res VPiece := do
  let w := ctxWho s true
  if goesByRick s am p bs.length then do
    let rs ← issueRoute s w am p bs.length
    let own := (rs.zip bs).zipIdx.filter fun q => q.1.1.1 == some s.cx.ep
    let pls ← asWrite (ownPieces s w am p (own.map fun q => q.2))
    let x : VPiece := { pls := pls, bytes := own.map fun q => q.1.2, ricks := rickElems s p (ptrSpace p) rs bs }
    .ok x
  else do
    let pls ← places s w .write am 1 false p bs.length
    let _ ← awaitRicks s s.cx.ep s.cx.recA (pls.map (·.dest)).eraseDups
    let x : VPiece := { pls := pls, bytes := bs, ricks := [] }
    .ok x

/-- The low bytes of element e's lane that a store of a size takes (R96). -/
def laneBytes (sz : VSize) (v : VWord) (e : Nat) : List Byte :=
  bytesOf (bits v.toNat ((if sz.elems = 8 then 64 else 32) * e) (8 * sz.bytes)) sz.bytes

/-- A vector store: every active element is checked, then they take effect in rising order (R95, R98). -/
def vecStore (s : State) (am : Am) (sz : VSize) (d : VReg) (ms : Ms) (f : Nat → Word) : Res State := do
  let xs ← ((List.range sz.elems).filter (elemOn (ms.mask s.cx) sz.elems)).foldlM (fun (acc : List VPiece) e =>
    (meetingAt (ctxWho s true) (acc.flatMap fun x => x.pls) (do
      let x ← vecPiece s am (f e) (laneBytes sz (s.v d) e)
      .ok (acc ++ [x])) : Res (List VPiece))) []
  .ok (xs.foldl (fun s x =>
    let s := x.ricks.foldl (fun s q => enterElem s s.cx.ep q.1 q.2) s
    storePlaces s (ctxWho s true) s.cx.no s.cx.ipc x.pls x.bytes) s)

def execVld (sz : VSize) (step : Bool) (am : Am) (d : VReg) (a : GReg) (b : BReg) (off : Word32) (ms : Ms) (s : State) :
    Host.Outcome State Fault Refusal :=
  vector (.vld sz step am d a b off ms) s fun s => vecLoadInto s am sz d ms (vldAddr s sz step a b off)
def execVst (sz : VSize) (step : Bool) (am : Am) (d : VReg) (a : GReg) (b : BReg) (off : Word32) (ms : Ms) (s : State) :
    Host.Outcome State Fault Refusal :=
  vector (.vst sz step am d a b off ms) s fun s => vecStore s am sz d ms (vldAddr s sz step a b off)
def execVlds (sz : VSize) (am : Am) (d : VReg) (a b : GReg) (off : Word32) (ms : Ms) (s : State) :
    Host.Outcome State Fault Refusal :=
  vector (.vlds sz am d a b off ms) s fun s => vecLoadInto s am sz d ms (vldsAddr s a b off)
def execVgath (sz : VSize) (am : Am) (d : VReg) (a : GReg) (b : VReg) (sh : BitVec 2) (off : Word32) (ms : Ms) (s : State) :
    Host.Outcome State Fault Refusal :=
  vector (.vgath sz am d a b sh off ms) s fun s => vecLoadInto s am sz d ms (vgathAddr s sz a b sh off)
def execVscat (sz : VSize) (am : Am) (d : VReg) (a : GReg) (b : VReg) (sh : BitVec 2) (off : Word32) (ms : Ms) (s : State) :
    Host.Outcome State Fault Refusal :=
  vector (.vscat sz am d a b sh off ms) s fun s => vecStore s am sz d ms (vgathAddr s sz a b sh off)

/-! ### Masks (R99) -/

/-- The operations of KLOG on masks. -/
def maskLog (op : LogOp) (x y : Mask) : Mask :=
  match op with
  | .and => x &&& y | .or => x ||| y | .xor => x ^^^ y | .andn => x &&& ~~~y | .orn => x ||| ~~~y | .nor => ~~~(x ||| y)

def execKlog (op : LogOp) (d a b : KReg) (s : State) : Host.Outcome State Fault Refusal :=
  vector (.klog op d a b) s fun s => .ok (s.setK d (maskLog op (s.k a) (s.k b)))
def execKpopc (d : GReg) (a : KReg) (s : State) : Host.Outcome State Fault Refusal :=
  vector (.kpopc d a) s fun s => .ok (s.setG d (BitVec.ofNat 64 (popCount (s.k a).toNat 16)))
def execKfirst (d : GReg) (a : KReg) (s : State) : Host.Outcome State Fault Refusal :=
  vector (.kfirst d a) s fun s =>
    .ok (s.setG d (BitVec.ofNat 64 (((List.range 16).find? fun i => (s.k a).getLsbD i).getD 16)))
def execKmov (f : KmovForm) (s : State) : Host.Outcome State Fault Refusal :=
  vector (.kmov f) s fun s =>
    match f with
    | .kk d a => .ok (s.setK d (s.k a))
    | .kg d a => .ok (s.setK d ((s.g a).extractLsb' 0 16))
    | .gk d a => .ok (s.setG d ((s.k a).setWidth 64))
    | .ki d i => .ok (s.setK d i)

def maskTest (t : KTest) (x y : Mask) : Bool :=
  match t with
  | .any => x &&& y != 0
  | .none => x &&& y == 0
  | .all => x &&& y == y

def execKtest (t : KTest) (d : PReg) (a b : KReg) (s : State) : Host.Outcome State Fault Refusal :=
  vector (.ktest t d a b) s fun s => .ok (s.setP d (maskTest t (s.k a) (s.k b)))

/-! ### Queues (R101-R103) -/

def execQcnt (vec : Bool) (d : GReg) (q : QReg) (ms : Ms) (s : State) : Host.Outcome State Fault Refusal :=
  let body (s : State) : Res State := .ok (s.setG d (BitVec.ofNat 64 (s.q q).length))
  if vec then vector (.qcnt vec d q ms) s body else scalar (.qcnt vec d q ms) ms s body

/-- QDRAIN in one of the streams: the control stream reads q4-q7 and writes q0-q3, the vector stream reads q0-q3. -/
def drainQueue (vec : Bool) (f : QdForm) (s : State) : Res State :=
  match f with
  | .drain q => if decide (q.toNat < 4) == vec then .ok (s.setQ q []) else fail Code.qmisuse
  | .get d q =>
    if vec || decide (q.toNat < 4) then fail Code.qmisuse
    else match s.q q with
      | [] => stall s
      | x :: xs => .ok ((s.setQ q xs).setG d x)
  | .put q a =>
    if vec || decide (4 ≤ q.toNat) then fail Code.qmisuse
    else if 8 ≤ (s.q q).length then stall s
    else .ok (s.setQ q (s.q q ++ [s.g a]))

def execQdrain (vec : Bool) (f : QdForm) (ms : Ms) (s : State) : Host.Outcome State Fault Refusal :=
  if vec then vector (.qdrain vec f ms) s (drainQueue vec f) else scalar (.qdrain vec f ms) ms s (drainQueue vec f)

/-- Whether a control-stream instruction would stall on a queue (R100). -/
def controlQueueStall (s : State) (i : Instr) : Bool :=
  match i with
  | .qdrain false (.get _ q) ms => ms.on s && decide (4 ≤ q.toNat) && (s.q q).isEmpty
  | .qdrain false (.put q _) ms => ms.on s && decide (q.toNat < 4) && decide (8 ≤ (s.q q).length)
  | _ => false

/-- Whether a control-stream instruction waits for the vector stream: END, SHRINK of v granules, SSYNC, a register of R76
(R103). -/
def waitsForVector (s : State) (i : Instr) : Bool :=
  scalarHazard s.cx i.uses || (match i with
  | .endC ms | .ssync _ _ _ _ _ ms => ms.on s
  | .shrink _ v ms => ms.on s && v != 0
  | _ => false)

/-- Whether the hand-off of a slot that belongs to no body waits for room in the issue queue (R75). -/
def queueFull (c : Context) : Bool := !c.rep.capturing && decide (32 ≤ c.vq.length)

/-- Whether the hand-off of a vector slot waits for the vector stream: a full issue queue, a REP behind an earlier repetition,
a register of R76 that it reads (R75, R103). -/
def handOffWaits (c : Context) (i : Instr) : Bool :=
  queueFull c || scalarHazard c i.uses.readsOnly ||
  (match i with | .rep .. => c.rep.active || c.rep.loaded | _ => false)

/-- The deadlocks of R103 in the executing context: `some true` when the control stream's instruction faults, `some false`
when the vector stream's does. A control stream that has met a fault waits for the vector stream too (R78; DEDUCED,
notes/assumptions/108.md). -/
def deadlock (s : State) : Option Bool :=
  let c := s.cx
  let vecOnQueue := ((vecNext c).bind VEntry.instr?).any (queueStalls c)
  let starved := vecStarved c
  if c.mode == .syncing then (if starved then some false else none)
  else if c.mode != .running then none
  else if c.faulting && vecOnQueue then some false
  else match fetchSlot s with
    | .ok (s', .one _ i) =>
      let vecSlot := match s'.cx.line with | some (_, l) => lineTmpl l (pcSlot c.pc) == 2 | none => false
      if controlQueueStall s' i && (!vecBusy c || vecOnQueue) then some true
      else if starved && (if vecSlot then handOffWaits c i else waitsForVector s' i) then some false
      else none
    | .ok (_, .illegal _) => if starved && queueFull c then some false else none
    | .error (.wait _) => if starved then some false else none
    | .ok (s', .pair _ _ i j) =>
      let js := match j with | .ok y => [i, y] | .error _ => [i]
      if (js.any (controlQueueStall s')) && (!vecBusy c || vecOnQueue) then some true
      else if starved && js.any (waitsForVector s') then some false
      else none
    | _ => none

/-- Raise a fault on a context from outside its issue: on its control stream's instruction, or on its vector stream's next.
A gang parks as one (R138). -/
def faultContext (s : State) (t : Trap) (control : Bool) : Res State :=
  let c := s.cx
  match c.gang with
  | none => takeFault (memberAt s !control) t
  | some _ => parkGang s (!control) ((boundGang s).map fun m => (m, if m.is c.ep c.no then some t else none))

def execQueueDeadlock (ep : EP) (ctx : BitVec 2) (s : State) : Host.Outcome State Fault Refusal :=
  event s (
    let s1 := s.switchTo ep ctx
    match deadlock s1 with
    | some control => faultContext s1 (Trap.of Code.qmisuse) control
    | none => .ok s)

/-! ### The repetition buffer (R105-R107) -/

/-- A REP that the vector stream reaches: its body starts, or with a count of 0 is dropped. -/
def startRep (s : State) (count : Nat) : State :=
  let c := s.cx
  let r := c.rep
  let r := if count = 0 then RepState.reset else { r with active := true, loaded := false, remain := count, iter := 0, idx := 0 }
  { s with cx := { c with rep := r } }

/-- A REP that is reached while an earlier repetition is captured or active waits until that one has ended: there is one
repetition buffer (R106 says nothing of it; DESIGN CHOICE, notes/assumptions/109.md). -/
def execRep (a : GReg) (n : BitVec 4) (wb : BitVec 5) (ws : BitVec 6) (st : BitVec 5) (s : State) :
    Host.Outcome State Fault Refusal :=
  let i := Instr.rep a n wb ws st
  let s := { s with note := .done }
  let c := s.cx
  match c.vsrc with
  | .control =>
    if c.rep.capturing then finish s (.error (.trap { Trap.of Code.illop with pc := some c.rep.pc }))
    else if scalarHazard c i.uses.readsOnly then .next { s with note := .stalled }
    else if c.rep.active || c.rep.loaded || decide (32 ≤ c.vq.length) then .next { s with note := .stalled }
    else
      let r : RepState := { RepState.reset with
        capturing := true, pc := c.ipc, n := n.toNat, wb := wb.toNat, ws := ws.toNat, st := st.toNat }
      .next { s with cx := { c with vq := c.vq ++ [entryOf s (.legal i)], rep := r } }
  | _ =>
    match class6 s i with
    | .error _ => finish s (fail Code.allot)
    | .ok _ => .next (vecAdvance (startRep s (bits (s.g a).toNat 0 32)))

end Sys2Proof.Machine
end

