-- ==== Sys2Proof/Machine/Objects.lean ====
section
/-! DEFINITION. Objects at far agents (R169), waking records (R116, R120), and engine operations: their issue, faults and
completion words (R189, R190, R233, R234). -/
namespace Sys2Proof.Machine

/-! ### Objects -/

/-- A 64-byte object of R169 with the agent that reaches it. -/
structure Obj where
  w : Who
  pls : List Place
  deriving DecidableEq, Repr

/-- An operation on an object reads and writes it. -/
def Need.both : Need := { r := true, w := true, x := false, atomic := false }

/-- The checks of R169, in order; the operation then takes its turn at its far agent (R334). -/
def object (s : State) (p : Word) : Res Obj := do
  let w := ctxWho s false
  let r : Res Obj := do
    needAt (ptrSpace p == 0) Code.space p
    let _ ← spaceCheck s w .both .lin false p 64
    let xs ← globalPlaces s w.chip w .both false p.toNat 64 p false
    let pls ← meetingAt w xs (addMirrors s w (s.team? w.chip w.team) xs)
    meetingAt w pls (do
      soundRead s pls p
      needAt (p.toNat % 64 == 0) Code.align p
      needAt (pls.all fun pl => pl.cls == 1) Code.cls p)
    farTurn s pls (.ok ())
    .ok { w := w, pls := pls }
  match r with
  | .error (.trap t) => .error (.trap { t with write := true })
  | x => x

/-- A field of an object. -/
def Obj.get (o : Obj) (s : State) (off n : Nat) : Nat := leNat (((o.pls.drop off).take n).map fun pl => s.mem.get pl.key)

/-- Write a field of an object. -/
def Obj.put (o : Obj) (s : State) (off n v : Nat) : State :=
  writeBytes s o.w ((o.pls.drop off).take n) (bytesOf v n)

/-- An operation on an object: with no room to log the object's line it is rejected, and CAPACITY is voted (R206). -/
def objOp (s : State) (o : Obj) (f : State → Res State) : Res State :=
  let s := countFarAt (touch s o.w o.pls) o.pls
  if o.w.service || clampRoom s o.w o.pls then f s
  else .ok (addVote s o.w.chip o.w.team { cause := 8, pc := s.cx.ipc, rank := o.w.rank, ctx := s.cx.no })

/-! ### Waking -/

/-- Check a record (R116) and make it READY; a gang when none of its members waits any more (R138). -/
def wakeRec (s : State) (chip : ChipNo) (team : Word32) (a : Word) : Res State :=
  match s.team? chip team with
  | none => .ok (dropWait s chip team a)
  | some _ => readyParked s chip team a

/-- The descriptor at which a wait is made. -/
def WaitKind.desc? : WaitKind → Option Word
  | .await _ _ a | .arrive _ _ _ a _ _ | .tqPush _ a | .tqPop _ a | .gqPop _ a => some a
  | _ => none

/-- The physical key of an address of a team, if it has one. -/
def teamKey (s : State) (chip : ChipNo) (team : Word32) (va : Word) : Option Nat :=
  match s.team? chip team with
  | none => none
  | some t =>
    match walk s chip t.part va.toNat with
    | .ok l => some (physKey chip (leafPa s chip t.part l va.toNat))
    | .error _ => none

/-- The key by which an object is known, whatever address a team names it by. -/
def Obj.key (o : Obj) : Nat := (o.pls.head?.map fun pl => pl.key).getD 0

/-- Suspended records of whatever team that wait at an object, oldest first (R178, R180, R186). -/
def waitersAt (s : State) (o : Obj) (f : WaitKind → Bool) : List Waiter :=
  s.waiters.filter fun x => f x.kind &&
    (match x.kind.desc? with | some a => teamKey s x.chip x.team a == some o.key | none => false)

/-- Link waiting records through LINK, oldest first (R178, R186), and give the address of the first. -/
def chainWaiters (s : State) (xs : List Waiter) : Res (State × Nat) := do
  let next : List Word := ((xs.drop 1).map fun x => x.recA) ++ [0]
  let s ← (xs.zip next).foldlM (fun s q => devWriteNat s (devWho s q.1.ep q.1.chip q.1.team) (q.1.recA + 48) q.2.toNat 8) s
  .ok (s, ((xs.head?.map fun x => x.recA).getD (0 : Word)).toNat)

/-- A continuation may suspend once its vector stream has run dry, or stands at a queue (R78, R119). While it waits for that, its
operation holds no place at a far agent. -/
def suspendOrder (s : State) : Res Unit :=
  if vecBusy s.cx && !vecHeld s.cx then stall { s with cx := { s.cx with req := none } } else .ok ()

/-! ### Engine operations -/

/-- The copy engine has room (R189). -/
def engineRoom (s : State) (e : EP) : Bool := decide ((s.core e).engine.length < 16)

/-- Queue an operation of the executing context on its core's copy engine. -/
def forkEngine (s : State) (cw val : Word) (k : EngKind) : State :=
  let c := s.cx
  let (id, s) := s.freshId
  let op : EngineOp := { id := id, ctx := c.no, recA := c.recA, pc := c.ipc, rank := c.rank, cw := cw, val := val, kind := k, stuck := false,
                         at_ := 0, g2 := some (c.gr 2), behind := owedMem c, forked := s.time }
  s.modCore c.ep fun k => { k with engine := k.engine ++ [op] }

def findOp (s : State) (e : EP) (id : Nat) : Option EngineOp := (s.core e).engine.find? fun o => o.id == id
/-- Whether an operation's accesses may be performed: what precedes its fork has been (R233). -/
def opReady (s : State) (e : EP) (id : Nat) : Bool :=
  match findOp s e id with
  | some o => forkReady s e o.recA o.behind o.forked
  | none => true
def setOp (s : State) (e : EP) (op : EngineOp) : State :=
  s.modCore e fun k => { k with engine := k.engine.map fun o => if o.id == op.id then op else o }
def dropOp (s : State) (e : EP) (id : Nat) : State :=
  s.modCore e fun k => { k with engine := k.engine.filter fun o => o.id != id }

/-- An engine operation meets a fault: it stands still until a reply (R189). -/
def stopOp (s : State) (e : EP) (op : EngineOp) (t : Trap) : Res State :=
  engineFault (setOp s e { op with stuck := true, at_ := t.addr }) e op.ctx op.rank op.pc op.recA 0 t

/-- An agent that acts for an engine operation: R157 judges its faults by the issuing context's stack. -/
def opAgent (s : State) (e : EP) (op : EngineOp) (kind : AgentKind) : Who :=
  let k := s.core e
  (engineWho s e kind k.chip k.team op.rank).onStack s op.recA op.g2

/-- The copy engine, acting for an operation. -/
def opWho (s : State) (e : EP) (op : EngineOp) : Who := opAgent s e op .copy

/-- Write the completion word, as a release, after the last payload byte; then the operation is complete (R189, R234). -/
def completeOp (s : State) (e : EP) (op : EngineOp) : Res State :=
  let w := opWho s e op
  match places s w .write .lin 8 false op.cw 8 with
  | .ok pls => .ok (dropOp (writePlaces s w op.ctx op.pc pls (bytesOf op.val.toNat 8)) e op.id)
  | .error (.trap t) => stopOp s e op t
  | .error x => .error x

/-- R30 on the first and the last byte of a range. -/
def rangeEnds (s : State) (w : Who) (n : Need) (p : Word) (len : Nat) : Res Unit := do
  if len = 0 then .ok ()
  else do
    let _ ← spaceCheck s w n .lin false p 1
    match spaceCheck s w n .lin false (ptrOff p (len - 1)) 1 with
    | .error (.trap t) => .error (.trap { t with addr := ptrOff p (len - 1) })
    | x => x

/-- The operands of a group of four and the completion value (R189). -/
def copySpaceOk (p : Word) : Bool := decide (ptrSpace p ≤ 4) || ptrSpace p == 6

/-- CPY's checks 2 to 4, for a context or a walker. -/
def checkCopy (s : State) (w : Who) (dst src n cw : Word) : Res Unit := do
  need (decide (n.toNat < 2 ^ 32)) Code.space
  needAt (copySpaceOk dst && ptrSpace dst != 4) Code.space dst
  needAt (copySpaceOk src) Code.space src
  let _ ← asWrite (rangeEnds s w .write dst n.toNat)
  let _ ← rangeEnds s w .read src n.toNat
  cwCheck s w cw

/-- The bytes of the next 64-byte-aligned piece of a destination. -/
def pieceLen (dst : Word) (n done : Nat) : Nat :=
  let room := 64 - (ptrOff dst done).toNat % 64
  if n - done < room then n - done else room

/-- One piece of a copy: source bytes read, then written (R189). The start of the ranges flushes the ricks they meet (R333). -/
def copyOne (s : State) (e : EP) (op : EngineOp) (dst src : Word) (n done : Nat) : Res State :=
  let w := opWho s e op
  let len := pieceLen dst n done
  let r : Res State := do
    let sp ← places s w .read .lin 1 false (ptrOff src done) len
    let dp ← meetingAt w sp (places s w .write .lin 1 false (ptrOff dst done) len)
    let _ ← if done = 0 then orderRicks s e ((sp ++ dp).map (·.dest)).eraseDups else .ok s
    let bs := readPlaces s w sp
    let s := touch s w sp
    let s := storePlaces s w op.ctx op.pc dp bs
    .ok (setOp s e { op with kind := .cpy dst src n (done + len) })
  match r with
  | .error (.trap t) => stopOp s e op t
  | x => x

/-! ### Page-fetch lists (R190, R191) -/

/-- The layout checks of one entry at `at_`. -/
def checkEntry (s : State) (w : Who) (at_ w0 w1 : Word) : Res Unit := do
  needAt (w0.extractLsb' 57 7 == 0 && w0.extractLsb' 1 5 == 0) Code.space at_
  let sp := ptrSpace w1
  let lines := bits w1.toNat 20 13
  let off := bits w1.toNat 0 20
  needAt (decide (1 ≤ sp) && decide (sp ≤ 3)) Code.space at_
  needAt (ptrRank w1 == 0xFFF && w1.extractLsb' 33 15 == 0) Code.space at_
  needAt (decide (1 ≤ lines) && decide (lines ≤ 4096) && off % 64 == 0 && decide (off + 64 * lines ≤ bufSize w.ep sp)) Code.space at_
  let first : Word := (w1 >>> 48 <<< 48) ||| BitVec.ofNat 64 off
  (List.range lines).forM fun i =>
    match bufPlace s w .write .lin false (ptrOff first (64 * i)) at_ with
    | .ok _ => .ok ()
    | .error e => .error e

/-- The lines of a list: source address (none for zeros) and destination pointer. -/
def listLines (entries : List (Word × Word)) : List (Option Word × Word) :=
  entries.flatMap fun (q : Word × Word) =>
    let first : Word := (q.2 >>> 48 <<< 48) ||| BitVec.ofNat 64 (bits q.2.toNat 0 20)
    let n : Nat := bits q.2.toNat 20 13
    (List.range n).map fun (i : Nat) =>
      (if q.1.getLsbD 0 then none else some ((q.1 >>> 6 <<< 6) + BitVec.ofNat 64 (64 * i)), ptrOff first (64 * i))

/-- Fetch one line into the next version (R191); a service program's takes effect at once (R419). -/
def landLine (s : State) (e : EP) (op : EngineOp) (l : Option Word × Word) : Res State := do
  let k := s.core e
  let w := opAgent s e op .landing
  let (s, bs, stat) ← match l.1 with
    | none => (.ok (s, List.replicate 64 0, none) : Res (State × List Byte × Option (Nat × Half')))
    | some p => do
      let sp ← places s w .read .lin 1 false p 64
      let bs := readPlaces s w sp
      let els := writtenElems (sp.zip bs)
      .ok (touch s w sp, bs, els.head?.map fun q => (q.1, els.foldl (fun h x => contribute h x.2 false false) halfEmpty))
  let pl ← bufPlace s w .write .lin false l.2 l.2
  let x : Landing := { key := pl.key, bytes := bs, chip := k.chip, team := k.team, ep := e, pc := op.pc,
                       rank := op.rank, ctx := op.ctx, stat := stat }
  if w.service then .ok { s with mem := s.mem.setBytes pl.key bs }
  else if lineHeld s k.chip k.team (pl.key / 64) || decide (clampUsed s e < clampCap s e) then .ok { s with landings := s.landings ++ [x] }
  else .ok (addVote s k.chip k.team { cause := 8, pc := op.pc, rank := op.rank, ctx := op.ctx })

/-- Fetch the remaining lines of a list; a fault stops the engine at its line. -/
def landLines (e : EP) (op : EngineOp) (entries : List (Word × Word)) : Nat → List (Option Word × Word) → State → Res State
  | _, [], s => .ok (dropOp s e op.id)
  | i, l :: ls, s =>
    match landLine s e op l with
    | .ok s => landLines e op entries (i + 1) ls s
    | .error (.trap t) => stopOp s e { op with kind := .pfl entries i } t
    | .error x => .error x

end Sys2Proof.Machine
end

