-- ==== Sys2Proof/Machine/Task.lean ====
section
/-! DEFINITION. Meanings: dependence counters, waits, phase barriers, task queues, gangs, SSYNC and SSNUM (R168-R186,
R192). -/
namespace Sys2Proof.Machine

/-! ### Dependence counters (R173-R175) -/

inductive CountOp where
  | arm | dec | inc
  deriving DecidableEq, Repr

/-- The new count of R173. -/
def CountOp.new (op : CountOp) (old n : Nat) : Nat :=
  match op with
  | .arm => n
  | .inc => if old + n < 2 ^ 32 then old + n else 2 ^ 32 - 1
  | .dec => old - n

/-- Underflow or saturation (R173). -/
def CountOp.notice (op : CountOp) (old n : Nat) : Bool :=
  match op with
  | .arm => false
  | .inc => decide (2 ^ 32 ≤ old + n)
  | .dec => decide (old < n)

/-- UFLOW is set and UNDERFLOW posted as a notice (R173). -/
def postUnderflow (s : State) (o : Obj) (a : Word) : Res State :=
  let c := s.cx
  let s := o.put s 8 4 (let st := o.get s 8 4; if testBit st 8 then st else st + 2 ^ 8)
  postMsg s (svcOf s c.chip c.team) (mkMsg s c.chip c.team Code.underflow c.no Msg.flagNotice c.rank c.ipc a a c.ep 0 0 0)

/-- ARM, DEC and INC (R173). -/
def countOp (op : CountOp) (d a : GReg) (b : BOp) (s : State) : Res State := do
  let s ← release s
  let p := s.g a
  let n := (b.val s).toNat % 2 ^ 32
  let o ← object s p
  needAt (o.get s 44 4 == s.cx.team.toNat) Code.space p
  let old := o.get s 24 4
  let new := op.new old n
  let wake := o.get s 8 4 % 16 == stWaitCounter && new == 0 && (op == .arm || old != 0)
  let dst := BitVec.ofNat 64 old
  objOp (s.setG d dst) o fun s => do
    let _ ← (match wake, s.myTeam with
      | true, some t => recsCheck s t p
      | _, _ => .ok ())
    let s := o.put s 24 4 new
    let s := if op == .arm then o.put (o.put s 28 4 n) 8 4 (let st := o.get s 8 4; st - bits st 8 1 * 2 ^ 8) else s
    let s ← (if op.notice old n then postUnderflow s o p else .ok s)
    if wake then readyParked s s.cx.chip s.cx.team p else .ok s

def execArm (d a : GReg) (b : BOp) (ms : Ms) (s : State) : Host.Outcome State Fault Refusal :=
  scalar (.arm d a b ms) ms s (countOp .arm d a b)
def execDec (d a : GReg) (b : BOp) (ms : Ms) (s : State) : Host.Outcome State Fault Refusal :=
  scalar (.dec d a b ms) ms s (countOp .dec d a b)
def execInc (d a : GReg) (b : BOp) (ms : Ms) (s : State) : Host.Outcome State Fault Refusal :=
  scalar (.inc d a b ms) ms s (countOp .inc d a b)

/-- Start a prepared record (R175). -/
def spawnRec (s : State) (o : Obj) (t : Team) (p : Word) : Res State := do
  let s := o.put s 40 4 0
  let s := { s with teams := s.teams.map fun x => if x.chip == t.chip && x.id == t.id then
    { x with recs := if x.recs.contains p then x.recs else x.recs ++ [p] } else x }
  if o.get s 24 4 = 0 then makeReady s t.chip t.id p
  else
    let st := o.get s 8 4
    let s := o.put s 8 4 (st - st % 16 + stWaitCounter)
    let x : Waiter := { chip := t.chip, team := t.id, recA := p, ep := s.cx.ep, kind := .counter }
    .ok { s with waiters := s.waiters ++ [x] }

def execSpawn (a : GReg) (ms : Ms) (s : State) : Host.Outcome State Fault Refusal :=
  scalar (.spawn a ms) ms s fun s => do
    let s ← release s
    let p := s.g a
    let o ← object s p
    match s.myTeam with
    | none => failAt Code.space p
    | some t => do
      recCheck s o.w t p (t.optRecs.lookup p).isSome
      let st := o.get s 8 4
      needAt (st % 16 == stDone && bits st 6 2 == 0) Code.space p
      objOp s o fun s => spawnRec s o t p

/-! ### Launches from a team (R192) -/

/-- Read physical memory (R127); an address that names none stops the model (R448). -/
def physRead (s : State) (chip : ChipNo) (pa n : Nat) : Res Nat :=
  if paValid (s.chip chip) pa && paValid (s.chip chip) (pa + n - 1) then .ok (readPhys s chip pa n) else .error (.halt (.noMemory pa))

/-- The descriptor of a launch queue: LQDESC with its ERR bit. -/
def lqdesc (s : State) (chip : ChipNo) (q : Nat) : Word := (s.chip chip).reg (0x110 + q) 0
def lqAddr (s : State) (chip : ChipNo) (q : Nat) : Nat := (lqdesc s chip q).toNat / 64 * 64

/-- Records that the device holds for a queue: of this and other open supersteps, and those past their parent's commit. -/
def heldFor (s : State) (chip : ChipNo) (q : Nat) : Nat :=
  (((s.teams.filter fun t => t.chip == chip).flatMap fun t => t.held).filter fun h => h.1 == q).length +
  ((s.chip chip).lheld.filter fun h => h.1 == q).length

def execTspawn (d : PReg) (a : GReg) (q : BitVec 4) (ms : Ms) (s : State) : Host.Outcome State Fault Refusal :=
  scalar (.tspawn d a q ms) ms s fun s => do
    let s ← release s
    let p := s.g a
    needAt (decide (ptrSpace p ≤ 4)) Code.space p
    let (s, bs) ← loadAt s .lin 1 p 128
    let chip := epChip s.cx.ep
    let desc := lqAddr s chip q.toNat
    needAt (desc != 0) Code.space p
    let size ← physRead s chip (desc + 8) 4
    let head ← physRead s chip (desc + 16) 4
    let tail ← physRead s chip (desc + 20) 4
    let mine := (s.myTeam.map fun t => t.held.length).getD 0
    if 16 ≤ mine ∨ size ≤ (tail + 2 ^ 32 - head) % 2 ^ 32 + heldFor s chip q.toNat then .ok (s.setP d false)
    else
      let bs := bs.take 24 ++ bytesOf s.cx.team.toNat 4 ++ bs.drop 28
      let s := s.modTeam s.cx.chip s.cx.team fun t => { t with held := t.held ++ [(q.toNat, s.cx.rank, t.held.length, bs)] }
      .ok (s.setP d true)

/-! ### Waiting and yielding (R174, R176, R177) -/

def condHolds (c : WCond) (w v : Word) : Bool :=
  match c with
  | .eq => w == v
  | .ne => w != v
  | .gen => decide (v.toNat ≤ w.toNat)

/-- The word of WAITA and its checks (R176). -/
def waitWord (s : State) (p : Word) : Res (State × Word) := do
  needAt (decide (ptrSpace p ≤ 1)) Code.space p
  let pls ← places s (ctxWho s false) .read .lin 8 false p 8
  meetingAt (ctxWho s false) pls (needAt (ptrSpace p == 1 || pls.all fun pl => pl.cls == 1 || pl.cls == 2) Code.cls p)
  let (s, bs) ← loadAt s .lin 8 p 8
  .ok (s, BitVec.ofNat 64 (leNat bs))

def execWaita (c : WCond) (d a : GReg) (b : BReg) (ms : Ms) (s : State) : Host.Outcome State Fault Refusal :=
  scalar (.waita c d a b ms) ms s fun s => do
    let p := s.g a
    let v := b.val s
    let (s, w) ← waitWord s p
    if condHolds c w v then .ok (s.setG d w)
    else do
      suspendOrder s
      suspendFor s stWaitAddress p (.addr c v d p none)

/-- What a suspended WAITA finds at its word now, if the device can read it. -/
def waitedWord (s : State) (x : Waiter) (p : Word) : Option Word :=
  let rank := ((s.team? x.chip x.team).map fun t => t.rankOf x.ep).getD 0
  let w := engineWho s x.ep .control x.chip x.team rank
  match places s w .read .lin 8 false p 8 with
  | .ok pls => some (BitVec.ofNat 64 (leNat (readPlaces s w pls)))
  | .error _ => none

/-- Re-read every awaited word; the first value that satisfies a wait is kept (R176). -/
def latchWaits (s : State) : State :=
  { s with waiters := s.waiters.map fun x =>
    match x.kind with
    | .addr c v d p none =>
      match waitedWord s x p with
      | some w => if condHolds c w v then { x with kind := .addr c v d p (some w) } else x
      | none => x
    | _ => x }

/-- A suspended WAITA whose condition has been found true: the value goes to its save area and the record becomes READY. -/
def wakeAddr (s : State) (chip : ChipNo) (rc : Word) : Res State :=
  match (latchWaits s).waiters.find? fun x => x.chip == chip && x.recA == rc &&
      (match x.kind with | .addr _ _ _ _ (some _) => true | _ => false) with
  | some x =>
    match x.kind with
    | .addr _ _ d _ (some w) => do
      let s ← wakeWrite s x.chip x.team x.recA d w
      wakeRec s x.chip x.team x.recA
    | _ => .ok s
  | none => .ok s

def execWaitaWake (chip : ChipNo) (rc : Word) (s : State) : Host.Outcome State Fault Refusal := event s (wakeAddr s chip rc)

/-- R116 on the executing continuation's own record, before it is placed on a ready queue. -/
def checkOwn (s : State) : Res Unit :=
  let c := s.cx
  match s.myTeam with
  | some t => recsCheck s t c.recA
  | none => .ok ()

def execYield (ms : Ms) (s : State) : Host.Outcome State Fault Refusal :=
  scalar (.yield ms) ms s fun s => do
    suspendOrder s
    let c := s.cx
    checkOwn s
    let s ← suspendCx s stReady 0 (slotAfter c)
    let s ← makeReady s c.chip c.team c.recA
    .ok { s with note := .transfer }

/-- R174: the save area is written first; the count is then checked. -/
def execSusp (ms : Ms) (s : State) : Host.Outcome State Fault Refusal :=
  scalar (.susp ms) ms s fun s => do
    suspendOrder s
    let c := s.cx
    let w := devWho s c.ep c.chip c.team
    let r ← readRec s w c.recA
    if r.count = 0 then putSave s w r.save (saveList c) else suspendFor s stWaitCounter 0 .counter

/-! ### Phase barriers (R178-R181) -/

/-- The payload operations of R179. -/
def payOp (op : Nat) (x y : Nat) : Nat :=
  match op with
  | 1 => (x + y) % 2 ^ 64
  | 2 => if sintOf 64 x ≤ sintOf 64 y then x else y
  | 3 => if sintOf 64 x ≤ sintOf 64 y then y else x
  | 4 => x &&& y
  | 5 => x ||| y
  | 6 => x ^^^ y
  | 7 => if x ≤ y then x else y
  | 8 => if x ≤ y then y else x
  | _ => 0

def payIdentity (op : Nat) : Nat :=
  match op with
  | 2 => 2 ^ 63 - 1
  | 3 => 2 ^ 63
  | 4 | 7 => 2 ^ 64 - 1
  | _ => 0

/-- A phase barrier's descriptor (R178). -/
structure Bar where
  expect : Nat
  arrc : Nat
  arrn : Nat
  phase : Nat
  dropn : Nat
  op : Nat
  payc : Nat
  payn : Nat
  result : Nat
  deriving DecidableEq, Repr

def readBar (o : Obj) (s : State) : Bar :=
  { expect := o.get s 0 4, arrc := o.get s 4 4, arrn := o.get s 8 4, phase := o.get s 12 4, dropn := o.get s 16 4,
    op := o.get s 20 1 % 16, payc := o.get s 24 8, payn := o.get s 32 8, result := o.get s 40 8 }

def writeBar (o : Obj) (s : State) (b : Bar) : State :=
  let s := o.put (o.put (o.put (o.put (o.put s 0 4 b.expect) 4 4 b.arrc) 8 4 b.arrn) 12 4 b.phase) 16 4 b.dropn
  o.put (o.put (o.put s 24 8 b.payc) 32 8 b.payn) 40 8 b.result

/-- (a - b) mod 2^32. -/
def phaseDiff (a b : Nat) : Nat := (a % 2 ^ 32 + 2 ^ 32 - b % 2 ^ 32) % 2 ^ 32

def Bar.count (b : Bar) (x : Nat) : Bar := { b with arrc := (b.arrc + 1) % 2 ^ 32, payc := payOp b.op b.payc x }
def Bar.early (b : Bar) (x : Nat) : Bar := { b with arrn := (b.arrn + 1) % 2 ^ 32, payn := payOp b.op b.payn x }

/-- Complete(d) without its wake-ups (R180). -/
def Bar.complete (b : Bar) : Bar :=
  { b with result := b.payc, expect := (b.expect + 2 ^ 32 - b.dropn) % 2 ^ 32, dropn := 0, payc := b.payn, arrc := b.arrn,
           payn := payIdentity b.op, arrn := 0, phase := (b.phase + 1) % 2 ^ 32 }

/-- A suspended record at a barrier. -/
def atBarrier (k : WaitKind) : Bool :=
  match k with
  | .await .. | .arrive .. => true
  | _ => false

/-- Park a suspended record with a fault (R144). -/
def parkWaiter (s : State) (x : Waiter) (t : Trap) (pc : Word) (ctx : BitVec 2) : Res State := do
  let tm := s.team? x.chip x.team
  let rank := (tm.map fun t => t.rankOf x.ep).getD 0
  let w := devWho s x.ep x.chip x.team
  let s ← putState s w x.recA stParked
  let s ← putRec s w x.recA 0 8 pc.toNat
  let m := mkMsg s x.chip x.team t.code ctx (t.flags false) rank pc t.addr x.recA x.ep 0 t.extra0 t.extra1
  let s := dropWait s x.chip x.team x.recA
  let y : Waiter := { x with kind := .parked m.sstep ((tm.map fun t => t.attempts).getD 0) pc t.addr false false }
  postMsg { s with waiters := s.waiters ++ [y] } (svcOf s x.chip x.team) m

/-- Settle(d), with the wake-ups of each completion and the suspended arrivals performed again; one performed again at a barrier
with EXPECT 0 faults GROUP, as any arrival there (R180). -/
def settleBar (o : Obj) : Nat → Bool → State → Bar → Res (State × Bar)
  | 0, _, s, b => .ok (s, b)
  | f + 1, force, s, b =>
    let late := (waitersAt s o atBarrier).find? fun x =>
      match x.kind with
      | .arrive p _ _ _ _ _ => decide (phaseDiff p.toNat b.phase ≤ 1)
      | _ => false
    match late with
    | some x =>
      match x.kind with
      | .arrive p y d _ pc ctx =>
        if b.expect = 0 then do
          let s ← parkWaiter s x (Trap.of Code.group) pc ctx
          settleBar o f force s b
        else do
          let b' := if phaseDiff p.toNat b.phase = 0 then b.count y.toNat else b.early y.toNat
          -- every member of a gang arrives for itself (R171)
          let s ← wakeWriteOne s x.chip x.team x.recA d (p + 1)
          let s ← wakeRec s x.chip x.team x.recA
          settleBar o f force s b'
      | _ => .ok (s, b)
    | none =>
      if force || (b.expect != 0 && decide (b.expect ≤ b.arrc)) then do
        let b' := b.complete
        let done := (waitersAt s o atBarrier).filter fun x =>
          match x.kind with
          | .await p _ _ => phaseDiff b'.phase p.toNat == 1
          | _ => false
        let s ← done.foldlM (fun s x =>
          match x.kind with
          | .await _ d _ => do
            let s ← wakeWrite s x.chip x.team x.recA d (BitVec.ofNat 64 b'.result)
            wakeRec s x.chip x.team x.recA
          | _ => .ok s) s
        settleBar o f false s b'
      else .ok (s, b)

/-- Write a descriptor back with its list of suspended records. -/
def putBar (s : State) (o : Obj) (b : Bar) : Res State := do
  let s := writeBar o s b
  let (s, first) ← chainWaiters s (waitersAt s o atBarrier)
  .ok (o.put s 48 8 first)

/-- Settle a barrier and write it back. -/
def settle (s : State) (o : Obj) (b : Bar) : Res State := do
  let (s, b) ← settleBar o (2 * s.waiters.length + 4) (b.expect == 0) s b
  putBar s o b

def execArrive (d a : GReg) (b : BReg) (ms : Ms) (s : State) : Host.Outcome State Fault Refusal :=
  scalar (.arrive d a b ms) ms s fun s => do
    let s ← release s
    let desc := s.g a
    let p := s.g d
    let x := b.val s
    let o ← object s desc
    let r := readBar o s
    need (decide (r.op ≤ 8)) Code.group
    need (r.expect != 0) Code.group
    let δ := phaseDiff p.toNat r.phase
    if δ = 0 then objOp (s.setG d (p + 1)) o fun s => settle s o (r.count x.toNat)
    else if δ = 1 then objOp (s.setG d (p + 1)) o fun s => settle s o (r.early x.toNat)
    else if δ = 2 then do
      suspendOrder s
      let s ← suspendFor (countFarAt s o.pls) stWaitBarrier (desc ||| 2 ||| BitVec.ofNat 64 (p.toNat % 2)) (.arrive p x d desc s.cx.ipc s.cx.no)
      putBar s o r
    else fail Code.group

def execAwait (d a b : GReg) (ms : Ms) (s : State) : Host.Outcome State Fault Refusal :=
  scalar (.await d a b ms) ms s fun s => do
    let desc := s.g a
    let p := s.g b
    let o ← object s desc
    let r := readBar o s
    need (decide (r.op ≤ 8)) Code.group
    let δ := phaseDiff r.phase p.toNat
    if δ = 1 then .ok ((countFarAt s o.pls).setG d (BitVec.ofNat 64 r.result))
    else if δ = 0 ∨ δ = 2 ^ 32 - 1 then do
      suspendOrder s
      let s ← suspendFor (countFarAt s o.pls) stWaitBarrier (desc ||| BitVec.ofNat 64 (p.toNat % 2)) (.await p d desc)
      putBar s o r
    else fail Code.group

def execDrop (a b : GReg) (ms : Ms) (s : State) : Host.Outcome State Fault Refusal :=
  scalar (.drop a b ms) ms s fun s => do
    let s ← release s
    let desc := s.g a
    let p := s.g b
    let o ← object s desc
    let r := readBar o s
    need (decide (r.op ≤ 8)) Code.group
    need (r.expect != 0) Code.group
    let δ := phaseDiff p.toNat r.phase
    if δ = 0 then objOp s o fun s => settle s o { r with expect := r.expect - 1 }
    else if δ = 1 then objOp s o fun s => settle s o { r with dropn := (r.dropn + 1) % 2 ^ 32 }
    else fail Code.group

/-! ### SSYNC and SSNUM (R182-R184) -/

/-- The arrival waits at the SSYNC until it counts (R183). -/
def execSsync (d a b : GReg) (v : Bool) (op : BitVec 4) (ms : Ms) (s : State) : Host.Outcome State Fault Refusal :=
  scalar (.ssync d a b v op ms) ms s fun s => do
    need (!isService s s.cx.ep) Code.illop
    need (decide (op.toNat ≤ 8)) Code.group
    let y : Sync := { d := d, payload := s.g a, op := op.toNat, vote := v && s.g b != 0, pc := s.cx.ipc }
    .ok { s with cx := { s.cx with mode := .syncing, sync := some y }, note := .transfer }

/-- The first 8 queues of R104 that an SSYNC must find empty. -/
def queuesClear (c : Context) : Bool := c.q.toList.all List.isEmpty

/-- R197 for a core: ricks, matrix unit, statistics updates, walker. -/
def coreQuiet (s : State) (e : EP) : Bool :=
  let k := s.core e
  (openRicks k).isEmpty && !(s.cords.any fun c => c.src == e) && !(s.statuses.any fun c => c.src == e) &&
  k.mx.queue.isEmpty && !(s.updates.any fun u => u.src == e) &&
  (k.walker.state != .running || (k.walker.sub == 0 && !k.walker.stuck &&
    !(k.engine.any fun o => o.recA == k.walker.recA && !o.stuck)))

/-- Engine operations and matrix commands of a record, on whatever core of the team it issued them (R183, R291). -/
def recBusy (s : State) (chip : ChipNo) (team : Word32) (a : Word) : Bool :=
  s.cores.any fun (q : Nat × Core) => q.2.chip == chip && q.2.team == team &&
    ((q.2.engine.any fun o => o.recA == a) || q.2.mx.queue.any fun m => m.recA == a)

/-- R183 items 3 to 7 for a context. -/
def drained (s : State) (c : Context) : Bool :=
  let k := s.core c.ep
  (openRicks k).isEmpty && !(s.cords.any fun x => x.src == c.ep) && !(s.statuses.any fun x => x.src == c.ep) &&
  !recBusy s c.chip c.team c.recA &&
  !(s.updates.any fun u => u.src == c.ep) &&
  (k.walker.state != .running || (k.walker.sub == 0 && !k.walker.stuck &&
    !(k.mx.queue.any fun m => m.recA == k.walker.recA) && !(k.engine.any fun o => o.recA == k.walker.recA)))

/-- An SSYNC arrival drains, then counts (R182, R183). -/
def countArrival (s : State) : Res State :=
  let c := s.cx
  match c.mode, c.sync with
  | .syncing, some y =>
    if vecBusy c then .ok s
    else if !queuesClear c then faultContext { s with cx := { c with mode := .running, sync := none } } (Trap.of Code.qmisuse) true
    else if !(openRicks (s.core c.ep)).isEmpty then .ok (flushAll s c.ep)
    else if !drained s c then .ok s
    else
      let x : Arrival := { recA := c.recA, rank := c.rank, ctx := c.no, ep := c.ep, d := y.d, payload := y.payload, op := y.op,
                           pc := y.pc, parked := false }
      let s := s.modTeam c.chip c.team fun t => { t with arrivals := t.arrivals ++ [x] }
      let s := if y.vote then addVote s c.chip c.team { cause := 11, pc := y.pc, rank := c.rank, ctx := c.no } else s
      .ok { s with cx := { c with mode := .arrived, pc := nextSlot y.pc } }
  | _, _ => .ok s

def execSsyncArrivalCount (ep : EP) (ctx : BitVec 2) (s : State) : Host.Outcome State Fault Refusal :=
  event s (countArrival (s.switchTo ep ctx))

/-- The superstep number in force (R184); 0 in a context of no team (DESIGN CHOICE, notes/assumptions/124.md). -/
def execSsnum (d : GReg) (ms : Ms) (s : State) : Host.Outcome State Fault Refusal :=
  scalar (.ssnum d ms) ms s fun s => .ok (s.setG d ((s.myTeam.map fun t => t.ssn.setWidth 64).getD 0))

/-! ### Gangs (R185) -/

def shapeDims (sh : BitVec 2) : Nat × Nat :=
  match sh.toNat with
  | 0 => (1, 2)
  | 1 => (2, 1)
  | 2 => (2, 2)
  | _ => (4, 4)

/-- The cores of the aligned subgroup of a shape that holds a core, in rank order; none when it leaves the team (R126). -/
def subgroup (t : Team) (e : EP) (sh : BitVec 2) : Option (List EP) :=
  let (w, h) := shapeDims sh
  let i := coreX e - t.x0
  let j := coreY e - t.y0
  let i0 := i - i % w
  let j0 := j - j % h
  if i0 + w ≤ t.w ∧ j0 + h ≤ t.h then
    some ((List.range h).flatMap fun y => (List.range w).map fun x => t.coreOf ((j0 + y) * t.w + i0 + x))
  else none

/-- The waiters in FUSE on the cores of a subgroup, one a core, in rank order. -/
def fusing (s : State) (t : Team) (es : List EP) : List Waiter :=
  es.filterMap fun e => s.waiters.find? fun x =>
    x.chip == t.chip && x.team == t.id && x.ep == e && (match x.kind with | .fuse .. => true | _ => false)

/-- The shape and PC of a waiter in FUSE, and its context. -/
def fuseOf (x : Waiter) : Option (BitVec 2 × Word × BitVec 2) :=
  match x.kind with
  | .fuse sh pc c => some (sh, pc, c)
  | _ => none

/-- Every core of the subgroup has executed FUSE: check the arrivals and form the gang (R185, R136). -/
def formGang (s : State) (t : Team) (xs : List Waiter) : Res State :=
  match xs with
  | [] => .ok s
  | l :: _ =>
    let same := xs.all fun x => (fuseOf x).map (fun f => (f.1, f.2.1)) == (fuseOf l).map fun f => (f.1, f.2.1)
    if !same then
      xs.foldlM (fun s x => match fuseOf x with
        | some (_, pc, c) => parkWaiter s x (Trap.of Code.group) pc c
        | none => .ok s) s
    else do
      xs.forM fun x => recCheck s (devWho s x.ep x.chip x.team) t x.recA false
      let s ← xs.foldlM (fun s x => do
        let w := devWho s x.ep x.chip x.team
        let s ← putStatus s w x.recA 6 2 (if x.recA = l.recA then 1 else 2)
        let s ← putStatus s w x.recA 9 1 1
        .ok (dropWait s x.chip x.team x.recA)) s
      let s := s.modTeam t.chip t.id fun t => { t with gangs := t.gangs ++ [(l.recA, xs.map fun x => (x.recA, x.ep))] }
      makeReady s t.chip t.id l.recA

/-- A subgroup with the core of which every core waits in FUSE, one of them in the subgroup's own shape (R185). -/
def fuseDone (s : State) (t : Team) (e : EP) : Option (List Waiter) :=
  ([0, 1, 2, 3] : List (BitVec 2)).findSome? fun sh =>
    match subgroup t e sh with
    | none => none
    | some es =>
      let xs := fusing s t es
      if xs.length = es.length && (xs.any fun x => (fuseOf x).any fun f => f.1 == sh) then some xs else none

def execFuse (shape : BitVec 2) (ms : Ms) (s : State) : Host.Outcome State Fault Refusal :=
  scalar (.fuse shape ms) ms s fun s => do
    let c := s.cx
    need (c.gang.isNone && isCompute c.ep) Code.group
    match s.myTeam with
    | none => fail Code.group
    | some t =>
      match subgroup t c.ep shape with
      | none => fail Code.group
      | some _ => do
        suspendOrder s
        let s ← suspendFor s stWaitBarrier 0 (.fuse shape c.ipc c.no)
        match fuseDone s t c.ep with
        | some xs => formGang s t xs
        | none => .ok s

/-- Each member that executes the SPLIT leaves its gang (R185); of a SPLIT that is predicated off for some, `leaveGang` says what
becomes of them (DESIGN CHOICE, notes/assumptions/128.md). -/
def execSplit (ms : Ms) (s : State) : Host.Outcome State Fault Refusal :=
  scalar (.split ms) ms s fun s => do
    let c := s.cx
    need c.gang.isSome Code.group
    let s ← putStatus s (devWho s c.ep c.chip c.team) c.recA 6 2 0
    let s ← leaveGang s c.chip c.team c.recA
    .ok { s with cx := { s.cx with gang := none } }

/-! ### Task queues (R142, R143, R186) -/

def atPush (k : WaitKind) : Bool := match k with | .tqPush .. => true | _ => false
def atPop (k : WaitKind) : Bool := match k with | .tqPop .. => true | _ => false

/-- The descriptor's own checks (R186). -/
def queueCheck (s : State) (o : Obj) (p : Word) : Res Unit := do
  let cap := o.get s 8 4
  needAt (decide (1 ≤ cap) && decide (cap ≤ 2 ^ 20) && decide (o.get s 12 4 + o.get s 16 4 = cap)) Code.space p

/-- An entry of the ring. -/
def ringPlaces (s : State) (o : Obj) (i : Nat) : Res (List Place) :=
  let p : Word := BitVec.ofNat 64 (o.get s 0 8 + 8 * i)
  do
    needAt (ptrSpace p == 0) Code.space p
    places s o.w .both .lin 1 false p 8

/-- Keep the lists of waiting producers and consumers (R142). -/
def putQueueLists (s : State) (o : Obj) : Res State := do
  let (s, pw) ← chainWaiters s (waitersAt s o atPush)
  let (s, cw) ← chainWaiters s (waitersAt s o atPop)
  .ok (o.put (o.put s 32 8 pw) 40 8 cw)

/-- Write an entry at TAIL and advance TAIL. -/
def ringPut (s : State) (o : Obj) (e : Word) : Res State := do
  let tail := o.get s 24 4
  let pls ← ringPlaces s o tail
  let s := writePlaces s o.w s.cx.no s.cx.ipc pls (bytesOf e.toNat 8)
  .ok (o.put s 24 4 ((tail + 1) % o.get s 8 4))

def execTqpush (a b : GReg) (ms : Ms) (s : State) : Host.Outcome State Fault Refusal :=
  scalar (.tqpush a b ms) ms s fun s => do
    let s ← release s
    need s.cx.gang.isNone Code.group
    let desc := s.g a
    let e := s.g b
    let o ← object s desc
    queueCheck s o desc
    if o.get s 12 4 = 0 then do
      suspendOrder s
      let s ← suspendFor (countFarAt s o.pls) stWaitQueue desc (.tqPush e desc)
      putQueueLists s o
    else objOp s o fun s =>
      match waitersAt s o atPop with
      | x :: _ =>
        match x.kind with
        | .tqPop d _ => do
          let s ← wakeWrite s x.chip x.team x.recA d e
          let s ← wakeRec s x.chip x.team x.recA
          putQueueLists s o
        | _ => .ok s
      | [] => do
        let s ← ringPut s o e
        .ok (o.put (o.put s 12 4 (o.get s 12 4 - 1)) 16 4 (o.get s 16 4 + 1))

def execTqpop (d a : GReg) (ms : Ms) (s : State) : Host.Outcome State Fault Refusal :=
  scalar (.tqpop d a ms) ms s fun s => do
    need s.cx.gang.isNone Code.group
    let desc := s.g a
    let o ← object s desc
    queueCheck s o desc
    if o.get s 16 4 = 0 then do
      suspendOrder s
      let s ← suspendFor (countFarAt s o.pls) stWaitQueue desc (.tqPop d desc)
      putQueueLists s o
    else objOp s o fun s => do
      let head := o.get s 20 4
      let pls ← ringPlaces s o head
      let s := s.setG d (BitVec.ofNat 64 (leNat (pls.map (readByte s o.w))))
      let s := o.put s 20 4 ((head + 1) % o.get s 8 4)
      match waitersAt s o atPush with
      | x :: _ =>
        match x.kind with
        | .tqPush e _ => do
          let s ← ringPut s o e
          let s ← wakeRec s x.chip x.team x.recA
          putQueueLists s o
        | _ => .ok s
      | [] => .ok (o.put (o.put s 12 4 (o.get s 12 4 + 1)) 16 4 (o.get s 16 4 - 1))

end Sys2Proof.Machine
end

