-- ==== Sys2Proof/Machine/Bind.lean ====
section
/-! DEFINITION. Meanings: the scheduler's events: binding a ready record (R118, R122, R123, R138), ageing (R121), and the
suspension of an arrival that has counted (R198). -/
namespace Sys2Proof.Machine

/-! ### Which record a context takes -/

/-- A ready record as memory holds it, if the device can read it. -/
def readyFields (s : State) (r : ReadyRec) : Option Rec :=
  match s.team? r.chip r.team with
  | none => none
  | some t =>
    match readRec s (devWho s (t.coreOf 0) r.chip r.team) r.recA with
    | .ok x => some x
    | .error _ => none

/-- A record of the team that a core serves, while that team's superstep is open. -/
def servesRec (s : State) (e : EP) (r : ReadyRec) : Bool :=
  let k := s.core e
  k.team != 0 && k.chip == r.chip && k.team == r.team && (s.team? r.chip r.team).any fun t => t.state == .opened

/-- The gang whose leader's record this is. -/
def gangLed (s : State) (r : ReadyRec) : List (Word × EP) :=
  match s.team? r.chip r.team with
  | some t => match gangOf t r.recA with
    | m :: ms => if m.1 = r.recA then m :: ms else []
    | [] => []
  | none => []

/-- A solo record that a context of the core takes from its own queue: a pinned one only at HOME (R122). -/
def takesSolo (s : State) (e : EP) (r : ReadyRec) : Bool :=
  servesRec s e r && (gangLed s r).isEmpty &&
  match readyFields s r, s.team? r.chip r.team with
  | some x, some t => !x.pin || homeOf t r.recA x == e
  | _, _ => true

/-- A record that another cluster may steal: neither pinned nor a gang's (R123). -/
def takesStolen (s : State) (e : EP) (r : ReadyRec) : Bool :=
  takesSolo s e r && (readyFields s r).all fun x => !x.pin && x.grole == 0

/-- The first record of a queue that a test admits, from the highest level down. -/
def firstReady (q : ReadyQ) (f : ReadyRec → Bool) : Option (Nat × ReadyRec) :=
  ([3, 2, 1, 0] : List Nat).findSome? fun l => ((q.level l).find? f).map fun r => (l, r)

/-- Every ready record of a core's team, with its queue. -/
def readyOf (s : State) (e : EP) : List (Nat × ReadyRec) :=
  s.ready.flatMap fun (q : Nat × ReadyQ) =>
    ((q.2.toList.flatten).filter fun r => servesRec s e r).map fun r => (q.1, r)

/-- Ready gangs with a member on a core (R138). -/
def gangsWaiting (s : State) (e : EP) : Nat :=
  ((readyOf s e).filter fun q => (gangLed s q.2).any fun m => m.2 == e).length

/-- The idle contexts of a core, by number. -/
def idleCtxs (s : State) (e : EP) : List (BitVec 2) :=
  ((List.range (ctxCount e)).map fun i => BitVec.ofNat 2 i).filter fun n => !(s.ctx e n).bound

/-- The queues that a core's contexts steal from, in ring order (R123, R449); optimiser cores and the collier steal
nowhere. -/
def stealRing (s : State) (e : EP) : List Nat :=
  if !isCompute e then []
  else match s.team? (s.core e).chip (s.core e).team with
    | none => []
    | some t =>
      let own := t.clusterOf e
      let n := t.clusterCount
      (List.range (n - 1)).map fun i =>
        let c := (own + 1 + i) % n
        let x := t.x0 / 4 + c % t.clusterCols
        let y := t.y0 / 4 + c / t.clusterCols
        queueKey (coreAt t.chip t.die (4 * x) (4 * y))

/-- The members of a gang and the contexts that would bind them: the given one for the leader's core, the lowest idle one
of each other core, since R138 does not say which (DESIGN CHOICE, notes/assumptions/132.md). None unless every pool holds its
member's allotment (R138). -/
def gangPlaces (s : State) (no : BitVec 2) (r : ReadyRec) : Option (List (Word × EP × BitVec 2)) :=
  (gangLed s r).mapM fun m =>
    let ctx := if m.1 = r.recA then some no else (idleCtxs s m.2).head?
    match ctx, readyFields s { r with recA := m.1 } with
    | some n, some x => if poolHolds s m.2 x then some (m.1, m.2, n) else none
    | _, _ => none

/-- What an idle context takes: the queue, the level, the record, and the members to bind. A context that stands by for a
gang takes nothing else (R138); a pool that lacks the granules of the first eligible record blocks the rest (R118). -/
def seek (s : State) (e : EP) (no : BitVec 2) : Option (Nat × Nat × ReadyRec × List (Word × EP × BitVec 2)) :=
  let own := queueKey e
  let idx := (idleCtxs s e).findIdx? fun n => n == no
  match idx with
  | none => none
  | some i =>
    if (s.chip (epChip e)).stopped then none
    else if i < gangsWaiting s e then
      match firstReady (s.readyQ own) fun r => servesRec s e r && ((gangLed s r).head?.map fun m => m.2) == some e with
      | some (l, r) => (gangPlaces s no r).map fun ms => (own, l, r, ms)
      | none => none
    else
      let holds (q : Nat × Nat × ReadyRec) : Option (Nat × Nat × ReadyRec × List (Word × EP × BitVec 2)) :=
        if (readyFields s q.2.2).all fun x => poolHolds s e x then some (q.1, q.2.1, q.2.2, [(q.2.2.recA, e, no)]) else none
      match firstReady (s.readyQ own) (takesSolo s e) with
      | some (l, r) => holds (own, l, r)
      | none =>
        match (stealRing s e).findSome? fun k => (firstReady (s.readyQ k) (takesStolen s e)).map fun q => (k, q.1, q.2) with
        | some q => holds q
        | none => none

/-- A context binds what it takes. A record that fails R116 leaves its queue unbound. -/
def bindNext (s : State) (e : EP) (no : BitVec 2) : Res State :=
  match seek s e no with
  | none => .ok s
  | some (key, l, r, ms) =>
    match s.team? r.chip r.team with
    | none => .ok s
    | some t => do
      let x ← readRec s (devWho s (t.coreOf 0) r.chip r.team) r.recA
      let s ← removeLevel s key l r (homeOf t r.recA x)
      match recsCheck s t r.recA with
      | .error (.halt f) => .error (.halt f)
      | .error _ => .ok s
      | .ok _ =>
        let gang := if ms.length ≤ 1 then none else some r.recA
        ms.foldlM (fun (s : State) (m : Word × EP × BitVec 2) => do
          let s ← bindRec s m.2.1 m.2.2 r.chip r.team m.1
          .ok (s.modCtx m.2.1 m.2.2 fun c => { c with gang := gang })) s

def execContextBind (ep : EP) (ctx : BitVec 2) (s : State) : Host.Outcome State Fault Refusal := event s (bindNext s ep ctx)

/-! ### Ageing -/

/-- A record at the head of a level below 3 that has waited its time there (R121). Records enter a level in the order of
their waits, so that ageing by heads keeps their order. -/
def agedHead (s : State) (chip : ChipNo) (rc : Word) : Option (Nat × Nat × ReadyRec) :=
  s.ready.findSome? fun (q : Nat × ReadyQ) =>
    ([2, 1, 0] : List Nat).findSome? fun l =>
      match (q.2.level l).head? with
      | some r => if r.recA = rc ∧ r.chip = chip ∧ r.since + Config.ageLimit ≤ s.time then some (q.1, l, r) else none
      | none => none

/-- The record moves to the tail of the next level up. -/
def ageRecord (s : State) (chip : ChipNo) (rc : Word) : Res State :=
  match agedHead s chip rc with
  | none => .ok s
  | some (key, l, r) =>
    match s.team? r.chip r.team with
    | none => .ok s
    | some t => do
      let x ← readRec s (devWho s (t.coreOf 0) r.chip r.team) r.recA
      let home := homeOf t r.recA x
      let s ← removeLevel s key l r home
      appendLevel s key (l + 1) { r with since := s.time } home

def execReadyAge (chip : ChipNo) (rc : Word) (s : State) : Host.Outcome State Fault Refusal := event s (ageRecord s chip rc)

/-! ### An arrival makes room (R198) -/

/-- Whether a READY record of the team is eligible for a context of a core that has none idle. -/
def wantsContext (s : State) (e : EP) : Bool :=
  (idleCtxs s e).isEmpty &&
  ((firstReady (s.readyQ (queueKey e)) (takesSolo s e)).isSome || decide (0 < gangsWaiting s e))

/-- The contexts that suspend with an arrived one: itself, or every member of its gang (R138). -/
def withGang (s : State) (c : Context) : List Context :=
  match c.gang with
  | none => [c]
  | some l => s.contexts.filter fun x => x.bound && x.chip == c.chip && x.team == c.team && x.gang == some l

/-- The arrived continuation suspends; the decision makes it READY. -/
def suspendArrived (s : State) : Res State :=
  let cs := withGang s s.cx
  if s.cx.mode == .arrived && (cs.all fun c => c.mode == .arrived) && wantsContext s s.cx.ep then
    cs.foldlM (fun (s : State) (c : Context) => do
      let s ← suspendCx (s.switchTo c.ep c.no) stWaitBarrier 0 c.pc
      let x : Waiter := { chip := c.chip, team := c.team, recA := c.recA, ep := c.ep,
                          kind := .arrived ((c.sync.map fun y => y.d).getD 0) }
      .ok { s with waiters := s.waiters ++ [x] }) s
  else .ok s

def execArrivedSuspend (ep : EP) (ctx : BitVec 2) (s : State) : Host.Outcome State Fault Refusal :=
  event s (suspendArrived (s.switchTo ep ctx))

end Sys2Proof.Machine
end

