-- ==== Sys2Proof/Machine/Report.lean ====
section
/-! DEFINITION. What the package reports: the event log (R442), non-fatal errors (R421, R422, R425) and completion words
that the device writes (R129, R130, R134). -/
namespace Sys2Proof.Machine

/-- The class numbers of the AER list: 0 correctable, 1 non-fatal, 2 fatal. -/
def aerNonFatal : Nat := 1
def aerFatal : Nat := 2

/-- Report a non-fatal event (R421, R422); nothing is counted or reported from a fatal event on (R424). -/
def nonFatal (s : State) (chip : ChipNo) (fn : Fn) (dw0 : Nat) (team : Word32) (mask : Nat) (f : Errs → Errs) : State :=
  let c := s.chip chip
  if c.stopped then s
  else
    let e := f c.errs
    let x : Fn × Nat × Word × Word32 × Nat := (fn, aerNonFatal, BitVec.ofNat 64 (dw0 % 2 ^ 16), team, mask)
    s.setChip chip { c with errs := { e with lastTeam := team, aer := x :: e.aer } }

def bumpTerm (e : Errs) : Errs := { e with term := satAdd 16 e.term 1 }
def bumpLaunchf (e : Errs) : Errs := { e with launchf := satAdd 16 e.launchf 1 }

/-- The partitions of some cores. -/
def partsOf (es : List EP) : List Nat := (es.map partOf).eraseDups
def partMask (ps : List Nat) : Nat := (ps.map fun p => 2 ^ p).sum

/-- The function that reports an event of a team (R422): its partition's, or the physical function when it has several. -/
def teamReporter (s : State) (chip : ChipNo) (ps : List Nat) : Fn :=
  match ps with
  | [p] => reporter s chip p
  | _ => .pf

/-- Read a range, if the device can: every byte reached, and none in a line with an error that nothing corrects (R421). -/
def ownRead (s : State) (chip : ChipNo) (part va n : Nat) : Option (List Byte) :=
  (ownPlaces s chip part va n false).bind fun pls =>
    if pls.any fun pl => !pl.zero && s.poison.contains (pl.key / 64) then none
    else some (pls.map fun pl => if pl.zero then 0 else s.mem.get pl.key)

/-- Write a range at once, belonging to no superstep, if the device can; mirrored for the team whose word or record it is. A
mirror-table entry that faults the write leaves it unwritten (R389). -/
def ownWrite (s : State) (chip : ChipNo) (part : Nat) (team : Word32) (va : Nat) (bs : List Byte) : Option State :=
  let w := ownWho s chip part team
  (ownPlaces s chip part va bs.length true).bind fun pls =>
    match addMirrors s w (s.team? chip team) pls with
    | .ok pls => some (writeBytes s w pls bs)
    | .error (.trap _) => none
    | .error _ => some (writeBytes s w pls bs)

/-- A completion word of R130; one that cannot be written is left unwritten (R129). -/
def putCword (s : State) (chip : ChipNo) (part : Nat) (team : Word32) (cword v : Word) : State :=
  (ownWrite s chip part team cword.toNat (bytesOf v.toNat 8)).getD s

/-- 0xFFFF_FFFF_FFFF_0000 | code. -/
def failWord (code : Nat) : Word := 0xFFFFFFFFFFFF0000 ||| BitVec.ofNat 64 (code % 2 ^ 16)

end Sys2Proof.Machine
end

