-- ==== Sys2Proof/Machine/Launch.lean ====
section
/-! DEFINITION. Meanings: launch queues and launches (R127-R133, R192, R419, R428). -/
namespace Sys2Proof.Machine

/-! ### Launch records (R129) -/

structure LRec where
  entry : Word
  w : Nat
  h : Nat
  x : Nat
  y : Nat
  flags : Nat
  ggran : Nat
  vprio : Nat
  k0 : Nat
  /-- The bytes that must be zero. -/
  zeros : Nat
  id : Word32
  parent : Word32
  svc : EP
  cimg : Nat
  cslots : Nat
  nimg : Nat
  nrec : Nat
  npeer : Nat
  imgl : Nat
  sbase : Nat
  sres : Nat
  scom : Nat
  spoff : Nat
  lchip : Nat
  cword : Word
  cval : Word
  rectab : Word
  carea : Nat
  peert : Word
  mirt : Word
  deriving DecidableEq, Repr

def lrecOf (bs : List Byte) : LRec :=
  let f (o n : Nat) : Nat := leNat ((bs.drop o).take n)
  { entry := BitVec.ofNat 64 (f 0 8), w := f 8 1, h := f 9 1, x := f 10 1, y := f 11 1, flags := f 12 1, ggran := f 13 1,
    vprio := f 14 1, k0 := f 16 2, zeros := f 15 1 + f 18 2, id := BitVec.ofNat 32 (f 20 4), parent := BitVec.ofNat 32 (f 24 4),
    svc := BitVec.ofNat 32 (f 28 4), cimg := f 32 8, cslots := f 40 2, nimg := f 42 2, nrec := f 44 2, npeer := f 46 2,
    imgl := f 48 8, sbase := f 56 8, sres := f 64 4, scom := f 68 4, spoff := f 72 4, lchip := f 76 4,
    cword := BitVec.ofNat 64 (f 80 8), cval := BitVec.ofNat 64 (f 88 8), rectab := BitVec.ofNat 64 (f 96 8), carea := f 104 8,
    peert := BitVec.ofNat 64 (f 112 8), mirt := BitVec.ofNat 64 (f 120 8) }

def LRec.die (r : LRec) : Bool := testBit r.flags 0
def LRec.any (r : LRec) : Bool := testBit r.flags 1
def LRec.vgran (r : LRec) : Nat := bits r.vprio 0 4
def LRec.prio (r : LRec) : Nat := bits r.vprio 4 2

/-- Every field inside its range (R129; RECTAB by R312; the stack's by R109): else 0xFF01. With SCOM = 0 no SPOFF can lie
below SCOM, and R129 gives the device no range for it: any multiple of 64 passes (DESIGN CHOICE, notes/assumptions/35.md). -/
def LRec.ok (r : LRec) : Bool :=
  let isIn (lo hi n : Nat) : Bool := decide (lo ≤ n) && decide (n ≤ hi)
  isIn 1 32 r.w && isIn 1 32 r.h && isIn 0 31 r.x && isIn 0 31 r.y && (!r.any || (r.x == 0 && r.y == 0)) &&
  !testBit r.flags 3 && isIn 2 16 r.ggran && isIn 2 8 r.vgran && decide (r.vprio < 64) && r.zeros == 0 &&
  isIn 0 224 r.cslots && isIn 0 64 r.nimg && isIn 0 4095 r.npeer && isIn 0 262143 r.lchip && r.rectab.toNat % 128 == 0 &&
  r.sres % 4096 == 0 && r.scom % 4096 == 0 && decide (r.scom ≤ r.sres) && r.spoff % 64 == 0 && (r.scom == 0 || decide (r.spoff < r.scom))

/-! ### Rectangles (R125, R131) -/

structure Rect where
  die : Bool
  x : Nat
  y : Nat
  w : Nat
  h : Nat
  deriving DecidableEq, Repr

def Rect.cores (r : Rect) (chip : ChipNo) : List EP :=
  (List.range r.h).flatMap fun j => (List.range r.w).map fun i => coreAt chip r.die (r.x + i) (r.y + j)
/-- The partitions a rectangle enters (R4). -/
def Rect.parts (r : Rect) : List Nat :=
  let q (a n : Nat) : List Nat := ([0, 1] : List Nat).filter fun i => decide (a < 16 * i + 16) && decide (16 * i < a + n)
  (q r.y r.h).flatMap fun j => (q r.x r.w).map fun i => 4 * r.die.toNat + 2 * j + i

/-- Whether a cluster of a die is retired (R446). -/
def retiredAt (s : State) (e : EP) : Bool := (s.chip (epChip e)).col.retiredCl.contains (epDie e, clusterIx e)

/-- A rectangle of one die, in partitions the queue may use, of one root, with no retired core, and in no locked partition but
by its own queues (R130, R131, R337, R428). -/
def Rect.valid (r : Rect) (s : State) (chip : ChipNo) (q : Option Nat) (pmask : Nat) : Bool :=
  decide (r.x + r.w ≤ 32) && decide (r.y + r.h ≤ 32) &&
  (r.parts.all fun p => testBit pmask p && ptRoot (s.chip chip) p == ptRoot (s.chip chip) (r.parts.head?.getD 0) &&
    (let st := (((s.chip chip).host.ifaces.toList[p]?).map fun f => f.state.toNat).getD 0
     !(st == 1 || st == 2) || (match q with | some q => q / 2 == p | none => true))) &&
  (r.cores chip).all fun e => !retiredAt s e

/-- A core in no team and in no service (R131). -/
def coreFree (s : State) (e : EP) : Bool := (s.core e).team == 0 && !(s.core e).service

def Rect.free (r : Rect) (s : State) (chip : ChipNo) : Bool := (r.cores chip).all (coreFree s)

/-- The origins tried under ANY, in order (R131). -/
def anyRects (w h : Nat) : List Rect :=
  let step := if w % 4 = 0 ∧ h % 4 = 0 then 4 else 1
  [false, true].flatMap fun d => (List.range (32 / step)).flatMap fun j => (List.range (32 / step)).map fun i =>
    { die := d, x := step * i, y := step * j, w := w, h := h }

/-! ### Failing -/

/-- A launch fails: its completion word and the report (R130, R421, R422). -/
def launchFail (s : State) (chip : ChipNo) (part : Nat) (r : LRec) (code : Nat) (parts : List Nat) : State :=
  let s := putCword s chip part 0 r.cword (failWord code)
  nonFatal s chip (teamReporter s chip parts) code r.id 0 bumpLaunchf

/-! ### What a launch reads (R130, R132) -/

/-- An image in place: space, offset, bytes. -/
abbrev Img := Nat × Nat × List Byte

/-- What a launch has read: the buffer images, the constant image, the record table's pages. -/
structure LData where
  imgs : List Img
  consts : List Byte
  recPages : List Nat
  deriving DecidableEq, Repr

/-- An entry of the image list: a field outside its range gives 0xFF01, a fault 0xFF05. An entry of space 1 may reach the graph region
of LM: R129 asks only that the range lie within its buffer, while R139 lets GWLOAD alone write there (DESIGN CHOICE,
notes/assumptions/133.md). -/
def readImage (s : State) (chip : ChipNo) (part : Nat) (e : EP) (bs : List Byte) : Except Nat Img :=
  let dst : Word := BitVec.ofNat 64 (leNat (bs.take 8))
  let src := leNat ((bs.drop 8).take 8)
  let len := leNat ((bs.drop 16).take 4)
  let sp := ptrSpace dst
  let off := bits dst.toNat 0 20
  if !(1 ≤ sp && sp ≤ 4) || ptrRank dst != 0xFFF || dst.extractLsb' 20 28 != 0 || leNat (bs.drop 20) != 0 ||
      decide (bufSize e sp < off + len) then .error 0xFF01
  else match ownRead s chip part src len with
    | some x => .ok (sp, off, x)
    | none => .error 0xFF05

/-- The addresses of a record that a launch only translates: ENTRY, CWORD, and MIRT where mirroring is accepted (R129, R430). The page
of SBASE itself need not be mapped: in R109's own run only the reservation's top page is (DEDUCED, notes/assumptions/35.md). -/
def addressesOk (s : State) (chip : ChipNo) (part : Nat) (r : LRec) : Bool :=
  ([r.entry, r.cword] ++ (if feature s chip 4 then [r.mirt] else [])).all fun a => (ownPlaces s chip part a.toNat 1 false).isSome

/-- Everything read or translated once the cores are reserved (R129, R130). -/
def readLaunch (s : State) (chip : ChipNo) (part : Nat) (e : EP) (r : LRec) : Except Nat LData :=
  if !addressesOk s chip part r then .error 0xFF05
  else match ownRead s chip part r.imgl (24 * r.nimg) with
  | none => .error 0xFF05
  | some lb => do
    let imgs ← ((List.range r.nimg).map fun i => (lb.drop (24 * i)).take 24).mapM (readImage s chip part e)
    match ownRead s chip part r.cimg (8 * r.cslots), ownRead s chip part r.peert.toNat (8 * r.npeer) with
    | some consts, some _ =>
      let base := r.rectab.toNat / 4096 * 4096
      let n := if r.nrec = 0 then 0 else (r.rectab.toNat + 128 * r.nrec - 1) / 4096 - r.rectab.toNat / 4096 + 1
      match (List.range n).mapM fun i => (ownPlaces s chip part (base + 4096 * i) 1 false).bind fun k => (k.head?).map fun q => q.key with
      | some pages => .ok { imgs := imgs, consts := consts, recPages := pages }
      | none => .error 0xFF05
    | _, _ => .error 0xFF05

/-! ### Starting a team (R132, R133) -/

/-- The identity words, slots 0xF0 to 0xFF (R28, R410). -/
def identWords (t : Team) (e : EP) (rank : Nat) : List Nat :=
  let own : List Nat :=
    if isCompute e then
      [rank, coreX e + coreY e * 2 ^ 32, t.w + t.h * 2 ^ 32, t.clusterOf e, coreInCluster e]
    else List.replicate 5 (2 ^ 64 - 1)
  own ++ [t.id.toNat, t.lchip, e.toNat + t.resumes * 2 ^ 32, t.svc.toNat, t.resumes] ++ List.replicate 6 0

def putIdent (s : State) (t : Team) (e : EP) (rank : Nat) : State :=
  { s with mem := s.mem.setBytes (bufKey e 1 0x780) ((identWords t e rank).map fun x => bytesOf x 8).flatten }

/-- Zero a core's typed buffers (R132 step 2). -/
def zeroBuffers (s : State) (e : EP) : State := { s with mem := s.mem.dropRange (bufKey e 0 0) (bufKey e 8 0) }

/-- The overflow configuration of a partition that is in force: OVFCFG as the last launch into the partition found it (R210). -/
def ovfInForce (c : Chip) (part : Nat) : Nat := (alGet c.ovf part 0x200).toNat

/-- A launch whose rectangle enters partitions puts their OVFCFG in force (R210). -/
def setOvf (s : State) (chip : ChipNo) (parts : List Nat) : State :=
  s.modChip chip fun c => { c with ovf := parts.foldl (fun l p => alPut l p (c.reg (0x128 + p) 0x200)) c.ovf }

/-- The overflow area of a core of a partition: BASE of the core's own area, SIZE (R210). -/
def ovfOf (s : State) (e : EP) : Word :=
  let cfg := ovfInForce (s.chip (epChip e)) (partOf e)
  let base := bits cfg 20 37
  let size := bits cfg 8 4
  if base = 0 then 0
  else BitVec.ofNat 64 ((base * 2 ^ 20 + (16 * (coreY e % 16) + coreX e % 16) * 2 ^ (20 + size)) % 2 ^ 57 + size * 2 ^ 8)

/-- A core reserved by a team: its clamp empty, its pools whole, its accumulators +0, its counters zero (R132,
R275, R306, R329). -/
def reserveCore (s : State) (k : Core) (e : EP) (t : Team) (rank : Nat) : Core :=
  let k := k.setReg 0x128 (ovfOf s e)
  let full := Core.reset (epChip e)
  { k with
    chip := t.chip, team := t.id, rank := rank, service := t.service, freeG := if isOpt e then 16 else full.freeG, freeV := if isOpt e then 8 else full.freeV, heldG := 0,
    heldV := 0, bufcls := full.bufcls, bufclsNext := full.bufcls, rickLog := [], rickLost := 0,
    rkEvict := 0, rkFlush := 0, rkAge := 0, rkSize := 0, mx := MxUnit.reset, engine := [], walker := Walker.reset,
    egress := [], inflight := [], gqSlots := [], icache := [], l1 := [], idleSince := s.time, asleep := false }

/-- A core's part of the committed version (R201 step 6). -/
def coreCk (s : State) (e : EP) : CoreCk :=
  let k := s.core e
  { ep := e, bufcls := k.bufcls, regs := k.regs.filter fun r => decide (0x310 ≤ r.1) && decide (r.1 ≤ 0x323), acc := k.mx.acc,
    ck0 := k.mx.ck0, ck1 := k.mx.ck1, walker := k.walker, graph := s.mem.getBytes (bufKey e 1 Config.winHi) 0x800,
    heldG := k.heldG, heldV := k.heldV, freeG := k.freeG, freeV := k.freeV, inflight := k.inflight, gqSlots := k.gqSlots }

/-- The team's ready records by queue and level. -/
def readyItems (s : State) (chip : ChipNo) (team : Word32) : List (Nat × ReadyRec × Nat) :=
  s.ready.flatMap fun (q : Nat × ReadyQ) =>
    (q.2.toList.zipIdx).flatMap fun (l : List ReadyRec × Nat) =>
      (l.1.filter fun r => r.chip == chip && r.team == team).map fun r => (q.1, r, l.2)

/-- The optimiser cores bound to a team (R411). -/
def optCores (s : State) (chip : ChipNo) (team : Word32) : List EP :=
  ((List.range 32).filter fun j => (((s.chip chip).reg (0x730 + j) 0) >>> 32).setWidth 32 == team && team != 0).map fun j =>
    mkEp chip (decide (16 ≤ j)) (1024 + j % 16)

/-- Every core of a team, its optimiser cores last. -/
def allCores (s : State) (t : Team) : List EP := t.cores ++ optCores s t.chip t.id

/-- The checkpoint of a team as it stands (R202, R203). -/
def capture1 (s : State) (t : Team) : Ckpt :=
  { gangs := t.gangs, optRecs := t.optRecs,
    ctxs := s.contexts.filter fun c => c.bound && c.chip == t.chip && c.team == t.id,
    cores := (allCores s t).map (coreCk s), ready := readyItems s t.chip t.id,
    waiters := s.waiters.filter fun w => w.chip == t.chip && w.team == t.id, steps := t.steps, recs := t.recs }

def newTeam (chip : ChipNo) (r : LRec) (p : Rect) (q : Nat) (service : Bool) (d : LData) (root : Nat) : Team :=
  { chip := chip, id := r.id, state := .opened, die := p.die, x0 := p.x, y0 := p.y, w := p.w, h := p.h, queue := q,
    entry := r.entry, strict := testBit r.flags 2, budget := bits r.flags 4 4, gGran := r.ggran, vGran := r.vgran, prio := r.prio,
    k0 := BitVec.ofNat 16 r.k0, parent := r.parent, svc := r.svc, cword := r.cword, cval := r.cval, nrec := r.nrec,
    rectab := r.rectab, recPages := d.recPages, npeer := r.npeer, peert := r.peert, mirt := r.mirt, lchip := r.lchip,
    root := BitVec.ofNat 64 root, ssn := 1, retry := 0, aborts := 0, attempts := 0, lastCause := 0, prev := none, confl := 0,
    resumes := 0, votes := [], arrivals := [], recs := (List.range (p.w * p.h)).map fun i => BitVec.ofNat 64 (r.carea + 64 * i),
    held := [], ckpt := Ckpt.empty, fed := 0, gone := [], ask := none, atBarrier := [], steps := 0, stepMark := false, stats := [],
    service := service, resumeSsn := none, optRecs := [], gangs := [] }

/-- The committed bytes of rank r: its stack's committed top, its record and its save area (R132 steps 4 and 5, R133).
Registers of the allotment that bind as zero are written so. -/
def rankCells (r : LRec) (i : Nat) : List (Nat × List Byte) :=
  let top := r.sbase + (i + 1) * r.sres
  let recA := r.carea + 64 * i
  let save := r.carea + 0x10000 + 0x2000 * i
  [ (top - r.scom, List.replicate r.scom 0),
    (recA, bytesOf r.entry.toNat 8 ++ bytesOf (i % 4096 * 2 ^ 12 + 2 ^ 9 + r.prio * 2 ^ 4 + stReady) 4 ++
      bytesOf (r.k0 * 2 ^ 16 + r.vgran * 2 ^ 8 + r.ggran) 4 ++ bytesOf save 8 ++ List.replicate 20 0 ++ bytesOf r.id.toNat 4 ++
      List.replicate 8 0 ++ bytesOf (r.sbase + i * r.sres) 8),
    (save, bytesOf 0 16 ++ bytesOf (top - r.spoff) 8 ++ bytesOf 0 8 ++ bytesOf recA 8 ++ List.replicate (0x1000 - 40) 0) ]

/-- Write bytes at the keys of a virtual range, a line at a time: the keys of one line follow one another. -/
def putKeys : Nat → State → List Nat → List Byte → State
  | f + 1, s, k :: ks, bs =>
    let n := 64 - k % 64
    putKeys f (putMem s k (bs.take n)) ((k :: ks).drop n) (bs.drop n)
  | _, s, _, _ => s

/-- Write every rank's cells; none when a page is not the device's to write, or a record or save area is not live. The frames
of the committed stack pages are those that the tables name already: a page without a leaf fails the launch, since R132 does
not say where the device would take a frame from (DEDUCED, notes/assumptions/35.md). -/
def putRanks (s : State) (chip : ChipNo) (part : Nat) (r : LRec) : Nat → Option State
  | 0 => some s
  | n + 1 => do
    let s ← putRanks s chip part r n
    (rankCells r n).zipIdx.foldlM (fun (s : State) (c : (Nat × List Byte) × Nat) => do
      let ks ← ownPlaces s chip part c.1.1 c.1.2.length true
      if c.2 != 0 && (r.carea % 64 != 0 || !(ks.all fun k => k.cls == 1)) then none
      else some (putKeys c.1.2.length s (ks.map fun k => k.key) c.1.2)) s

/-- Prepare one core: buffers, images, constants, identity (R132 steps 1 to 3). -/
def prepareCore (t : Team) (d : LData) (s : State) (c : EP × Nat) : State :=
  let e := c.1
  let s := zeroBuffers (wakeCore s e) e
  let s := s.setCore e (reserveCore s (s.core e) e t c.2)
  let mem := d.imgs.foldl (fun m i => m.setBytes (bufKey e i.1 i.2.1) i.2.2) s.mem
  let mem := mem.setBytes (bufKey e 1 0) (d.consts ++ List.replicate (0x800 - d.consts.length) 0)
  putIdent { s with mem := mem } t e c.2

/-- Start a team on its rectangle, or the code it fails with. -/
def startTeam (s : State) (chip : ChipNo) (q : Nat) (r : LRec) (p : Rect) (service : Bool) : Except Nat (Res State) :=
  let e := coreAt chip p.die p.x p.y
  let part := partOf e
  match readLaunch s chip part e r with
  | .error c => .error c
  | .ok d =>
    match putRanks s chip part r (p.w * p.h) with
    | none => .error 0xFF05
    | some s =>
      let t := newTeam chip r p q service d (ptRoot (s.chip chip) part)
      let s := setOvf s chip p.parts
      let s := { s with teams := (s.teams.filter fun x => !(x.chip == chip && x.id == r.id)) ++ [t] }
      let s := t.cores.zipIdx.foldl (prepareCore t d) s
      .ok (do
        let s ← t.recs.foldlM (fun s a => makeReady s chip r.id a) s
        let s := { s with undo := s.undo.filter fun u => !(u.chip == chip && u.team == r.id) }
        .ok (s.modTeam chip r.id fun t => { t with ckpt := capture1 s t }))

/-! ### Taking a record from a queue -/

/-- The live or saved team of an ID. -/
def idInUse (s : State) (chip : ChipNo) (id : Word32) : Bool :=
  id == 0 || s.teams.any fun t => t.chip == chip && t.id == id && (t.live || t.state == .saved)

/-- A core of the package that runs a service program (R130). -/
def svcOk (s : State) (chip : ChipNo) (e : EP) : Bool := epChip e == chip && isCompute e && (s.core e).service

/-- What comes of the record at a queue's head. -/
inductive Taking where
  | waits
  /-- It passes the checks and finds its cores busy (R130). -/
  | passes
  | fails (code : Nat) (part : Nat) (parts : List Nat)
  | starts (p : Rect)
  deriving DecidableEq, Repr

/-- The checks of R130 in order, then the wait for the cores (R131). A record that has passed them before waits until its
cores are free, and meets only those of 0xFF03 and 0xFF04 again. -/
def takeRecord (s : State) (chip : ChipNo) (q pmask : Nat) (r : LRec) (passed : Bool) : Taking :=
  let low := ((List.range 8).find? fun p => testBit pmask p).getD 0
  let one : Rect := { die := r.die, x := r.x, y := r.y, w := r.w, h := r.h }
  let cands := (if r.any then anyRects r.w r.h else [one]).filter fun p => p.valid s chip (some q) pmask
  let parts := if r.any then [] else one.parts
  let part := if r.any then low else parts.head?.getD low
  let free := cands.find? fun p => p.free s chip
  if passed && free.isNone then .waits
  else if !passed && !r.ok then .fails 0xFF01 low []
  else if !passed && cands.isEmpty then .fails 0xFF02 low parts
  else if !svcOk s chip r.svc then .fails 0xFF03 part parts
  else if idInUse s chip r.id then .fails 0xFF04 part parts
  else match free with
    | some p => .starts p
    | none => .passes

/-- A launch queue's descriptor (R127). -/
structure Queue where
  desc : Nat
  ring : Nat
  size : Nat
  pmask : Nat
  head : Nat
  tail : Nat
  rest : Nat
  deriving DecidableEq, Repr

def readQueue (s : State) (chip : ChipNo) (q : Nat) : Res Queue := do
  let d := lqAddr s chip q
  let f (o n : Nat) : Res Nat := physRead s chip (d + o) n
  let ring ← f 0 8
  let size ← f 8 4
  let pmask ← f 12 4
  let head ← f 16 4
  let tail ← f 20 4
  let rest ← f 24 40
  .ok { desc := d, ring := ring, size := size, pmask := pmask, head := head, tail := tail, rest := rest }

/-- How far TAIL runs ahead of HEAD. -/
def Queue.ahead (q : Queue) : Nat := (q.tail + 2 ^ 32 - q.head) % 2 ^ 32

def Queue.ok (q : Queue) : Bool :=
  (log2 q.size != 0 && decide (q.size = 2 ^ log2 q.size) && decide (q.size ≤ 4096)) && q.ring % 128 == 0 && decide (q.pmask < 256) &&
  q.rest == 0 && decide (q.ahead ≤ q.size)

/-- Whether a queue is disabled or stopped. -/
def queueOff (s : State) (chip : ChipNo) (q : Nat) : Bool := lqAddr s chip q == 0 || (lqdesc s chip q).getLsbD 0

/-- Stop a queue with ERR, and log it (R127, R442). -/
def stopQueue (s : State) (chip : ChipNo) (q : Nat) : State :=
  let s := s.modChip chip fun c => { c.setReg (0x110 + q) (c.reg (0x110 + q) 0 ||| 1) with
    tails := c.tails.filter fun x => x.1 != q, passed := c.passed.filter fun x => x.1 != q }
  logEvent s chip (collierEp chip) 0x01 q

def ifaceState (s : State) (chip : ChipNo) (i : Nat) : Nat :=
  (((s.chip chip).host.ifaces.toList[i]?).map fun f => f.state.toNat).getD 4

/-- The doorbell of a queue (R127, R428, R435): TAIL is read again. -/
def ringQueue (s : State) (chip : ChipNo) (q : Nat) : Res State :=
  let owned : Bool := decide (q / 2 < (s.chip chip).host.numVfs)
  if (owned && ifaceState s chip (q / 2) == 3) || queueOff s chip q then .ok s
  else do
    let x ← readQueue s chip q
    if !x.ok || (owned && x.pmask != 0 && x.pmask != 2 ^ (q / 2)) then .ok (stopQueue s chip q)
    else .ok (s.modChip chip fun c => { c with tails := if x.head = x.tail then c.tails.filter fun t => t.1 != q else alPut c.tails q x.tail })

def execLqdb (chip : ChipNo) (q : BitVec 4) (s : State) : Host.Outcome State Fault Refusal := event s (ringQueue s chip q.toNat)

/-- Whether TLPs of a function are discarded: the stream that carries them, its virtual function's own in RUN and the link stream
otherwise, is insecure (R429). -/
def cutOff (s : State) (chip : ChipNo) (fn : Fn) : Bool :=
  let own : IdeStream := match fn with
    | .vf i => if ifaceState s chip i.toNat == 2 then .sel fn else .link
    | .pf => .link
  (s.chip chip).host.ides.any fun x => x.stream == own && x.insecure

/-- A doorbell of the host (R428): virtual function i rings its own two queues, the physical function any that no existing
virtual function owns. From a fatal event on it goes unserved (R424), and one on an insecure stream is discarded (R429). -/
def hostRing (s : State) (chip : ChipNo) (fn : Fn) (v : Word32) : Res State :=
  let c := s.chip chip
  if c.stopped || cutOff s chip fn then .ok s
  else match fn with
    | .vf i => if i.toNat < c.host.numVfs then ringQueue s chip (2 * i.toNat + v.toNat % 2) else .ok s
    | .pf => if v.toNat % 16 / 2 < c.host.numVfs then .ok s else ringQueue s chip (v.toNat % 16)

def execHostDoorbell (chip : ChipNo) (fn : Fn) (v : Word32) (s : State) : Host.Outcome State Fault Refusal :=
  event s (hostRing s chip fn v)

/-- HEAD moves past the record taken. -/
def advanceHead (s : State) (chip : ChipNo) (q : Nat) (x : Queue) (tail : Nat) : State :=
  let h := (x.head + 1) % 2 ^ 32
  let s := { s with mem := s.mem.setBytes (physKey chip (x.desc + 16)) (bytesOf h 4) }
  let s := s.modChip chip fun c => { c with passed := c.passed.filter fun x => x.1 != q }
  if h = tail then s.modChip chip fun c => { c with tails := c.tails.filter fun t => t.1 != q } else s

/-- What the record at a queue's head comes to, if the queue has one: the record (none when it cannot be read). -/
def headTaking (s : State) (chip : ChipNo) (q : Nat) : Res (Option (Queue × Nat × Option LRec × Taking)) :=
  match (s.chip chip).tails.lookup q with
  | none => .ok none
  | some tail =>
    if queueOff s chip q || (s.chip chip).stopped then .ok none
    else do
      let x ← readQueue s chip q
      let pa := x.ring + 128 * (x.head % (if x.size = 0 then 1 else x.size))
      if x.head = tail then .ok none
      else if !(paValid (s.chip chip) pa && paValid (s.chip chip) (pa + 127)) then .ok (some (x, tail, none, .fails 0xFF05 0 []))
      else
        let r := lrecOf (s.mem.getBytes (physKey chip pa) 128)
        .ok (some (x, tail, some r, takeRecord s chip q x.pmask r ((s.chip chip).passed.contains (q, x.head))))

/-- Launch the record at a queue's head (R127, R130-R133). -/
def launchHead (s : State) (chip : ChipNo) (q : Nat) : Res State := do
  let h ← headTaking s chip q
  match h with
  | none => .ok s
  | some (_, _, _, .waits) => .ok s
  | some (x, _, _, .passes) =>
    .ok (s.modChip chip fun c => { c with passed := (c.passed.filter fun y => y.1 != q) ++ [(q, x.head)] })
  | some (x, tail, r, .fails code part parts) =>
    let s := match r with
      | some r => launchFail s chip part r code parts
      | none => nonFatal s chip .pf code 0 0 bumpLaunchf
    .ok (advanceHead s chip q x tail)
  | some (x, tail, some r, .starts p) =>
    match startTeam s chip q r p false with
    | .error code => .ok (advanceHead (launchFail s chip ((p.parts.head?).getD 0) r code p.parts) chip q x tail)
    | .ok res => do
      let s ← res
      .ok (advanceHead s chip q x tail)
  | some (_, _, none, .starts _) => .ok s

def execLaunch (chip : ChipNo) (q : BitVec 4) (s : State) : Host.Outcome State Fault Refusal := event s (launchHead s chip q.toNat)

/-! ### Records held by TSPAWN (R192) -/

/-- The oldest record held for a queue past its parent's commit. -/
def heldHead (s : State) (chip : ChipNo) (q : Nat) : Option (Word32 × List Byte) := (s.chip chip).lheld.lookup q

/-- Drop the oldest record held for a queue. -/
def dropHeld (s : State) (chip : ChipNo) (q : Nat) : State :=
  s.modChip chip fun c =>
    { c with lheld := (c.lheld.takeWhile fun h => h.1 != q) ++ (c.lheld.dropWhile fun h => h.1 != q).tail }

/-- A disabled or stopped queue fails the launch of every record that is due for it, as soon as it comes to that state
(R192). -/
def failHeld (s : State) : State :=
  if s.chips.all fun (c : Nat × Chip) => c.2.lheld.isEmpty then s
  else s.chips.foldl (fun (s : State) (c : Nat × Chip) =>
    let chip : ChipNo := BitVec.ofNat 18 c.1
    let off (h : Nat × Word32 × List Byte) : Bool := !c.2.stopped && queueOff s chip h.1
    let s := (c.2.lheld.filter off).foldl (fun s h =>
      launchFail s chip (((s.team? chip h.2.1).map Team.part).getD 0) (lrecOf h.2.2) 0xFF06 []) s
    s.modChip chip fun c => { c with lheld := c.lheld.filter fun h => !off h }) s

/-- Append the oldest held record as soon as its queue has a free slot. -/
def appendHeld (s : State) (chip : ChipNo) (q : Nat) : Res State :=
  match heldHead s chip q with
  | none => .ok s
  | some (_, bs) =>
    if queueOff s chip q then .ok (failHeld s)
    else do
      let x ← readQueue s chip q
      if x.ahead < x.size then
        let pa := x.ring + 128 * (x.tail % x.size)
        if !(paValid (s.chip chip) pa && paValid (s.chip chip) (pa + 127)) then .error (.halt (.noMemory pa))
        else
          let mem := s.mem.setBytes (physKey chip pa) bs
          let mem := mem.setBytes (physKey chip (x.desc + 20)) (bytesOf ((x.tail + 1) % 2 ^ 32) 4)
          ringQueue (dropHeld { s with mem := mem } chip q) chip q
      else .ok s

def execTspawnAppend (chip : ChipNo) (q : BitVec 4) (s : State) : Host.Outcome State Fault Refusal :=
  event s (appendHeld s chip q.toNat)

end Sys2Proof.Machine
end

