-- ==== Sys2Proof/Machine/Commit.lean ====
section
/-! DEFINITION. The end of a superstep: what a closing barrier awaits (R196, R197), the decision (R199, R200), commit (R201),
abort (R205, R206), completion (R134), termination (R208), and federations (R216, R368, R369, R409). -/
namespace Sys2Proof.Machine

/-- Next(v) of R195. -/
def nextSsn (v : Word32) : Word32 := if v = 0xFFFFFFFF then 1 else v + 1

def ofTeam (t : Team) (chip : ChipNo) (team : Word32) : Bool := chip == t.chip && team == t.id

/-- Change a team's descriptor. -/
def putTeam (s : State) (t : Team) (f : Team → Team) : State := s.modTeam t.chip t.id f

/-! ### Clearing a team away -/

/-- Every context of a team becomes idle, without effect (R205 step 1). -/
def dropContexts (s : State) (t : Team) : State :=
  let off (c : Context) : Context := if c.bound && ofTeam t c.chip c.team then c.freed else c
  { s with cx := off s.cx, others := s.others.map off }

/-- The team's records leave the ready queues; those of other teams in the same lists are linked anew (R120). -/
def dropReady (s : State) (t : Team) : State :=
  let out (l : List ReadyRec) : List ReadyRec := l.filter fun r => !ofTeam t r.chip r.team
  let lists := (s.ready.flatMap fun q => q.2.toList).filter fun l => l.any fun r => ofTeam t r.chip r.team
  (lists.map out).foldl relinkLevel { s with ready := s.ready.map fun q => (q.1, q.2.map out) }

/-- The key of a CONTRIB: team or federation, chip, tag (R366, R406). -/
def keyOfTeam (t : Team) (k : Word32 × Bool × ChipNo × Nat) : Bool :=
  if t.fed = 0 then !k.2.1 && k.1 == t.id && k.2.2.1 == t.chip else k.2.1 && k.1 == t.fed

/-- Everything of the open superstep that is on its way (R205 steps 1 and 2, R204). -/
def dropTraffic (s : State) (t : Team) : State :=
  let s := { s with
    updates := s.updates.filter fun u => !ofTeam t u.chip u.team,
    packets := s.packets.filter fun p => !ofTeam t p.chip p.team,
    frags := s.frags.filter fun f => !ofTeam t f.chip f.team,
    deltas := s.deltas.filter fun d => !ofTeam t d.2.chip d.2.team,
    reds := s.reds.filter fun r => !ofTeam t r.chip r.team,
    landings := s.landings.filter fun l => !ofTeam t l.chip l.team }
  let mine (c : Contrib) : Bool := keyOfTeam t c.key
  let clean (a : Adder) : Adder := { a with held := a.held.filter fun x => !mine x }
  { s with chips := s.chips.map fun c => (c.1, { c.2 with adders := c.2.adders.map clean }) }

/-- Live lines return to their committed contents (R205 step 3). At a NOW halt those of a quiesced channel wait, and the swap with
them (R447). -/
def undoLines (s : State) (t : Team) (halt : Bool) : State :=
  let now (u : UndoLine) : Bool := ofTeam t u.chip u.team && !(halt && channelHeld s u.key)
  let s' := { s with undo := s.undo.filter fun u => !now u }
  (s.undo.filter now).foldl (fun s u => restoreMem s u.key u.old) s'

/-- The engines, walker and matrix queue of a core of the team are emptied, and its L1 holds no line of the superstep. -/
def emptyCore (k : Core) : Core :=
  { k with engine := [], egress := [], walker := Walker.reset, l1 := [],
           mx := { k.mx with queue := [], waiting := [], claims := [], xch := none } }

/-- Elements of a team that are still in ricks or cords belong to no superstep any more. -/
def lateElems (t : Team) (l : List RickElem) : List RickElem :=
  l.map fun x => { x with late := x.late || x.team == t.id }

/-- What becomes of the elements on their way when a superstep is rolled back: a NOW halt discards every rick, and nothing else
removes an element (R327, R333); what is left still reaches its destination (notes/assumptions/115.md). -/
def rollRicks (s : State) (t : Team) (halt : Bool) : State :=
  let rick (r : Rick) : Rick := if halt then { dest := none, elems := [] } else { r with elems := lateElems t r.elems }
  let s := (allCores s t).foldl (fun (s : State) e => s.modCore e fun k => { k with ricks := k.ricks.map rick }) s
  { s with cords := s.cords.map fun c => if c.chip == t.chip then { c with elems := lateElems t c.elems } else c }

/-- Scheduled clears are withdrawn (R320). -/
def dropClears (s : State) (t : Team) : State :=
  let clear (s : State) (r : StatRec) : State :=
    let b : Byte := BitVec.ofNat 8 ((s.mem.get (t.recordKey r.idx 85)).toNat / 2 * 2)
    if r.clr.isSome then putRecBytes s t r.idx 85 [b] else s
  let s := t.stats.foldl clear s
  putTeam s t fun t => { t with stats := t.stats.map fun r => { r with clr := none } }

/-- Abandon, discard and undo (R205 steps 1 to 4). `fold` says that RESCALE is the only cause of an abort that ends no team
(R320); `halt` that a NOW halt asks for it (R212). -/
def rollback (s : State) (t : Team) (fold halt : Bool) : State :=
  let s := dropReady (dropContexts s t) t
  let s := { s with waiters := s.waiters.filter fun w => !ofTeam t w.chip w.team }
  let s := rollRicks s t halt
  let s := (allCores s t).foldl (fun (s : State) e => s.modCore e emptyCore) s
  let s := undoLines (dropTraffic s t) t halt
  let s := dropClears s t
  let s := match fold, s.team? t.chip t.id with
    | true, some t => foldStats s t t.ssn.toNat false
    | _, _ => s
  putTeam s t fun t => { t with stats := [], held := [], votes := [], arrivals := [], ask := none, stepMark := false }

/-! ### Ending a team -/

/-- A core leaves its team; its buffers stay as they are (R208). -/
def freeCore (s : State) (e : EP) : State :=
  s.modCore e fun k => { emptyCore k with team := 0, rank := 0, service := false, heldG := 0, heldV := 0,
                                          freeG := if isOpt e then 16 else 32, freeV := if isOpt e then 8 else 16,
                                          gqSlots := [], inflight := [], idleSince := s.time }

/-- Optimiser cores are unbound (R411). -/
def unbindOpt (s : State) (t : Team) : State :=
  let es := optCores s t.chip t.id
  let s := es.foldl freeCore s
  s.modChip t.chip fun c => es.foldl (fun c e =>
    let j := 16 * (epDie e).toNat + (epUnit e - 1024)
    { c.setReg (0x730 + j) 0 with optState := alPut c.optState j 0 }) c

/-- A pre-emption request on a partition ends with a result when no team of the chip is left under it (R215). -/
def endRequest (s : State) (chip : ChipNo) (p : Nat) (res : BitVec 4) : State :=
  if s.teams.any fun t => t.chip == chip && t.atBarrier.contains p then s
  else s.modChip chip fun c => { c with prstat := c.prstat.setIfInBounds p res }

/-- A team stands under a request on a partition. -/
def askPart (p : Nat) (t : Team) : Team := { t with atBarrier := t.atBarrier.filter (fun x => x != p) ++ [p] }

/-- A team no longer stands under any request. -/
def clearRequest (s : State) (t : Team) (res : BitVec 4) : State :=
  let ps := ((s.team? t.chip t.id).map fun t => t.atBarrier).getD []
  ps.foldl (fun s p => endRequest s t.chip p res) (putTeam s t fun t => { t with atBarrier := [] })

/-- The images of a team leave the shadow store. -/
def dropImages (s : State) (t : Team) : State :=
  s.modChip t.chip fun c => { c with shadow := c.shadow.filter fun x => x.2.team.id != t.id }

/-- The cores are freed and the ID released; a shoot-down that a core of the team waited for is awaited no more. -/
def releaseTeam (s : State) (t : Team) (st : TState) : State :=
  let s := dropReady (dropContexts s t) t
  let s := { s with waiters := s.waiters.filter fun w => !ofTeam t w.chip w.team }
  let s := unbindOpt s t
  let s := dropImages (t.cores.foldl freeCore s) t
  let s := s.modChip t.chip fun c => { c with shoots := c.shoots.filter fun x => !t.cores.contains x.ep }
  clearRequest (putTeam s t fun t => { t with state := st }) t 5

/-- A team of no federation any more: the chips it has seen lost stay lost to it (R398). -/
def outOfFed (f : Fed) (t : Team) : Team :=
  { t with fed := 0, gone := (t.gone ++ (f.gone.filter fun p => p.1 == t.chip).map fun p => p.2).eraseDups }

/-- A team stops being a member of its federation, which dissolves when one member is left (R369, R409). -/
def leaveFed (s : State) (t : Team) : State :=
  match s.fedOf t with
  | none => putTeam s t fun t => { t with fed := 0 }
  | some f =>
    let rest := f.members.filter fun m => !(m.1 == t.chip && m.2 == t.id)
    let s := putTeam s t (outOfFed f)
    match rest with
    | _ :: _ :: _ =>
      { s with feds := s.feds.map fun g => if g = f then { g with m := g.m - 1, members := rest } else g }
    | _ =>
      let s := rest.foldl (fun (s : State) m => s.modTeam m.1 m.2 (outOfFed f)) s
      { s with feds := s.feds.filter fun g => g != f }

/-- R208: the team ends with a completion code; nothing commits, live lines are undone, the termination is reported. -/
def terminateTeam (s : State) (t : Team) (code : Nat) (onPf : Bool) : State :=
  let s := rollback s t false false
  let s := putCword s t.chip t.part t.id t.cword (failWord code)
  let ps := partsOf t.cores
  let s := releaseTeam (leaveFed s t) t .terminated
  let s := if t.service then s.modChip t.chip fun c => { c with svc := 3 } else s
  nonFatal s t.chip (if onPf then .pf else teamReporter s t.chip ps) code t.id (partMask ps) bumpTerm

/-- The teams that share a team's decisions: its federation's, or itself. -/
def fellows (s : State) (t : Team) : List Team :=
  match s.fedOf t with
  | some f => f.members.filterMap fun m => s.team? m.1 m.2
  | none => [t]

/-- A saved team ends: its image is freed (R211). -/
def killSaved (s : State) (t : Team) (code : Nat) : State :=
  let s := putCword s t.chip t.part t.id t.cword (failWord code)
  let s := dropImages (unbindOpt (leaveFed s t) t) t
  putTeam s t fun t => { t with state := .terminated }

/-- A termination takes every team of the federation with it (R208). -/
def terminateAll (s : State) (t : Team) (code : Nat) (onPf : Bool) : State :=
  (fellows s t).foldl (fun s x =>
    if (s.chip x.chip).stopped then s
    else if x.state == .saved then killSaved s x code
    else if x.live then terminateTeam s x code onPf
    else s) s

/-- R134: after the final commit CVAL is written, the cores are freed and the ID is released. -/
def completeTeam (s : State) (t : Team) : State :=
  let s := putCword s t.chip t.part t.id t.cword t.cval
  releaseTeam (leaveFed s t) t .complete

/-! ### What the barrier awaits -/

def recOf (s : State) (t : Team) (a : Word) : Res Rec := readRec s (devWho s (t.coreOf 0) t.chip t.id) a

/-- A record that nothing holds any more, in a team that votes CAPACITY: it has ended, and the write of its STATE was rejected
(R206; DEDUCED, notes/assumptions/8.md). -/
def recDropped (s : State) (t : Team) (a : Word) : Bool :=
  (t.votes.any fun v => v.cause == 8) && (s.ctxOfRec t.chip t.id a).isNone &&
  !(s.waiters.any fun w => ofTeam t w.chip w.team && w.recA == a) && !((readyItems s t.chip t.id).any fun q => q.2.1.recA == a) &&
  !(t.gangs.any fun g => g.2.any fun m => m.1 == a)

/-- Whether a record has ended, or has arrived (R196). -/
def recArrived (s : State) (t : Team) (a : Word) : Res Bool := do
  let r ← recOf s t a
  .ok (r.st == stDone || recDropped s t a || (t.arrivals.any fun x => x.recA == a) || s.waiters.any fun w => ofTeam t w.chip w.team && w.recA == a &&
    match w.kind with
    | .parked _ _ _ _ votes voted => votes || voted
    | _ => false)

/-- Every record of a team has arrived, and every core is quiet (R196, R197). -/
def teamArrived (s : State) (t : Team) : Res Bool := do
  let bs ← t.recs.mapM (recArrived s t)
  .ok ((t.state == .opened || t.state == .closing) && !t.service && bs.all id &&
    (allCores s t).all fun e => coreQuiet s e && (s.core e).engine.isEmpty)

/-- The teams that ask to join the same federation with the same count (R368). -/
def joiners (s : State) (t : Team) : List Team :=
  match t.ask with
  | some a => s.teams.filter fun x => x.live && (match x.ask with | some b => b.join && b.id == a.id && b.m == a.m | none => false)
  | none => []

/-- Whether a chip has been reported lost to a team's federation. -/
def memberLost (s : State) (t : Team) (chip : ChipNo) : Bool := chip != t.chip && reportedLost s t chip

/-- The teams that decide together with a team, when all of them have arrived. -/
def closing (s : State) (t : Team) : Res (Option (List Team)) := do
  if t.fed != 0 then do
    let xs := (fellows s t).filter fun x => !memberLost s t x.chip
    let bs ← xs.mapM (teamArrived s)
    .ok (if bs.all id then some xs else none)
  else
    let here ← teamArrived s t
    if !here then .ok none
    else match t.ask with
      | some a =>
        if !a.join || (s.fed? a.id).isSome then .ok (some [t])
        else do
          let xs ← (joiners s t).filterM (teamArrived s)
          if a.m ≤ xs.length then
            let xs := t :: (xs.filter fun x => !ofTeam t x.chip x.id)
            .ok (some (xs.take a.m))
          else .ok none
      | none => .ok (some [t])

/-! ### The decision (R199, R200) -/

structure Decision where
  causes : List Nat
  primary : Nat
  cpc : Word
  payload : Word
  deriving DecidableEq, Repr

/-- SSYNC arrivals of a team. -/
def realArrivals (t : Team) : List Arrival := t.arrivals.filter fun a => !a.parked

/-- The SSYNC of the lowest rank, then context. -/
def firstArrival (xs : List Arrival) : Option Arrival :=
  (sortBy (fun a b => a.rank * 4 + a.ctx.toNat < b.rank * 4 + b.ctx.toNat) xs).head?

/-- Whether one of some teams is the one of a chip and an ID. -/
def ofTeams (xs : List Team) (chip : ChipNo) (team : Word32) : Bool := xs.any fun t => ofTeam t chip team

/-- Lines of a team in conflict: overtaken deltas, landings over lines that were also written, deferred reductions under plain
writes of any of the teams `xs` that decide with it (R191, R222, R223). -/
def conflictLines (s : State) (xs : List Team) (t : Team) : List Nat :=
  let ds := s.deltas.filter fun d => ofTeams (t :: xs) d.2.chip d.2.team
  let twice := (ds.filter fun d => d.2.conf && ofTeam t d.2.chip d.2.team).map fun d => d.1 / 64
  let land := ((s.landings.filter fun l => ofTeam t l.chip l.team).map fun l => l.key / 64).filter fun l =>
    (ds.any fun d => d.1 / 64 == l && d.2.tag != .eng) || s.undo.any fun u => u.key / 64 == l && ofTeams (t :: xs) u.chip u.team
  let red := ((s.reds.filter fun r => ofTeam t r.chip r.team).flatMap fun r => (List.range r.bytes).map fun i => r.key + i).filter
    fun k => ds.any fun d => d.1 == k
  (twice ++ land ++ red.map fun k => k / 64).eraseDups

/-- Whether a pending join or leave lacks a record that has not ended (R368, R369). -/
def askDisagrees (s : State) (t : Team) : Res Bool :=
  match t.ask with
  | none => .ok false
  | some a => do
    let open_ ← t.recs.filterM fun r => do
      let x ← recOf s t r
      .ok (x.st != stDone)
    .ok (!(open_.all fun r => a.recs.contains r) || (a.join && t.fed == 0 && (s.fed? a.id).isSome))

/-- Every vote of a team, with those the barrier itself finds. -/
def votesOf (s : State) (xs : List Team) (t : Team) (ops : List Nat) : Res (List Vote) := do
  let bad ← askDisagrees s t
  let at_ (cause : Nat) : Vote :=
    match firstArrival (realArrivals t) with
    | some a => { cause := cause, pc := a.pc, rank := a.rank, ctx := a.ctx }
    | none => { cause := cause, pc := 0, rank := 4095, ctx := 0 }
  let lost := (s.fedOf t).any fun f => f.lost.any fun p => p.1 == t.chip
  let own := t.votes.map fun v => if v.rank = linkRank then at_ 3 else v
  .ok (own ++ (if bad || decide (1 < ops.length) || t.resumeSsn.any (fun n => n != t.ssn) then [at_ 2] else []) ++
    (if lost then [at_ 3] else []) ++ (if t.strict && !(conflictLines s xs t).isEmpty then [at_ 7] else []))

/-- Combine the arrivals and votes of the teams. -/
def decideOn (s : State) (xs : List Team) : Res Decision := do
  let arr := xs.flatMap realArrivals
  let ops := (arr.map fun a => a.op).eraseDups
  let votes ← xs.mapM fun t => votesOf s xs t ops
  let votes := votes.flatten
  let causes := (List.range 12).filter fun c => votes.any fun v => v.cause == c
  let primary := causes.head?.getD 0
  let first := (sortBy (fun (a b : Vote) => a.rank * 4 + a.ctx.toNat < b.rank * 4 + b.ctx.toNat)
    (votes.filter fun v => v.cause == primary)).head?
  let op := ops.head?.getD 0
  let pay := arr.foldl (fun p a => payOp op p a.payload.toNat) (payIdentity op)
  .ok { causes := causes, primary := primary, cpc := (first.map fun v => v.pc).getD 0, payload := BitVec.ofNat 64 pay }

/-! ### Commit (R201) -/

/-- Steps 1 and 3, or the redo half of step 2: deltas become the committed bytes. One of a frozen set does not, and its interface
moves to ERROR (R434). -/
def applyDeltas (s : State) (t : Team) (buf : Bool) : State :=
  let ds := s.deltas.filter fun d => ofTeam t d.2.chip d.2.team && isBufKey d.1 == buf
  let s' := { s with deltas := s.deltas.filter fun d => !(ofTeam t d.2.chip d.2.team && isBufKey d.1 == buf) }
  let free := ds.filter fun d => (frozenBy s d.1).isNone
  (ds.filterMap fun d => frozenBy s d.1).eraseDups.foldl breakIface
    { s' with mem := free.foldl (fun m d => m.set d.1 d.2.val) s'.mem }

/-- Step 2: deferred reductions of the teams that commit together, in ascending rank, within a rank in issue order (R223); then
their mirror copies (R390). -/
def applyReds (s : State) (xs : List Team) : State :=
  let mine := sortBy (fun (a b : RedEntry) => a.rank < b.rank || (a.rank == b.rank && a.seq < b.seq))
    (s.reds.filter fun r => ofTeams xs r.chip r.team)
  let s := mine.foldl (fun s r =>
    let old := leNat (s.mem.getBytes r.key r.bytes)
    countFar (putMem s r.key (bytesOf (redNew r.op r.bytes old r.opnd.toNat) r.bytes)) r.key) s
  let s := mine.foldl (fun s r => match r.mirror with
    | some k => putMem s k (s.mem.getBytes r.key r.bytes)
    | none => s) s
  { s with reds := s.reds.filter fun r => !ofTeams xs r.chip r.team }

/-- The update of a landing's source page reaches its home; one that finds no room for a working half is rejected, and its vote
is for the team's next closing barrier, since the present one has decided (R315, R317; DEDUCED, notes/assumptions/116.md). -/
def landStat (t0 : Team) (q : State × List Vote) (l : Landing) : State × List Vote :=
  match l.stat, q.1.team? t0.chip t0.id with
  | some (i, h), some t =>
    if t.nrec ≤ i then q
    else if halfRoom q.1 t i then
      let r := t.statRec i
      (putTeam q.1 t0 fun t => t.setStat { r with work := some (mergeHalf (r.work.getD halfEmpty) h) }, q.2)
    else (q.1, q.2 ++ [{ cause := 8, pc := l.pc, rank := l.rank, ctx := l.ctx }])
  | _, _ => q

/-- Step 3: landings, with the updates of their source pages (R191, R317), and the votes of those that are rejected. -/
def applyLandings (s : State) (t : Team) : State × List Vote :=
  let mine := s.landings.filter fun l => ofTeam t l.chip l.team
  let s := { s with mem := mine.foldl (fun m l => m.setBytes l.key l.bytes) s.mem,
                    landings := s.landings.filter fun l => !ofTeam t l.chip l.team }
  mine.foldl (landStat t) (s, [])

/-- Step 6 for one arrival: g[D] in the bound context, or in the save area of a record that becomes READY; that write needs no
log (R206). The members of a gang become READY with their leader. The records of suspended arrivals enter their levels in the
order in which the arrivals have counted: R120 names the order of operations from cores, and this is one of the barrier
(DESIGN CHOICE, notes/assumptions/131.md). -/
def payArrival (payload : Word) (t : Team) (s : State) (a : Arrival) : Res State :=
  match s.ctxOfRec t.chip t.id a.recA with
  | some c =>
    let pay (c : Context) : Context := { c.setGr a.d payload with mode := .running, sync := none }
    .ok (s.setCtx (pay c))
  | none => do
    let r ← recOf s t a.recA
    let w := { devWho s (homeOf t a.recA r) t.chip t.id with service := true }
    let s ← (if a.d = 0 then .ok s else devWriteNat s w (r.save + BitVec.ofNat 64 (8 * a.d.toNat)) payload.toNat 8)
    let s := dropWait s t.chip t.id a.recA
    match gangOf t a.recA with
    | m :: _ => if m.1 = a.recA then readyIfOk s t.chip t.id a.recA else .ok s
    | [] => readyIfOk s t.chip t.id a.recA

/-- Granules that SHRINK held return to the pool (R57), a written buffer class map comes into force (R220), and the L1 holds no
line of the superstep that ends. -/
def commitCore (s : State) (e : EP) : State :=
  s.modCore e fun k => { k with freeG := k.freeG + k.heldG, freeV := k.freeV + k.heldV, heldG := 0, heldV := 0,
                                bufcls := k.bufclsNext, l1 := [], mx := { k.mx with xch := none } }

/-- Launch records held in the superstep leave for their queues in ascending rank, then issue order (R192). -/
def releaseHeld (s : State) (t : Team) : State :=
  let xs := sortBy (fun (a b : Nat × Nat × Nat × List Byte) => a.2.1 < b.2.1 || (a.2.1 == b.2.1 && a.2.2.1 < b.2.2.1)) t.held
  let s := s.modChip t.chip fun c => { c with lheld := c.lheld ++ xs.map fun h => (h.1, t.id, h.2.2.2) }
  putTeam s t fun t => { t with held := [] }

/-- Steps 1 and 2 for the teams that commit together: buffers, then reductions, then the redo logs of plain writes, and so in each
step for every team before the next (R223). -/
def commitMemory (s : State) (xs : List Team) : State :=
  let s := xs.foldl (fun s t => (allCores s t).foldl commitCore (applyDeltas s t true)) s
  xs.foldl (fun s t => applyDeltas s t false) (applyReds s xs)

/-- Steps 3 to 7 for one team of superstep s. `next` is the number that follows, `mark` whether the superstep applied an update
(R375), `lines` how many lines were in conflict. -/
def commitTeam (ssn next : Word32) (mark : Bool) (payload : Word) (s : State) (x : Team × Nat) : Res State := do
  let t0 := x.1
  let lines := x.2
  let (s, late) := applyLandings s t0
  let s := match s.team? t0.chip t0.id with
    | some t => foldStats s t ssn.toNat true
    | none => s
  let s := { s with undo := s.undo.filter fun u => !ofTeam t0 u.chip u.team }
  let s ← (realArrivals t0).foldlM (payArrival payload t0) s
  let s := { s with undo := s.undo.filter fun u => !ofTeam t0 u.chip u.team }
  let s := putTeam (releaseHeld s t0) t0 fun t =>
    { t with state := .opened, ssn := next, retry := 0, votes := late, arrivals := [], resumeSsn := none, stepMark := false,
             confl := satAdd 32 t.confl lines, steps := if mark then t.steps + 1 else t.steps }
  match s.team? t0.chip t0.id with
  | some t => .ok (putTeam s t fun t => { t with ckpt := capture1 s t })
  | none => .ok s

/-- The teams that decide together commit superstep s (R201). -/
def commitTeams (ssn next : Word32) (mark : Bool) (payload : Word) (s : State) (xs : List Team) : Res State :=
  (xs.map fun t => (t, (conflictLines s xs t).length)).foldlM (commitTeam ssn next mark payload) (commitMemory s xs)

/-- Whether every record of the team is DONE. -/
def teamDone (s : State) (t : Team) : Res Bool := do
  let rs ← t.recs.mapM (recOf s t)
  .ok (rs.all fun r => r.st == stDone)

/-- Every member chip starts to wait for the others' heartbeats (R398). -/
def hearFed (s : State) (id : Word32) : State :=
  match s.fed? id with
  | none => s
  | some f =>
    let cs := (f.members.map fun m => m.1).eraseDups
    let hear (l : List (ChipNo × Nat)) : List (ChipNo × Nat) := cs.foldl (fun l n => alPut l n s.time) l
    cs.foldl (fun (s : State) c => s.modChip c fun k => { k with heard := hear k.heard }) s

/-- Membership after a commit: joins and leaves take effect (R368, R369). -/
def commitAsk (s : State) (t0 : Team) : State :=
  match t0.ask with
  | none => s
  | some a =>
    let s := putTeam s t0 fun t => { t with ask := none }
    if a.join then
      let s := putTeam s t0 fun t => { t with fed := a.id, gone := [] }
      let s := match s.fed? a.id with
      | some _ => { s with feds := s.feds.map fun f => if f.id = a.id then { f with members := f.members ++ [(t0.chip, t0.id)] } else f }
      | none => { s with feds := s.feds ++ [{ id := a.id, m := a.m, members := [(t0.chip, t0.id)], lost := [], gone := [], rose := [], sent := [] }] }
      hearFed s a.id
    else match s.team? t0.chip t0.id with
      | some t => leaveFed s t
      | none => s

/-! ### Saving (R212) -/

/-- The units of 64 KiB that a team's image takes. -/
def imageSize (s : State) (t : Team) : Nat := 11 * t.size + 9 * (optCores s t.chip t.id).length + 1

/-- Free units of a die's shadow store. -/
def shadowFree (c : Chip) (die : Bool) : Nat :=
  3072 - (((c.shadow.filter fun p => decide (8 ≤ p.1) == die).map fun p => p.2.size).sum)

/-- The lowest free slot of a die. -/
def freeSlot (c : Chip) (die : Bool) : Option Nat :=
  ((List.range 8).map fun i => i + 8 * die.toNat).find? fun i => (c.shadow.lookup i).isNone

/-- The slot for a team's image, if its die's store has room: units enough, and a slot of the die's eight free. R212 names the
units alone; with units free and every slot of the die taken the request answers 3 too (DESIGN CHOICE,
notes/assumptions/135.md). -/
def roomFor (s : State) (t : Team) : Option Nat :=
  if imageSize s t ≤ shadowFree (s.chip t.chip) t.die then freeSlot (s.chip t.chip) t.die else none

/-- Bytes of a core's buffers, by space. -/
def bufferCells (s : State) (i : Nat) (e : EP) : List (Nat × Nat × List Host.Cell) :=
  ([1, 2, 3, 4] : List Nat).map fun sp =>
    (i, sp, (s.mem.filter fun c => decide (bufKey e sp 0 ≤ c.1) && decide (c.1 < bufKey e (sp + 1) 0)).map fun c =>
      (c.1 - bufKey e sp 0, c.2))

/-- The index of a core in an image: its rank, or 4096 + j for optimiser core j. -/
def imageIndex (t : Team) (e : EP) : Nat :=
  if isOpt e then 4096 + 16 * (epDie e).toNat + (epUnit e - 1024) else t.rankOf e

/-- The team's committed version enters a slot; its cores are free when the swap has ended. -/
def saveTeam (s : State) (t : Team) (slot : Nat) : State :=
  let s := dropReady (dropContexts s t) t
  let s := { s with waiters := s.waiters.filter fun w => !ofTeam t w.chip w.team }
  let im : Image := { team := t, buffers := (allCores s t).flatMap fun e => bufferCells s (imageIndex t e) e, swapping := true,
                      size := imageSize s t }
  let s := s.modChip t.chip fun c => { c with shadow := c.shadow ++ [(slot, im)] }
  let s := s.modChip t.chip fun c => (optCores s t.chip t.id).foldl (fun (c : Chip) e =>
    { c with optState := alPut c.optState (16 * (epDie e).toNat + (epUnit e - 1024)) 3 }) c
  putTeam s t fun t => { t with state := .halting }

/-- After its commit a team continues, completes, or is saved for a pending AT-BARRIER request (R211). -/
def afterCommit (s : State) (t0 : Team) : Res State :=
  match s.team? t0.chip t0.id with
  | none => .ok s
  | some t => do
    let done ← teamDone s t
    if done then .ok (completeTeam s t)
    else match t.atBarrier with
      | [] => .ok s
      | _ =>
        match roomFor s t with
        | some slot => .ok (saveTeam s t slot)
        | none => .ok (clearRequest s t 3)

/-! ### Abort (R205, R206) -/

/-- Restore a core's part of the committed version. -/
def restoreCore (s : State) (x : CoreCk) : State :=
  let s := s.modCore x.ep fun k =>
    let regs := (k.regs.filter fun r => !(decide (0x310 ≤ r.1) && decide (r.1 ≤ 0x323))) ++ x.regs
    { k with bufcls := x.bufcls, bufclsNext := x.bufcls, regs := regs, walker := x.walker, heldG := x.heldG, heldV := x.heldV,
             freeG := x.freeG, freeV := x.freeV, inflight := x.inflight, gqSlots := x.gqSlots,
             mx := { k.mx with acc := x.acc, ck0 := x.ck0, ck1 := x.ck1 } }
  if isCompute x.ep then { s with mem := s.mem.setBytes (bufKey x.ep 1 Config.winHi) x.graph } else s

/-- A ready record goes back to its place. -/
def restoreReady (s : State) (x : Nat × ReadyRec × Nat) : State :=
  let q := s.readyQ x.1
  s.setReadyQ x.1 (q.setLevel x.2.2 (q.level x.2.2 ++ [x.2.1]))

/-- The lists that have taken records back are linked anew (R120). -/
def relinkAll (s : State) (xs : List (Nat × ReadyRec × Nat)) : State :=
  ((xs.map fun x => (x.1, x.2.2)).eraseDups).foldl (fun s k => relinkLevel s ((s.readyQ k.1).level k.2)) s

/-- A context of the checkpoint binds again; the checks of R11 are due, and no block is open (R11, R54). -/
def restoreCtx (s : State) (c : Context) : State :=
  s.setCtx { c with mode := .running, sync := none, entered := true, sig := none, line := none, vsrc := .control, caps := [],
                    pairEnd := none }

/-- Restore the execution state of the last commit (R205 step 5). -/
def restoreTeam (s : State) (t : Team) : State :=
  let k := t.ckpt
  let s := k.cores.foldl restoreCore s
  let s := k.ready.foldl restoreReady s
  let s := k.ctxs.foldl restoreCtx s
  let s := { s with waiters := s.waiters ++ k.waiters }
  let s := putTeam s t fun t => { t with recs := k.recs, gangs := k.gangs, optRecs := k.optRecs, steps := k.steps }
  relinkAll s k.ready

/-- The counts of R206 after an abort: the new descriptor, and whether a rule ends the team. -/
def countAbort (t : Team) (primary : Nat) (cpc : Word) : Team × Bool :=
  let t := { t with attempts := (t.attempts + 1) % 2 ^ 16, lastCause := primary }
  if primary = 9 then (t, false)
  else
    let again := match t.prev with
      | some p => p.1 == primary && p.2.1 == cpc && p.2.2 == t.ssn
      | none => false
    ({ t with retry := t.retry + 1, aborts := satAdd 16 t.aborts 1, prev := some (primary, cpc, t.ssn) },
      decide (t.budget < t.retry + 1) || again)

/-- Abandon, discard, undo and count for one team. `ends` says that the abort ends it: its statistics are then discarded whole
(R320). -/
def abortTeam (d : Decision) (ends : Bool) (s : State) (t : Team) : State :=
  let s := rollback s t (d.causes == [6] && !ends) false
  putTeam s t fun t => { (countAbort t d.primary d.cpc).1 with state := .opened }

/-- Members on lost chips stop being members: each side goes on as a federation of the teams it still reaches, and a team
left alone goes on alone (R398, R409). The other side has its own decision with cause LINK to come. -/
def dropLost (s : State) (t : Team) (xs : List Team) : State :=
  match s.fedOf t with
  | none => s
  | some f =>
    if f.lost.isEmpty then s
    else
      let inside (m : ChipNo × Word32) : Bool := xs.any fun x => x.chip == m.1 && x.id == m.2
      let ours := f.members.filter inside
      let theirs := f.members.filter fun m => !inside m
      let a : Fed := { f with m := ours.length, members := ours, lost := [], rose := [], sent := [] }
      let back := theirs.flatMap fun y => ours.map fun x => (y.1, x.1)
      let b : Fed := { f with m := theirs.length, members := theirs, gone := f.gone ++ back, rose := [], sent := [],
                              lost := back ++ f.lost.filter fun p => !(ours.any fun x => x.1 == p.1) }
      let s := { s with feds := s.feds.filter (fun g => g != f) ++ (if 2 ≤ ours.length then [a] else []) ++
        (if theirs.isEmpty then [] else [b]) }
      if ours.length = 1 then ours.foldl (fun (s : State) m => s.modTeam m.1 m.2 (outOfFed f)) s else s

/-- The teams whose package has not stopped: the others do nothing more until its reset (R424). -/
def running (s : State) (xs : List Team) : List Team := xs.filter fun t => !(s.chip t.chip).stopped

/-- The decision of a group of teams that all stand in CLOSING, with all that follows it (R199, R201, R205, R211). Teams of a
package that has stopped since their arrivals rose take no part in what follows (R424). -/
def decideGroup (s : State) (t : Team) (all : List Team) : Res State := do
  let d ← decideOn s all
  let xs := running s all
  match d.causes with
  | [] => do
    let top := (xs.map fun t => t.ssn).foldl (fun a b => if a.toNat < b.toNat then b else a) 0
    let mark := xs.any fun t => t.stepMark
    let s ← commitTeams top (nextSsn top) mark d.payload s xs
    let s := xs.foldl commitAsk s
    xs.foldlM afterCommit s
  | _ =>
    let ends := xs.any fun t => (countAbort t d.primary d.cpc).2
    let s := xs.foldl (abortTeam d ends) s
    let s := dropLost s t all
    if ends then
      .ok ((xs.filterMap fun x => s.team? x.chip x.id).foldl (fun s x => terminateTeam s x (0xFE00 + d.primary) false) s)
    else
      .ok (xs.foldl (fun s x => match s.team? x.chip x.id with
        | some t => restoreTeam s t
        | none => s) s)

/-! ### The barrier tree of a federation (R397) -/

/-- The member chips of a federation, ascending. -/
def fedChips (f : Fed) : List ChipNo := sortBy (fun a b => decide (a.toNat < b.toNat)) ((f.members.map fun m => m.1).eraseDups)

/-- The parent and the children of a chip in the barrier tree: fan-in 4, the lowest number at the root. -/
def treeParent (f : Fed) (chip : ChipNo) : Option ChipNo :=
  let cs := fedChips f
  match cs.findIdx? fun c => c == chip with
  | some (i + 1) => cs[i / 4]?
  | _ => none

def treeChildren (f : Fed) (chip : ChipNo) : List ChipNo :=
  let cs := fedChips f
  match cs.findIdx? fun c => c == chip with
  | some i => (List.range 4).filterMap fun j => cs[4 * i + 1 + j]?
  | none => []

/-- A packet of VC 3 leaves for another chip, where a port leads there. -/
def sendVc3 (s : State) (own dest : ChipNo) (x : LinkLoad) : State :=
  match routePort s own dest with
  | some p => gwPush s own p { src := own, dest := dest, vc := 3, load := x, payload := freePayload s.nextId }
  | none => s

def modFed (s : State) (f : Fed) (g : Fed → Fed) : State := { s with feds := s.feds.map fun x => if x = f then g x else x }

/-- A chip whose teams and whose children in the tree have all arrived sends its arrival to its parent, once a port leads there. -/
def riseArrival (s : State) (f : Fed) (chip par : ChipNo) : State :=
  if f.sent.contains chip || (routePort s chip par).isNone then s
  else sendVc3 (modFed s f fun f => { f with sent := f.sent ++ [chip] }) chip par (.arrival f.id)

/-- Whether a team waits for the decision to reach its chip (R211). -/
def TState.awaits : TState → Bool
  | .committing | .aborting => true
  | .none | .opened | .closing | .halting | .saved | .resuming | .complete | .terminated => false

/-- The decision reaches a chip: its teams go on, and it descends to the chip's children. -/
def takeDecision (s : State) (chip : ChipNo) (id : Word32) : State :=
  let go (t : Team) : Team := if t.chip == chip && t.fed == id && t.state.awaits then { t with state := .opened } else t
  let fs := s.feds.filter fun f => f.id == id && (fedChips f).contains chip
  let s := { s with teams := s.teams.map go }
  (fs.flatMap fun f => treeChildren f chip).foldl (fun s c => sendVc3 s chip c (.decision id)) s

/-- After a federation's decision at the root chip, the teams of the other chips stay in COMMITTING or ABORTING until the decision
has descended to them; what they commit or restore stands from the decision on, since nothing of them issues before (R201, R204,
R397; DEDUCED, notes/assumptions/119.md). A chip that has left the tree goes on at once. -/
def descend (s : State) (chip : ChipNo) (xs : List Team) (st : TState) : State :=
  match s.feds.find? fun f => (fedChips f).head? == some chip && xs.any fun x => f.members.contains (x.chip, x.id) with
  | none => s
  | some f =>
    let hold (t : Team) : Team :=
      if t.state == .opened && t.chip != chip && f.members.contains (t.chip, t.id) then { t with state := st } else t
    takeDecision { (modFed s f fun f => { f with rose := [], sent := [] }) with teams := s.teams.map hold } chip f.id

/-- The decision, and its way down the tree. -/
def decideAll (s : State) (t : Team) (xs : List Team) : Res State := do
  let aborts := (decideOn s xs).toOption.any fun d => !d.causes.isEmpty
  let s ← decideGroup s t xs
  .ok (descend s t.chip xs (if aborts then .aborting else .committing))

/-- A team whose last awaited arrival has counted goes to CLOSING; once every team that decides with it is there, the tree
returns the decision (R199, R211). The arrivals of a federation rise through its tree; once a loss has been reported, the
surviving teams are counted without it (R385, R397). -/
def decideBarrier (s : State) (chip : ChipNo) (team : Word32) : Res State :=
  match s.team? chip team with
  | none => .ok s
  | some t => do
    let here ← teamArrived s t
    if !here then .ok s
    else if t.state == .opened then .ok (putTeam s t fun t => { t with state := .closing })
    else do
      let group ← closing s t
      let all : Option (List Team) := group.filter fun xs => xs.all fun x => x.state == .closing
      match s.fedOf t, all with
      | none, some xs => decideGroup s t xs
      | none, none => .ok s
      | some f, _ =>
        if f.lost.any fun p => p.1 == chip then
          match all with
          | some xs => decideGroup s t xs
          | none => .ok s
        else if !((f.members.filter fun m => m.1 == chip).all fun m => (s.team? m.1 m.2).any fun x => x.state == .closing) ||
            !((treeChildren f chip).all f.rose.contains) then .ok s
        else match treeParent f chip, all with
          | some par, _ => .ok (riseArrival s f chip par)
          | none, some xs => decideAll s t xs
          | none, none => .ok s

def execBarrierDecision (chip : ChipNo) (team : Word32) (s : State) : Host.Outcome State Fault Refusal :=
  event s (decideBarrier s chip team)

end Sys2Proof.Machine
end

