-- ==== Sys2Proof/Machine/Peer.lean ====
section
/-! DEFINITION. Meanings: peer copies (R361-R363). -/
namespace Sys2Proof.Machine

/-- The first and the last byte of a local range, under R30, R31 and R342. -/
def localEnds (s : State) (w : Who) (n : Need) (p : Word) (len : Nat) : Res (List Place) := do
  if len = 0 then .ok []
  else do
    let a ← places s w n .lin 1 false p 1
    let z ← meetingAt w a (places s w n .lin 1 false (ptrOff p (len - 1)) 1)
    .ok (a ++ z)

/-- The copy engine, acting at the issue of the executing context. -/
def issueWho (s : State) : Who :=
  let c := s.cx
  { engineWho s c.ep .copy c.chip c.team c.rank with stack := (ctxWho s false).stack }

/-- The chip that serves a peer copy (R388, R390): the one its route leads to, while that port has not gone down and the chip is not
reported lost, else the primary, or for a read the mirror of a lost one; none when the peer is absent. -/
def peerServer (s : State) (chip : ChipNo) (team : Word32) (x : PeerOp) : Option ChipNo :=
  match s.team? chip team with
  | none => none
  | some t =>
    match peerOfEntry s chip x.entry 0 with
    | .error _ => none
    | .ok ref =>
      let cs := ref.chip :: (if x.put then [] else ref.mirror.toList)
      let held := x.port.filter fun q => cs.contains q.1 && portLive s chip q.2 && !reportedLost s t q.1
      (held.map fun q => q.1).orElse fun _ => cs.find? (reachable s t)

/-- The operand checks of R361 and the fork of the operation. -/
def peerCopy (put : Bool) (a : GReg) (b : BReg) (s : State) : Res State := do
  let c := s.cx
  let w := issueWho s
  let dst := s.g a
  let src := s.g (grpReg a 1)
  let n := s.g (grpReg a 2)
  let cw := s.g (grpReg a 3)
  let far := if put then dst else src
  need (decide (n.toNat < 2 ^ 32)) Code.space
  needAt (if put then decide (ptrSpace src ≤ 4) else ptrSpace src == 6) Code.space src
  needAt (if put then ptrSpace dst == 6 else decide (ptrSpace dst ≤ 3)) Code.space dst
  let ends ← (if put then localEnds s w .read src n.toNat else localEnds s w .write dst n.toNat)
  let (e, xs) ← meetingAt w ends (do
    needAt (((s.team? c.chip c.team).map fun t => decide (ptrRank far < t.npeer)).getD false) Code.space far
    cwCheck s w cw
    peerEntry s w far)
  let s := useXlat s w (ends.flatMap (·.via) ++ xs)
  if engineRoom s c.ep then
    let x : PeerOp := { put := put, dst := dst, src := src, n := n.toNat, done := 0, entry := e,
                        port := none, back := none, leg := 0, data := [] }
    let way := (peerServer s c.chip c.team x).bind fun d => (routePort s c.chip d).map fun p => (d, p)
    .ok (forkEngine s cw (b.val s) (.peer { x with port := way }))
  else stall s

def execKput (a : GReg) (b : BReg) (ms : Ms) (s : State) : Host.Outcome State Fault Refusal :=
  scalar (.kput a b ms) ms s (peerCopy true a b)
def execKget (a : GReg) (b : BReg) (ms : Ms) (s : State) : Host.Outcome State Fault Refusal :=
  scalar (.kget a b ms) ms s (peerCopy false a b)

/-- A packet's bytes: up to the next 512-byte boundary of the destination (R362). -/
def packetLen (dst : Word) (n done : Nat) : Nat :=
  let room := 512 - (ptrOff dst done).toNat % 512
  if n - done < room then n - done else room

/-- Whether the issuing team's federation has a team on a chip (R362). -/
def fedOn (s : State) (chip : ChipNo) (team : Word32) (peer : ChipNo) : Bool :=
  match s.team? chip team with
  | some t => (s.fedOf t).any fun f => f.members.any fun m => m.1 == peer
  | none => false

/-- The peer's bytes of a packet that has reached the chip that serves it: the class of each copy is checked as R362 and R390
say. -/
def packetFar (s : State) (w : Who) (x : PeerOp) (peer : ChipNo) (p : Word) (len : Nat) : Res (List Place) := do
  let primary := match peerOfEntry s w.chip x.entry 0 with | .ok ref => ref.chip == peer | .error _ => false
  let pls ← peerPlacesOf s w (if x.put then .write else .read) p len x.entry primary
  let wr (c : BitVec 16) : Stop := .trap { Trap.on c p with write := x.put }
  let copies := pls.flatMap fun pl => (pl.key, pl.cls) :: (if x.put then pl.mirror.toList else [])
  let outside (k : Nat × Nat) : Bool := k.2 == 0 && !fedOn s w.chip w.team (physChip k.1)
  if copies.any (fun k => k.2 == 3) || (x.put && copies.any outside) then meetingAt w pls (.error (wr Code.cls))
  else .ok pls

/-- The completion value of an operation whose peer is absent (R363). -/
def absentWord : Word := failWord 0x61

def setPeer (s : State) (e : EP) (op : EngineOp) (x : PeerOp) : State := setOp s e { op with kind := .peer x }

/-- The operation's next link packet leaves one side for the other, by the port that side has chosen; none when no port leads
there. -/
def peerSend (s : State) (e : EP) (op : EngineOp) (x : PeerOp) (frm dest : ChipNo) (vc : BitVec 2) (d : List Byte) : Option State :=
  let out := frm == epChip e
  let far := if out then dest else frm
  let has := ((if out then x.port else x.back).filter fun q => q.1 == far).map fun q => q.2
  if frm == dest then some (setPeer s e op x)
  else (portFor s frm dest has).map fun p =>
    let y := if out then { x with port := some (far, p) } else { x with back := some (far, p) }
    sendParts (setPeer s e op y) frm dest p vc op.id [d]

/-- An operation whose peer is absent ends with the completion word of R363, and its team votes LINK. -/
def peerAbsent (s : State) (e : EP) (op : EngineOp) (x : PeerOp) : Res State :=
  let op := { op with val := absentWord, kind := .peer { x with done := x.n, leg := 0 } }
  let k := s.core e
  let s := { s with transit := s.transit.filter fun t => t.1 != op.id }
  completeOp (voteLink (setOp s e op) k.chip k.team) e op

/-- What a leg of a packet does (R362): the source bytes leave, or a request does; at the peer they are written, or read and sent
back; at home a copy's bytes are written, and a write's acknowledgement ends the packet. -/
def peerLeg (s : State) (e : EP) (op : EngineOp) (x : PeerOp) (peer : ChipNo) : Res (Option State) := do
  let w := opWho s e op
  let own := epChip e
  let len := packetLen x.dst x.n x.done
  let p (a : Word) : Word := ptrOff a x.done
  match x.leg with
  | 0 =>
    if x.put then do
      let sp ← places s w .read .lin 1 false (p x.src) len
      let d := readPlaces s w sp
      .ok (peerSend (touch s w sp) e op { x with leg := 1, data := d } own peer 0 d)
    else .ok (peerSend s e op { x with leg := 1 } own peer 0 (freePayload op.id))
  | 1 =>
    if x.put then do
      let far := { w with writeTag := .eng }
      let dp ← packetFar s far x peer (p x.dst) len
      let s := writePlaces s far op.ctx op.pc dp x.data
      .ok (peerSend s e op { x with leg := 2 } peer own 1 (freePayload op.id))
    else do
      let sp ← packetFar s w x peer (p x.src) len
      let d := readPlaces s w sp
      .ok (peerSend (touch s w sp) e op { x with leg := 2, data := d } peer own 0 d)
  | _ =>
    let next := { x with leg := 0, done := x.done + len, data := [] }
    if x.put then .ok (some (setPeer s e op next))
    else do
      let dp ← places s w .write .lin 1 false (p x.dst) len
      .ok (some (setPeer (writePlaces s w op.ctx op.pc dp x.data) e op next))

/-- A copy that another chip serves from now on asks that one for its packet. -/
def PeerOp.from (x : PeerOp) (peer : ChipNo) : PeerOp :=
  if x.leg != 0 && x.port.any (fun q => q.1 != peer) then { x with leg := 0, data := [] } else x

/-- One leg of a peer copy's packet, or its completion word. -/
def packetStep (s : State) (e : EP) (id : Nat) : Res State :=
  match findOp s e id with
  | none => .ok s
  | some op =>
    if op.stuck then .ok s
    else match op.kind with
      | .peer x =>
        if x.n ≤ x.done then completeOp s e op
        else match peerServer s (s.core e).chip (s.core e).team x with
          | none => peerAbsent s e op x
          | some peer =>
            if moving s id then .ok s
            else match peerLeg s e op (x.from peer) peer with
              | .ok (some s) => .ok s
              | .ok none => peerAbsent s e op x
              | .error (.trap t) => if t.code = Code.peerabsent then peerAbsent s e op x else stopOp s e { op with kind := .peer { x with leg := 0 } } t
              | .error y => .error y
      | _ => .ok s

def execPeerPacketApply (ep : EP) (op : Nat) (s : State) : Host.Outcome State Fault Refusal := event s (packetStep s ep op)

end Sys2Proof.Machine
end

