-- ==== Sys2Proof/Machine/Coll.lean ====
section
/-! DEFINITION. Meanings: collective packets and the stack adders (R364-R367, R385, R404-R406), joining and leaving a
federation (R368, R369). -/
namespace Sys2Proof.Machine

/-! ### The header (R364, R365) -/

/-- The entries of a header: endpoint, operation, argument. -/
def headerEntries (bs : List Byte) : List (EP × Nat × Nat) :=
  let n := leNat (bs.take 1) % 16
  (List.range n).map fun i =>
    let x := (bs.drop (4 + 5 * i)).take 5
    let o := leNat (x.drop 4)
    (BitVec.ofNat 32 (leNat (x.take 4)), o % 4, o / 4)

/-- The units an operation may name (R365). -/
def collUnitOk (e : EP) (op : Nat) : Bool :=
  let u := epUnit e
  let adder := decide (1048 ≤ u) && decide (u ≤ 1051)
  let edge := decide (1056 ≤ u) && decide (u ≤ 1071)
  match op with
  | 0 => adder
  | 1 => edge || adder
  | 2 => adder || (decide (1040 ≤ u) && decide (u ≤ 1047))
  | _ => adder || edge

/-- The operations and arguments of a header: a MULTICAST is followed by exactly its k DELIVERs, which end the header; a
CONTRIB stands alone. -/
def headerShapeOk : List (EP × Nat × Nat) → Bool
  | [] => true
  | (_, op, arg) :: rest =>
    match op with
    | 0 => decide (arg ≤ 1) && headerShapeOk rest
    | 3 => decide (1 ≤ arg) && decide (arg ≤ 11) && rest.length == arg && rest.all fun x => x.2.1 == 2 && x.2.2 == 0
    | _ => arg == 0 && headerShapeOk rest

/-- The checks of R365 on a header of 64 bytes. -/
def headerCheck (p : Word) (bs : List Byte) : Res Unit := do
  let b0 := leNat (bs.take 1)
  let n := b0 % 16
  let es := headerEntries bs
  let contrib := es.any fun x => x.2.1 == 0 && x.2.2 == 0
  needAt (decide (1 ≤ n) && decide (n ≤ 12) && decide (b0 < 64) && leNat ((bs.drop 1).take 1) == 0 &&
    (bs.drop (4 + 5 * n)).all fun b => b == 0) Code.illop p
  needAt (headerShapeOk es && (!contrib || n == 1)) Code.illop p
  needAt (es.all fun x => collUnitOk x.1 x.2.1) Code.space p

/-- The pairs a packet starts with: (value, +0) (R366). -/
def startPairs (bf : Bool) (bs : List Byte) (n : Nat) : List (Word32 × Word32) :=
  let sz := if bf then 2 else 4
  (List.range n).map fun i =>
    let x := leNat ((bs.drop (sz * i)).take sz)
    (BitVec.ofNat 32 (if bf then x * 2 ^ 16 else x), 0)

/-- Combine of R366. -/
def combinePair (a b : Word32 × Word32) : Word32 × Word32 :=
  let f (x : Word32) : FV := fp32.decode x.toNat
  let vs := [f a.1, f b.1]
  let s := (fp32.sum .rne vs false vs).1
  match fp32.decode s with
  | .fin .. =>
    if [f a.2, f b.2].any FV.isNan then (BitVec.ofNat 32 fp32.qnan, 0)
    else
      let t := (fp32.sum .rne vs false (vs ++ [(fp32.decode s).neg])).1
      let e := (fp32.add .rne a.2.toNat b.2.toNat).1
      (BitVec.ofNat 32 s, BitVec.ofNat 32 (fp32.add .rne e t).1)
  | _ => (BitVec.ofNat 32 s, 0)

/-- Combine element by element; an element that one side lacks is (+0, +0). -/
def combinePairs : List (Word32 × Word32) → List (Word32 × Word32) → List (Word32 × Word32)
  | [], ys => ys.map (combinePair (0, 0))
  | xs, [] => xs.map fun x => combinePair x (0, 0)
  | x :: xs, y :: ys => combinePair x y :: combinePairs xs ys

/-- The bytes that a DELIVER writes (R366, R268). -/
def deliverBytes (bf : Bool) (ps : List (Word32 × Word32)) : List Byte :=
  (ps.map fun p =>
    let vs := [fp32.decode p.1.toNat, fp32.decode p.2.toNat]
    if bf then bytesOf (bf16.sum .rne vs false vs).1 2 else bytesOf (fp32.sum .rne vs false vs).1 4).flatten

/-! ### Branches and drops (R367) -/

/-- A branch ends and acknowledges; after the last the operation is complete. -/
def endBranch (s : State) (src : EP) (opId : Nat) : State :=
  s.modCore src fun k =>
    let step (o : EngineOp) : Option EngineOp :=
      match o.kind with
      | .coll n => if o.id = opId then (if n ≤ 1 then none else some { o with kind := .coll (n - 1) }) else some o
      | _ => some o
    { k with engine := k.engine.filterMap step }

def moreBranches (s : State) (src : EP) (opId more : Nat) : State :=
  s.modCore src fun k =>
    let step (o : EngineOp) : EngineOp :=
      match o.kind with
      | .coll n => if o.id = opId then { o with kind := .coll (n + more) } else o
      | _ => o
    { k with engine := k.engine.map step }

/-- The team in whose space, and with whose superstep, a packet writes on a chip: the issuing team at home, else the
federation's team there (R366, R406). -/
def collTeam (s : State) (p : CollPacket) (chip : ChipNo) : Option Team :=
  if chip = p.chip then s.liveTeam? chip p.team
  else s.teams.find? fun t => t.chip == chip && t.fed == p.fed && p.fed != 0 && t.live

/-- Whether a node's chip judges another lost for a packet: for its federation, or for a team that has outlived one (R398,
R409). -/
def packetGone (s : State) (p : CollPacket) (frm dest : ChipNo) : Bool :=
  (p.fed != 0 && s.feds.any fun f => f.id == p.fed && f.gone.contains (frm, dest)) ||
  (collTeam s p frm).any fun t => reportedLost s t dest

/-- Whether a node's chip reaches another for a packet (R391, R398). -/
def nodeReaches (s : State) (p : CollPacket) (frm dest : ChipNo) : Bool :=
  dest == frm || (!packetGone s p frm dest && (routePort s frm dest).isSome)

/-- The agent of a DELIVER on a chip: a user access of no core, whose versioned writes are ENG deltas. Without a team of the
federation there it writes in the space of partition 0. -/
def collWho (s : State) (p : CollPacket) (chip : ChipNo) : Who :=
  let t := collTeam s p chip
  { chip := chip, team := (t.map fun t => t.id).getD p.team, rank := 0, ep := p.src, kind := .collective, priv := .user,
    service := false, part := (t.map Team.part).getD 0, gmask := false, stack := none, readTag := .eng, writeTag := .eng }

/-- The PC and context of the KCOLL that a packet comes from. -/
def collOp (s : State) (p : CollPacket) : Word × BitVec 2 × Nat :=
  ((findOp s p.src p.opId).map fun o => (o.pc, o.ctx, o.rank)).getD (0, 0, 0)

/-- Write a packet's bytes on a chip, a payload with its statistics updates, a completion word without (R317). Versioned bytes
need the federation's team there. -/
def collWrite (s : State) (p : CollPacket) (chip : ChipNo) (va : Word) (bs : List Byte) (stats : Bool) : Option State :=
  let (pc, ctx, rank) := collOp s p
  let w := { collWho s p chip with rank := rank }
  if ptrSpace va != 0 then none
  else match places s w .write .lin 1 false va bs.length with
    | .ok pls =>
      if (pls.any fun pl => pl.cls == 0) && (collTeam s p chip).isNone then none
      else some (if stats then storePlaces s w ctx pc pls bs else writePlaces s w ctx pc pls bs)
    | .error _ => none

/-- What the translations of a write that fails have met (R345, R346). -/
def collMeets (s : State) (p : CollPacket) (chip : ChipNo) (va : Word) (n : Nat) : State :=
  match places s (collWho s p chip) .write .lin 1 false va n with
  | .error (.trap t) => applyMeets s t
  | _ => s

/-- Write a completion word on a chip; one that cannot be written is left (R366, R367). -/
def collWord (s : State) (p : CollPacket) (chip : ChipNo) (v : Word) : State :=
  if p.cw.toNat % 8 = 0 then (collWrite s p chip p.cw (bytesOf v.toNat 8) false).getD (collMeets s p chip p.cw 8) else s

/-- A node drops a packet: completion words of every DELIVER left in its header that the node reaches and of the issuing
chip, and a vote for LINK (R367). -/
def dropOne (s : State) (frm : ChipNo) (p : CollPacket) : State :=
  let chips := ((p.entries.filter fun x => x.2.1 == 2).map fun x => epChip x.1) ++ [p.chip]
  let s := (chips.eraseDups.filter fun c => nodeReaches s p frm c).foldl (fun s c => collWord s p c absentWord) s
  let s := { s with packets := s.packets.filter (fun x => x.id != p.id), transit := s.transit.filter fun t => t.1 != p.id }
  voteLink (endBranch s p.src p.opId) p.chip p.team

/-! ### Stack adders: keys and releases (R366, R385, R404) -/

def dropId (s : State) (id : Nat) : State := { s with packets := s.packets.filter fun p => p.id != id }

/-- The key of a packet at an adder (R366, R406). -/
def collKey (p : CollPacket) : Word32 × Bool × ChipNo × Nat :=
  if p.fed = 0 then (p.team, false, p.chip, p.tag) else (p.fed, true, 0, p.tag)

/-- Whether two keys belong to one federation, or one lone team. -/
def sameOwner (a b : Word32 × Bool × ChipNo × Nat) : Bool := a.1 == b.1 && a.2.1 == b.2.1 && a.2.2.1 == b.2.2.1

/-- Whether a packet meets a CONTRIB entry of an adder of a chip. -/
def headsContrib (p : CollPacket) (chip : ChipNo) : Bool :=
  p.entries.head?.any fun h => epChip h.1 == chip && h.2.1 == 0

/-- The adders of a chip release the CONTRIBs under an owner's keys, and drop its CHAINs (R385). -/
def releaseLost (s : State) (key : Word32 × Bool × ChipNo × Nat) (chip : ChipNo) : State :=
  let mine (h : Contrib) : Bool := sameOwner h.key key
  let out := ((s.chip chip).adders.toList.flatMap fun a => a.held).filter mine
  let clean (a : Adder) : Adder := { a with held := a.held.filter fun h => !mine h }
  let s := if out.isEmpty then s else s.modChip chip fun c => { c with adders := c.adders.map clean }
  let s := out.foldl (fun s h => endBranch s h.src h.opId) s
  let here := s.packets.filter fun p => headsContrib p chip && !moving s p.id && sameOwner (collKey p) key
  here.foldl (fun s p => if p.entries.head?.any fun h => h.2.2 == 0 then endBranch (dropId s p.id) p.src p.opId
    else dropOne s chip p) s

/-- The side of a federation that a node acts for: that of its chip's team, or, at a chip without one, of the issuing team. After
a loss each side keeps the ID for itself (R398, R409). -/
def nodeFed (s : State) (p : CollPacket) (chip : ChipNo) : Option Fed :=
  ((collTeam s p chip).orElse fun _ => collTeam s p p.chip).bind s.fedOf

/-- The member chips of that side that have not stopped, or the chip of a lone team. -/
def ownerChips (s : State) (p : CollPacket) (chip : ChipNo) : List ChipNo :=
  match nodeFed s p chip with
  | some f => ((f.members.map fun m => m.1).filter fun c => !(s.chip c).stopped).eraseDups
  | none => [p.chip]

/-- A drop makes the superstep's decision ABORT with cause LINK; from then until the decision the adders of every member chip of
that side hold nothing of its federation, as from a loss report, so that each KCOLL ends (R367, R385, R409; DEDUCED,
notes/assumptions/120.md). -/
def dropPacket (s : State) (frm : ChipNo) (p : CollPacket) : State :=
  let cs := ownerChips s p frm
  cs.foldl (fun s c => releaseLost s (collKey p) c) (dropOne s frm p)

/-- The 64-byte header as a packet carries it on (R364). -/
def headerBytes (p : CollPacket) : List Byte :=
  let n := p.entries.length
  let b0 := n + 16 * p.outBf16.toNat + 32 * p.inBf16.toNat
  let es := p.entries.flatMap fun x => bytesOf x.1.toNat 4 ++ bytesOf (x.2.1 + 4 * x.2.2) 1
  bytesOf b0 1 ++ [0] ++ bytesOf p.tag 2 ++ es ++ List.replicate (60 - es.length) 0

/-- The payloads of its link packets: the header and 8 bytes a pair, in one packet of at most 512 bytes or in two (R405). -/
def collPayloads (p : CollPacket) : List (List Byte) :=
  let bs := headerBytes p ++ p.pairs.flatMap fun x => bytesOf x.1.toNat 4 ++ bytesOf x.2.toNat 4
  if bs.length ≤ 512 then [bs] else [bs.take 512, bs.drop 512]

/-- Send a packet from a node's chip to its next entry: a packet without one ends its branch. -/
def sendPacket (s : State) (frm : ChipNo) (p : CollPacket) : State :=
  match p.entries with
  | [] => endBranch s p.src p.opId
  | x :: _ =>
    let dest := epChip x.1
    if !nodeReaches s p frm dest then dropPacket s frm p
    else
      let s := { s with packets := s.packets ++ [{ p with node := frm }] }
      if dest == frm then s
      else match routePort s frm dest with
        | some q => sendParts s frm dest q 2 p.id (collPayloads p)
        | none => s

/-! ### KCOLL -/

def execKcoll (a : GReg) (b : BReg) (n : BitVec 7) (ms : Ms) (s : State) : Host.Outcome State Fault Refusal :=
  scalar (.kcoll a b n ms) ms s fun s => do
    let c := s.cx
    let w := issueWho s
    let hp := s.g a
    let src := s.g (grpReg a 1)
    needAt (decide (ptrSpace hp ≤ 1)) Code.space hp
    needAt (decide (ptrSpace src ≤ 4)) Code.space src
    let hpl ← places s w .read .lin 64 false hp 64
    let hb := readPlaces s w hpl
    meetingAt w hpl (headerCheck hp hb)
    let b0 := leNat (hb.take 1)
    let bf := testBit b0 5
    let spl ← meetingAt w hpl (places s w .read .lin 1 false src ((if bf then 2 else 4) * n.toNat))
    let _ ← forkOrder s ((hpl ++ spl).map (·.key))
    if !engineRoom s c.ep then stall s
    else
      let pairs := startPairs bf (readPlaces s w spl) n.toNat
      let cw := s.g (grpReg a 3)
      let dst := s.g (grpReg a 2)
      let v := b.val s
      let s := touch (touch s w hpl) w spl
      let opId := s.nextId
      let s := forkEngine s cw v (.coll 1)
      let (id, s) := s.freshId
      let p : CollPacket :=
        { id := id, src := c.ep, opId := opId, chip := c.chip, team := c.team,
          fed := (s.myTeam.map fun t => t.fed).getD 0, node := c.chip, inBf16 := bf, outBf16 := testBit b0 4, tag := leNat ((hb.drop 2).take 2),
          entries := headerEntries hb, pairs := pairs, dst := dst, cw := cw, val := v, waiting := false }
      .ok (sendPacket s c.chip p)

/-! ### The hops (R366, R404, R405) -/

/-- A stack-adder queue. -/
def isAdder (e : EP) : Bool := decide (1048 ≤ epUnit e) && decide (epUnit e ≤ 1051)

/-- The packets that have reached an adder, in order of arrival: those in its wait area, and those before it, of which the first
64 are in its command queue and the others are held by the ports and the mesh (R404). -/
def atAdder (s : State) (e : EP) (waiting : Bool) : List CollPacket :=
  s.packets.filter fun p => p.waiting == waiting && !moving s p.id && p.entries.head?.any fun h => h.1 == e

/-- Whether a packet is served: an adder takes the packets of its queue in order, and retries those of its wait area. A DELIVER
waits for what precedes the KCOLL (R233). -/
def served (s : State) (p : CollPacket) (e : EP) : Bool :=
  !moving s p.id && (!(p.entries.head?.any fun h => h.2.1 == 2) || opReady s p.src p.opId) && (!isAdder e || p.waiting || ((atAdder s e false).head?.any fun x => x.id == p.id))

/-- The packet an event names, with its head entry. -/
def packetAt (s : State) (id op : Nat) : Option (CollPacket × EP × Nat × List (EP × Nat × Nat)) :=
  match s.packets.find? fun p => p.id == id with
  | some p =>
    match p.entries with
    | (e, o, arg) :: rest => if o = op && served s p e then some (p, e, arg, rest) else none
    | [] => none
  | none => none

/-- The adder of a stack-adder queue. -/
def adderIx (e : EP) : Nat := 4 * (epDie e).toNat + (epUnit e - 1048)
def adderOf (s : State) (e : EP) : Adder := ((s.chip (epChip e)).adders.toList[adderIx e]?).getD { held := [], pkts := 0 }
def modAdder (s : State) (e : EP) (f : Adder → Adder) : State :=
  s.modChip (epChip e) fun c => { c with adders := c.adders.setIfInBounds (adderIx e) (f (adderOf s e)) }
def bumpPkts (a : Adder) : Adder := { a with pkts := satAdd 32 a.pkts 1 }

/-- From a loss report, or a vote for LINK, to the decision of the node's side, a surviving chip's adders hold nothing of the
federation (R385, R409). -/
def lossPending (s : State) (p : CollPacket) (chip : ChipNo) : Bool :=
  (nodeFed s p chip).any (fun f => f.lost.any fun x => x.1 == chip || (!(f.members.any fun m => m.1 == chip) && x.1 == p.chip)) ||
  (ownerChips s p chip).any fun c => (collTeam s p c).any fun t => t.votes.any fun v => v.cause == 3

/-- The packet enters the wait area, behind those that wait already; one that finds 64 there stays at the head of the queue
(R404). -/
def parkPacket (s : State) (p : CollPacket) (e : EP) : State :=
  if p.waiting || decide (64 ≤ (atAdder s e true).length) then s
  else { dropId s p.id with packets := (dropId s p.id).packets ++ [{ p with waiting := true }] }

/-- Whether another packet of the same key and kind waits at the adder before this one. -/
def waitsBehind (s : State) (p : CollPacket) (e : EP) (arg : Nat) : Bool :=
  let q := if p.waiting then s.packets.takeWhile fun x => x.id != p.id else s.packets
  q.any fun x => x.waiting && x.id != p.id && collKey x == collKey p &&
    (x.entries.head?.any fun h => h.1 == e && h.2.1 == 0 && h.2.2 == arg)

/-- A CONTRIB is held under its key, or waits (R366, R405). -/
def contribStep (s : State) (id : Nat) : State :=
  match packetAt s id 0 with
  | some (p, e, 0, _) =>
    let a := adderOf s e
    if lossPending s p (epChip e) then endBranch (dropId s id) p.src p.opId
    else if (a.held.any fun h => h.key == collKey p) || decide (256 ≤ a.held.length) || waitsBehind s p e 0 then parkPacket s p e
    else
      let h : Contrib := { key := collKey p, pairs := p.pairs, src := p.src, opId := p.opId }
      modAdder (dropId s id) e fun a => { a with held := a.held ++ [h] }
  | _ => s

def execCollContrib (id : Nat) (s : State) : Host.Outcome State Fault Refusal := event s (.ok (contribStep s id))

/-- A CHAIN meets the CONTRIB held under its key: the running pair first (R366). -/
def chainStep (s : State) (id : Nat) : State :=
  match packetAt s id 0 with
  | some (p, e, 1, rest) =>
    let a := adderOf s e
    if lossPending s p (epChip e) then dropPacket s (epChip e) p
    else match a.held.find? fun h => h.key == collKey p with
      | some h =>
        if waitsBehind s p e 1 then parkPacket s p e
        else
          let s := modAdder (dropId s id) e fun a => bumpPkts { a with held := a.held.erase h }
          let s := endBranch s h.src h.opId
          sendPacket s (epChip e) { p with entries := rest, pairs := combinePairs p.pairs h.pairs, waiting := false }
      | none => parkPacket s p e
  | _ => s

def execCollChain (id : Nat) (s : State) : Host.Outcome State Fault Refusal := event s (.ok (chainStep s id))

def forwardStep (s : State) (id : Nat) : State :=
  match packetAt s id 1 with
  | some (p, e, _, rest) => sendPacket (dropId s id) (epChip e) { p with entries := rest }
  | none => s

def execCollForward (id : Nat) (s : State) : Host.Outcome State Fault Refusal := event s (.ok (forwardStep s id))

/-- One copy to each DELIVER that follows. -/
def multicastStep (s : State) (id : Nat) : State :=
  match packetAt s id 3 with
  | some (p, e, _, rest) =>
    let s := moreBranches (dropId s id) p.src p.opId (rest.length - 1)
    let one (s : State) (x : EP × Nat × Nat) : State :=
      let (i, s) := s.freshId
      sendPacket s (epChip e) { p with id := i, entries := [x] }
    rest.foldl one s
  | none => s

def execCollMulticast (id : Nat) (s : State) : Host.Outcome State Fault Refusal := event s (.ok (multicastStep s id))

/-- DELIVER: the payload, then the completion word; a fault ends the branch as a drop (R366, R406). -/
def deliverStep (s : State) (id : Nat) : State :=
  match packetAt s id 2 with
  | some (p, e, _, rest) =>
    let bs := deliverBytes p.outBf16 p.pairs
    match collWrite s p (epChip e) p.dst bs true with
    | some s =>
      let s := collWord s p (epChip e) p.val
      let s := if decide (1048 ≤ epUnit e) then modAdder s e bumpPkts else s
      sendPacket (dropId s id) (epChip e) { p with entries := rest }
    | none => dropPacket (collMeets s p (epChip e) p.dst bs.length) (epChip e) p
  | none => s

def execCollDeliver (id : Nat) (s : State) : Host.Outcome State Fault Refusal := event s (.ok (deliverStep s id))

/-! ### FEDJ and FEDL (R368, R369, R216) -/

/-- A record asks: a second with the same operands agrees, one that differs votes TRAP. -/
def askFed (s : State) (t : Team) (join : Bool) (id : Word32) (m : Nat) : Res State := do
  let c := s.cx
  let mine : FedAsk := { join := join, id := id, m := m, recs := [c.recA] }
  match t.ask with
  | none => .ok (s.modTeam t.chip t.id fun t => { t with ask := some mine })
  | some a =>
    if a.recs.contains c.recA then fail Code.group
    else if a.join = join ∧ a.id = id ∧ a.m = m then
      .ok (s.modTeam t.chip t.id fun t => { t with ask := some { a with recs := a.recs ++ [c.recA] } })
    else .ok (addVote s t.chip t.id { cause := 2, pc := c.ipc, rank := c.rank, ctx := c.no })

def execFedj (a : GReg) (b : BReg) (ms : Ms) (s : State) : Host.Outcome State Fault Refusal :=
  scalar (.fedj a b ms) ms s fun s => do
    need s.cx.gang.isNone Code.group
    need (!isService s s.cx.ep && feature s (epChip s.cx.ep) 3) Code.illop
    let id := s.g a
    let m := (b.val s).toNat
    need (id.extractLsb' 32 32 == 0 && id != 0 && decide (2 ≤ m) && decide (m ≤ 262144)) Code.illop
    match s.myTeam with
    | none => fail Code.group
    | some t => do
      need (t.fed == 0) Code.group
      askFed s t true (id.setWidth 32) m

def execFedl (ms : Ms) (s : State) : Host.Outcome State Fault Refusal :=
  scalar (.fedl ms) ms s fun s => do
    need s.cx.gang.isNone Code.group
    need (!isService s s.cx.ep) Code.illop
    match s.myTeam with
    | none => fail Code.group
    | some t => do
      need (t.fed != 0) Code.group
      askFed s t false t.fed 0

end Sys2Proof.Machine
end

