-- ==== Sys2Proof/Machine/Gradient.lean ====
section
/-! DEFINITION. Meanings: gradient queues and the step counter (R370-R375, R414-R417). -/
namespace Sys2Proof.Machine

/-! ### The descriptor (R370) -/

structure GQueue where
  cons : EP
  bucket : Nat
  fmt : Nat
  win : Nat
  ringoff : Nat
  cap : Nat
  head : Nat
  filled : Nat
  /-- The bytes that must be zero. -/
  zeros : Nat
  deriving DecidableEq, Repr

def gqOf (bs : List Byte) : GQueue :=
  let f (o n : Nat) : Nat := leNat ((bs.drop o).take n)
  { cons := BitVec.ofNat 32 (f 0 4), bucket := f 4 2, fmt := f 6 1, win := f 7 1, ringoff := f 8 4, cap := f 12 2,
    head := f 16 4, filled := f 20 4, zeros := f 14 2 + f 24 40 }

def GQueue.ok (q : GQueue) : Bool :=
  isOpt q.cons && decide (1 ≤ q.win) && decide (q.win ≤ 64) && q.ringoff % 512 == 0 && decide (1 ≤ q.cap) && decide (q.cap ≤ 256) &&
  decide (q.ringoff + 512 * q.cap ≤ Config.optLmSize) && decide (q.head < q.cap) && decide (q.filled ≤ q.cap) && q.zeros == 0

/-- The descriptor a pointer names, checked under R169 and R370. -/
def gqueue (s : State) (p : Word) : Res (Obj × GQueue) := do
  let o ← object s p
  let q := gqOf (o.pls.map fun pl => s.mem.get pl.key)
  needAt q.ok Code.space p
  needAt (q.fmt == 1 || q.fmt == 3 || q.fmt == 4) Code.fmt p
  .ok (o, q)

/-! ### The producer -/

/-- The key of the descriptor that a pointer of a team names. -/
def descKey (s : State) (chip : ChipNo) (team : Word32) (desc : Word) : Option Nat :=
  let part := ((s.team? chip team).map fun t => t.part).getD 0
  let va := desc.toNat % 2 ^ 57
  match walk s chip part va with
  | .ok l => some (physKey chip (leafPa s chip part l va))
  | .error _ => none

/-- Two pointers of a team name one queue: its descriptor, whatever the address that reaches it (R344, R370). -/
def sameQueue (s : State) (chip : ChipNo) (team : Word32) (a b : Word) : Bool :=
  a == b || (match descKey s chip team a, descKey s chip team b with
    | some x, some y => x == y
    | _, _ => false)

/-- A core's count of fragments in flight on a queue (R371). -/
def inflightOf (s : State) (k : Core) (desc : Word) : Nat :=
  ((k.inflight.filter fun x => sameQueue s k.chip k.team x.1 desc).map fun x => x.2).sum

/-- Change a queue's count; a queue with none in flight is no longer tracked. -/
def setInflight (s : State) (k : Core) (desc : Word) (n : Nat) : Core :=
  { k with inflight := (k.inflight.filter fun x => !sameQueue s k.chip k.team x.1 desc) ++ if n = 0 then [] else [(desc, n)] }

/-- Whether a source byte's recorded format is raw, or the queue's (R414). -/
def gqFmtOk (s : State) (fmt : Nat) (pl : Place) : Bool :=
  if isBufKey pl.key then
    let sp := bufKeySpace pl.key
    if sp = 2 ∨ sp = 3 then
      let f := (regionFmt s (bufKeyEp pl.key) sp (bufKeyOff pl.key)).1
      f == 0x1F || f == fmt
    else true
  else cwFmt pl.cw == 0x1F || cwFmt pl.cw == fmt

def execGqpush (a : GReg) (ms : Ms) (s : State) : Host.Outcome State Fault Refusal :=
  scalar (.gqpush a ms) ms s fun s => do
    let c := s.cx
    let desc := s.g a
    let src := s.g (grpReg a 1)
    let len := (s.g (grpReg a 2)).toNat
    let (_, q) ← gqueue s desc
    needAt (decide (ptrSpace src ≤ 4)) Code.space src
    need (decide (1 ≤ len) && decide (len ≤ 512) && len % (fmtBits q.fmt / 8) == 0) Code.space
    needAt ((optCores s c.chip c.team).contains q.cons) Code.space desc
    let w := issueWho s
    let pls ← places s w .read .lin 1 false src len
    meetingAt w pls (needAt (pls.all (gqFmtOk s q.fmt)) Code.fmt src)
    let _ ← forkOrder s (pls.map (·.key))
    let k := s.core c.ep
    let n := inflightOf s k desc
    if decide (q.win ≤ n) || (n == 0 && decide (16 ≤ k.inflight.length)) || decide (32 ≤ k.egress.length) || !engineRoom s c.ep then stall s
    else
      let bytes := readPlaces s w pls
      let s0 := s
      let s := touch s w pls
      let (fid, s) := s.freshId
      let opId := s.nextId
      let s := forkEngine s 0 0 (.gq fid)
      let f : Fragment := { id := fid, src := c.ep, opId := opId, chip := c.chip, team := c.team, desc := desc, bucket := q.bucket,
                            bytes := bytes, started := false }
      .ok (s.modCore c.ep fun k => setInflight s0 { k with egress := k.egress ++ [f] } desc (n + 1))

/-- The level of a bucket in a core's table (R374). -/
def bucketLevel (k : Core) (bucket : Nat) : Nat :=
  let b := bucket % 64
  bits (k.reg (0x710 + b / 16) 0).toNat (4 * (b % 16)) 4

/-- The fragment that leaves next: the highest level, the oldest of it (R374). -/
def nextFragment (k : Core) : Option Fragment :=
  let top := (k.egress.map fun f => bucketLevel k f.bucket).foldl (fun a b => if a < b then b else a) 0
  k.egress.find? fun f => bucketLevel k f.bucket == top

def sendFragment (s : State) (e : EP) : State :=
  match nextFragment (s.core e) with
  | some f =>
    let s := s.modCore e fun k => { k with egress := k.egress.filter fun x => x.id != f.id }
    { s with frags := s.frags ++ [{ f with started := true }] }
  | none => s

def execGqEgressSend (ep : EP) (s : State) : Host.Outcome State Fault Refusal := event s (.ok (sendFragment s ep))

/-! ### Delivery (R371, R414) -/

/-- The consumer acting as the device. -/
def gqWho (s : State) (cons : EP) (chip : ChipNo) (team : Word32) : Who := engineWho s cons .control chip team 0xFFF

/-- The consumer of a fragment's queue, as its descriptor stands. -/
def fragDest (s : State) (f : Fragment) : EP :=
  match devRead s (engineWho s f.src .copy f.chip f.team 0) f.desc 64 with
  | .ok bs => (gqOf bs).cons
  | .error _ => f.src

/-- The oldest fragment on its way from its producer to its queue, once what precedes its push has been performed (R233). -/
def fragFirst (s : State) (f : Fragment) : Bool :=
  opReady s f.src f.opId &&
  ((s.frags.find? fun x => x.src == f.src && x.chip == f.chip && x.team == f.team && sameQueue s f.chip f.team x.desc f.desc).map fun x => x.id) == some f.id

/-- The suspended GQPOP of a queue. -/
def gqWaiter (s : State) (chip : ChipNo) (team : Word32) (desc : Word) : Option Waiter :=
  s.waiters.find? fun x => x.chip == chip && x.team == team && (match x.kind with | .gqPop _ a => sameQueue s chip team a desc | _ => false)

/-- The word that GQPOP delivers (R372). -/
def gqWord (g : GqSlot) : Word := BitVec.ofNat 64 (g.src.toNat * 2 ^ 32 + g.len * 2 ^ 16 + g.slot)

/-- A fragment fills the slot at HEAD, once that is free; a suspended GQPOP takes it. -/
def deliverFragment (s : State) (id : Nat) : Res State :=
  match s.frags.find? fun f => f.id == id with
  | none => .ok s
  | some f => do
    let w0 := engineWho s f.src .copy f.chip f.team 0
    let bs ← devRead s w0 f.desc 64
    let q := gqOf bs
    let w := gqWho s q.cons f.chip f.team
    let k := s.core q.cons
    if !fragFirst s f || !q.ok || (k.gqSlots.any fun g => g.chip == f.chip && g.slot == q.head && sameQueue s f.chip f.team g.desc f.desc) then .ok s
    else
      let base := bufKey q.cons 1 (q.ringoff + 512 * q.head)
      let place (i : Nat) : Place :=
        { key := base + i, cls := 1, dest := q.cons, va := 0, cw := 0, zero := false, mirror := none, peer := false, via := [] }
      let pc := ((findOp s f.src f.opId).map fun o => o.pc).getD 0
      let s := writePlaces s w 0 pc ((List.range f.bytes.length).map place) f.bytes
      let s ← devWriteNat s w (f.desc + 16) ((q.head + 1) % q.cap) 4
      let x := gqWaiter s f.chip f.team f.desc
      let s ← (if x.isSome then .ok s else devWriteNat s w (f.desc + 20) (q.filled + 1) 4)
      let g : GqSlot := { desc := f.desc, chip := f.chip, slot := q.head, src := f.src, len := f.bytes.length, popped := x.isSome }
      let s := s.modCore q.cons fun k => { k with gqSlots := k.gqSlots ++ [g] }
      let s := dropOp { s with frags := s.frags.filter fun y => y.id != id } f.src f.opId
      match x with
      | some x =>
        match x.kind with
        | .gqPop d _ => do
          let s ← wakeWrite s x.chip x.team x.recA d (gqWord g)
          readyIfOk s x.chip x.team x.recA
        | _ => .ok s
      | none => .ok s

def execGqDeliver (id : Nat) (s : State) : Host.Outcome State Fault Refusal := event s (deliverFragment s id)

/-! ### The consumer -/

def execGqpop (d a : GReg) (ms : Ms) (s : State) : Host.Outcome State Fault Refusal :=
  scalar (.gqpop d a ms) ms s fun s => do
    let c := s.cx
    need c.gang.isNone Code.group
    let desc := s.g a
    let (o, q) ← gqueue s desc
    needAt (q.cons == c.ep) Code.space desc
    if q.filled = 0 then do
      suspendOrder s
      suspendFor (countFarAt s o.pls) stWaitQueue desc (.gqPop d desc)
    else match (s.core c.ep).gqSlots.find? fun g => g.chip == c.chip && !g.popped && sameQueue s c.chip c.team g.desc desc with
      | none => failAt Code.space desc
      | some g =>
        objOp s o fun s =>
          let s := o.put s 20 4 (q.filled - 1)
          let take (x : GqSlot) : GqSlot := if x == g then { x with popped := true } else x
          let s := s.modCore c.ep fun k => { k with gqSlots := k.gqSlots.map take }
          .ok (s.setG d (gqWord g))

def execGqwin (rl : Bool) (d a : GReg) (b : BReg) (ms : Ms) (s : State) : Host.Outcome State Fault Refusal :=
  scalar (.gqwin rl d a b ms) ms s fun s => do
    let c := s.cx
    let desc := s.g a
    let v := b.val s
    if rl then do
      let _ ← gqueue s desc
      let slot := v.toNat % 256
      match (s.core c.ep).gqSlots.find? fun g => g.chip == c.chip && g.popped && g.slot == slot && sameQueue s c.chip c.team g.desc desc with
      | none => failAt Code.space desc
      | some g =>
        let s := s.modCore c.ep fun k => { k with gqSlots := k.gqSlots.filter fun x => x != g }
        .ok (s.modCore g.src fun k => setInflight s k desc (inflightOf s k desc - 1))
    else do
      need (decide (v.toNat ≤ 64)) Code.illop
      let _ ← gqueue s desc
      let n := inflightOf s (s.core c.ep) desc
      if v.toNat < n then stall s else .ok (s.setG d (BitVec.ofNat 64 n))

/-! ### GPRIO and OSTEP -/

def execGprio (a : GReg) (lvl : BitVec 4) (ms : Ms) (s : State) : Host.Outcome State Fault Refusal :=
  scalar (.gprio a lvl ms) ms s fun s => do
    let v := s.g a
    need (v.extractLsb' 16 48 == 0) Code.illop
    let b := v.toNat % 64
    let n := 0x710 + b / 16
    let old := ((s.core s.cx.ep).reg n 0).toNat
    let new := old - bits old (4 * (b % 16)) 4 * 2 ^ (4 * (b % 16)) + lvl.toNat * 2 ^ (4 * (b % 16))
    .ok (s.modCore s.cx.ep fun k => k.setReg n (BitVec.ofNat 64 new))

def execOstep (d : GReg) (b : BReg) (ms : Ms) (s : State) : Host.Outcome State Fault Refusal :=
  scalar (.ostep d b ms) ms s fun s =>
    let c := s.cx
    let n := (s.myTeam.map fun t => t.steps).getD 0
    let mark := b.val s != 0
    let s := if mark then s.modTeam c.chip c.team fun t => { t with stepMark := true } else s
    .ok (s.setG d (BitVec.ofNat 64 n))

end Sys2Proof.Machine
end

