-- ==== Sys2Proof/Machine/Migrate.lean ====
section
/-! DEFINITION. Meanings: page migration and host atomics (R353-R355, R357), and what a shoot-down invalidates (R347). -/
namespace Sys2Proof.Machine

/-! ### Shoot-downs -/

/-- Whether a core's translations carry a partition's tag. -/
def servesPart (s : State) (k : Nat × Core) (chip : ChipNo) (part : Nat) : Bool :=
  let e : EP := BitVec.ofNat 32 k.1
  epChip e == chip && ((isCompute e && partOf e == part) || partFor s chip k.2.team e == part)

/-- Lines of a range leave a core's L1 and instruction cache (R347). -/
def invalidateCore (s : State) (chip : ChipNo) (e : EP) (part lo hi : Nat) : State :=
  let inside (a : Word) : Bool := decide (lo < a.toNat + 64) && decide (a.toNat < hi)
  let k := s.core e
  s.setCore e (dropL1 (if servesPart s (e.toNat, k) chip part then { k with icache := k.icache.filter fun x => !inside x.1 } else k) part lo hi)

/-- The nodes of a shoot-down's tree below the core that starts it: cluster n of the package (0-127), die d (128 + d), and the
mailbox of core c of cluster n (256 + 16n + c). -/
def nodeCore (chip : ChipNo) (n : Nat) : EP :=
  let c := (n - 256) / 16
  let i := n % 16
  coreAt chip (decide (64 ≤ c)) (4 * (c % 8) + i % 4) (4 * (c % 64 / 8) + i / 4)

/-- The mailboxes of a cluster. -/
def mailboxes (c : Nat) : List Nat := (List.range 16).map fun i => 256 + 16 * c + i

/-- The nodes that a shoot-down reaches: sleeping cores are skipped, and a cluster TLB whose 16 cores all sleep (R348). -/
def treeNodes (s : State) (chip : ChipNo) : List Nat :=
  let awake (n : Nat) : Bool := !(s.core (nodeCore chip n)).asleep
  let cl := (List.range 128).filter fun c => (mailboxes c).any awake
  (cl.flatMap fun c => (mailboxes c).filter awake) ++ cl ++ [128, 129]

/-- A shoot-down starts down its tree. -/
def startShoot (s : State) (chip : ChipNo) (ep : EP) (ctx : BitVec 2) (part lo hi : Nat) : Nat × State :=
  let (id, s) := s.freshId
  let x : Shoot := { id := id, ep := ep, ctx := ctx, part := part, lo := lo, hi := hi, nodes := treeNodes s chip }
  let off := (List.range 128).filter fun c => !x.nodes.contains c
  (id, s.modChip chip fun k => { k with shoots := k.shoots ++ [x], skipped := (k.skipped ++ off).eraseDups })

/-- Whether a node may acknowledge: a mailbox holds four messages, and the rest wait at its parent; a TLB waits for its
children (R348). -/
def mayAck (c : Chip) (x : Shoot) (n : Nat) : Bool :=
  if 256 ≤ n then decide (((c.shoots.takeWhile fun y => y.id != x.id).filter fun y => y.nodes.contains n).length < 4)
  else if n < 128 then !(mailboxes n).any x.nodes.contains
  else !((List.range 64).any fun i => x.nodes.contains (64 * (n - 128) + i))

/-- The node's own entries of the range are invalidated. -/
def nodeDrops (s : State) (chip : ChipNo) (x : Shoot) (n : Nat) : State :=
  if 256 ≤ n then invalidateCore s chip (nodeCore chip n) x.part x.lo x.hi
  else
    let s := s.modChip chip fun c => dropTlb c n x.part x.lo x.hi
    if n < 128 then s else s.modChip chip fun c => dropWalks c (n - 128) x.part x.lo x.hi

/-- A shoot-down completes: no TLB, walk cache, L1 or instruction cache of the package holds an entry of its range, whether the
tree reaches the unit or an entry has been fetched again from a node that had not acknowledged yet (R347, R380). -/
def finishShoot (s : State) (chip : ChipNo) (x : Shoot) : State :=
  let mine := (s.cores.map fun (q : Nat × Core) => (BitVec.ofNat 32 q.1 : EP)).filter fun e => epChip e == chip
  let s := mine.foldl (fun s e => invalidateCore s chip e x.part x.lo x.hi) s
  s.modChip chip fun c =>
    let c := dropWalks (dropWalks c 0 x.part x.lo x.hi) 1 x.part x.lo x.hi
    { c with tlb := c.tlb.filter fun y => !(y.part == x.part && decide (y.lo < x.hi) && decide (x.lo < y.hi)) }

/-- The next node of a shoot-down's tree that can acknowledges, its own entries gone; with the last the shoot-down completes. -/
def ackShoot (s : State) (id : Nat) : State :=
  match s.chips.find? fun (c : Nat × Chip) => c.2.shoots.any fun x => x.id == id with
  | none => s
  | some (_, c) =>
    match c.shoots.find? fun x => x.id == id with
    | none => s
    | some x =>
      match x.nodes.find? (mayAck c x) with
      | none => s
      | some n =>
        let s := (nodeDrops s c.no x n).modChip c.no fun k =>
          { k with shoots := k.shoots.map fun y => if y.id == id then { y with nodes := y.nodes.filter fun m => m != n } else y }
        if x.nodes.all fun m => m == n then finishShoot s c.no x else s

/-- A shoot-down that every node has acknowledged. -/
def shootDone (c : Chip) (id : Nat) : Bool := c.shoots.all fun x => x.id != id || x.nodes.isEmpty
def dropShoot (s : State) (chip : ChipNo) (id : Nat) : State :=
  s.modChip chip fun k => { k with shoots := k.shoots.filter fun y => y.id != id }

/-! ### The migration unit -/

def modMig (s : State) (chip : ChipNo) (f : Mig → Mig) : State := s.modChip chip fun c => { c with mig := f c.mig }

/-- Whether a byte's key lies in the page that leaves. -/
def inPage (chip : ChipNo) (m : Mig) (key : Nat) : Bool :=
  decide (physKey chip m.oldPa ≤ key) && decide (key < physKey chip m.oldPa + 64 * m.lines)

/-- A live team holds versioned deltas or deferred reductions on the page (R354 step 1). -/
def pageHeld (s : State) (chip : ChipNo) (m : Mig) : Bool :=
  (s.deltas.any fun d => inPage chip m d.1) || s.reds.any fun r => inPage chip m r.key

/-- The page's leaf, in the space of its partition. -/
def migLeaf (s : State) (chip : ChipNo) (m : Mig) : Option Leaf :=
  match walk s chip m.part m.va.toNat with
  | .ok l => some l
  | .error _ => none

/-- The addresses of every copy of a leaf (R340). -/
def leafCopies (l : Leaf) : List Nat :=
  let n := match l.ps with | 1 => 16 | 3 => 256 | _ => 1
  (List.range n).map fun i => l.at_ - l.at_ % (8 * n) + 8 * i

/-- Write every copy of a leaf with its companion word. -/
def putLeaf (s : State) (chip : ChipNo) (l : Leaf) (e cw : Nat) : State :=
  let put (m : Memory) (a : Nat) : Memory := (m.setBytes (physKey chip a) (bytesOf e 8)).setBytes (physKey chip (a + 0x1000)) (bytesOf cw 8)
  { s with mem := (leafCopies l).foldl put s.mem }

/-- Step 2: MIG is set in every leaf copy, and the copy begins. -/
def markPage (s : State) (chip : ChipNo) : State :=
  match migLeaf s chip (s.chip chip).mig with
  | some l => modMig (putLeaf s chip l (l.entry ||| (1 <<< 9)).toNat l.cw.toNat) chip fun m => { m with state := 2, line := 0 }
  | none => modMig s chip fun m => { m with state := 4 }

/-- The team whose access has started a page's migration: it stands at a fault on the page, the latest of those that do (R355;
DEDUCED, notes/assumptions/121.md). -/
def migStarter (s : State) (chip : ChipNo) (part lo hi : Nat) : Word32 :=
  let inside (a : Word) : Bool := decide (lo ≤ a.toNat) && decide (a.toNat < hi)
  let here (id : Word32) : Bool := (s.team? chip id).any fun t => ptRoot (s.chip chip) t.part == ptRoot (s.chip chip) part
  let parked := s.waiters.filterMap fun w => match w.kind with
    | .parked _ _ _ a _ _ => if w.chip == chip && inside a && here w.team then some w.team else none
    | _ => none
  let engines := s.cores.filterMap fun (q : Nat × Core) =>
    let k := q.2
    let stuck := (k.engine.any fun o => o.stuck && inside o.at_) || (k.mx.queue.any fun x => x.stuck && inside x.at_) ||
      (k.walker.stuck && inside k.walker.at_)
    if k.chip == chip && stuck && here k.team then some k.team else none
  (parked.getLast?.orElse fun _ => engines.head?).getD 0

/-- A write of MIGREQ (R357, R430). -/
def startMig (s : State) (chip : ChipNo) (part : Nat) (va : Word) (go : Bool) : State :=
  let m := (s.chip chip).mig
  if !feature s chip 2 || m.state = 1 || m.state = 2 || !go then s
  else match walk s chip part va.toNat with
    | .error _ => modMig s chip fun m => { m with state := 4 }
    | .ok l =>
      let size := 2 ^ pageShift l.ps
      let frame := bits m.dst.toNat 12 40 * 4096
      let hostFrame := testBit frame 51
      let host := cwOwner l.cw
      if frame % size != 0 || hostFrame == host || (!hostFrame && !frameBacked (s.chip chip) frame size) then
        modMig s chip fun m => { m with state := 5 }
      else
        let page : Word := BitVec.ofNat 64 (va.toNat / size * size)
        let new : Mig :=
          { m with state := 1, line := 0, part := part, va := page, owner := host, lines := size / 64,
                   oldPa := entryAddr l.entry,
                   shoot := none, team := migStarter s chip part page.toNat (page.toNat + size) }
        let s := modMig s chip fun _ => new
        if !host && pageHeld s chip new then s else markPage s chip

def execMigreqGo (chip : ChipNo) (part : BitVec 3) (va : Word) (s : State) : Host.Outcome State Fault Refusal :=
  event s (.ok (startMig s chip part.toNat (va &&& 0x01FFFFFFFFFFF000) true))

/-- Everything kept under a line's old key moves with the line. -/
def moveLine (s : State) (old new : Nat) : State :=
  let mv (k : Nat) : Nat := if old ≤ k ∧ k < old + 64 then new + (k - old) else k
  { s with mem := s.mem.setBytes new (s.mem.getBytes old 64),
           deltas := s.deltas.map fun d => (mv d.1, d.2),
           undo := s.undo.map fun u => { u with key := mv u.key },
           landings := s.landings.map fun x => { x with key := mv x.key },
           reds := s.reds.map fun r => { r with key := mv r.key, mirror := r.mirror.map mv } }

/-- R355: the page's migrations are counted; the 64th within 1 ms is logged, and noticed to the service core of the team whose
access started the migration. -/
def countMig (s : State) (chip : ChipNo) (m : Mig) : Res State := do
  let page : Word × Word := (BitVec.ofNat 64 (ptRoot (s.chip chip) m.part), m.va)
  let times := (((m.log.lookup page).getD []).filter fun t => decide (s.time < t + Config.msPeriod)) ++ [s.time]
  let rest := m.log.filter fun (x : (Word × Word) × List Nat) => x.1 != page
  if times.length < 64 then
    let log : List ((Word × Word) × List Nat) := rest ++ [(page, times)]
    .ok (modMig s chip fun m => { m with log := log.drop (log.length - 64) })
  else do
    let s := modMig s chip fun m => { m with log := rest }
    let s := logEvent s chip (collierEp chip) 0x03 m.va.toNat
    match s.team? chip m.team with
    | some t =>
      let x := mkMsg s chip t.id Code.owner 0 Msg.flagNotice 0 0 m.va 0 (collierEp chip) 0 1 (BitVec.ofNat 64 times.length)
      postMsg s t.svc x
    | none => .ok s

/-- Step 4: every leaf copy names the new frame with OWNER toggled and MIG clear, and the page's shoot-down starts; once that is
complete the migration is done. -/
def switchPage (s : State) (chip : ChipNo) : Res State :=
  let m := (s.chip chip).mig
  match m.shoot with
  | some id =>
    if shootDone (s.chip chip) id then
      countMig (modMig (dropShoot s chip id) chip fun m => { m with state := 3, shoot := none }) chip m
    else .ok s
  | none =>
    let s := match migLeaf s chip m with
      | some l =>
        let e := l.entry.toNat - entryAddr l.entry + bits m.dst.toNat 12 40 * 4096 - (if l.bit 9 then 2 ^ 9 else 0)
        putLeaf s chip l e (l.cw ^^^ (1 <<< 45)).toNat
      | none => s
    let (id, s) := startShoot s chip (collierEp chip) 3 m.part m.va.toNat (m.va.toNat + 64 * m.lines)
    .ok (modMig s chip fun m => { m with shoot := some id })

/-- The unit's next step: the release it waits for, the next line, or the switch (R354). -/
def copyLine (s : State) (chip : ChipNo) : Res State :=
  let m := (s.chip chip).mig
  if m.state = 1 then .ok (if pageHeld s chip m then s else markPage s chip)
  else if m.state = 2 then
    if m.line < m.lines then
      let new := bits m.dst.toNat 12 40 * 4096
      if channelHeld s (physKey chip (m.oldPa + 64 * m.line)) || channelHeld s (physKey chip (new + 64 * m.line)) then .ok s
      else
      let s := moveLine s (physKey chip (m.oldPa + 64 * m.line)) (physKey chip (new + 64 * m.line))
      .ok (modMig s chip fun m => { m with line := m.line + 1 })
    else switchPage s chip
  else .ok s

def execMigrationLineCopy (chip : ChipNo) (s : State) : Host.Outcome State Fault Refusal := event s (copyLine s chip)

/-! ### Atomics of the host (R353) -/

/-- The new value of a host AtomicOp, if it writes one. -/
def hostNew (op : HostAtomic) (old opnd cmp : Nat) : Option Nat :=
  match op with
  | .fetchAdd => some (old + opnd)
  | .swap => some opnd
  | .cas => if old = cmp then some opnd else none

/-- A host AtomicOp is performed at the memory of the page's owner: in host memory, or by the far agent of a device-owned
page with SYSAT. Elsewhere the host's own translation keeps it away (R352). -/
def hostAtomic (s : State) (chip : ChipNo) (part : Nat) (op : HostAtomic) (dbl : Bool) (va opnd cmp : Word) : State :=
  let n := if dbl then 8 else 4
  if (s.chip chip).stopped || va.toNat % n != 0 || cutOff s chip (reporter s chip part) then s
  else match walk s chip part va.toNat with
    | .error _ => s
    | .ok l =>
      let key := physKey chip (leafPa s chip part l va.toNat)
      let ok := cwOwner l.cw || (cwSysat l.cw && feature s chip 1 && (cwClass l.cw == 1 || cwClass l.cw == 2))
      if !ok then s
      else
        let s := if cwOwner l.cw then s else countFar s key
        match hostNew op (leNat (s.mem.getBytes key n)) (opnd.toNat % 2 ^ (8 * n)) (cmp.toNat % 2 ^ (8 * n)) with
        | some v => putMem s key (bytesOf v n)
        | none => s

def execHostAtomicop (chip : ChipNo) (part : BitVec 3) (op : HostAtomic) (dbl : Bool) (va opnd cmp : Word) (s : State) :
    Host.Outcome State Fault Refusal :=
  event s (.ok (hostAtomic s chip part.toNat op dbl va opnd cmp))

end Sys2Proof.Machine
end

