-- ==== Sys2Proof/Machine/Link.lean ====
section
/-! DEFINITION. Meanings: Kreush Link: flits, acknowledgements and replay (R393, R394), lanes and ports (R395, R396, R403),
gateways (R391, R392, R397), heartbeats and loss (R397, R398). -/
namespace Sys2Proof.Machine

/-! ### Ports -/

def portOf (s : State) (chip : ChipNo) (p : BitVec 4) : Port := ((s.chip chip).ports.toList[p.toNat]?).getD Port.reset
def setPort (s : State) (chip : ChipNo) (p : BitVec 4) (x : Port) : State :=
  s.modChip chip fun c => { c with ports := c.ports.setIfInBounds p.toNat x }

/-- (a - b) mod 4096. -/
def seqDiff (a b : BitVec 12) : Nat := (a - b).toNat

/-- A correctable event of the link (R421). -/
def linkError (s : State) (chip : ChipNo) : State := correctable s chip .pf bumpLink

/-! ### Flits (R393) -/

/-- The payload beats of a packet: 1 to 8 of 64 bytes. -/
def packetBeats (x : LinkPacket) : Nat :=
  let n := (x.payload.length + 63) / 64
  if n < 1 then 1 else if 8 < n then 8 else n

/-- The length of a flit: 32 bytes, and 64 for each beat of the packet it carries. -/
def flitLength (f : Flit) : Nat := 32 + 64 * ((f.packet.map fun p => packetBeats p.2).getD 0)

/-- The 2-byte flit header: [11:0] the sequence acknowledged, [12] NAK, [13] acknowledgement valid, [14] packet present. -/
def flitHeader (f : Flit) : Nat :=
  f.ackSeq.toNat + 2 ^ 12 * f.nak.toNat + 2 ^ 13 * f.ackValid.toNat + 2 ^ 14 * f.packet.isSome.toNat

/-- The bytes of a flit before its FEC: the flit header, the packet header (zero without a packet), the beats. A beat that the
payload does not fill ends in bytes the manual does not give. -/
def flitBody (f : Flit) : List Byte :=
  bytesOf (flitHeader f) 2 ++
  match f.packet with
  | none => List.replicate 16 0
  | some (q, x) =>
    bytesOf (Config.packetHeader q x.src x.dest x.vc).toNat 16 ++
      ((x.payload ++ freePayload q.toNat ++ List.replicate 512 0).take (64 * packetBeats x))

/-- Every byte before the CRC: the body and 12 bytes of FEC. -/
def flitBytes (f : Flit) : List Byte := flitBody f ++ bytesOf (Config.flitFec (flitBody f)).toNat 12

/-- The CRC-16 over every byte before it: polynomial 0x1021, initial value 0xFFFF. -/
def flitCrc (f : Flit) : BitVec 16 := crc16 0xFFFF (flitBytes f)
def flitOk (f : Flit) : Bool := f.crc == flitCrc f

/-- A flit as it is sent. -/
def sealFlit (ackValid nak : Bool) (ackSeq : BitVec 12) (x : Option (BitVec 12 × LinkPacket)) : Flit :=
  let f : Flit := { ackValid := ackValid, nak := nak, ackSeq := ackSeq, packet := x, crc := 0 }
  { f with crc := flitCrc f }

/-- A flit without a packet that acknowledges, or refuses, up to the last packet accepted. -/
def ackFlit (x : Port) (nak : Bool) : Flit := sealFlit (!nak) nak (x.rxNext - 1) none

/-- Send an acknowledgement (R394). -/
def Port.ack (x : Port) : Port := { x with out := x.out ++ [ackFlit x false], rxUnacked := 0 }
def Port.refuse (x : Port) : Port := { x with out := x.out ++ [ackFlit x true], rxUnacked := 0, nakSent := true }

def packetFlit (b : BitVec 12 × LinkPacket) : Flit := sealFlit false false 0 (some b)

/-- Resend every unacknowledged packet in order; counted when there is one (R394, R403). -/
def Port.resend (x : Port) (now : Nat) : Port :=
  if x.buf.isEmpty then x
  else { x with out := x.out ++ x.buf.map packetFlit, replay := satAdd 16 x.replay 1, txSince := now }

/-- Every sequence up to `q` is acknowledged. -/
def Port.acked (x : Port) (q : BitVec 12) (now : Nat) : Port :=
  if seqDiff q x.txAcked ≤ x.buf.length then
    { x with txAcked := q, buf := x.buf.filter fun b => decide (seqDiff q x.txAcked < seqDiff b.1 x.txAcked), txSince := now }
  else x

/-! ### Packets at their destination (R387, R392, R397) -/

/-- An operation that can go no further on the link: a collective packet is dropped at its node, a peer copy finds its peer
absent, and what a cord or its status still carried is lost with a vote for LINK (R363, R367, R396, R398). -/
def loseOp (s : State) (op : Nat) : State :=
  if !moving s op then s
  else
    let s := { s with transit := s.transit.filter fun t => t.1 != op }
    match s.packets.find? fun p => p.id == op with
    | some p => dropPacket s p.node p
    | none =>
      match (s.cords.find? fun c => c.id == op).map (fun c => (c.chip, c.team)) |>.orElse fun _ =>
          (s.statuses.find? fun c => c.id == op).map fun c => (c.chip, c.team) with
      | some (chip, team) =>
        voteLink { s with cords := s.cords.filter (fun c => c.id != op), statuses := s.statuses.filter fun c => c.id != op } chip team
      | none =>
        match s.cores.findSome? fun (k : Nat × Core) => (k.2.engine.find? fun o => o.id == op).map fun o => (BitVec.ofNat 32 k.1, o) with
        | some (e, o) =>
          match o.kind with
          | .peer x =>
            -- a mirror takes over where the primary can no longer be reached (R390)
            if (peerServer s (s.core e).chip (s.core e).team x).any (fun c => x.port.any fun q => q.1 != c) then s
            else match peerAbsent s e o x with | .ok s => s | .error _ => s
          | _ => s
        | none => s

/-- The chip that an operation on the link belongs to. -/
def opChip (s : State) (op : Nat) : Option ChipNo :=
  (s.packets.find? fun p => p.id == op).map (fun p => p.chip) |>.orElse fun _ =>
  (s.cords.find? fun c => c.id == op).map (fun c => c.chip) |>.orElse fun _ =>
  (s.statuses.find? fun c => c.id == op).map (fun c => c.chip) |>.orElse fun _ =>
  s.cores.findSome? fun (k : Nat × Core) => (k.2.engine.find? fun o => o.id == op).map fun _ => epChip (BitVec.ofNat 32 k.1)

/-- A packet takes its route on, or ends where no port leads to its destination. -/
def routeOn (s : State) (chip : ChipNo) (x : LinkPacket) : State :=
  match routePort s chip x.dest with
  | some p => gwPush s chip p x
  | none => match x.load with | .part op _ => loseOp s op | _ => s

/-- A part of an operation has arrived. A collective packet takes its place behind those that arrived before it (R404). -/
def landPart (s : State) (op i : Nat) : State :=
  let s := { s with transit := s.transit.filter fun t => t != (op, i) }
  if moving s op then s
  else { s with packets := s.packets.filter (fun p => p.id != op) ++ s.packets.filter fun p => p.id == op }

/-- A packet reaches its chip. Traffic of VC 3 shows that its sender lives (R398). -/
def landPacket (s : State) (chip : ChipNo) (x : LinkPacket) : State :=
  let s := if x.vc = 3 then s.modChip chip fun c => { c with heard := alPut c.heard x.src s.time } else s
  match x.load with
  | .part op i => landPart s op i
  | .beat => s
  | .arrival id =>
    let add (f : Fed) : Fed :=
      if f.id == id && (fedChips f).contains chip && !f.rose.contains x.src then { f with rose := f.rose ++ [x.src] } else f
    { s with feds := s.feds.map add }
  | .decision id => takeDecision s chip id
  | .loss lost => s.modChip chip fun c => { c with told := (c.told ++ [lost]).eraseDups }

/-- An accepted packet is unpacked into the mesh, or goes to a gateway when another chip is its destination (R387, R392). -/
def acceptPacket (s : State) (chip : ChipNo) (x : LinkPacket) : State :=
  if x.dest == chip then landPacket s chip x else routeOn s chip x

/-! ### Arriving flits (R394) -/

/-- The packet of a flit at the receiver: accepted, ahead, or a duplicate. -/
def Port.packet (x : Port) (q : BitVec 12) (now : Nat) : Port × Bool :=
  if q = x.rxNext then
    let y := { x with rxNext := x.rxNext + 1, rxUnacked := x.rxUnacked + 1, nakSent := false,
                      rxSince := if x.rxUnacked = 0 then now else x.rxSince }
    (if 4 ≤ y.rxUnacked && !y.stopped then y.ack else y, true)
  else if seqDiff q x.rxNext < 2048 then (if x.nakSent || x.stopped then x else x.refuse, false)
  else (x, false)

/-- The partner's oldest flit on the wire is the one that arrives. -/
def takeWire (s : State) (chip : ChipNo) (p : BitVec 4) (f : Flit) : State :=
  match (portOf s chip p).peer with
  | some (c, q) =>
    let y := portOf s c q
    match y.out with
    | g :: gs => if { f with crc := 0 } = { g with crc := 0 } then setPort s c q { y with out := gs } else s
    | [] => s
  | none => s

/-- A flit arrives at a port. One that has crossed the lane that fails does not hold its CRC (R403). -/
def flitIn (s : State) (chip : ChipNo) (p : BitVec 4) (f : Flit) : State :=
  let s := takeWire s chip p f
  let x := portOf s chip p
  if x.state = 0 then s
  else if x.broken || !flitOk f then setPort s chip p (if x.stopped then x else x.refuse)
  else
    let y := if f.ackValid || f.nak then x.acked f.ackSeq s.time else x
    let again := f.nak && !y.stopped && !y.buf.isEmpty
    let y := if again then y.resend s.time else y
    let s := if again then linkError s chip else s
    match f.packet with
    | none => setPort s chip p y
    | some (q, b) =>
      let r := y.packet q s.time
      let s := setPort s chip p r.1
      if r.2 then acceptPacket s chip b else s

def execFlitReceive (chip : ChipNo) (port : BitVec 4) (f : Flit) (s : State) : Host.Outcome State Fault Refusal :=
  event s (.ok (flitIn s chip port f))

/-- An accepted packet has gone unacknowledged for 32 F-cycles (R394); the timer stands still while the port trains (R403). -/
def ackDue (s : State) (chip : ChipNo) (p : BitVec 4) : Bool :=
  let x := portOf s chip p
  x.rxUnacked != 0 && !x.stopped && decide (2 ≤ x.state) && decide (x.rxSince + Config.ackDelay ≤ s.time)

def execAckTimer (chip : ChipNo) (port : BitVec 4) (s : State) : Host.Outcome State Fault Refusal :=
  event s (.ok (if ackDue s chip port then setPort s chip port (portOf s chip port).ack else s))

/-- No acknowledgement for 4,096 F-cycles with packets outstanding (R394). -/
def replayDue (s : State) (chip : ChipNo) (p : BitVec 4) : Bool :=
  let x := portOf s chip p
  !x.buf.isEmpty && !x.stopped && decide (2 ≤ x.state) && decide (x.txSince + Config.replayLimit ≤ s.time)

def execReplayTimeout (chip : ChipNo) (port : BitVec 4) (s : State) : Host.Outcome State Fault Refusal :=
  event s (.ok (if replayDue s chip port then linkError (setPort s chip port ((portOf s chip port).resend s.time)) chip else s))

/-! ### Gateways (R391, R392, R397) -/

/-- Whether a port can send one more packet of a virtual channel: 256 unacknowledged, of which 16 are kept for VC 3. -/
def Port.room (x : Port) (vc : BitVec 2) : Bool := !x.stopped && decide (x.buf.length < (if vc = 3 then 256 else 240))

/-- Send a packet through a port. -/
def Port.send (x : Port) (b : LinkPacket) (now : Nat) : Port :=
  { x with txNext := x.txNext + 1, buf := x.buf ++ [(x.txNext, b)], out := x.out ++ [packetFlit (x.txNext, b)],
           txSince := if x.buf.isEmpty then now else x.txSince }

/-- Whether two packets belong to one operation. -/
def sameOp (x y : LinkPacket) : Bool :=
  match x.load, y.load with
  | .part a _, .part b _ => a == b
  | _, _ => false

/-- Whether a waiting packet is the next of its port: no packet of VC 3 waits for its port or at its gateway, none of its channel
and destination waits before it for the same port, none of its operation for any, and the port has room (R392, R396, R397). -/
def mayForward (s : State) (chip : ChipNo) (g : GwPacket) : Bool :=
  let c := s.chip chip
  let same (x : GwPacket) : Bool :=
    x.port == g.port || gatewayOf chip x.port x.pkt.dest == gatewayOf chip g.port g.pkt.dest
  let urgent := g.pkt.vc != 3 && c.gw.any fun x => x.pkt.vc == 3 && same x && portUp s chip x.port
  let older := (c.gw.takeWhile fun x => x.id != g.id).any fun x =>
    x.pkt.vc == g.pkt.vc && x.pkt.dest == g.pkt.dest && (x.port == g.port || sameOp x.pkt g.pkt)
  !urgent && !older && (portOf s chip (BitVec.ofNat 4 g.port)).room g.pkt.vc

/-- The waiting packets of a port that is down move, in order, to the lowest-numbered port of their routes that is left; those
without one end there (R391, R396). -/
def moveWaiting (s : State) (chip : ChipNo) (q : Nat) : State :=
  let gw := (s.chip chip).gw
  let moved (g : GwPacket) : Option GwPacket :=
    if g.port == q then (routePort s chip g.pkt.dest).map fun p => { g with port := p } else some g
  let ends := gw.filter fun g => g.port == q && (routePort s chip g.pkt.dest).isNone
  ends.foldl (fun s g => match g.pkt.load with | .part op _ => loseOp s op | _ => s)
    (s.modChip chip fun c => { c with gw := c.gw.filterMap moved })

/-- A gateway sends a waiting packet on; where its port is down, the packets that wait for that port move. -/
def forwardGw (s : State) (chip : ChipNo) (id : Nat) : State :=
  match (s.chip chip).gw.find? fun g => g.id == id with
  | none => s
  | some g =>
    let done (s : State) : State := s.modChip chip fun c => { c with gw := c.gw.filter fun x => x.id != id }
    let q := BitVec.ofNat 4 g.port
    if (portOf s chip q).state = 0 then moveWaiting s chip g.port
    else if mayForward s chip g then setPort (done s) chip q ((portOf s chip q).send g.pkt s.time)
    else s

def execGatewayForward (chip : ChipNo) (id : Nat) (s : State) : Host.Outcome State Fault Refusal :=
  event s (.ok (forwardGw s chip id))

/-! ### Lanes (R395, R396, R403) -/

/-- The state that training reaches with some lanes failed: 4 ×16, 3 ×8, 2 ×4, 0 down. -/
def widthOf (failed : BitVec 16) : Nat :=
  let okAt (i n : Nat) : Bool := failed.extractLsb' i n == 0
  if failed = 0 then 4
  else if okAt 0 8 || okAt 8 8 then 3
  else if okAt 0 4 || okAt 4 4 || okAt 8 4 || okAt 12 4 then 2
  else 0

/-- A collier event (R440). -/
def colEvent (s : State) (chip : ChipNo) : State := s.modChip chip fun c => { c with col := { c.col with event := true } }

/-- The port stops sending and trains. -/
def stopPort (s : State) (chip : ChipNo) (p : BitVec 4) (failed : BitVec 16) : State :=
  let x := portOf s chip p
  if x.state = 0 then setPort s chip p { x with failed := x.failed ||| failed }
  else colEvent (setPort s chip p { x with failed := x.failed ||| failed, stopped := true, state := 1 }) chip

/-- A lane fails at the end that detects it: what still arrives there has crossed it (R403). -/
def failLane (s : State) (chip : ChipNo) (port lane : BitVec 4) : State :=
  let s := stopPort s chip port (1 <<< lane.toNat)
  let x := portOf s chip port
  if x.state = 0 then s else setPort s chip port { x with broken := true }

def execLaneFail (chip : ChipNo) (port lane : BitVec 4) (s : State) : Host.Outcome State Fault Refusal :=
  event s (.ok (failLane s chip port lane))

/-- The signal of the end that detected the failure arrives at the other (R403). -/
def execLaneFailureSignal (chip : ChipNo) (port : BitVec 4) (s : State) : Host.Outcome State Fault Refusal :=
  event s (.ok (match (portOf s chip port).peer with
    | some (c, q) => stopPort s chip port (portOf s c q).failed
    | none => stopPort s chip port 0))

/-- The other end of a port's link: the partner recorded, the end that the cabling joins, or the port that has recorded this one
(R450). -/
def partnerOf (s : State) (chip : ChipNo) (p : BitVec 4) : Option (ChipNo × BitVec 4) :=
  (portOf s chip p).peer.orElse fun _ => (portOf s chip p).cable.orElse fun _ =>
    s.chips.findSome? fun (c : Nat × Chip) =>
      (c.2.ports.toList.findIdx? fun x => x.peer == some (chip, p) || x.cable == some (chip, p)).map fun i => (c.2.no, BitVec.ofNat 4 i)

/-- The partner that answers when a port trains: that of a package that has stopped sends nothing (R440, R450). -/
def answering (s : State) (q : Option (ChipNo × BitVec 4)) : Option (ChipNo × BitVec 4) := q.filter fun c => !(s.chip c.1).stopped

/-- Every flit on the wires of a link has arrived (R403). -/
def wiresEmpty (s : State) (chip : ChipNo) (p : BitVec 4) : Bool :=
  (portOf s chip p).out.isEmpty && match partnerOf s chip p with | some (c, q) => (portOf s c q).out.isEmpty | none => true

/-- The packets that a port that goes down has not had acknowledged, before those that wait already (R396). -/
def moveBuffer (s : State) (chip : ChipNo) (x : Port) : State :=
  let old := (s.chip chip).gw
  let s := s.modChip chip fun c => { c with gw := [] }
  let s := x.buf.foldl (fun s b => routeOn s chip b.2) s
  s.modChip chip fun c => { c with gw := c.gw ++ old }

/-- Training ends. The port comes up at the widest width left, with its partner recorded; its first flit acknowledges, and what is
unacknowledged is sent again. The lanes in use are intact from then on, at both ends. Or it goes down, without a partner that
answers or without an intact quarter, and its unacknowledged packets move to the other ports of their routes (R395, R396, R403,
R450). A port that has nothing unacknowledged goes on with the sequence number its partner awaits, as that first flit tells it. -/
def retrained (s : State) (chip : ChipNo) (p : BitVec 4) : State :=
  let x := portOf s chip p
  if x.state != 1 || !wiresEmpty s chip p then s
  else
    let s := colEvent s chip
    match answering s (partnerOf s chip p), widthOf x.failed with
    | some (c, q), w + 1 =>
      let up := { x with state := w + 1, stopped := false, broken := false, peer := some (c, q), cable := some (c, q),
                         retrain := satAdd 16 x.retrain 1 }
      let s := setPort s c q { portOf s c q with broken := false }
      let next := (portOf s c q).rxNext
      let y := if up.buf.isEmpty then { up with txNext := next, txAcked := next - 1 } else up
      let s := linkError s chip
      let s := if y.buf.isEmpty then s else linkError s chip
      setPort s chip p { (y.ack.resend s.time) with txSince := s.time }
    | _, _ =>
      let down := { x with state := 0, stopped := true, broken := false, buf := [], out := [] }
      moveWaiting (moveBuffer (setPort s chip p down) chip x) chip p.toNat

def execPortRetrainDone (chip : ChipNo) (port : BitVec 4) (s : State) : Host.Outcome State Fault Refusal :=
  event s (.ok (retrained s chip port))

/-! ### Heartbeats and loss (R397, R398, R385) -/

/-- The neighbours of a chip in the barrier tree. -/
def treeNeighbours (f : Fed) (chip : ChipNo) : List ChipNo := (treeParent f chip).toList ++ treeChildren f chip

/-- A chip's heartbeats leave for its tree neighbours on VC 3. -/
def beat (s : State) (chip : ChipNo) : State :=
  let mine (f : Fed) : Bool := s.teams.any fun t => t.chip == chip && t.fed == f.id && t.live
  let ns := ((s.feds.filter mine).flatMap fun f => treeNeighbours f chip).eraseDups
  if (s.chip chip).stopped then s
  else
    let s := s.modChip chip fun c => { c with beaten := s.time }
    ns.foldl (fun s n => sendVc3 s chip n .beat) s

def execLinkHeartbeat (chip : ChipNo) (s : State) : Host.Outcome State Fault Refusal := event s (.ok (beat s chip))

/-- Whether a federation has members on two chips, and the first has not judged the second lost. -/
def sharesFed (chip lost : ChipNo) (f : Fed) : Bool :=
  chip != lost && (fedChips f).contains chip && (fedChips f).contains lost && !f.gone.contains (chip, lost)

/-- The operations of which a chip's gateways and ports hold link packets that have not arrived. -/
def heldOps (s : State) (chip : ChipNo) : List Nat :=
  let c := s.chip chip
  let held := (c.gw.map fun g => g.pkt) ++ c.ports.toList.flatMap fun x => x.buf.map fun b => b.2
  (held.filterMap fun x => match x.load with
    | .part op i => if s.transit.contains (op, i) then some op else none
    | _ => none).eraseDups

/-- What a chip still awaits of a lost chip's nodes for its own operations ends: packets that a node there holds, that are on
their way to it or that its gateways still hold, and CONTRIBs held there (R367, R385, R398). -/
def dropAway (s : State) (chip lost : ChipNo) : State :=
  let held := heldOps s lost
  let away (p : CollPacket) : Bool :=
    let at_ := p.entries.head?.map fun h => epChip h.1
    (at_ == some lost && (p.node == chip || p.chip == chip)) || (p.chip == chip && held.contains p.id)
  let s := (s.packets.filter away).foldl (fun s p => dropPacket s chip p) s
  let contribs := ((s.chip lost).adders.toList.flatMap fun a => a.held).filter fun h => epChip h.src == chip
  let s := contribs.foldl (fun s h => endBranch s h.src h.opId) s
  (held.filter (opChip s · == some chip)).foldl loseOp s

/-- A chip judges another lost: it takes effect for every federation that both belong to (R398, R385). A decision that has not
descended to the chip is awaited no more. -/
def recordLoss (s : State) (chip lost : ChipNo) : State :=
  let s := s.modChip chip fun c => { c with told := c.told.filter fun x => x != lost }
  let fs := s.feds.filter (sharesFed chip lost)
  if fs.isEmpty then s
  else
    let mark (f : Fed) : Fed :=
      if sharesFed chip lost f then { f with lost := f.lost ++ [(chip, lost)], gone := f.gone ++ [(chip, lost)] } else f
    let go (t : Team) : Team :=
      if t.chip == chip && t.state.awaits && fs.any (fun f => f.id == t.fed) then { t with state := .opened } else t
    let s := { s with feds := s.feds.map mark, teams := s.teams.map go }
    let s := dropAway s chip lost
    let s := fs.foldl (fun s f => releaseLost s (f.id, true, 0, 0) chip) s
    let s := s.modChip chip fun c => { c with lostCount := satAdd 32 c.lostCount 1, lostLast := lost }
    colEvent (logEvent s chip (collierEp chip) 0x09 lost.toNat) chip

/-- A chip reports another lost to its federations: no VC-3 traffic for 64 us, no route, or its removal was announced (R398). -/
def reportLoss (s : State) (chip lost : ChipNo) : State :=
  let told := ((s.feds.filter (sharesFed chip lost)).flatMap fedChips).eraseDups.filter fun c => c != chip && c != lost
  told.foldl (fun s c => sendVc3 s chip c (.loss lost)) (recordLoss s chip lost)

def execChipLost (chip lost : ChipNo) (s : State) : Host.Outcome State Fault Refusal := event s (.ok (reportLoss s chip lost))

/-- The report reaches a surviving member. -/
def execLossReportReceive (chip lost : ChipNo) (s : State) : Host.Outcome State Fault Refusal :=
  event s (.ok (recordLoss s chip lost))

end Sys2Proof.Machine
end

