-- ==== Sys2Proof/Machine/Engine.lean ====
section
/-! DEFINITION. Meanings: the graph walker (R139-R141, R187, R188) and the copy engine (R189-R191). -/
namespace Sys2Proof.Machine

/-! ### GWLOAD, GWRUN, GWSTAT, COND -/

/-- The key of node n of a core's task graph (R139). -/
def nodeKey (e : EP) (n : Nat) : Nat := bufKey e 1 (Config.winHi + 64 * n)

def execGwload (a : GReg) (first : BitVec 5) (count : BitVec 6) (ms : Ms) (s : State) : Host.Outcome State Fault Refusal :=
  scalar (.gwload a first count ms) ms s fun s => do
    need (isCompute s.cx.ep) Code.space
    need (decide (1 ≤ count.toNat) && decide (first.toNat + count.toNat ≤ 32)) Code.illop
    need ((s.core s.cx.ep).walker.state != .running) Code.space
    let p := s.g a
    needAt (decide (ptrSpace p ≤ 4)) Code.space p
    let (s, bs) ← loadAt s .lin 1 p (64 * count.toNat)
    .ok { s with mem := s.mem.setBytes (nodeKey s.cx.ep first.toNat) bs }

def execGwrun (node : BitVec 5) (ms : Ms) (s : State) : Host.Outcome State Fault Refusal :=
  scalar (.gwrun node ms) ms s fun s => do
    let c := s.cx
    need (isCompute c.ep) Code.space
    need ((s.core c.ep).walker.state != .running) Code.space
    let w : Walker := { state := .running, node := node.toNat, ctx := c.no, recA := c.recA, pc := c.ipc, rank := c.rank, sub := 0,
                        stuck := false, at_ := 0, g2 := some (c.gr 2), behind := owedMem c, forked := s.time }
    .ok (s.modCore c.ep fun k => { k with walker := w })

def WState.num : WState → Nat
  | .idle => 0 | .running => 1 | .done => 2 | .error => 3

/-- The status word of GWSTAT (R187). -/
def walkerWord (w : Walker) : Nat := w.ctx.toNat * 2 ^ 16 + w.node * 2 ^ 8 + w.state.num

def execGwstat (d : GReg) (ms : Ms) (s : State) : Host.Outcome State Fault Refusal :=
  scalar (.gwstat d ms) ms s fun s => do
    need (isCompute s.cx.ep) Code.space
    .ok (s.setG d (BitVec.ofNat 64 (walkerWord (s.core s.cx.ep).walker)))

def execCond (a : GReg) (b : BOp) (ms : Ms) (s : State) : Host.Outcome State Fault Refusal :=
  scalar (.cond a b ms) ms s fun s => do
    let s ← release s
    let p := s.g a
    let ok := ptrSpace p == 0 || (ptrSpace p == 1 && (ptrRank p == 0xFFF || ptrRank p == s.cx.rank))
    if !ok then .error (.trap { Trap.on Code.space p with write := true })
    else storePlain s .lin 8 false p (bytesOf (b.val s).toNat 8)

/-! ### The walker's step (R140) -/

/-- A node of the task graph (R139). -/
structure Node where
  type : Nat
  next : Nat
  alt : Nat
  engine : Nat
  count : Nat
  ptr : Word
  deriving DecidableEq, Repr

def readNode (s : State) (e : EP) (n : Nat) : Node :=
  let f (o len : Nat) : Nat := leNat (s.mem.getBytes (nodeKey e n + o) len)
  { type := f 0 1, next := f 1 1, alt := f 2 1, engine := f 3 1, count := f 4 4, ptr := BitVec.ofNat 64 (f 8 8) }

/-- An own-core LM pointer. -/
def ownLm (rank : Nat) (p : Word) : Bool := ptrSpace p == 1 && (ptrRank p == 0xFFF || ptrRank p == rank)

/-- TYPE, ENGINE, COUNT, successor and pointer have the values of R139. ALT is a successor on every node, though only COND and
WHILE use it: 32 or more there is outside the values (R140 does not say; DESIGN CHOICE, notes/assumptions/13.md). -/
def Node.ok (n : Node) (rank : Nat) : Bool :=
  decide (1 ≤ n.type) && decide (n.type ≤ 5) && decide (n.next < 32) && decide (n.alt < 32) &&
  (if n.type = 1 then decide (n.engine ≤ 2) && decide (1 ≤ n.count) && decide (n.count ≤ 16) && ownLm rank n.ptr
   else n.engine == 0 && n.count == 0 && (n.type == 5 || ptrSpace n.ptr == 0 || ownLm rank n.ptr))

def setWalker (s : State) (e : EP) (f : Walker → Walker) : State := s.modCore e fun k => { k with walker := f k.walker }

/-- The walker stops with ERROR, and the next closing barrier votes TRAP (R140). -/
def walkerError (s : State) (e : EP) : State :=
  let k := s.core e
  let w := k.walker
  addVote (setWalker s e fun w => { w with state := .error }) k.chip k.team { cause := 2, pc := w.pc, rank := w.rank, ctx := w.ctx }

/-- The walker moves to a node. -/
def walkTo (s : State) (e : EP) (n : Nat) : State := setWalker s e fun w => { w with node := n, sub := 0 }

/-- What the walker reads; a SPACE or RANK failure is a pointer outside the values of R139. -/
def walkerRead (s : State) (e : EP) (p : Word) (n : Nat) : Res (State × List Byte) := do
  let k := s.core e
  let w := (engineWho s e .walker k.chip k.team k.walker.rank).onStack s k.walker.recA k.walker.g2
  let pls ← places s w .read .lin 1 false p n
  let _ ← orderRicks s e (pls.map (·.dest)).eraseDups
  .ok (touch s w pls, readPlaces s w pls)

/-- Queue an operation for the walker. -/
def walkerFork (s : State) (e : EP) (cw val : Word) (kind : EngKind) : State :=
  let w := (s.core e).walker
  let (id, s) := s.freshId
  let op : EngineOp := { id := id, ctx := w.ctx, recA := w.recA, pc := w.pc, rank := w.rank, cw := cw, val := val, kind := kind,
                         stuck := false, at_ := 0, g2 := w.g2, behind := 0, forked := 0 }
  let s := s.modCore e fun k => { k with engine := k.engine ++ [op] }
  setWalker s e fun w => { w with sub := w.sub + 1 }

def word8 (bs : List Byte) (i : Nat) : Word := BitVec.ofNat 64 (leNat ((bs.drop (8 * i)).take 8))

/-- One command of an ENG node: 64 bytes of the command block (notes/assumptions/13.md). -/
def walkerCommand (s : State) (e : EP) (n : Node) : Res State := do
  let k := s.core e
  let p := ptrOff n.ptr (64 * k.walker.sub)
  let w := engineWho s e .copy k.chip k.team k.walker.rank
  if n.engine = 0 then
    if k.mx.waiting.any fun x => x.walker then .ok s
    else
      let x : MxWait := { ctx := k.walker.ctx, since := s.time, walker := true, granted := false }
      .ok (s.setCore e { k with mx := { k.mx with waiting := k.mx.waiting ++ [x] } })
  else if !engineRoom s e then .ok s
  else do
    let (s, bs) ← walkerRead s e p 64
    if n.engine = 1 then do
      let dst := word8 bs 0
      let src := word8 bs 1
      let len := word8 bs 2
      checkCopy s w dst src len (word8 bs 3)
      .ok (walkerFork s e (word8 bs 3) (word8 bs 4) (.cpy dst src len.toNat 0))
    else do
      let cnt := (word8 bs 1).toNat % 128
      need (decide (1 ≤ cnt) && decide (cnt ≤ 64)) Code.illop
      let (s, lb) ← walkerRead s e (word8 bs 0) (16 * cnt)
      let lw := engineWho s e .landing k.chip k.team k.walker.rank
      let entries := (List.range cnt).map fun i => (word8 lb (2 * i), word8 lb (2 * i + 1))
      (entries.zipIdx).forM fun q => checkEntry s lw (ptrOff (word8 bs 0) (16 * q.2)) q.1.1 q.1.2
      .ok (walkerFork s e 0 0 (.pfl entries 0))

/-- The command block of an ENG node lies where the walker may read: a pointer into the closed parts of LM, or past its end, is
outside the values of R139 (R140). -/
def blockOk (s : State) (e : EP) (n : Node) : Bool :=
  if n.type != 1 then true
  else
    let k := s.core e
    match spaceCheck s (engineWho s e .walker k.chip k.team k.walker.rank) .read .lin false n.ptr (64 * n.count) with
    | .ok _ => true
    | .error _ => false

/-- One node step (R140), once every access before GWRUN has been performed (R233). A node with an error that nothing corrects is a
PARITY fault of the walker (R200). -/
def walkerStep (s : State) (e : EP) : Res State :=
  let k := s.core e
  let w := k.walker
  if w.state != .running || w.stuck || !forkReady s e w.recA w.behind w.forked then .ok s
  else if s.poison.contains (nodeKey e w.node / 64) then
    engineFault (setWalker s e fun w => { w with stuck := true, at_ := 0 }) e w.ctx w.rank w.pc w.recA 0
      { Trap.of Code.parity with cause := some 1 }
  else
    let n := readNode s e w.node
    if !n.ok w.rank || !blockOk s e n then .ok (walkerError s e)
    else
      let r : Res State :=
        match n.type with
        | 1 => if n.count ≤ w.sub then .ok (walkTo s e n.next) else walkerCommand s e n
        | 2 => do
          let (s, bs) ← walkerRead s e n.ptr 4
          .ok (if leNat bs = 0 then walkTo s e n.next else s)
        | 3 => do
          let (s, bs) ← walkerRead s e n.ptr 8
          .ok (walkTo s e (if leNat bs = 0 then n.alt else n.next))
        | 4 => do
          let (s, bs) ← walkerRead s e n.ptr 8
          .ok (walkTo s e (if leNat bs = 0 then n.next else n.alt))
        | _ => .ok (setWalker s e fun w => { w with state := .done })
      match r with
      | .error (.trap t) =>
        if n.type != 1 && (t.code == Code.space || t.code == Code.rank) then .ok (walkerError s e)
        else engineFault (setWalker s e fun w => { w with stuck := true, at_ := t.addr }) e w.ctx w.rank w.pc w.recA 0 t
      | r => r

def execWalkerNodeStep (ep : EP) (s : State) : Host.Outcome State Fault Refusal := event s (walkerStep s ep)

/-! ### CPY and PFL -/

def execCpy (a : GReg) (b : BReg) (ms : Ms) (s : State) : Host.Outcome State Fault Refusal :=
  scalar (.cpy a b ms) ms s fun s => do
    let c := s.cx
    let w := engineWho s c.ep .copy c.chip c.team c.rank
    let dst := s.g a
    let src := s.g (grpReg a 1)
    let n := s.g (grpReg a 2)
    let cw := s.g (grpReg a 3)
    checkCopy s { w with priv := c.priv } dst src n cw
    if engineRoom s c.ep then .ok (forkEngine s cw (b.val s) (.cpy dst src n.toNat 0)) else stall s

/-- The next piece of a copy, or its completion word (R189). -/
def stepCopy (s : State) (e : EP) (id : Nat) : Res State :=
  match findOp s e id with
  | some op =>
    if op.stuck || !forkReady s e op.recA op.behind op.forked then .ok s
    else match op.kind with
      | .cpy dst src n done => if done < n then copyOne s e op dst src n done else completeOp s e op
      | _ => .ok s
  | none => .ok s

def execCopyPiece (ep : EP) (op : Nat) (s : State) : Host.Outcome State Fault Refusal := event s (stepCopy s ep op)

def execPfl (a : GReg) (count : BitVec 7) (ms : Ms) (s : State) : Host.Outcome State Fault Refusal :=
  scalar (.pfl a count ms) ms s fun s => do
    let c := s.cx
    need (isCompute c.ep) Code.space
    need (decide (1 ≤ count.toNat) && decide (count.toNat ≤ 64)) Code.illop
    let p := s.g a
    let (s, bs) ← loadAt s .lin 1 p (16 * count.toNat)
    let w := engineWho s c.ep .landing c.chip c.team c.rank
    let entries := (List.range count.toNat).map fun i => (word8 bs (2 * i), word8 bs (2 * i + 1))
    (entries.zipIdx).forM fun q => checkEntry s w (ptrOff p (16 * q.2)) q.1.1 q.1.2
    if engineRoom s c.ep then .ok (forkEngine s 0 0 (.pfl entries 0)) else stall s

/-- A list fetches its remaining lines into the next version (R191). -/
def finishList (s : State) (e : EP) (id : Nat) : Res State :=
  match findOp s e id with
  | some op =>
    if op.stuck || !forkReady s e op.recA op.behind op.forked then .ok s
    else match op.kind with
      | .pfl entries i => landLines e op entries i ((listLines entries).drop i) s
      | _ => .ok s
  | none => .ok s

def execPflComplete (ep : EP) (op : Nat) (s : State) : Host.Outcome State Fault Refusal := event s (finishList s ep op)

end Sys2Proof.Machine
end

