-- ==== Sys2Proof/Machine/Matrix.lean ====
section
/-! DEFINITION. Meanings: the matrix unit: admission by the slot table (R277-R279) and the execution of its commands
(R250-R260, R282-R287). -/
namespace Sys2Proof.Machine

def modMx (s : State) (e : EP) (f : MxUnit → MxUnit) : State := s.modCore e fun k => { k with mx := f k.mx }

/-! ### Admission (R245, R277) -/

/-- The owner of the present slot: 4 for any (R277). A slot lasts 4 A-cycles, 8 F-cycles. -/
def slotOwner (s : State) (e : EP) : Nat := bits (slotTable s e).toNat (4 * (roundTime s e / 8 % 16)) 4

/-- Entries of the queue that are taken, admitted STLs among them. -/
def mxTaken (m : MxUnit) : Nat := m.queue.length + (m.waiting.filter fun w => w.granted).length

/-- Whether a context waits: by an STL of its own, or by the command of a walker that it started (R277). -/
def mxWaits (m : MxUnit) (c : BitVec 2) : Bool := m.waiting.any fun w => w.ctx == c && !w.granted

/-- The contexts that wait in the order of R245: those with an STL by number, then the walker's. -/
def mxWaiting (m : MxUnit) : List (BitVec 2) :=
  ([0, 1, 2, 3] : List (BitVec 2)).filter (fun c => m.waiting.any fun w => w.ctx == c && !w.walker && !w.granted) ++
  (m.waiting.filter fun w => w.walker).map fun w => w.ctx

/-- Rules 2 and 3 of R277. -/
def admitPlain (m : MxUnit) (owner : Nat) : Option (BitVec 2) :=
  if owner < 4 ∧ mxWaits m (BitVec.ofNat 2 owner) then some (BitVec.ofNat 2 owner) else (mxWaiting m).head?

/-- The number of the present slot, from the last fundamental reset. -/
def slotNow (s : State) (e : EP) : Nat := roundTime s e / 8

/-- Whether the present slot has admitted no command yet. -/
def slotFree (s : State) (e : EP) : Bool := (s.core e).slotUsed != some (slotNow s e)

/-- The present slot admits its command. -/
def slotTaken (s : State) (e : EP) : State := s.modCore e fun k => { k with slotUsed := some (slotNow s e) }

/-- The context that the present slot admits: one at most (R277). -/
def admits (s : State) (e : EP) : Option (BitVec 2) :=
  let m := (s.core e).mx
  let owner := slotOwner s e
  if 16 ≤ mxTaken m || !slotFree s e then none
  else match m.claims with
    | c :: _ =>
      if owner = 4 ∨ owner = c.toNat then some c
      else if mxTaken m < 15 then admitPlain m owner else none
    | [] => admitPlain m owner

/-- The context's STL is admitted by the present slot of its unit. -/
def grant (s : State) (e : EP) (ctx : BitVec 2) : State :=
  modMx (slotTaken s e) e fun m =>
    { m with waiting := m.waiting.map fun w => if w.ctx == ctx && !w.walker then { w with granted := true } else w }

/-- The contexts whose STLs are performed together: a gang's, or the one (R136). -/
def stlGroup (s : State) (c : Context) : List Context :=
  match c.gang with
  | none => [c]
  | some _ => boundGang (s.switchTo c.ep c.no)

/-- Admit a context's STL. Its control stream, and with it the pair or the gang that the STL stands in, issues next, so that
the checks of R248 are made and the STL is performed in the slot that admits it. A gang's STLs are admitted in one slot, which
every member's unit gives to that member (R136, R277; DEDUCED, notes/assumptions/112.md). -/
def admitStl (s : State) (e : EP) (ctx : BitVec 2) : State :=
  let c := s.ctx e ctx
  if c.mode != .running then dropAdmission s e ctx
  else
    let ms := stlGroup s c
    if ms.all fun m => admits s m.ep == some m.no && (s.core m.ep).mx.waiting.any fun w => w.ctx == m.no && !w.walker then
      let lead := (ms.head?).getD c
      { ms.foldl (fun s m => grant s m.ep m.no) s with sel := some (.control lead.ep lead.no) }
    else s

/-- Whether the present slot's admission comes about: a gang's only when each of its members' units makes it. -/
def admitDue (s : State) (e : EP) : Bool :=
  match admits s e with
  | none => false
  | some c =>
    if (s.core e).mx.waiting.any fun w => w.ctx == c && !w.walker then
      (s.ctx e c).mode != .running ||
      ((stlGroup s (s.ctx e c)).all fun m =>
        admits s m.ep == some m.no && (s.core m.ep).mx.waiting.any fun w => w.ctx == m.no && !w.walker)
    else true

/-- An admitted STL that has had to wait after all, for what stands beside it, waits for admission again. -/
def ungrant (s : State) : State :=
  if s.cores.all fun (k : Nat × Core) => k.2.mx.waiting.all fun w => !w.granted then s
  else { s with cores := s.cores.map fun (k : Nat × Core) =>
    (k.1, { k.2 with mx := { k.2.mx with waiting := k.2.mx.waiting.map fun w => { w with granted := false } } }) }

/-- Admit a walker's command: its line is one of the node's command block (R140, R277). -/
def admitWalker (s : State) (e : EP) : Res State := do
  let k := s.core e
  let w := k.walker
  let s := modMx s e fun m => { m with waiting := m.waiting.filter fun x => !x.walker, claims := m.claims.filter fun c => c != w.ctx }
  let n := readNode s e w.node
  if w.state != .running || n.type != 1 || n.engine != 0 then .ok s
  else
    let p := ptrOff n.ptr (64 * w.sub)
    let r : Res State := do
      let (s, bs) ← walkerRead s e p 64
      let x : MxEntry := { cmd := BitVec.ofNat 512 (leNat bs), ctx := w.ctx, recA := w.recA, pc := w.pc, rank := w.rank, stuck := false,
                           cwOnly := false, at_ := 0, g2 := w.g2, behind := 0, forked := 0 }
      let s ← enqueueCmd s e p x
      .ok (setWalker s e fun w => { w with sub := w.sub + 1 })
    match r with
    | .error (.trap t) =>
      let s := setWalker s e fun w => { w with stuck := true, at_ := t.addr }
      engineFault s e w.ctx w.rank w.pc w.recA 0 t
    | r => r

/-- One slot of the slot table (R277). -/
def slotAdmit (s : State) (e : EP) : Res State :=
  match admits s e with
  | some c =>
    if (s.core e).mx.waiting.any fun w => w.ctx == c && !w.walker then .ok (admitStl s e c)
    else admitWalker (slotTaken s e) e
  | none => .ok s

def execMxSlotAdmit (ep : EP) (s : State) : Host.Outcome State Fault Refusal := event s (slotAdmit s ep)

/-- Whether a context gains a claim (R277): its STL has waited 64 A-cycles. -/
def claimDue (s : State) (e : EP) (ctx : BitVec 2) : Bool :=
  let m := (s.core e).mx
  !m.claims.contains ctx && m.waiting.any fun w => w.ctx == ctx && !w.granted && decide (w.since + 128 ≤ s.time)

def execMxClaim (ep : EP) (ctx : BitVec 2) (s : State) : Host.Outcome State Fault Refusal :=
  event s (.ok (if claimDue s ep ctx then modMx s ep fun m => { m with claims := m.claims ++ [ctx] } else s))

/-! ### The accumulators (R275) -/

/-- A cell of a set as FP32. -/
def accCell (m : MxUnit) (set i : Nat) : Nat := (alGet m.acc (set * 1024 + i) 0).toNat
def setCell (m : MxUnit) (set i v : Nat) : MxUnit :=
  let key := set * 1024 + i
  let rest := m.acc.filter fun c => c.1 != key
  if v % 2 ^ 32 = 0 then { m with acc := rest }
  else { m with acc := insertBy (fun a b => decide (a.1 < b.1)) (key, BitVec.ofNat 32 v) rest }
/-- A cell of class D: set 0 holds the low half (R275). -/
def getCell (m : MxUnit) (dbl : Bool) (set i : Nat) : Nat :=
  if dbl then accCell m 0 i + accCell m 1 i * 2 ^ 32 else accCell m set i
def putCell (m : MxUnit) (dbl : Bool) (set i v : Nat) : MxUnit :=
  if dbl then setCell (setCell m 0 i v) 1 i (v / 2 ^ 32) else setCell m set i v
def accSpec (dbl : Bool) : FSpec := if dbl then fp64 else fp32
def cellVal (m : MxUnit) (dbl : Bool) (set i : Nat) : FV := (accSpec dbl).decode (getCell m dbl set i)

def getChecks (m : MxUnit) (set : Nat) : Checks := if set = 0 then m.ck0 else m.ck1
def setChecks (m : MxUnit) (set : Nat) (c : Checks) : MxUnit := if set = 0 then { m with ck0 := c } else { m with ck1 := c }

/-! ### The end of a command -/

/-- The head command leaves the queue. -/
def popHead (s : State) (e : EP) : State := modMx s e fun m => { m with queue := m.queue.tail }

def setHead (s : State) (e : EP) (f : MxEntry → MxEntry) : State :=
  modMx s e fun m => { m with queue := match m.queue with | x :: xs => f x :: xs | [] => [] }

/-- The unit stops at its head command and posts the fault (R248). -/
def headFault (s : State) (e : EP) (x : MxEntry) (t : Trap) : Res State :=
  engineFault (setHead s e fun x => { x with stuck := true, at_ := t.addr }) e x.ctx x.rank x.pc x.recA (cmdSeq x.cmd) t

/-- After its writes a command writes its completion word, then leaves the queue (R260). A word that faults is held for
the reply (R234). -/
def retire (s : State) (e : EP) (x : MxEntry) : Res State :=
  let cw := cmdCwptr x.cmd
  if cw = 0 then .ok (popHead s e)
  else
    let k := s.core e
    let w := (engineWho s e .copy k.chip k.team x.rank).onStack s x.recA x.g2
    match places s w .write .lin 8 false cw 8 with
    | .ok pls => .ok (popHead (writePlaces s w x.ctx x.pc pls (bytesOf (cmdCval x.cmd).toNat 8)) e)
    | .error (.trap t) => headFault (setHead s e fun x => { x with cwOnly := true }) e x t
    | .error y => .error y

/-- Whether the head command is held: by a fault, or behind what precedes its STL (R233). -/
def headHeld (s : State) (e : EP) (x : MxEntry) : Bool := x.stuck || !forkReady s e x.recA x.behind x.forked

/-- The head command of a unit, when it has the code and can execute. -/
def headCmd (s : State) (e : EP) (code : Nat) : Option MxEntry :=
  match (s.core e).mx.queue with
  | x :: _ => if cmdCode x.cmd == code && !headHeld s e x then some x else none
  | [] => none


/-- Run a head command: its effect, or the fault at which the unit stops; a command that only owes its completion word
writes that. -/
def runHead (s : State) (e : EP) (x : MxEntry) (f : State → Res State) : Res State :=
  if (s.core e).mx.hurt then headFault (modMx s e fun u => { u with hurt := false }) e x hurtTrap
  else if x.cwOnly then retire s e x
  else match f s with
    | .ok s => retire s e x
    | .error (.trap t) => headFault s e x t
    | .error y => .error y

/-! ### mx.mma and mx.mmat (R250-R255, R286) -/

/-- The exact value of an operand's element as the charged rank reads it. -/
def readOperand (s : State) (e : EP) (rank : Nat) (o : MxOperand) (r c : Nat) : Res FV := do
  let w := operandWho s e rank
  let at_ := o.offs r c
  let bs ← at_.1.mapM fun b => do
    let pl ← bufPlace s w .read .lin false (ptrOff o.ptr b) o.ptr
    .ok (readByte s w pl)
  if isSbp o.fmt then
    .ok (fmtVal o.fmt o.centre ((bs.zipIdx.map fun q => bits q.1.toNat at_.2 1 * 2 ^ (7 - q.2)).sum))
  else .ok (fmtVal o.fmt false (bits (leNat bs) at_.2 (fmtBits o.fmt)))

/-- A matrix of operand values, by rows. -/
def readMatrix (s : State) (e : EP) (rank : Nat) (o : MxOperand) : Res (List (List FV)) :=
  (List.range o.rows).mapM fun r => (List.range o.cols).mapM fun c => readOperand s e rank o r c

def fvZero : FV := .fin false 0 0
def matAt (x : List (List FV)) (r c : Nat) : FV := ((x[r]?).bind fun row => row[c]?).getD fvZero

/-- |v|. -/
def FV.mag : FV → FV
  | .nan _ s => .nan false s
  | .inf _ => .inf false
  | .fin _ m e => .fin false m e

/-- Round(acc + sum of the products, mode), a NaN or invalid product giving the canonical quiet NaN (R251). -/
def accSum (f : FSpec) (mode : Rnd) (acc : Nat) (ps : List FV) : Nat :=
  let a := f.decode acc
  (f.sum mode (a :: ps) false (a :: ps)).1

/-- The products of one k-group for a cell. -/
def groupProducts (a b : List (List FV)) (m n k0 g kk : Nat) : List FV :=
  (List.range g).filterMap fun i => if k0 + i < kk then some (mulFV (matAt a m (k0 + i)) (matAt b (k0 + i) n)) else none

/-- One cell of R251. -/
def mmaCell (f : FSpec) (a b : List (List FV)) (m n g kk acc : Nat) : Nat :=
  (List.range ((kk + g - 1) / g)).foldl (fun acc j => accSum f .rne acc (groupProducts a b m n (g * j) g kk)) acc

/-- Change one entry of a checksum list. -/
def setEntry (l : List Word) (i v : Nat) : List Word := l.set i (BitVec.ofNat 64 v)
def sumEntry (l : List Word) (i : Nat) : Nat := ((l[i]?).map (·.toNat)).getD 0

/-- R286's rebase on the cells the command keeps. -/
def rebaseChecks (u : MxUnit) (dbl : Bool) (set mm nn : Nat) : Checks :=
  let c := getChecks u set
  let kept (m n : Nat) : Bool := decide (mm ≤ m) || decide (nn ≤ n)
  let col (n : Nat) : List FV := (List.range 32).filterMap fun m => if kept m n then some (cellVal u dbl set (32 * m + n)) else none
  let row (m : Nat) : List FV := (List.range 32).filterMap fun n => if kept m n then some (cellVal u dbl set (32 * m + n)) else none
  let sum (mode : Rnd) (xs : List FV) : Word := BitVec.ofNat 64 (accSum fp64 mode 0 xs)
  { c with ckr := (List.range 32).map fun n => sum .rne (col n), abr := (List.range 32).map fun n => sum .ru ((col n).map FV.mag),
           ckc := (List.range 32).map fun m => sum .rne (row m), abc := (List.range 32).map fun m => sum .ru ((row m).map FV.mag) }

/-- R286's update of the checksums by one k-group. -/
def groupChecks (c : Checks) (a b : List (List FV)) (mm nn k0 g kk : Nat) : Checks :=
  let col (n : Nat) : List FV := (List.range mm).flatMap fun m => groupProducts a b m n k0 g kk
  let row (m : Nat) : List FV := (List.range nn).flatMap fun n => groupProducts a b m n k0 g kk
  let add (mode : Rnd) (l : List Word) (i : Nat) (ps : List FV) : List Word := setEntry l i (accSum fp64 mode (sumEntry l i) ps)
  let c := (List.range nn).foldl (fun c n => { c with ckr := add .rne c.ckr n (col n), abr := add .ru c.abr n ((col n).map FV.mag) }) c
  (List.range mm).foldl (fun c m => { c with ckc := add .rne c.ckc m (row m), abc := add .ru c.abc m ((row m).map FV.mag) }) c

/-- Whether a format is a float of the classes that set FLT (R286). -/
def fltFormat (f : Nat) : Bool := decide (f ≤ 9)

/-- The products of a command into a set, with its checksums. -/
def multiply (u : MxUnit) (l : Line) (dbl : Bool) (a b : List (List FV)) (g : Nat) (flt : Bool) : MxUnit :=
  let set := if dbl then 0 else cmdSet l
  let mm := cmdM l
  let nn := cmdN l
  let kk := cmdK l
  let c := getChecks u set
  let c := if !c.en then c
    else if !cmdCksum l then { c with stale := true }
    else
      let c := if cmdAccum l then c else rebaseChecks u dbl set mm nn
      let c := (List.range ((kk + g - 1) / g)).foldl (fun c j => groupChecks c a b mm nn (g * j) g kk) c
      { c with flt := c.flt || flt }
  let u := (List.range mm).foldl (fun u m => (List.range nn).foldl (fun u n =>
    let i := 32 * m + n
    let acc := if cmdAccum l then getCell u dbl set i else 0
    putCell u dbl set i (mmaCell (accSpec dbl) a b m n g kk acc)) u) u
  setChecks u set c

/-- R255's conditions on the panel of an mx.mmat: its lines. -/
def panelLines (s : State) (e : EP) (rank : Nat) (l : Line) : Res Nat := do
  match (s.core e).mx.xch with
  | none => failAt Code.space (cmdBptr l)
  | some x => do
    needAt (x.1 == cmdBptr l) Code.space (cmdBptr l)
    let f := resolveFmt s e rank (cmdBptr l) (cmdBfmt l)
    let w := if isSbp f then 8 else fmtBits f
    needAt (decide (cmdN l ≤ 16) && decide (cmdK l * w ≤ 512 * x.2)) Code.space (cmdBptr l)
    .ok x.2

/-- The effect of an mx.mma or mx.mmat. -/
def mmaEffect (s : State) (e : EP) (x : MxEntry) : Res State := do
  let l := x.cmd
  let panel ← (if cmdCode l = 2 then panelLines s e x.rank l else .ok 0 : Res Nat)
  let oa := operandA s e x.rank l
  let ob := operandB s e x.rank l panel
  let cls := mxClass oa.fmt
  need (cls != 0 && cls == mxClass ob.fmt) Code.fmt
  let a ← readMatrix s e x.rank oa
  let b0 ← readMatrix s e x.rank ob
  let b := if cmdCode l = 2 || cmdTrans l then
      (List.range (cmdK l)).map fun k => (List.range (cmdN l)).map fun n => matAt b0 n k
    else b0
  .ok (modMx s e fun u => multiply u l (cls == 100) a b (groupSize cls) (fltFormat oa.fmt || fltFormat ob.fmt))

/-- The units of a shared command (R254). -/
def shareUnits (e : EP) (mask : BitVec 16) : List EP :=
  ((List.range 16).filter fun i => mask.getLsbD i).map fun i =>
    coreAt (epChip e) (epDie e) (4 * (coreX e / 4) + i % 4) (4 * (coreY e / 4) + i / 4)

/-- The head of a unit when it is a shared command that can execute. -/
def sharedHead (s : State) (e : EP) : Option MxEntry :=
  match (s.core e).mx.queue with
  | x :: _ => if inRange 1 2 (cmdCode x.cmd) && cmdShare x.cmd && !headHeld s e x && !x.cwOnly then some x else none
  | [] => none

/-- What R254 compares of each operand. -/
def shareA (l : Line) : Word × Nat × Nat × Nat × Nat := (cmdAptr l, cmdAfmt l, cmdAstr l, cmdM l, cmdK l)
def shareB (l : Line) : Word × Nat × Nat × Bool × Nat × Nat := (cmdBptr l, cmdBfmt l, cmdBstr l, cmdTrans l, cmdN l, cmdK l)

/-- Whether an operand pointer of a command names another core's buffer. -/
def namesOther (s : State) (e : EP) (rank : Nat) (p : Word) : Bool :=
  match operandHome s e rank p with
  | some (o, _) => o != e
  | none => false

/-- The heads of a mask agree (R254). -/
def shareAgree (s : State) (us : List (EP × MxEntry)) : Bool :=
  us.all fun p => us.all fun q =>
    cmdGmask p.2.cmd == cmdGmask q.2.cmd &&
    (!namesOther s p.1 p.2.rank (cmdAptr p.2.cmd) || shareA p.2.cmd == shareA q.2.cmd) &&
    (!namesOther s p.1 p.2.rank (cmdBptr p.2.cmd) || shareB p.2.cmd == shareB q.2.cmd)

/-- A multiplication at the head: alone, or with every unit of its mask (R254, R280). -/
def runMma (s : State) (e : EP) (x : MxEntry) : Res State :=
  if cmdShare x.cmd && !x.cwOnly then
    let us := shareUnits e (cmdGmask x.cmd)
    let heads := us.filterMap fun u => (sharedHead s u).map fun h => (u, h)
    if heads.length < us.length then .ok s
    else if !shareAgree s heads then heads.foldlM (fun s q => headFault s q.1 q.2 (Trap.of Code.group)) s
    else heads.foldlM (fun s q => runHead s q.1 q.2 fun s => mmaEffect s q.1 q.2) s
  else runHead s e x fun s => mmaEffect s e x

def execMxMma (ep : EP) (s : State) : Host.Outcome State Fault Refusal :=
  event s (match headCmd s ep 1 with | some x => runMma s ep x | none => .ok s)

def execMxMmat (ep : EP) (s : State) : Host.Outcome State Fault Refusal :=
  event s (match headCmd s ep 2 with | some x => runMma s ep x | none => .ok s)

/-! ### mx.zero, mx.cksum, mx.mark (R257, R259, R260) -/

def zeroSets (u : MxUnit) (l : Line) : MxUnit :=
  { u with acc := u.acc.filter fun c => !(cmdBoth l || c.1 / 1024 == cmdSet l) }

def execMxZero (ep : EP) (s : State) : Host.Outcome State Fault Refusal :=
  event s (match headCmd s ep 3 with
    | some x => runHead s ep x fun s => .ok (modMx s ep fun u => zeroSets u x.cmd)
    | none => .ok s)

/-- R259, R285. -/
def checksumCmd (u : MxUnit) (l : Line) : MxUnit :=
  let c := getChecks u (cmdSet l)
  let c := if cmdClear l then Checks.reset else c
  setChecks u (cmdSet l) { c with en := cmdEnable l }

def execMxCksum (ep : EP) (s : State) : Host.Outcome State Fault Refusal :=
  event s (match headCmd s ep 6 with
    | some x => runHead s ep x fun s => .ok (modMx s ep fun u => checksumCmd u x.cmd)
    | none => .ok s)

def execMxMark (ep : EP) (s : State) : Host.Outcome State Fault Refusal :=
  event s (match headCmd s ep 7 with
    | some x => runHead s ep x fun s => .ok s
    | none => .ok s)

/-! ### mx.drain (R258, R284, R287) -/

/-- An exact sum of values. -/
def sumFV (xs : List FV) : FV :=
  if xs.any FV.isNan then .nan false false
  else
    let infs := xs.filterMap fun t => match t with | .inf n => some n | _ => none
    match infs with
    | n :: rest => if rest.all fun m => m == n then .inf n else .nan false false
    | [] =>
      let r := sumTerms .rne (xs.filterMap fun t => match t with | .fin n m e => some (n, m, e) | _ => none)
      .fin r.1 r.2.1 r.2.2

/-- R287's Bad. -/
def badSum (actual pred mag : FV) (flt : Bool) : Bool :=
  match actual, pred with
  | .fin .., .fin .. =>
    match sumFV [actual, pred.neg], mag with
    | .fin _ m e, .fin _ n d => if flt then magGt m e n (d - 16) else m != 0
    | .fin _ m _, _ => !flt && m != 0
    | _, _ => true
  | .nan .., .nan .. => false
  | .inf a, .inf b => a != b
  | _, _ => true

/-- The rows and columns that disagree: BC and BR. -/
def disagreements (u : MxUnit) (dbl : Bool) (set : Nat) : List Nat × List Nat :=
  let c := getChecks u set
  let cell (m n : Nat) : FV := cellVal u dbl set (32 * m + n)
  let f (l : List Word) (i : Nat) : FV := fp64.decode (sumEntry l i)
  ((List.range 32).filter fun n => badSum (sumFV ((List.range 32).map fun m => cell m n)) (f c.ckr n) (f c.abr n) c.flt,
   (List.range 32).filter fun m => badSum (sumFV ((List.range 32).map fun n => cell m n)) (f c.ckc m) (f c.abc m) c.flt)

/-- The vote and the report of an uncorrectable comparison (R258, R420). -/
def reportAbft (s : State) (e : EP) (x : MxEntry) : Res State :=
  let k := s.core e
  let s := addVote s k.chip k.team { cause := 5, pc := x.pc, rank := x.rank, ctx := x.ctx }
  postMsg s (svcOf s k.chip k.team)
    (mkMsg s k.chip k.team Code.abft x.ctx (Msg.flagEngine ||| Msg.flagVotes) x.rank x.pc 0 x.recA e (cmdSeq x.cmd) 0 0)

/-- A drain's comparison (R287). -/
def compareChecks (s : State) (e : EP) (x : MxEntry) : Res State :=
  let k := s.core e
  let dbl := cmdBoth x.cmd
  let set := if dbl then 0 else cmdSet x.cmd
  let c := getChecks k.mx set
  if !(cmdCksum x.cmd && c.en) then .ok s
  else if c.stale then .ok (modMx s e fun u => { u with unchk := satAdd 16 u.unchk 1 })
  else
    match disagreements k.mx dbl set with
    | ([], []) => .ok s
    | ([n], [m]) =>
      let actual := sumFV ((List.range 32).map fun i => cellVal k.mx dbl set (32 * i + n))
      match actual, fp64.decode (sumEntry c.ckr n) with
      | .fin .., .fin a b d =>
        let cell := cellVal k.mx dbl set (32 * m + n)
        let ts := [cell, actual.neg, .fin a b d]
        let v := ((accSpec dbl).sum .rne ts false ts).1
        let s := modMx s e fun u => { putCell u dbl set (32 * m + n) v with corr := satAdd 16 u.corr 1 }
        .ok (correctable s (epChip e) (reporter s (epChip e) (partOf e)) bumpOther)
      | _, _ => reportAbft s e x
    | _ => reportAbft s e x

/-- A converted cell, with what its statistics need (R284). -/
def drainElem (fmt : Nat) (mode : Rnd) (v : FV) : QElem :=
  let r := fmtOf fmt mode v
  let out := fmtVal fmt false r.1
  let toInf := match out with | .inf _ => true | _ => false
  { code := r.1, flags := r.2, s := false, sat := !v.isNan && r.2 &&& (flOF ||| flNV) != 0 && !toInf, asNan := v.isNan && !out.isNan }

/-- The writes of a drain by rows: (offset, bytes). Bits of a last byte beyond the row stay as they were. -/
def drainBytes (s : State) (e : EP) (l : Line) (w : Who) (xs : List Nat) : List (Nat × List Byte) :=
  let blk := 512 * 2 ^ (regionFmt s e (cmdDspace l) (cmdDoff l)).2.1
  (drainRows l).zipIdx.map fun q =>
    let row := if isSbp (cmdAfmt l) then xs else (xs.drop (cmdN l * q.2)).take (cmdN l)
    let old : Byte := match bufPlace s w .write .lin false (ptrOff (cmdDst l) (q.1.1 + q.1.2 - 1)) (cmdDst l) with
      | .ok pl => readByte s w pl
      | .error _ => 0
    (q.1.1, packElems (cmdAfmt l) blk row old)

/-- The effect of a drain. A row whose write finds no room has no effect and sends no update (R206, R317). -/
def drainEffect (s : State) (e : EP) (x : MxEntry) : Res State := do
  let l := x.cmd
  let s ← compareChecks s e x
  let k := s.core e
  let dbl := cmdBoth l
  let set := if dbl then 0 else cmdSet l
  let mode := (cmdRnd l).getD .rne
  let out := (List.range (cmdM l)).flatMap fun m => (List.range (cmdN l)).map fun n =>
    drainElem (cmdAfmt l) mode (cellVal k.mx dbl set (32 * m + n))
  let w := engineWho s e .drain k.chip k.team x.rank
  let (s, rows) ← (drainBytes s e l w (out.map fun q => q.code)).foldlM (fun (acc : State × List Bool) r => do
    let s := acc.1
    let pls ← (List.range r.2.length).mapM fun i => bufPlace s w .write .lin false (ptrOff (cmdDst l) (r.1 + i)) (cmdDst l)
    needAt (pls.all fun pl => pl.cls != 3) Code.cls (cmdDst l)
    .ok (writePlaces s w x.ctx x.pc pls r.2, acc.2 ++ [w.service || clampRoom s w pls])) (s, [])
  if cmdRen l then
    let written (i : Nat) : Bool := (rows[if isSbp (cmdAfmt l) then 0 else i / cmdN l]?).getD false
    let els : List StatEl := (out.zipIdx.filter fun q => written q.2).map fun q =>
      { idx := cmdRidx l, v := if isSbp (cmdAfmt l) then fvOfInt (sintOf 8 q.1.code) else fmtVal (cmdAfmt l) false q.1.code,
        sat := q.1.sat, asNan := q.1.asNan }
    .ok (sendStats s k.chip k.team e x.pc els)
  else .ok s

def execMxDrain (ep : EP) (s : State) : Host.Outcome State Fault Refusal :=
  event s (match headCmd s ep 4 with
    | some x => runHead s ep x fun s => drainEffect s ep x
    | none => .ok s)

/-! ### mx.xch (R256, R282) -/

/-- The cores of a cluster in index order. -/
def clusterCores (e : EP) : List EP := shareUnits e 0xFFFF

/-- The fragments that each core reads to send: (destination index, bytes). -/
def readFragments (s : State) (heads : List (EP × MxEntry)) (step lines : Nat) : Res (List (Nat × List Byte)) :=
  heads.zipIdx.mapM fun q => do
    let e := q.1.1
    let x := q.1.2
    let k := s.core e
    let d := schedDest k step q.2
    let w := engineWho s e .exchange k.chip k.team x.rank
    let bs ← (List.range (64 * lines)).mapM fun i => do
      let pl ← bufPlace s w .read .lin false (ptrOff (cmdAptr x.cmd) (64 * lines * d + i)) (cmdAptr x.cmd)
      .ok (readByte s w pl)
    .ok (d, bs)

/-- The fragment from sender i lands at its receiver with the receiver's tag (R256). -/
def landFragment (s : State) (heads : List (EP × MxEntry)) (lines i : Nat) (f : Nat × List Byte) : Res State :=
  match heads[f.1]? with
  | none => .ok s
  | some (e, x) => do
    let k := s.core e
    let w := engineWho s e .exchange k.chip k.team x.rank
    let pls ← (List.range f.2.length).mapM fun j =>
      bufPlace s w .write .lin false (ptrOff (cmdBptr x.cmd) (64 * lines * i + j)) (cmdBptr x.cmd)
    .ok (writePlaces s w x.ctx x.pc pls f.2)

/-- The whole step on all 16 units. -/
def exchangeStep (s : State) (heads : List (EP × MxEntry)) (step lines : Nat) : Res State := do
  let fs ← readFragments s heads step lines
  let s ← fs.zipIdx.foldlM (fun s q => landFragment s heads lines q.2 q.1) s
  heads.foldlM (fun s q => do
    let s := modMx s q.1 fun u => { u with xch := some (cmdBptr q.2.cmd, lines) }
    retire s q.1 q.2) s

/-- An exchange at the head: GROUP where the cluster is not the team's, else once all 16 units hold it (R256, R282). -/
def runXch (s : State) (e : EP) (x : MxEntry) : Res State :=
  if (s.core e).mx.hurt then headFault (modMx s e fun u => { u with hurt := false }) e x hurtTrap
  else if x.cwOnly then retire s e x
  else
    let k := s.core e
    let es := clusterCores e
    let heads := (es.filterMap fun u => (headCmd s u 5).map fun h => (u, h)).filter fun q => !q.2.cwOnly
    let faultAll (s : State) : Res State := heads.foldlM (fun s q => headFault s q.1 q.2 (Trap.of Code.group)) s
    if !(es.all fun u => (s.core u).team == k.team && (s.core u).chip == k.chip) then headFault s e x (Trap.of Code.group)
    else if heads.length < 16 then .ok s
    else
      let step := cmdStep x.cmd
      let lines := cmdLines x.cmd
      let dests := heads.zipIdx.map fun q => schedDest (s.core q.1.1) step q.2
      let same := heads.all fun q => cmdStep q.2.cmd == step && cmdLines q.2.cmd == lines
      let perm := (List.range 16).all fun i => dests.contains i
      if !(same && perm) then faultAll s
      else match exchangeStep s heads step lines with
        | .error (.trap t) => headFault s e x t
        | r => r

/-- Whether a command is executing (R288): the head of a unit that nothing holds, and that waits for no other unit. -/
def headBusy (s : State) (e : EP) : Bool :=
  match (s.core e).mx.queue with
  | [] => false
  | x :: _ =>
    !headHeld s e x &&
    (if x.cwOnly then true
     else if inRange 1 2 (cmdCode x.cmd) && cmdShare x.cmd then (shareUnits e (cmdGmask x.cmd)).all fun u => (sharedHead s u).isSome
     else if cmdCode x.cmd == 5 then
       (clusterCores e).all fun u => ((headCmd s u 5).map fun h => !h.cwOnly).getD false
     else true)

def execMxXch (ep : EP) (s : State) : Host.Outcome State Fault Refusal :=
  event s (match headCmd s ep 5 with | some x => runXch s ep x | none => .ok s)

end Sys2Proof.Machine
end

