-- ==== Sys2Proof/Machine/Preempt.lean ====
section
/-! DEFINITION. Meanings: pre-emption, the shadow store and resume (R211-R215, R413). -/
namespace Sys2Proof.Machine

/-! ### Requests -/

/-- The teams with a core in a partition that a request meets: OPEN or CLOSING, and those whose step has been made and that
wait only to hear of it (R211). -/
def teamsIn (s : State) (chip : ChipNo) (p : Nat) : List Team :=
  s.teams.filter fun t => t.chip == chip && (t.state == .opened || t.state == .closing || t.state.awaits) && !t.service && t.cores.any fun e => partOf e == p

/-- The teams a NOW halt meets: those, and every team federated with them that the barrier channel reaches (R212). -/
def haltSet (s : State) (chip : ChipNo) (p : Nat) : List Team :=
  ((teamsIn s chip p).flatMap fun t => (fellows s t).filter fun x => (x.state == .opened || x.state == .closing || x.state.awaits) && reachable s t x.chip).eraseDups

/-- A slot for each team, when the stores hold them all. -/
def slotsFor (s : State) : List Team → Option (List (Team × Nat))
  | [] => some []
  | t :: ts => do
    let slot ← roomFor s t
    let rest ← slotsFor (saveTeam s t slot) ts
    .some ((t, slot) :: rest)

def setPrstat (s : State) (chip : ChipNo) (p : Nat) (r : BitVec 4) : State :=
  s.modChip chip fun c => { c with prstat := c.prstat.setIfInBounds p r }

/-- Roll a team back with cause PREEMPT and save it (R212). -/
def haltTeam (s : State) (t : Team) (slot : Nat) : State :=
  let s := rollback s t false true
  let s := putTeam s t fun t => (countAbort t 9 0).1
  match s.team? t.chip t.id with
  | some t => saveTeam s t slot
  | none => s

/-- A NOW request (R212). -/
def requestNow (s : State) (chip : ChipNo) (p : Nat) : State :=
  if (teamsIn s chip p).isEmpty then setPrstat s chip p 4
  else match slotsFor s (haltSet s chip p) with
    | none => setPrstat s chip p 3
    | some xs =>
      let s := xs.foldl (fun (s : State) x => haltTeam s x.1 x.2) s
      let mark (s : State) (x : Team × Nat) : State :=
        if x.1.chip = chip then putTeam s x.1 (askPart p) else s
      setPrstat (xs.foldl mark s) chip p 1

def execPreqNow (chip : ChipNo) (part : BitVec 3) (s : State) : Host.Outcome State Fault Refusal :=
  event s (.ok (requestNow s chip part.toNat))

/-- An AT-BARRIER request: pending until the first commit that follows (R211). -/
def requestAtBarrier (s : State) (chip : ChipNo) (p : Nat) : State :=
  match teamsIn s chip p with
  | [] => setPrstat s chip p 4
  | ts =>
    let s := ts.foldl (fun (s : State) t => putTeam s t (askPart p)) s
    setPrstat s chip p 1

def execPreqAtBarrier (chip : ChipNo) (part : BitVec 3) (s : State) : Host.Outcome State Fault Refusal :=
  event s (.ok (requestAtBarrier s chip part.toNat))

/-- A write of PREQ (R215). -/
def writePreq (s : State) (chip : ChipNo) (v : Word) : State :=
  if v.getLsbD 8 then requestNow s chip (v.extractLsb' 0 3).toNat else requestAtBarrier s chip (v.extractLsb' 0 3).toNat

/-! ### The swap -/

/-- The image is complete: the cores are free, and the team is SAVED (R212, R413). Undo writes to a quiesced channel come first
(R447). -/
def swapDone (s : State) (chip : ChipNo) (slot : Nat) : State :=
  match (s.chip chip).shadow.lookup slot with
  | some im =>
    let t := im.team
    if !im.swapping || s.undo.any (fun u => ofTeam t u.chip u.team && channelHeld s u.key) then s
    else
      let s := undoLines s t false
      let s := (allCores s t).foldl freeCore s
      let s := s.modChip chip fun c => { c with shadow := alPut c.shadow slot { im with swapping := false } }
      clearRequest (putTeam s t fun t => { t with state := .saved }) t 2
  | none => s

def execShadowSwapDone (chip : ChipNo) (slot : BitVec 4) (s : State) : Host.Outcome State Fault Refusal :=
  event s (.ok (swapDone s chip slot.toNat))

/-! ### Resume -/

/-- Whether neighbours on one axis keep or lose their common cluster alike: origins a and b, n cores. -/
def sameSplit (a b n : Nat) : Bool :=
  (List.range (n - 1)).all fun i => ((a + i) / 4 == (a + i + 1) / 4) == ((b + i) / 4 == (b + i + 1) / 4)

/-- The partitions a queue may use; none while it is disabled. -/
def queueMask (s : State) (chip : ChipNo) (q : Nat) : Res Nat :=
  if lqAddr s chip q = 0 then .ok 0
  else do
    let x ← readQueue s chip q
    .ok x.pmask

/-- Whether a rectangle fits a saved team (R213, R356, R413, R434). -/
def placeOk (s : State) (t : Team) (p : Rect) (pmask : Nat) : Bool :=
  p.valid s t.chip (some t.queue) pmask && sameSplit t.x0 p.x t.w && sameSplit t.y0 p.y t.h &&
  BitVec.ofNat 64 (ptRoot (s.chip t.chip) (p.parts.head?.getD 0)) == t.root &&
  ((optCores s t.chip t.id).isEmpty || p.die == t.die) &&
  (let locked := ifaceState s t.chip t.part == 1 || ifaceState s t.chip t.part == 2
   !locked || p.parts == [t.part])

/-- The core that takes a core's part after a move: by rank; an optimiser core stays. -/
def movedEp (t u : Team) (e : EP) : EP := if isOpt e then e else u.coreOf (t.rankOf e)

/-- The queue that takes a queue's part. -/
def movedQueue (t u : Team) (key : Nat) : Nat :=
  match (List.range t.size).find? fun r => queueKey (t.coreOf r) == key with
  | some r => queueKey (u.coreOf r)
  | none => key

/-- A checkpoint with its cores renamed. -/
def movedCkpt (t u : Team) (k : Ckpt) : Ckpt :=
  let mv := movedEp t u
  let own (e : EP) : EP := if t.cores.contains e then mv e else e
  let gang (g : Word × List (Word × EP)) : Word × List (Word × EP) := (g.1, g.2.map fun m => (m.1, mv m.2))
  let slot (g : GqSlot) : GqSlot := { g with src := own g.src }
  let core (c : CoreCk) : CoreCk := { c with ep := mv c.ep, gqSlots := c.gqSlots.map slot }
  let ctx (c : Context) : Context := { c with ep := mv c.ep }
  let waiter (w : Waiter) : Waiter := { w with ep := mv w.ep }
  { k with gangs := k.gangs.map gang, ctxs := k.ctxs.map ctx, cores := k.cores.map core,
           ready := k.ready.map fun r => (movedQueue t u r.1, r.2.1, r.2.2), waiters := k.waiters.map waiter }

/-- Write the saved buffers of a core. -/
def fillBuffers (s : State) (t : Team) (im : Image) (i : Nat) (e : EP) : State :=
  let put (m : Memory) (b : Nat × Nat × List Host.Cell) : Memory :=
    if b.1 = i then b.2.2.foldl (fun m c => m.set (bufKey e b.2.1 c.1) c.2) m else m
  let s := zeroBuffers (wakeCore s e) e
  let s := s.setCore e (reserveCore s (s.core e) e t (if isOpt e then 0xFFF else i))
  putIdent { s with mem := im.buffers.foldl put s.mem } t e i

/-- Resume a saved team on a rectangle of its shape (R213). -/
def resumeTeam (s : State) (t : Team) (im : Image) (slot : Nat) (p : Rect) : State :=
  let moved : Team := { t with die := p.die, x0 := p.x, y0 := p.y }
  let u : Team := { moved with state := .opened, resumes := t.resumes + 1, resumeSsn := some t.ssn, ckpt := movedCkpt t moved t.ckpt }
  let opts := optCores s t.chip t.id
  let s := putTeam s t fun _ => u
  let s := u.cores.zipIdx.foldl (fun (s : State) e => fillBuffers s u im e.2 e.1) s
  let s := opts.foldl (fun (s : State) e => fillBuffers s u im (imageIndex u e) e) s
  let freed (c : Chip) : Chip :=
    { c with shadow := c.shadow.filter fun x => x.1 != slot,
             optState := opts.foldl (fun l e => alPut l (16 * (epDie e).toNat + (epUnit e - 1024)) 0) c.optState }
  restoreTeam (s.modChip t.chip freed) u

def setResq (s : State) (chip : ChipNo) (r : BitVec 4) : State := s.modChip chip fun c => { c with resq := r }

/-- The resume command (R213, R215). -/
def commandResume (s : State) (chip : ChipNo) (slot : Nat) (die : Bool) (x y : Nat) : Res State :=
  if (s.chip chip).resq = 1 then .ok s
  else match (s.chip chip).shadow.lookup slot with
    | none => .ok (setResq s chip 5)
    | some im =>
      match im.swapping, s.team? chip im.team.id with
      | false, some t => do
        let pmask ← queueMask s chip t.queue
        let p : Rect := { die := die, x := x, y := y, w := t.w, h := t.h }
        if !placeOk s t p pmask then .ok (setResq s chip 3)
        else if !p.free s chip then .ok (setResq s chip 4)
        else .ok (setResq (resumeTeam s t im slot p) chip 2)
      | _, _ => .ok (setResq s chip 5)

def execResqResume (chip : ChipNo) (slot : BitVec 4) (die : Bool) (x y : BitVec 5) (s : State) :
    Host.Outcome State Fault Refusal := event s (commandResume s chip slot.toNat die x.toNat y.toNat)

/-- The kill command (R211, R215). -/
def commandKill (s : State) (chip : ChipNo) (slot : Nat) : State :=
  if (s.chip chip).resq = 1 then s
  else match (s.chip chip).shadow.lookup slot with
    | none => setResq s chip 5
    | some im =>
      match im.swapping, s.team? chip im.team.id with
      | false, some t => setResq (terminateAll s t 0xFE09 false) chip 2
      | _, _ => setResq s chip 5

def execResqKill (chip : ChipNo) (slot : BitVec 4) (s : State) : Host.Outcome State Fault Refusal :=
  event s (.ok (commandKill s chip slot.toNat))

/-- A write of RESQ (R215). -/
def writeResq (s : State) (chip : ChipNo) (v : Word) : Res State :=
  let slot := (v.extractLsb' 0 4).toNat
  if v.getLsbD 17 then .ok (commandKill s chip slot)
  else commandResume s chip slot (v.getLsbD 5) (v.extractLsb' 6 5).toNat (v.extractLsb' 11 5).toNat

end Sys2Proof.Machine
end

