-- ==== Sys2Proof/Machine/Remote.lean ====
section
/-! DEFINITION. Meanings: reductions by rick (R304), RFLUSH, RSTAT (R305, R306), far-agent operations (R307-R310), and the
events of ricks and cords (R327-R331). -/
namespace Sys2Proof.Machine

/-! ### The rick fault log (R306) -/

def sizeCode (n : Nat) : Nat := match n with | 8 => 0 | 4 => 1 | 2 => 2 | _ => 3

def logRick (s : State) (src : EP) (x : RickLog) : State :=
  s.modCore src fun k =>
    if k.rickLog.length < 8 then { k with rickLog := x :: k.rickLog }
    else { k with rickLog := x :: k.rickLog.take 7, rickLost := satAdd 32 k.rickLost 1 }

/-- A failed element: an entry in the source core's log and a RICKF message (R331); every rick element is a write (R349). -/
def failElem (s : State) (src : EP) (chip : ChipNo) (team : Word32) (rank i : Nat) (code : BitVec 16) (e : RickElem) : Res State :=
  let kind : Nat := match e.op with | .store => 0 | .red _ => 1
  let w2 : Word := BitVec.ofNat 64 (e.ssn.toNat * 2 ^ 32 + i * 2 ^ 24 + kind * 2 ^ 20 + e.ctx.toNat * 2 ^ 18 +
    sizeCode e.bytes * 2 ^ 16 + code.toNat)
  let x : RickLog := { addr := e.addr, opnd := e.opnd, word2 := w2, pc := e.pc }
  let m := mkMsg s chip team Code.rickf e.ctx (Msg.flagRick ||| 0x10) rank e.pc e.addr e.recA src 0 w2 0
  postMsg (logRick s src x) (svcOf s chip team) m

/-! ### RRED (R304) -/

/-- What an element does: a reduction reads and writes. -/
def RickElem.need (e : RickElem) : Need :=
  { r := match e.op with | .red _ => true | .store => false, w := true, x := false, atomic := false }

/-- The places at the destination, or the code with which the element fails (R330). -/
def elemPlaces (s : State) (w : Who) (e : RickElem) : Except (BitVec 16) (List Place) :=
  let isRed := match e.op with | .red _ => true | .store => false
  if !e.global then
    let ep := bufKeyEp e.dst
    let sp := bufKeySpace e.dst
    let off := bufKeyOff e.dst
    let cls := bufClass s ep sp off
    let own := ep == w.ep
    let rights := bufRights (if own then .control else .cord) own sp
    if bufSize ep sp < off + e.bytes || !rights.2 then .error Code.space
    else if sp = 1 && (decide (off < 0x800) || lmClosed ep (off + e.bytes - 1) false) then .error Code.space
    else if isRed && cls = 0 && !w.service then .error Code.cls
    else .ok ((List.range e.bytes).map fun i =>
      { key := e.dst + i, cls := bufClass s ep sp (off + i), dest := ep, va := e.addr, cw := 0, zero := false, mirror := none, peer := false, via := [] })
  else
    let n := e.need
    let found : Res (List Place) :=
      match e.entry with
      | none => places s w n .lin 1 false e.addr e.bytes
      | some x => do
        let pls ← peerPlacesOf s w n e.addr e.bytes x true
        needAt (pls.all fun pl => pl.keys.all fun k => k.2 != 3) Code.cls e.addr
        .ok pls
    match found with
    | .ok pls => .ok pls
    | .error (.trap t) => .error t.code
    | .error _ => .error Code.page

/-- What the translations of an element that fails have met (R345, R346). -/
def elemMeets (s : State) (w : Who) (e : RickElem) : List Meet :=
  if !e.global then []
  else
    let n := e.need
    let found := match e.entry with
      | none => places s w n .lin 1 false e.addr e.bytes
      | some x => peerPlacesOf s w n e.addr e.bytes x true
    match found with
    | .error (.trap t) => t.met
    | _ => []

/-- Perform an element at its destination (R330): the write, or the code of its failure. One that outlives the superstep it
belongs to has an effect on standing bytes alone: everything else it could write has been discarded or undone with the
superstep (R205; notes/assumptions/115.md). -/
def applyElem (s : State) (w : Who) (e : RickElem) : Except (BitVec 16) State :=
  match elemPlaces s w e with
  | .error c => .error c
  | .ok pls =>
    if e.late && pls.any (fun pl => pl.cls != 2) then .ok (countFarAt s pls)
    else match e.op with
    | .store => .ok (storePlaces (countFarAt s pls) w e.ctx e.pc pls (bytesOf e.opnd.toNat e.bytes))
    | .red op => .ok (reduceAt s w e.ctx e.pc op pls e.opnd)

/-- The agent of a cord: its source core, with no privilege of its own. A far agent that acts on a cord is not checked for its
group (R341). -/
def cordWho (s : State) (src : EP) (chip : ChipNo) (team : Word32) (rank : Nat) : Who :=
  { engineWho s src .cord chip team rank with gmask := false }

/-- Where an RRED goes: endpoint, destination byte, whether it is the own core's, the peer-table entry read at issue, the
translations made there. -/
structure RredDest where
  ep : EP
  dst : Nat
  own : Bool
  entry : Option Nat
  via : List XUse
  deriving DecidableEq, Repr

/-- The home controller's agent of a byte of a peer's space, whatever the rights of its page; agent 0 of die 0 where no leaf names
one, and the element then fails there (R326, R330). -/
def peerAgent (s : State) (c : ChipNo) (w : Who) (va : Nat) (p : Word) : EP × List XUse :=
  match translate s c w .write va p with
  | .ok x => (farAgentOf (physKey c (leafPa s c x.part x.leaf va)), [x])
  | .error _ => (mkEp c false 1040, [])

/-- The destination of an RRED checked at issue (R304). The primary alone performs it, so a primary that is lost or unreachable
faults, whatever its mirror (R390). -/
def rredRoute (s : State) (am : Am) (p : Word) (n align : Nat) : Res RredDest :=
  let w := ctxWho s false
  let sp := ptrSpace p
  asWrite (do
    needAt (sp == 0 || sp == 1 || sp == 3 || sp == 6) Code.space p
    if sp = 1 ∨ sp = 3 then do
      let rs ← issueRoute s w am p 1
      needAt (decide (p.toNat % align = 0)) Code.align p
      match rs with
      | (some e, o) :: _ => .ok { ep := e, dst := bufKey e sp o, own := e == s.cx.ep, entry := none, via := [] }
      | _ => failAt Code.rank p
    else do
      let _ ← spaceCheck s w .rmw am false p n
      needAt (decide (p.toNat % align = 0)) Code.align p
      if sp = 0 then do
        let need : Need := { r := true, w := true, x := false, atomic := false }
        let pls ← globalPlaces s w.chip w need false p.toNat n p false
        match pls with
        | pl :: _ => .ok { ep := pl.dest, dst := p.toNat, own := false, entry := none, via := pls.flatMap fun pl => pl.via }
        | [] => failAt Code.space p
      else
        match s.myTeam with
        | none => failAt Code.space p
        | some t => do
          let at_ := t.peert + 8 * BitVec.ofNat 64 (ptrRank p)
          let (x, xs) ← plainRead s w at_.toNat 8
          meeting w xs (do
            let ref ← peerOfEntry s w.chip x at_
            needAt (reachable s t ref.chip) Code.peerabsent p
            let c := ref.chip
            let a := peerAgent s c (w.atPeer c (fedPart s t.fed c ref.part)) (p.toNat % 2 ^ 48) p
            .ok { ep := a.1, dst := p.toNat, own := false, entry := some x, via := xs ++ a.2 }))

def execRred (op : RedOp) (dbl : Bool) (am : Am) (a : GReg) (b : BReg) (ms : Ms) (s : State) : Host.Outcome State Fault Refusal :=
  scalar (.rred op dbl am a b ms) ms s fun s => do
    let n := if dbl then 8 else 4
    let p := s.g a
    let d ← rredRoute s am p n n
    let _ ← if d.own then orderStreams s true ((List.range n).map fun i => d.dst + i) else orderEntry s
    let s := useXlat s (ctxWho s false) d.via
    let sp := ptrSpace p
    let e : RickElem :=
      { addr := p, dst := d.dst, global := sp == 0 || sp == 6, entry := d.entry, bytes := n,
        op := .red op, opnd := b.val s, ctx := s.cx.no, recA := s.cx.recA, pc := s.cx.ipc,
        ssn := (s.myTeam.map (·.ssn)).getD 0, time := s.time, team := s.cx.team, rank := s.cx.rank, late := false }
    if d.own then
      match applyElem s (ctxWho s false) e with
      | .ok s => .ok s
      | .error c => failElem s s.cx.ep s.cx.chip s.cx.team s.cx.rank 0 c e
    else .ok (enterElem s s.cx.ep d.ep e)

/-! ### RFLUSH and RSTAT -/

/-- Wait until a core's cords to some destinations have returned (R305). -/
def waitCords (s : State) (src : EP) (f : EP → Bool) : Res State :=
  if (s.cords.any fun c => c.src == src && f c.dest) || s.statuses.any (fun c => c.src == src) then stall s else .ok s

def execRflush (one w : Bool) (am : Am) (a : GReg) (ms : Ms) (s : State) : Host.Outcome State Fault Refusal :=
  scalar (.rflush one w am a ms) ms s fun s => do
    let src := s.cx.ep
    if one then do
      let d ← rredRoute s am (s.g a) 1 1
      let s := useXlat s (ctxWho s false) d.via
      if d.own then .ok s
      else match rickFor s src [d.ep] with
        | [] => if w then waitCords s src (fun x => x == d.ep) else .ok s
        | is =>
          let s := is.foldl (fun s i => sendRick s src i .flush) s
          if w then stall s else .ok s
    else if !(openRicks (s.core src)).isEmpty then
      if w then stall (flushAll s src) else .ok (flushAll s src)
    else if w then waitCords s src (fun _ => true)
    else .ok s

def rickWords (x : RickLog) : List Word := [x.addr, x.opnd, x.word2, x.pc]

def execRstat (f : RstatForm) (ms : Ms) (s : State) : Host.Outcome State Fault Refusal :=
  scalar (.rstat f ms) ms s fun s =>
    let k := s.core s.cx.ep
    match f with
    | .entry d n => .ok (s.setGroup d (((k.rickLog[n.toNat]?).map rickWords).getD [0, 0, 0, 0]))
    | .count d => .ok (s.setG d (BitVec.ofNat 64 (k.rickLost * 2 ^ 32 + k.rickLog.length)))
    | .clear => .ok (s.setCore s.cx.ep { k with rickLog := [], rickLost := 0 })

/-! ### Far-agent operations (R307-R310) -/

/-- The space that the addresses of a far-agent operation name: its chip and agent. -/
structure FarSpace where
  chip : ChipNo
  w : Who
  peer : Bool
  /-- The mirror of a peer's data, as the agent reaches it (R388, R390). -/
  mirror : Option Who
  /-- The translations of the peer-table entry's read. -/
  via : List XUse
  /-- The entry itself. -/
  entry : Nat
  deriving DecidableEq, Repr

/-- The address of the peer-table entry that a pointer names. -/
def peerAt (s : State) (p : Word) : Word := ((s.myTeam.map fun t => t.peert).getD 0) + 8 * BitVec.ofNat 64 (ptrRank p)

/-- Where a first address's agent stands, by the peer-table entry read for it (R307). -/
def farSide (s : State) (p : Word) (wr : Bool) (x : Nat) (xs : List XUse) : Res FarSpace :=
  let w := ctxWho s false
  if ptrSpace p = 0 then .ok { chip := w.chip, w := w, peer := false, mirror := none, via := [], entry := 0 }
  else match s.myTeam with
    | none => failAt Code.space p
    | some t => do
      let ref ← meeting w xs (peerOfEntry s w.chip x (peerAt s p))
      let served := if reachable s t ref.chip then some ref.chip
        else if wr then none else ref.mirror.filter fun m => reachable s t m
      match served with
      | none => meeting w xs (failAt Code.peerabsent p)
      | some c =>
        let side (c : ChipNo) : Who := w.atPeer c (fedPart s t.fed c ref.part)
        .ok { chip := c, w := side c, peer := true, mirror := if wr then ref.mirror.map side else none, via := xs, entry := x }

/-- The same at issue: the entry is read now. -/
def farSpace (s : State) (p : Word) (wr : Bool) : Res FarSpace := do
  needAt (ptrSpace p == 0 || ptrSpace p == 6) Code.space p
  if ptrSpace p = 0 then farSide s p wr 0 []
  else do
    needAt ((s.myTeam.map fun t => decide (ptrRank p < t.npeer)).getD false) Code.space p
    let (x, xs) ← plainRead s (ctxWho s false) (peerAt s p).toNat 8
    farSide s p wr x xs

/-- The first address, checked at issue in the order of R66 with ALIGN after SPACE, and its turn at the agent (R307, R334). -/
def farFirst (s : State) (p : Word) (align n : Nat) (nd : Need) : Res (List Place) := do
  let r : Res (List Place) := do
    needAt (ptrSpace p == 0 || ptrSpace p == 6) Code.space p
    let pls ← places s (ctxWho s false) nd .lin align false p n
    meetingAt (ctxWho s false) pls (needAt (pls.all fun pl => pl.cls == 1 || pl.cls == 2) Code.cls p)
    farTurn s pls (accessOrder s nd.w pls)
    .ok pls
  if nd.w then asWrite r else r

/-- FARF with its underlying code (R307). -/
def farTrap (p : Word) (c : BitVec 16) (wr : Bool) : Stop :=
  .trap { Trap.on Code.farf p with extra0 := c.setWidth 64, write := wr }

/-- FARF for a fault that the agent's access met, with the cause that one votes and what its translations met (R345, R346). -/
def farFault (p : Word) (t : Trap) (wr : Bool) : Stop :=
  .trap { Trap.on Code.farf p with extra0 := t.code.setWidth 64, write := wr, cause := t.cause, met := t.met }

/-- The places of an address that an agent resolves, a written one's with their mirror copies (R390). -/
def farResolve (s : State) (f : FarSpace) (p : Word) (n : Nat) (nd : Need) : Res (List Place) := do
  let pls ← globalPlaces s f.chip f.w nd false p.toNat n p f.peer
  if !nd.w then .ok pls
  else match f.mirror with
    | some m => do
      let ms ← meetingAt f.w pls (globalPlaces s m.chip m nd false p.toNat n p true)
      .ok (bothCopies pls ms)
    | none => if f.peer then .ok pls else meetingAt f.w pls (addMirrors s f.w (s.team? f.w.chip f.w.team) pls)

/-- An address read from memory, checked by the agent. -/
def farPlaces (s : State) (f : FarSpace) (p : Word) (n : Nat) (nd : Need) : Res (List Place) :=
  if p.extractLsb' 57 7 != 0 then .error (farTrap p Code.space nd.w)
  else if p.toNat % 8 != 0 then .error (farTrap p Code.align nd.w)
  else match farResolve s f p n nd with
    | .ok pls =>
      if pls.all (fun pl => (pl.cls == 1 || pl.cls == 2) && pl.keys.all fun k => k.2 != 3) then .ok pls
      else meetingAt f.w pls (.error (farTrap p Code.cls nd.w))
    | .error (.trap t) => .error (farFault p t nd.w)
    | .error e => .error e

/-- A read and a write of a far agent. -/
def Need.farRw : Need := { r := true, w := true, x := false, atomic := false }

def execFcas (o : Ord) (d a b : GReg) (w : BitVec 2) (p : PReg) (ms : Ms) (s : State) : Host.Outcome State Fault Refusal :=
  scalar (.fcas o d a b w p ms) ms s fun s => do
    let s ← (if o.rel then releaseScope s o.scope else .ok s)
    let n := w.toNat + 1
    let ptr := s.g a
    asWrite do
      needAt (ptrSpace ptr == 0 || ptrSpace ptr == 6) Code.space ptr
      spaceCheck s (ctxWho s false) .farRw .lin false ptr (8 * n)
    if decide (64 < ptr.toNat % 64 + 8 * n) then .error (.trap { Trap.on Code.align ptr with write := true })
    else do
      let pls ← farFirst s ptr 8 (8 * n) .farRw
      let who := ctxWho s false
      let s := touch s who pls
      let old := wordsOf (readPlaces s who pls)
      let ok := old == s.group d n
      let new := ((s.group b n).map fun x => bytesOf x.toNat 8).flatten
      let s' := if ok then writePlaces s who s.cx.no s.cx.ipc pls new else s
      .ok (((countFarAt s' pls).setGroup d old).setP p ok)

def execFenq (o : Ord) (d a b : GReg) (ms : Ms) (s : State) : Host.Outcome State Fault Refusal :=
  scalar (.fenq o d a b ms) ms s fun s => do
    let s ← (if o.rel then releaseScope s o.scope else .ok s)
    let ptr := s.g a
    let node := s.g b
    let who := ctxWho s false
    let pls ← farFirst s ptr 16 16 .farRw
    let f ← farSpace s ptr true
    let s := useXlat (touch s who pls) who f.via
    let t : Word := BitVec.ofNat 64 (leNat ((readPlaces s who pls).drop 8))
    let np ← meeting who (pls.flatMap (·.via) ++ f.via) (farPlaces s f node 8 .write)
    let tp ← (if t = 0 then .ok (pls.take 8)
      else meeting who ((pls ++ np).flatMap (·.via) ++ f.via) (farPlaces s f t 8 .write) : Res (List Place))
    let put (s : State) (x : List Place) (v : Word) : State := writePlaces s who s.cx.no s.cx.ipc x (bytesOf v.toNat 8)
    let s := put (put (put s np 0) tp node) (pls.drop 8) node
    .ok ((countFarAt s pls).setG d t)

/-- The FCHASE goes to the home of its next link, and takes its place in the request queue there (R335). -/
def nextLink (s : State) (f : FarSpace) (o : Nat) (p : Word) (k : Nat) (here : List Place) : State :=
  let home (pls : List Place) : EP := farAgentOf ((pls.head?.map fun pl => pl.key).getD 0)
  let a := match farPlaces s f (p + BitVec.ofNat 64 o) 8 .read with
    | .ok pls => home pls
    | .error _ => home here
  enterQueue s a (some { node := p, links := k, entry := f.entry })

/-- Follow links from p, whose own lies at `pls`: the last node and the number followed (R310), each read counted at its home agent.
Each further link is a request of its own (R335). -/
def chase (f : FarSpace) (o : Nat) : Nat → Nat → Word → List Place → State → Res (Word × Nat × State)
  | 0, k, p, _, s => .ok (p, k, s)
  | m + 1, k, p, pls, s =>
    let who := ctxWho s false
    meetingAt who pls (do
      soundRead s pls p
      let w : Word := BitVec.ofNat 64 (leNat (readPlaces s who pls))
      let s := countFarAt (touch s who pls) pls
      if w = 0 then .ok (p, k, s)
      else if m = 0 then .ok (w, k + 1, s)
      else if farQueues s then stall (nextLink s f o w (k + 1) pls)
      else do
        let next ← farPlaces s f (w + BitVec.ofNat 64 o) 8 .read
        chase f o m (k + 1) w next s)

/-- Where an FCHASE stands: at its first node, or at the link for which it waits in a request queue. -/
def chaseAt (s : State) (first : Word) : Option Chase := (s.myReq.bind fun r => r.chase).filter fun c => c.links != 0 || c.node == first

def execFchase (acq : Bool) (scope : Scope) (d a : GReg) (m : BitVec 5) (off : BitVec 16) (ms : Ms) (s : State) :
    Host.Outcome State Fault Refusal :=
  scalar (.fchase acq scope d a m off ms) ms s fun s => do
    let p := s.g a
    let w := ctxWho s false
    let at_ := ptrAdd p (off.setWidth 64)
    let done (x : Word × Nat × State) : State := (x.2.2.setG d x.1).setG (grpReg d 1) (BitVec.ofNat 64 x.2.1)
    match chaseAt s p with
    | some c => do
      let f ← farSide s at_ false c.entry []
      let pls ← farPlaces s f (c.node + off.setWidth 64) 8 .read
      farTurn s pls (.ok ())
      let x ← chase f off.toNat (m.toNat - c.links) c.links c.node pls s
      .ok (done x)
    | none => do
      let first ← farFirst s at_ 8 8 .read
      let f ← farSpace s at_ false
      let x ← meeting w f.via (chase f off.toNat m.toNat 0 p first (useXlat s w f.via))
      .ok (done x)

/-! ### Ricks and cords as events (R327, R330, R331) -/

/-- The age limit of a core (R329). -/
def rickAge (k : Core) : Nat := (k.reg 0x500 0x200).toNat % 2 ^ 16

/-- A rick whose oldest element is past the age limit leaves. -/
def ageRick (s : State) (e : EP) (i : Nat) : State :=
  match ((s.core e).ricks.toList[i]?).bind fun r => r.elems.head? with
  | some x => if x.time + rickAge (s.core e) < s.time then sendRick s e i .age else s
  | none => s

def execRickAgeOut (ep : EP) (i : BitVec 3) (s : State) : Host.Outcome State Fault Refusal := event s (.ok (ageRick s ep i.toNat))

/-- The requests in a far agent's queue; those beyond 64 wait in the mesh (R334, R336). -/
def agentDepth (s : State) (e : EP) : Nat :=
  let n := (agentQueue s e).length + (agentReqs s e).length
  if n < 64 then n else 64

/-- Whether a far agent's queue has room (R334). -/
def agentRoom (s : State) (e : EP) : Bool := decide (agentDepth s e < 64)

/-- Whether a cord is the next to be taken: at a core the oldest of its source; at a far agent the head of the request queue, or
the oldest of its source on the way to a queue that has room (R330, R334). -/
def cordFirst (s : State) (c : Cord) : Bool :=
  let same (x : Cord) : Bool := x.dest == c.dest && x.came == c.came && (c.came || x.src == c.src)
  ((s.cords.find? same).map (·.id)) == some c.id &&
    (if c.came then !farAhead s c.dest c.seq else !isFarAgent c.dest || agentRoom s c.dest)

/-- A cord after one more of its elements: performed, or failed with a code. -/
def cordElem (s : State) (c : Cord) : State × Cord :=
  match c.elems[c.done]? with
  | none => (s, c)
  | some e =>
    let w := cordWho s c.src c.chip e.team e.rank
    match applyElem s w e with
    | .ok t => (t, { c with done := c.done + 1 })
    | .error k => ((elemMeets s w e).foldl applyMeet s, { c with done := c.done + 1, failed := c.failed ++ [(c.done, k, e)] })

/-- A status message leaves for the cord's source, by the destination chip's own route. -/
def statusLeaves (s : State) (frm : ChipNo) (c : CordStatus) : State :=
  let own := epChip c.src
  if frm == own then { s with statuses := s.statuses ++ [c] }
  else match routePort s frm own with
    | some p => sendParts { s with statuses := s.statuses ++ [c] } frm own p 1 c.id [freePayload c.id]
    | none => voteLink s c.chip c.team

/-- A cord enters the request queue of a far agent; or the destination performs the next element, an access of its own, and after
the last returns the cord's status (R330, R334). -/
def applyCord (s : State) (id : Nat) : State :=
  match s.cords.find? fun c => c.id == id with
  | some c =>
    if isFarAgent c.dest && !c.came then
      if cordFirst s c && !moving s id then
        let (n, s) := s.freshId
        { s with cords := s.cords.filter (fun x => x.id != id) ++ [{ c with came := true, seq := n }] }
      else s
    else if cordFirst s c && !moving s id then
      let (s, c) := cordElem (if isCompute c.dest then wakeCore s c.dest else s) c
      if c.done < c.elems.length then { s with cords := s.cords.map fun x => if x.id == id then c else x }
      else
        let st : CordStatus := { id := id, src := c.src, chip := c.chip, team := c.team, rank := c.rank,
                                 ctxs := (c.elems.map (·.ctx)).eraseDups, failed := c.failed }
        statusLeaves { s with cords := s.cords.filter fun x => x.id != id } (epChip c.dest) st
    else s
  | none => s

def execCordApply (id : Nat) (s : State) : Host.Outcome State Fault Refusal := event s (.ok (applyCord s id))

/-- The source logs each failed element (R331). -/
def takeStatus (s : State) (id : Nat) : Res State :=
  match s.statuses.find? fun c => c.id == id with
  | some c => if moving s id then .ok s else do
    let s := { s with statuses := s.statuses.filter fun x => x.id != id }
    c.failed.foldlM (fun s f => failElem s c.src c.chip f.2.2.team f.2.2.rank f.1 f.2.1 f.2.2) s
  | none => .ok s

def execCordStatus (id : Nat) (s : State) : Host.Outcome State Fault Refusal := event s (takeStatus s id)

/-- A statistics update reaches its home and merges into the working half (R318); one that finds no room for a half is
rejected, and votes CAPACITY with its write's PC (R315). -/
def mergeUpdate (s : State) (id : Nat) : State :=
  match s.updates.find? fun u => u.id == id with
  | some u =>
    let room := (s.team? u.chip u.team).all fun t => halfRoom s t u.idx
    let s := { s with updates := s.updates.filter fun x => x.id != id }
    if room then
      s.modTeam u.chip u.team fun t =>
        let r := t.statRec u.idx
        t.setStat { r with work := some (mergeHalf (r.work.getD halfEmpty) u.half) }
    else addVote s u.chip u.team { cause := 8, pc := u.pc, rank := (s.core u.src).rank, ctx := 0 }
  | none => s

def execStatsUpdateMerge (id : Nat) (s : State) : Host.Outcome State Fault Refusal := event s (.ok (mergeUpdate s id))

end Sys2Proof.Machine
end

