-- ==== Sys2Proof/Machine/SysRegs.lean ====
section
/-! DEFINITION. The system registers (R379, R383): what each reads as, what a write does, TDISP's entry to ERROR (R434, R435),
and the register writes with a row of their own (R356, R411, R419, R400). -/
namespace Sys2Proof.Machine

/-! ### TDISP errors (R434, R435) -/

/-- Every team with a core in a partition, open or saved, ends with 0xFF07. -/
def endPartition (s : State) (chip : ChipNo) (p : Nat) (onPf : Bool) : State :=
  let here := s.teams.filter fun t => t.chip == chip && !t.service && (t.live || t.state == .saved) && t.cores.any fun e => partOf e == p
  here.foldl (fun s t => match s.team? t.chip t.id with
    | some t => if t.live || t.state == .saved then terminateAll s t 0xFF07 onPf else s
    | none => s) s

def modIface (s : State) (chip : ChipNo) (i : Nat) (f : Iface → Iface) : State :=
  s.modChip chip fun c =>
    let x := (c.host.ifaces.toList[i]?).getD Iface.reset
    { c with host := { c.host with ifaces := c.host.ifaces.setIfInBounds i (f x) } }

/-- The features that measurement block 4 reports, taken anew: at a reset, a bank switch, a re-plan or a change of an interface's
state (R439). -/
def remeasure (s : State) (chip : ChipNo) : State :=
  s.modChip chip fun c => { c with host := { c.host with featMeas := c.host.featacc } }

/-- An interface changes its state. -/
def moveIface (s : State) (chip : ChipNo) (i : Nat) (f : Iface → Iface) : State := remeasure (modIface s chip i f) chip

/-- An interface enters ERROR. -/
def enterError (s : State) (chip : ChipNo) (i : Nat) : State :=
  endPartition (moveIface s chip i fun f => { f with state := 3, halting := false }) chip i true

/-- Whether VF i's frozen set stands. -/
def frozenSet (s : State) (chip : ChipNo) (i : Nat) : Bool := ifaceState s chip i == 1 || ifaceState s chip i == 2

/-- A write to a member of VF i's frozen set, or the write itself (R434). -/
def unlessFrozen (s : State) (chip : ChipNo) (i : Nat) (f : Res State) : Res State :=
  if frozenSet s chip i then .ok (enterError s chip i) else f

/-- The halts that broken frozen sets have made due (R435). -/
def settleIfaces (s : State) : State :=
  let due := s.chips.flatMap fun (c : Nat × Chip) =>
    (c.2.host.ifaces.toList.zipIdx.filter fun (f : Iface × Nat) => f.1.halting).map fun (f : Iface × Nat) => (c.2.no, f.2)
  due.foldl (fun s x => enterError s x.1 x.2) s

/-! ### Translation roots (R356) -/

/-- Whether a live or saved team holds a core of a partition; the core of a service program is in no team (R125, R419). -/
def partHeld (s : State) (chip : ChipNo) (p : Nat) : Bool :=
  s.teams.any fun t => t.chip == chip && !t.service && (t.live || t.state == .saved) && t.cores.any fun e => partOf e == p

def writePtroot (s : State) (chip : ChipNo) (p : Nat) (v : Word) : Res State :=
  unlessFrozen s chip p (do
    need (!partHeld s chip p) Code.illop
    .ok (s.modChip chip fun c => c.setReg (0x210 + p) (v &&& 0x000FFFFFFFFFE000)))

def execPtrootWrite (chip : ChipNo) (part : BitVec 3) (v : Word) (s : State) : Host.Outcome State Fault Refusal :=
  event s (writePtroot s chip part.toNat v)

/-! ### Optimiser cores (R411) -/

/-- Optimiser core j of a package. -/
def optEp (chip : ChipNo) (j : Nat) : EP := mkEp chip (decide (16 ≤ j)) (1024 + j % 16)
def optTeam (s : State) (chip : ChipNo) (j : Nat) : Word32 := (((s.chip chip).reg (0x730 + j) 0) >>> 32).setWidth 32

/-- STATE of OPTBIND: unbound, bound and idle, running, saved. A core runs while it has a record bound, ready or waiting. -/
def optStateOf (s : State) (chip : ChipNo) (j : Nat) : Nat :=
  let e := optEp chip j
  if optTeam s chip j = 0 then 0
  else if alGet (s.chip chip).optState j 0 = 3 then 3
  else if (s.coreCtxs e).any Context.bound || !(s.readyQ (queueKey e)).toList.flatten.isEmpty || s.waiters.any fun w => w.ep == e then 2
  else 1

def writeOptbind (s : State) (chip : ChipNo) (j : Nat) (v : Word) : Res State := do
  let id : Word32 := (v >>> 32).setWidth 32
  let old := optTeam s chip j
  let st := optStateOf s chip j
  need (!(id != old && (st == 2 || st == 3)) && (id == 0 || (s.liveTeam? chip id).isSome)) Code.illop
  if id = old then .ok s
  else
    let e := optEp chip j
    let s := freeCore s e
    let s := s.modChip chip fun c => c.setReg (0x730 + j) (BitVec.ofNat 64 (id.toNat * 2 ^ 32))
    match s.liveTeam? chip id with
    | some t =>
      let s := { zeroBuffers s e with undo := s.undo.filter fun u => u.logger != e }
      .ok (putIdent (s.setCore e (reserveCore s (s.core e) e t 0xFFF)) t e 0xFFF)
    | none => .ok s

def execOptbindWrite (chip : ChipNo) (j : BitVec 5) (v : Word) (s : State) : Host.Outcome State Fault Refusal :=
  event s (writeOptbind s chip j.toNat v)

def writeOptrec (s : State) (chip : ChipNo) (v : Word) : Res State := do
  let j := (v.extractLsb' 0 5).toNat
  let a : Word := (v >>> 6) <<< 6
  let e := optEp chip j
  match s.liveTeam? chip (optTeam s chip j) with
  | none => failAt Code.space a
  | some t => do
    needAt (match walk s chip t.part a.toNat with | .ok _ => true | .error _ => false) Code.page a
    let w := devWho s e chip t.id
    recCheck s w t a true
    let r ← readRec s w a
    needAt (r.team == t.id.toNat && r.st == stDone) Code.space a
    let s ← putRec s w a 40 4 0
    let own (t : Team) : Team :=
      { t with optRecs := (t.optRecs.filter fun x => x.1 != a) ++ [(a, e)], recs := if t.recs.contains a then t.recs else t.recs ++ [a] }
    makeReady (s.modTeam chip t.id own) chip t.id a

def execOptrecWrite (chip : ChipNo) (v : Word) (s : State) : Host.Outcome State Fault Refusal := event s (writeOptrec s chip v)

/-! ### Service programs (R419) -/

def setSvc (s : State) (chip : ChipNo) (r : BitVec 2) : State := s.modChip chip fun c => { c with svc := r }

/-- A write of SVCBOOT launches the record at a physical address as a service program. -/
def bootService (s : State) (chip : ChipNo) (v : Word) : Res State :=
  let pa := v.toNat / 128 * 128
  if !(paValid (s.chip chip) pa && paValid (s.chip chip) (pa + 127)) then
    .ok (setSvc (nonFatal s chip .pf 0xFF05 0 0 bumpLaunchf) chip 2)
  else
    let r := lrecOf (s.mem.getBytes (physKey chip pa) 128)
    let p : Rect := { die := r.die, x := r.x, y := r.y, w := 1, h := 1 }
    let part := (p.parts.head?).getD 0
    let failed (code : Nat) : Res State := .ok (setSvc (launchFail s chip part r code p.parts) chip 2)
    if !(r.ok && r.w == 1 && r.h == 1 && !r.any && r.svc == collierEp chip) then failed 0xFF01
    else if !(p.valid s chip none 255 && p.free s chip) then failed 0xFF02
    else if idInUse s chip r.id then failed 0xFF04
    else match startTeam s chip 0 r p true with
      | .error code => failed code
      | .ok res => do
        let s ← res
        .ok (setSvc s chip 1)

def execSvcbootWrite (chip : ChipNo) (v : Word) (s : State) : Host.Outcome State Fault Refusal := event s (bootService s chip v)

/-! ### Ports (R400) -/

/-- CLR = 1 zeroes REPLAY and RETRAIN; any other write faults PRIV. -/
def writePortst (s : State) (chip : ChipNo) (p : Nat) (v : Word) : Res State := do
  need (v.getLsbD 8) Code.priv
  let x := portOf s chip (BitVec.ofNat 4 p)
  .ok (setPort s chip (BitVec.ofNat 4 p) { x with replay := 0, retrain := 0 })

def execPortstClear (chip : ChipNo) (port : BitVec 4) (s : State) : Host.Outcome State Fault Refusal :=
  event s (writePortst s chip port.toNat 0x100)

/-! ### Writing a register -/

def isIn (lo hi n : Nat) : Bool := decide (lo ≤ n) && decide (n ≤ hi)

/-- A write of LQDESC q: DESC, and ERR cleared by a one (R128). -/
def writeLqdesc (s : State) (chip : ChipNo) (q : Nat) (v : Word) : Res State :=
  unlessFrozen s chip (q / 2) (
    let old := lqdesc s chip q
    let new : Word := ((v >>> 6) <<< 6) ||| (if v.getLsbD 0 then 0 else old &&& 1)
    let moved := (v >>> 6) != (old >>> 6)
    .ok (s.modChip chip fun c =>
      { c.setReg (0x110 + q) new with
        tails := if moved then c.tails.filter fun t => t.1 != q else c.tails
        passed := if moved then c.passed.filter fun t => t.1 != q else c.passed }))

/-- A chip's register with the bits of a mask. -/
def putChipReg (s : State) (chip : ChipNo) (n : Nat) (v mask : Word) : Res State := .ok (s.modChip chip fun c => c.setReg n (v &&& mask))
def putCoreReg (s : State) (e : EP) (n : Nat) (v mask : Word) : Res State := .ok (s.modCore e fun k => k.setReg n (v &&& mask))

/-- The value of every entry of MXSLOT is a context or ANY (R278). -/
def mxslotOk (v : Word) : Bool := (List.range 16).all fun i => decide (bits v.toNat (4 * i) 4 ≤ 4)
/-- No region holds class code 2 or 3 (R220). -/
def bufclsOk (v : Word) : Bool := (List.range 16).all fun i => decide (bits v.toNat (2 * i) 2 ≤ 1)

/-- A write of a register that is not a context's, by a unit that has the privilege. -/
def writeReg (s : State) (e : EP) (n : Nat) (v : Word) : Res State :=
  let chip := epChip e
  if n = 0x100 then ringQueue s chip (v.toNat % 16)
  else if isIn 0x110 0x11F n then writeLqdesc s chip (n - 0x110) v
  else if n = 0x120 then putChipReg s chip n v 0xFFFFFFFF
  else if isIn 0x128 0x12F n then
    unlessFrozen s chip (n - 0x128) (do
      need (decide (bits v.toNat 8 4 ≤ 6)) Code.illop
      putChipReg s chip n v 0x01FFFFFFFFF00F00)
  else if n = 0x130 then .ok (writePreq s chip v)
  else if n = 0x131 then writeResq s chip v
  else if isIn 0x208 0x20B n then do
    need (!isOpt e) Code.space
    need (bufclsOk v) Code.illop
    .ok (s.modCore e fun k => { k with bufclsNext := k.bufclsNext.setIfInBounds (n - 0x208) (v.setWidth 32) })
  else if isIn 0x210 0x217 n then writePtroot s chip (n - 0x210) v
  else if n = 0x220 then .ok (startMig s chip (v.extractLsb' 57 3).toNat (v &&& 0x01FFFFFFFFFFF000) (v.getLsbD 0))
  else if n = 0x221 then
    .ok (if (s.chip chip).mig.state = 1 ∨ (s.chip chip).mig.state = 2 then s
         else modMig s chip fun m => { m with dst := v &&& 0x000FFFFFFFFFF000 })
  else if n = 0x300 then do
    need (mxslotOk v) Code.illop
    let old := some (slotTable s e, roundTime s e / 128)
    putCoreReg (s.modCore e fun k => { k with slotOld := old }) e n v 0xFFFFFFFFFFFFFFFF
  else if isIn 0x310 0x323 n then putCoreReg s e n v 0xFFFFFFFFFFFFFFFF
  else if n = 0x500 then do
    need (decide (64 ≤ bits v.toNat 0 16)) Code.illop
    putCoreReg s e n v 0xFFFF
  else if isIn 0x610 0x61B n then writePortst s chip (n - 0x610) v
  else if n = 0x620 then putChipReg s chip n v 0x000FFFFFFFF80000
  else if isIn 0x710 0x713 n then putCoreReg s e n v 0xFFFFFFFFFFFFFFFF
  else if isIn 0x730 0x74F n then writeOptbind s chip (n - 0x730) v
  else if n = 0x750 then writeOptrec s chip v
  else if n = 0x810 then bootService s chip v
  else if n = 0x860 then putChipReg s chip n v 0xFFF
  else .ok s

/-- A register write by a unit of a privilege: one below what the register asks has no effect. -/
def registerWritten (s : State) (e : EP) (pv : Priv) (n : Nat) (v : Word) : Res State :=
  match srAccess n with
  | none => .ok s
  | some (_, w) => if w ≤ pv.level then writeReg s e n v else .ok s

def execRegisterWrite (ep : EP) (pv : Priv) (n : BitVec 12) (v : Word) (s : State) : Host.Outcome State Fault Refusal :=
  event s (registerWritten s ep pv n.toNat v)

/-! ### Reading a register -/

/-- A field at a bit position. -/
def fld (lo v : Nat) : Nat := v * 2 ^ lo

/-- A count as a field of w bits holds it. -/
def satTo (w v : Nat) : Nat := if v < 2 ^ w then v else 2 ^ w - 1

def TState.num : TState → Nat
  | .none => 0 | .opened => 1 | .closing => 2 | .committing => 3 | .aborting => 4 | .halting => 5 | .saved => 6
  | .resuming => 7 | .complete => 8 | .terminated => 9

/-- The team that TSEL selects (R209). -/
def selTeam (s : State) (chip : ChipNo) : Option Team := s.team? chip (((s.chip chip).reg 0x120 0).setWidth 32)

/-- TEAMST (R209). A team that ended after 16 retries reads 15 in the four bits of RETRY, for which the rule gives no value
(DESIGN CHOICE, notes/assumptions/134.md). -/
def teamst (t : Team) : Nat :=
  fld 48 t.aborts + fld 40 t.lastCause + fld 36 (satTo 4 t.retry) + fld 32 t.budget + t.ssn.toNat
def teamst2 (t : Team) : Nat := fld 32 t.confl + fld 8 (t.resumes % 2 ^ 16) + t.state.num

def shdir (im : Image) : Nat :=
  if im.swapping then 0
  else fld 32 im.team.id.toNat + fld 27 (im.team.w - 1) + fld 22 (im.team.h - 1) + fld 1 im.size + 1

def mxstat (s : State) (e : EP) : Nat :=
  let k := s.core e
  let h := k.mx.queue.head?
  fld 48 (satTo 16 k.mx.corr) + fld 32 (satTo 16 k.mx.unchk) + fld 16 ((h.map fun m => (cmdSeq m.cmd).toNat).getD 0) +
  fld 12 (headBusy s e).toNat + fld 10 ((h.map fun m => m.ctx.toNat).getD 0) + k.mx.queue.length

def mxckst (k : Core) : Nat :=
  let f (c : Checks) : Nat := fld 3 c.flt.toNat + fld 2 c.stale.toNat + c.en.toNat
  fld 4 (f k.mx.ck1) + f k.mx.ck0

def rkocc (k : Core) : Nat := ((k.ricks.toList.zipIdx).map fun q => fld (5 * q.2) q.1.elems.length).sum
def rkcnt (k : Core) : Nat := fld 48 k.rkEvict + fld 32 k.rkFlush + fld 16 k.rkAge + k.rkSize

/-- Stack adder j of a package: its state, and the packets of its wait area and of its queue (R404, R418). -/
def addst (s : State) (chip : ChipNo) (j : Nat) : Nat :=
  let e := mkEp chip (decide (4 ≤ j)) (1048 + j % 4)
  let a := adderOf s e
  let n (w : Bool) : Nat := min 64 (atAdder s e w).length
  fld 32 a.pkts + fld 14 a.held.length + fld 7 (n true) + n false

def portst (x : Port) : Nat := fld 48 x.replay + fld 32 x.retrain + fld 16 x.failed.toNat + x.state
def portpeer (x : Port) : Nat :=
  match x.peer with
  | some (c, p) => fld 31 1 + fld 18 p.toNat + c.toNat
  | none => 0

/-- Doubleword j of an event-log entry (R442). -/
def eventWord (x : LogEntry) (j : Nat) : Nat :=
  match j with
  | 0 => x.time
  | 1 => x.src.toNat + fld 32 x.code
  | 2 => x.data % 2 ^ 64
  | _ => x.data / 2 ^ 64

/-- The features the device offers (R430). -/
def featOff : Nat := 0x7F

/-- MXSCHED's reset value: DESTj is j XOR step (R283). -/
def mxschedInit (step : Nat) : Nat := ((List.range 16).map fun j => fld (4 * j) (j ^^^ step)).sum

/-- What a register of a package reads as. -/
def readChipReg (s : State) (chip : ChipNo) (n : Nat) : Nat :=
  let c := s.chip chip
  let r (d : Word) : Nat := (c.reg n d).toNat
  let x := c.errs
  if isIn 0x110 0x11F n || n == 0x120 then r 0
  else if n = 0x121 then ((selTeam s chip).map teamst).getD 0
  else if n = 0x122 then ((selTeam s chip).map teamst2).getD 0
  else if isIn 0x128 0x12F n then r 0x200
  else if n = 0x131 then fld 60 c.resq.toNat
  else if isIn 0x138 0x13F n then ((c.prstat.toList[n - 0x138]?).map fun p => p.toNat).getD 0
  else if isIn 0x140 0x14F n then ((c.shadow.lookup (n - 0x140)).map shdir).getD 0
  else if n = 0x200 then 0x636565
  else if isIn 0x210 0x217 n then r 0
  else if n = 0x221 then c.mig.dst.toNat
  else if n = 0x222 then fld 8 (c.mig.line % 256) + (if feature s chip 2 then c.mig.state else 4)
  else if n = 0x228 then fld 48 x.mism + fld 32 x.critpar + fld 16 x.wcpar + x.tlbpar
  else if isIn 0x230 0x23F n then r 0x800000
  else if isIn 0x510 0x51F n then fld 32 (alGet c.faOps (n - 0x510) 0) + agentDepth s (mkEp chip (decide (8 ≤ n - 0x510)) (1040 + (n - 0x510) % 8))
  else if n = 0x600 then c.no.toNat
  else if isIn 0x610 0x61B n then portst (portOf s chip (BitVec.ofNat 4 (n - 0x610)))
  else if n = 0x620 then r 0
  else if n = 0x628 then fld 32 c.lostLast.toNat + c.lostCount
  else if isIn 0x630 0x63B n then portpeer (portOf s chip (BitVec.ofNat 4 (n - 0x630)))
  else if isIn 0x730 0x74F n then fld 32 (optTeam s chip (n - 0x730)).toNat + fld 1 (optStateOf s chip (n - 0x730))
  else if isIn 0x760 0x767 n then addst s chip (n - 0x760)
  else if n = 0x810 then c.svc.toNat
  else if n = 0x820 then fld 48 x.ecc + fld 32 x.link + fld 16 x.xlat + x.other
  else if n = 0x821 then fld 48 x.term + fld 32 x.launchf + x.lastTeam.toNat
  else if n = 0x822 then x.fatal.toNat
  else if n = 0x830 then featOff
  else if n = 0x832 then c.host.featacc.toNat % 2 ^ 64
  else if n = 0x833 then c.host.featacc.toNat / 2 ^ 64
  else if isIn 0x848 0x84F n then ifaceState s chip (n - 0x848)
  else if n = 0x860 then fld 32 c.col.total + r 0
  else if isIn 0x864 0x867 n then ((c.col.log[(c.reg 0x860 0).toNat]?).map fun e => eventWord e (n - 0x864)).getD 0
  else if n = 0x878 then fld 48 c.col.soft + fld 32 c.col.hard + c.col.retiredCh
  else 0

/-- What a register reads as for the executing context (R379). -/
def readReg (s : State) (n : Nat) : Nat :=
  let c := s.cx
  let k := s.core c.ep
  let r (d : Nat) : Nat := (k.reg n (BitVec.ofNat 64 d)).toNat
  if n = 0x000 then fld 32 c.no.toNat + c.ep.toNat
  else if n = 0x001 then c.recA.toNat
  else if n = 0x010 then c.fflags.toNat
  else if n = 0x011 then c.rep.repst
  else if n = 0x012 then c.rep.repcfg
  else if n = 0x013 then c.rep.pc.toNat
  else if isIn 0x208 0x20B n then ((k.bufclsNext.toList[n - 0x208]?).map fun w => w.toNat).getD 0
  else if n = 0x300 then r mxslotReset.toNat
  else if n = 0x301 then mxstat s c.ep
  else if n = 0x302 then mxckst k
  else if isIn 0x310 0x31F n then r (mxschedInit (n - 0x310))
  else if isIn 0x320 0x323 n then r mxrfmtReset.toNat
  else if n = 0x500 then r 0x200
  else if n = 0x501 then rkocc k
  else if n = 0x502 then rkcnt k
  else if isIn 0x710 0x713 n then r 0
  else if n = 0x720 then (s.myTeam.map fun t => t.steps).getD 0
  else if n = 0x800 then fld 32 k.mboxLost + k.mbox.length
  else readChipReg s (epChip c.ep) n

end Sys2Proof.Machine
end

