-- ==== Sys2Proof/Machine/Host.lean ====
section
/-! DEFINITION. Meanings: the host port: features and partitions (R430-R432), TDISP interfaces (R433-R436), IDE (R429) and
SPDM (R437-R439). -/
namespace Sys2Proof.Machine

def modHost (s : State) (chip : ChipNo) (f : HostPort → HostPort) : State := s.modChip chip fun c => { c with host := f c.host }

/-- From a fatal event on, the package completes configuration requests only (R424). -/
def unlessStopped (s : State) (chip : ChipNo) (x : State) : State := if (s.chip chip).stopped then s else x

/-- A request of the host to a function, on its stream: none is heard from a fatal event on (R424), nor on an insecure stream, whose
TLPs are discarded (R429). -/
def heard (s : State) (chip : ChipNo) (fn : Fn) (x : State) : State := if cutOff s chip fn then s else unlessStopped s chip x

/-- A function that exists (R427). -/
def fnExists (s : State) (chip : ChipNo) (fn : Fn) : Bool :=
  match fn with
  | .pf => true
  | .vf i => decide (i.toNat < (s.chip chip).host.numVfs)

/-! ### Features and partitions (R430-R432) -/

/-- A write of FEATACC through the physical function's window. -/
def writeFeatacc (s : State) (chip : ChipNo) (v : BitVec 128) : State :=
  heard s chip .pf (modHost s chip fun x =>
    if v >>> 7 != 0 || x.parten != 0 then { x with rej := true } else { x with featacc := v })

def execFeataccWrite (chip : ChipNo) (v : BitVec 128) (s : State) : Host.Outcome State Fault Refusal :=
  event s (.ok (writeFeatacc s chip v))

/-- A write of PARTEN. A bit of a locked interface that it would change keeps its value, and that interface moves to ERROR
(R434, notes/assumptions/61.md). -/
def writeParten (s : State) (chip : ChipNo) (v : BitVec 8) : State :=
  let old := (s.chip chip).host.parten
  if v != 0 && !feature s chip 0 then modHost s chip fun x => { x with rej := true }
  else
    let moved := (List.range 8).filter fun i => v.getLsbD i != old.getLsbD i
    let held := moved.filter fun i => frozenSet s chip i
    let free := moved.filter fun i => !frozenSet s chip i
    let new : BitVec 8 := free.foldl (fun x i => x ^^^ (1 <<< i)) old
    let s := modHost s chip fun x => { x with parten := new, done := x.done || (new &&& ~~~old) != 0 }
    let s := (free.filter fun i => old.getLsbD i).foldl (fun s i => endPartition s chip i false) s
    held.foldl (fun s i => enterError s chip i) s

def execPartenWrite (chip : ChipNo) (v : BitVec 8) (s : State) : Host.Outcome State Fault Refusal :=
  event s (.ok (heard s chip .pf (writeParten s chip v)))

/-! ### The register window and the configuration space (R422, R427, R428, R432) -/

/-- FEATST (R432). -/
def featst (h : HostPort) : Nat := fld 1 h.done.toNat + h.rej.toNat

/-- The doubleword at an offset of a function's register window: what R428 does not assign reads as zero. ERRCOR stands at 0x200
and ERRUNC after it (DESIGN CHOICE, notes/assumptions/139.md). -/
def windowWord (s : State) (chip : ChipNo) (fn : Fn) (off : Nat) : Nat :=
  let h := (s.chip chip).host
  if off = 0x00 then readChipReg s chip 0x830
  else if off = 0x08 then readChipReg s chip 0x831
  else if off = 0x10 then readChipReg s chip 0x832
  else if off = 0x18 then readChipReg s chip 0x833
  else if off = 0x20 then featst h
  else if off = 0x30 then (match fn with | .pf => h.parten.toNat | .vf i => h.parten.toNat &&& 2 ^ i.toNat)
  else if off = 0x200 then readChipReg s chip 0x820
  else if off = 0x208 then readChipReg s chip 0x821
  else 0

/-- A byte of the 64 KiB window that a host read returns. -/
def windowByte (s : State) (chip : ChipNo) (fn : Fn) (off : Nat) : Byte :=
  BitVec.ofNat 8 (windowWord s chip fn (off / 8 * 8) / 256 ^ (off % 8))

/-- TotalVFs (R427). -/
def totalVfs : Nat := 8

/-- The Uncorrectable Internal Error severity bit, hardwired: fatal in the physical function alone (R422). -/
def severityBit (fn : Fn) : Bool := fn == .pf

/-- The answer of a function's DOE to a message that is no SPDM request. -/
def reply (s : State) (chip : ChipNo) (fn : Fn) (o : DoeObject) (error : Bool) : State :=
  modHost s chip fun h => { h with replies := { fn := fn, object := o, error := error } :: h.replies }

/-- A message for a function's DOE: a package that has stopped, a function that does not exist and a stream that is insecure take
none (R424, R427, R429). -/
def viaDoe (s : State) (chip : ChipNo) (fn : Fn) (x : State) : State :=
  if (s.chip chip).stopped || !fnExists s chip fn || cutOff s chip fn then s else x

/-! ### TDISP (R433-R435) -/

/-- The frozen set of VF i (R434). -/
def frozenWords (s : State) (chip : ChipNo) (i : Nat) : List Word :=
  let c := s.chip chip
  let f := (c.host.ifaces.toList[i]?).getD Iface.reset
  let pmask (q : Nat) : Word :=
    let d := lqAddr s chip q
    if d = 0 then 0 else BitVec.ofNat 64 (leNat (s.mem.getBytes (physKey chip (d + 12)) 4))
  [c.reg (0x210 + i) 0, c.reg (0x128 + i) 0x200, lqdesc s chip (2 * i), lqdesc s chip (2 * i + 1), pmask (2 * i), pmask (2 * i + 1),
   (if c.host.parten.getLsbD i then 1 else 0), f.bar, f.msix, f.ideCfg]

def ifaceOf (s : State) (chip : ChipNo) (i : Nat) : Iface := ((s.chip chip).host.ifaces.toList[i]?).getD Iface.reset

/-- A TDISP request on its virtual function's DOE: what it does, or an error response, always while TDISP is not accepted (R430,
R433). -/
def tdisp (s : State) (chip : ChipNo) (vf : BitVec 3) (f : Option State) : State :=
  viaDoe s chip (.vf vf) (match f.filter fun _ => feature s chip 6 with
    | some s => reply s chip (.vf vf) .tdisp false
    | none => reply s chip (.vf vf) .tdisp true)

/-- Lock: the partition holds no live or saved team, and no scrub goes on. -/
def lockIface (s : State) (chip : ChipNo) (i : Nat) : Option State :=
  let f := ifaceOf s chip i
  if f.state == 0 && !f.scrubbing && !partHeld s chip i then
    some (moveIface s chip i fun f => { f with state := 1, frozen := frozenWords s chip i })
  else none

def execLockInterfaceRequest (chip : ChipNo) (vf : BitVec 3) (s : State) : Host.Outcome State Fault Refusal :=
  event s (.ok (tdisp s chip vf (lockIface s chip vf.toNat)))

def startIface (s : State) (chip : ChipNo) (i : Nat) : Option State :=
  let f := ifaceOf s chip i
  if f.state == 1 && !f.scrubbing then some (moveIface s chip i fun f => { f with state := 2 }) else none

def execStartInterfaceRequest (chip : ChipNo) (vf : BitVec 3) (s : State) : Host.Outcome State Fault Refusal :=
  event s (.ok (tdisp s chip vf (startIface s chip vf.toNat)))

/-- The scrub of an existing interface begins. -/
def beginScrub (s : State) (chip : ChipNo) (i : Nat) : State :=
  if (ifaceOf s chip i).state == 4 then s else modIface s chip i fun f => { f with scrubbing := true }

def execStopInterfaceRequest (chip : ChipNo) (vf : BitVec 3) (s : State) : Host.Outcome State Fault Refusal :=
  event s (.ok (tdisp s chip vf (some (beginScrub s chip vf.toNat))))

def execFunctionLevelReset (chip : ChipNo) (vf : BitVec 3) (s : State) : Host.Outcome State Fault Refusal :=
  event s (.ok (heard s chip (.vf vf) (beginScrub s chip vf.toNat)))

/-- The cores of a partition. -/
def partCores (chip : ChipNo) (p : Nat) : List EP :=
  (List.range 256).map fun i => coreAt chip (decide (4 ≤ p)) (16 * (p % 2) + i % 16) (16 * (p / 2 % 2) + i / 16)

/-- Zero-fill a range of the device's own pages in a partition's address space, page by page, where pages are mapped. -/
def zeroPages (s : State) (chip : ChipNo) (part va n : Nat) : State :=
  (List.range (n / 4096)).foldl (fun s i =>
    match walk s chip part (va + 4096 * i) with
    | .ok l =>
      let k := physKey chip (leafPa s chip part l (va + 4096 * i))
      { s with mem := s.mem.dropRange k (k + 4096) }
    | .error _ => s) s

/-- Zero-fill what a core of the partition holds: buffers, the clamp with the landings it holds, the checkpoint bank of R202 with
its contexts, matrix state (R435). -/
def scrubCore (s : State) (e : EP) : State :=
  let s := { zeroBuffers s e with undo := s.undo.filter fun u => u.logger != e,
                                  landings := s.landings.filter fun l => l.ep != e,
                                  deltas := s.deltas.filter fun d => !(isBufKey d.1 && bufKeyEp d.1 == e) }
  let wipe (m : MxUnit) : MxUnit := { m with acc := [], ck0 := Checks.reset, ck1 := Checks.reset, xch := none }
  let s := s.modCore e fun k => { k with mx := wipe k.mx }
  let bank (c : CoreCk) : CoreCk := if c.ep == e then { c with acc := [], ck0 := Checks.reset, ck1 := Checks.reset, graph := [] } else c
  let wiped (k : Ckpt) : Ckpt := { k with cores := k.cores.map bank, ctxs := k.ctxs.filter fun c => c.ep != e }
  { s with teams := s.teams.map fun t => { t with ckpt := wiped t.ckpt } }

/-- The overflow areas of a partition, as they are in force (R210). -/
def scrubOverflow (s : State) (chip : ChipNo) (p : Nat) : State :=
  let cfg := ovfInForce (s.chip chip) p
  let base := bits cfg 20 37 * 2 ^ 20
  if base = 0 then s else zeroPages s chip p base (256 * 2 ^ (20 + bits cfg 8 4))

/-- The shadow-store slots of a partition are released, and the teams they held are gone. -/
def dropPartSlots (s : State) (chip : ChipNo) (p : Nat) : State :=
  let mine (t : Team) : Bool := t.chip == chip && t.cores.any fun e => partOf e == p
  let s := s.modChip chip fun c => { c with shadow := c.shadow.filter fun x => !mine x.2.team }
  { s with teams := s.teams.map fun t => if t.state == .saved && mine t then { t with state := .terminated } else t }

/-- The scrub ends: the interface is CONFIG_UNLOCKED. -/
def endScrub (s : State) (chip : ChipNo) (i : Nat) : State :=
  if !(ifaceOf s chip i).scrubbing then s
  else
    let s := (partCores chip i).foldl scrubCore s
    let s := dropPartSlots (scrubOverflow s chip i) chip i
    moveIface s chip i fun f => { f with state := 0, frozen := [], scrubbing := false }

def execScrubDone (chip : ChipNo) (vf : BitVec 3) (s : State) : Host.Outcome State Fault Refusal :=
  event s (.ok (endScrub s chip vf.toNat))

/-! ### Configuration writes (R427, R433, R434) -/

/-- NumVFs: virtual functions come and go. More than TotalVFs is no value of the register. -/
def writeNumVfs (s : State) (chip : ChipNo) (n : Nat) : State :=
  if 8 < n then s
  else
    let f (x : Iface × Nat) : Iface := if x.2 < n then (if x.1.state == 4 then { Iface.reset with state := 0 } else x.1) else Iface.reset
    remeasure (modHost s chip fun h => { h with numVfs := n, ifaces := (Vector.range 8).map fun i => f ((h.ifaces.toList[i]?).getD Iface.reset, i) }) chip

/-- A write to a member of VF i's own configuration. -/
def writeVfCfg (s : State) (chip : ChipNo) (i : Nat) (f : Iface → Iface) : State :=
  if (ifaceOf s chip i).state == 4 then s
  else if frozenSet s chip i then enterError s chip i
  else modIface s chip i f

/-- A write of FEATST: a one clears REJ (R432). -/
def writeFeatst (s : State) (chip : ChipNo) (v : Word) : State :=
  unlessStopped s chip (modHost s chip fun h => { h with rej := h.rej && !v.getLsbD 0 })

/-- A collier object in the physical function's DOE whose command has no row of its own: status 1 and no effect (R441). -/
def otherCommand (s : State) (chip : ChipNo) (cmd : BitVec 8) : State :=
  if 1 ≤ cmd.toNat ∧ cmd.toNat ≤ 7 then s
  else s.modChip chip fun c => { c with col := { c.col with event := true, doe := [1] :: c.col.doe } }

/-- The function whose configuration space a write names. -/
def cfgFn : CfgWrite → Fn
  | .vfBar i _ | .vfMsix i _ | .vfIde i _ | .vfCollier i => .vf i
  | .severity fn _ => fn
  | .numVfs _ | .featst _ | .otherCommand _ => .pf

/-- A configuration write; none arrives on a link that is down (R445) or on a stream that is insecure (R429). -/
def cfgWrite (s : State) (chip : ChipNo) (w : CfgWrite) : State :=
  if (s.chip chip).dark || cutOff s chip (cfgFn w) then s
  else match w with
  | .numVfs n => writeNumVfs s chip n.toNat
  | .vfBar i v => writeVfCfg s chip i.toNat fun f => { f with bar := v }
  | .vfMsix i v => writeVfCfg s chip i.toNat fun f => { f with msix := v }
  | .vfIde i v => writeVfCfg s chip i.toNat fun f => { f with ideCfg := v }
  | .featst v => writeFeatst s chip v
  | .severity _ _ => s
  | .otherCommand cmd => viaDoe s chip .pf (otherCommand s chip cmd)
  | .vfCollier i => viaDoe s chip (.vf i) (reply s chip (.vf i) .collier true)

def execConfigurationWrite (chip : ChipNo) (w : CfgWrite) (s : State) : Host.Outcome State Fault Refusal :=
  event s (.ok (cfgWrite s chip w))

/-! ### IDE (R429) -/

def Ide.fresh (st : IdeStream) : Ide := { stream := st, key0 := none, key1 := none, active := false, secure := false, insecure := false }

def ideOf (s : State) (chip : ChipNo) (st : IdeStream) : Ide :=
  ((s.chip chip).host.ides.find? fun x => x.stream == st).getD (Ide.fresh st)
def putIde (s : State) (chip : ChipNo) (x : Ide) : State :=
  modHost s chip fun h => { h with ides := (h.ides.filter fun y => y.stream != x.stream) ++ [x] }

/-- The function whose requests a stream carries. -/
def streamFn : IdeStream → Fn
  | .link => .pf
  | .sel f => f

/-- Program a key set of a stream, or switch to it; a set without a key is nothing to switch to (DESIGN CHOICE: an error response,
notes/assumptions/139.md). -/
def ideKm (s : State) (chip : ChipNo) (st : IdeStream) (set1 : Bool) (r : IdeKm) : Option State :=
  let x := ideOf s chip st
  match r with
  | .program k => some (putIde s chip (if set1 then { x with key1 := some k } else { x with key0 := some k }))
  | .switch =>
    if ((if set1 then x.key1 else x.key0)).isSome then some (putIde s chip { x with active := set1, secure := true, insecure := false })
    else none

/-- An IDE_KM request, in a session of its function's DOE; an error response while IDE is not accepted (R430). -/
def ideRequest (s : State) (chip : ChipNo) (st : IdeStream) (set1 : Bool) (r : IdeKm) : State :=
  let fn := streamFn st
  viaDoe s chip fn (match (ideKm s chip st set1 r).filter fun _ => feature s chip 5 with
    | some s => reply s chip fn .ideKm false
    | none => reply s chip fn .ideKm true)

def execIdeKmRequest (chip : ChipNo) (st : IdeStream) (set1 : Bool) (r : IdeKm) (s : State) : Host.Outcome State Fault Refusal :=
  event s (.ok (ideRequest s chip st set1 r))

/-- A secure stream becomes insecure: its later TLPs are discarded, its interfaces move to ERROR, and the physical function reports
it. -/
def ideBroken (s : State) (chip : ChipNo) (st : IdeStream) : State :=
  let x := ideOf s chip st
  if !x.secure then s
  else
    let s := putIde s chip { x with secure := false, insecure := true }
    let s := nonFatal s chip .pf 0 0 0 bumpLaunchf
    match st with
    | .sel (.vf i) => if frozenSet s chip i.toNat then enterError s chip i.toNat else s
    | _ => s

def execIdeIntegrityFail (chip : ChipNo) (st : IdeStream) (s : State) : Host.Outcome State Fault Refusal :=
  event s (.ok (unlessStopped s chip (ideBroken s chip st)))

/-! ### SPDM (R437-R439): version 1.3, its codes PRESUMED (notes/assumptions/62.md) -/

def spdmVersion : Byte := 0x13

def Spdm.fresh (fn : Fn) : Spdm := { fn := fn, phase := 0, transcript := [], session := 0, key := 0, out := [] }
def spdmOf (s : State) (chip : ChipNo) (fn : Fn) : Spdm := ((s.chip chip).host.spdm.find? fun x => x.fn == fn).getD (Spdm.fresh fn)
def putSpdm (s : State) (chip : ChipNo) (x : Spdm) : State :=
  modHost s chip fun h => { h with spdm := (h.spdm.filter fun y => y.fn != x.fn) ++ [x] }

/-- An error response of a code. -/
def spdmError (code : Byte) : List Byte := [spdmVersion, 0x7F, code, 0]
def errInvalid : Byte := 0x01
def errUnexpected : Byte := 0x04
def errDecrypt : Byte := 0x06
def errUnsupported : Byte := 0x07

/-- Answer a request that cannot be served. -/
def Spdm.refuse (x : Spdm) (code : Byte) : Spdm := { x with out := spdmError code :: x.out }
/-- Answer a request: both join the transcript. -/
def Spdm.answer (x : Spdm) (req resp : List Byte) : Spdm := { x with transcript := x.transcript ++ req ++ resp, out := resp :: x.out }

/-- A request reaches a function's DOE. -/
def spdmStep (s : State) (chip : ChipNo) (fn : Fn) (f : Spdm → State × Spdm) : State :=
  if !fnExists s chip fn || (s.chip chip).stopped || cutOff s chip fn then s
  else let r := f (spdmOf s chip fn); putSpdm r.1 chip r.2

/-- GET_VERSION starts the exchange again. -/
def spdmGetVersion (x : Spdm) : Spdm :=
  let y : Spdm := { x with phase := 1, transcript := [], session := 0, key := 0 }
  y.answer [0x10, 0x84, 0, 0] [0x10, 0x04, 0, 0, 0, 1, 0x00, 0x13]

def execGetVersion (chip : ChipNo) (fn : Fn) (s : State) : Host.Outcome State Fault Refusal :=
  event s (.ok (spdmStep s chip fn fun x => (s, spdmGetVersion x)))

def spdmGetCapabilities (x : Spdm) (req : List Byte) : Spdm :=
  if x.phase = 0 then x.refuse errUnexpected
  else ({ x with phase := 2 } : Spdm).answer ([spdmVersion, 0xE1] ++ req) [spdmVersion, 0x61, 0, 0]

def execGetCapabilities (chip : ChipNo) (fn : Fn) (req : List Byte) (s : State) : Host.Outcome State Fault Refusal :=
  event s (.ok (spdmStep s chip fn fun x => (s, spdmGetCapabilities x req)))

/-- Anything but the suite of R437 gets an error response. -/
def spdmNegotiate (x : Spdm) (offersSuite : Bool) (req : List Byte) : Spdm :=
  if x.phase < 2 then x.refuse errUnexpected
  else if !offersSuite then x.refuse errInvalid
  else ({ x with phase := 3 } : Spdm).answer ([spdmVersion, 0xE3] ++ req) [spdmVersion, 0x63, 0, 0]

def execNegotiateAlgorithms (chip : ChipNo) (fn : Fn) (offersSuite : Bool) (req : List Byte) (s : State) :
    Host.Outcome State Fault Refusal :=
  event s (.ok (spdmStep s chip fn fun x => (s, spdmNegotiate x offersSuite req)))

/-- Slot 0 holds the RSA-3072 chain, slot 1 the chain of the SLH-DSA key. -/
def spdmGetDigests (x : Spdm) : Spdm :=
  if x.phase < 3 then x.refuse errUnexpected
  else x.answer [spdmVersion, 0x81, 0, 0] ([spdmVersion, 0x01, 0, 3] ++ Config.sha384 (Config.certChain 0) ++ Config.sha384 (Config.certChain 1))

def execGetDigests (chip : ChipNo) (fn : Fn) (s : State) : Host.Outcome State Fault Refusal :=
  event s (.ok (spdmStep s chip fn fun x => (s, spdmGetDigests x)))

def halfBytes (n : BitVec 16) : List Byte := bytesOf n.toNat 2

def spdmGetCertificate (x : Spdm) (slot : BitVec 4) (off len : BitVec 16) : Spdm :=
  let req := [spdmVersion, 0x82, slot.setWidth 8, 0] ++ halfBytes off ++ halfBytes len
  let chain := Config.certChain slot.toNat
  if x.phase < 3 then x.refuse errUnexpected
  else if !(decide (slot.toNat < 2) && decide (off.toNat < chain.length)) then x.refuse errInvalid
  else
    let part := (chain.drop off.toNat).take len.toNat
    x.answer req ([spdmVersion, 0x02, slot.setWidth 8, 0] ++ bytesOf part.length 2 ++ bytesOf (chain.length - off.toNat - part.length) 2 ++ part)

def execGetCertificate (chip : ChipNo) (fn : Fn) (slot : BitVec 4) (off len : BitVec 16) (s : State) :
    Host.Outcome State Fault Refusal :=
  event s (.ok (spdmStep s chip fn fun x => (s, spdmGetCertificate x slot off len)))

/-- A firmware bank's image: 8 MiB, unlisted bytes zero. -/
def bankBytes (b : List (Nat × Byte)) : List Byte := (List.range 0x800000).map fun i => alGet b i 0

/-- The content that a measurement block digests (R439). -/
def measured (s : State) (chip : ChipNo) (fn : Fn) (i : Nat) : List Byte :=
  let c := s.chip chip
  match i with
  | 1 => Config.bootRom
  | 2 =>
    let image := bankBytes (if c.col.activeB then c.col.bankB else c.col.bankA)
    image ++ bytesOf (Config.imageVersion image).toNat 8
  | 3 => bytesOf c.col.plan 8
  | 4 => bytesOf featOff 16 ++ bytesOf c.host.featMeas.toNat 16
  | _ => match fn with
    | .pf => []
    | .vf j => (ifaceOf s chip j.toNat).frozen.flatMap fun w => bytesOf w.toNat 8

/-- A measurement block: index, size, SHA-384 digest; block 5 is zero while there is no frozen set. -/
def measurement (s : State) (chip : ChipNo) (fn : Fn) (i : Nat) : List Byte :=
  let blank : Bool := i == 5 && (measured s chip fn 5).isEmpty
  [BitVec.ofNat 8 i] ++ bytesOf 48 2 ++ (if blank then List.replicate 48 0 else Config.sha384 (measured s chip fn i))

/-- A response signed twice over the same transcript hash (R438): block 0xFD, then the signature field. -/
def signedTail (ix : Nat) (hash : List Byte) : List Byte :=
  let slh := Config.slhSign ix hash
  [0xFD] ++ bytesOf slh.length 2 ++ slh ++ Config.rsaSign ix hash

/-- The nonce of a response, 32 bytes. -/
def nonceBytes (ix : Nat) : List Byte := (List.range 4).flatMap fun i => bytesOf (Config.freeWord (ix + i)).toNat 8

def spdmChallenge (s : State) (chip : ChipNo) (fn : Fn) (x : Spdm) (slot : BitVec 4) (nonce : BitVec 256) : State × Spdm :=
  let req := [spdmVersion, 0x83, slot.setWidth 8, 0xFF] ++ bytesOf nonce.toNat 32
  if x.phase < 3 then (s, x.refuse errUnexpected)
  else if 2 ≤ slot.toNat then (s, x.refuse errInvalid)
  else
    let ix := s.freeIx
    let all := (List.range 5).flatMap fun i => measurement s chip fn (i + 1)
    let body := [spdmVersion, 0x03, slot.setWidth 8, 3] ++ Config.sha384 (Config.certChain slot.toNat) ++ nonceBytes ix ++ Config.sha384 all
    let hash := Config.sha384 (x.transcript ++ req ++ body)
    ({ s with freeIx := ix + 5 }, x.answer req (body ++ signedTail (ix + 4) hash))

def execChallenge (chip : ChipNo) (fn : Fn) (slot : BitVec 4) (nonce : BitVec 256) (s : State) : Host.Outcome State Fault Refusal :=
  event s (.ok (spdmStep s chip fn fun x => spdmChallenge s chip fn x slot nonce))

/-- The blocks a request names: 0xFF all five, 1 to 5 one. -/
def measuredBlocks (idx : Nat) : List Nat := if idx = 0xFF then [1, 2, 3, 4, 5] else if 1 ≤ idx ∧ idx ≤ 5 then [idx] else []

def spdmMeasure (s : State) (chip : ChipNo) (fn : Fn) (x : Spdm) (sign : Bool) (idx : BitVec 8) (nonce : BitVec 256) : State × Spdm :=
  let req := [spdmVersion, 0xE0, if sign then 1 else 0, idx] ++ (if sign then bytesOf nonce.toNat 32 else [])
  let bs := measuredBlocks idx.toNat
  if x.phase < 3 then (s, x.refuse errUnexpected)
  else if bs.isEmpty && !(idx == 0 || (idx == 0xFD && sign)) then (s, x.refuse errInvalid)
  else
    let ix := s.freeIx
    let body := [spdmVersion, 0x60, BitVec.ofNat 8 (if idx = 0 then 5 else bs.length), 0] ++ (bs.flatMap fun i => measurement s chip fn i) ++ nonceBytes ix
    let hash := Config.sha384 (x.transcript ++ req ++ body)
    ({ s with freeIx := ix + 5 }, x.answer req (if sign then body ++ signedTail (ix + 4) hash else body))

def execGetMeasurements (chip : ChipNo) (fn : Fn) (sign : Bool) (idx : BitVec 8) (nonce : BitVec 256) (s : State) :
    Host.Outcome State Fault Refusal :=
  event s (.ok (spdmStep s chip fn fun x => spdmMeasure s chip fn x sign idx nonce))

/-- KEY_EXCHANGE begins the handshake of a secured session. -/
def spdmKeyExchange (s : State) (x : Spdm) (req : List Byte) : State × Spdm :=
  if x.phase < 3 || x.session != 0 then (s, x.refuse errUnexpected)
  else
    let ix := s.freeIx
    let full := [spdmVersion, 0xE4] ++ req
    let body := [spdmVersion, 0x64, 0, 0] ++ nonceBytes ix ++ Config.ecdheShare (ix + 4)
    let hash := Config.sha384 (x.transcript ++ full ++ body)
    ({ s with freeIx := ix + 6 }, ({ x with session := 1, key := Config.sessionKey (ix + 4) } : Spdm).answer full (body ++ Config.rsaSign (ix + 5) hash))

def execKeyExchange (chip : ChipNo) (fn : Fn) (req : List Byte) (s : State) : Host.Outcome State Fault Refusal :=
  event s (.ok (spdmStep s chip fn fun x => spdmKeyExchange s x req))

/-- FINISH ends the handshake: the session stands when the requester's HMAC is right. -/
def spdmFinish (x : Spdm) (hmacOk : Bool) : Spdm :=
  if x.session != 1 then x.refuse errUnexpected
  else if !hmacOk then ({ x with session := 0, key := 0 } : Spdm).refuse errDecrypt
  else ({ x with session := 2 } : Spdm).answer [spdmVersion, 0xE5, 0, 0] [spdmVersion, 0x65, 0, 0]

def execFinish (chip : ChipNo) (fn : Fn) (hmacOk : Bool) (s : State) : Host.Outcome State Fault Refusal :=
  event s (.ok (spdmStep s chip fn fun x => (s, spdmFinish x hmacOk)))

/-- A request inside an established session. -/
def Spdm.inSession (x : Spdm) (y : Spdm) : Spdm := if x.session = 2 then y else x.refuse errUnexpected

def execHeartbeat (chip : ChipNo) (fn : Fn) (s : State) : Host.Outcome State Fault Refusal :=
  event s (.ok (spdmStep s chip fn fun x => (s, x.inSession { x with out := [spdmVersion, 0x68, 0, 0] :: x.out })))

def execKeyUpdate (chip : ChipNo) (fn : Fn) (s : State) : Host.Outcome State Fault Refusal :=
  event s (.ok (spdmStep s chip fn fun x =>
    ({ s with freeIx := s.freeIx + 1 }, x.inSession { x with key := Config.sessionKey s.freeIx, out := [spdmVersion, 0x69, 0, 0] :: x.out })))

def execEndSession (chip : ChipNo) (fn : Fn) (s : State) : Host.Outcome State Fault Refusal :=
  event s (.ok (spdmStep s chip fn fun x =>
    (s, x.inSession { x with session := 0, key := 0, out := [spdmVersion, 0x6C, 0, 0] :: x.out })))

end Sys2Proof.Machine
end

