-- ==== Sys2Proof/Machine/Collier.lean ====
section
/-! DEFINITION. Meanings: the collier: its commands (R441-R443), sensors and ageing (R444, R445), repair (R446, R447), fatal
events (R424) and resets (R440, R425). -/
namespace Sys2Proof.Machine

def modCol (s : State) (chip : ChipNo) (f : Collier → Collier) : State := s.modChip chip fun c => { c with col := f c.col }

/-! ### Commands (R441) -/

/-- A host request on the physical function's DOE: a collier event, then the answer. A stopped package serves none (R424), and one
on an insecure stream is discarded (R429). -/
def command (s : State) (chip : ChipNo) (f : State → Res (State × List Word)) : Host.Outcome State Fault Refusal :=
  event s (if (s.chip chip).stopped || cutOff s chip .pf then .ok s else do
    let r ← f (colEvent s chip)
    .ok (modCol r.1 chip fun c => { c with doe := r.2 :: c.doe }))

/-- An entry of the event log; one beyond those held reads as zero (R442). -/
def logWords (s : State) (chip : ChipNo) (i : Nat) : List Word :=
  match (s.chip chip).col.log[i]? with
  | some e => (List.range 4).map fun j => BitVec.ofNat 64 (eventWord e j)
  | none => [0, 0, 0, 0]

def execCollierReadEvent (chip : ChipNo) (i : Word32) (s : State) : Host.Outcome State Fault Refusal :=
  command s chip fun s => .ok (s, 0 :: logWords s chip i.toNat)

def execCollierSvcboot (chip : ChipNo) (addr : Word) (s : State) : Host.Outcome State Fault Refusal :=
  command s chip fun s => do
    let s ← bootService s chip addr
    .ok (s, [0, (s.chip chip).svc.setWidth 64])

/-- Write image bytes into the inactive bank; the active bank is never written (R443). -/
def writeBank (s : State) (chip : ChipNo) (bankB : Bool) (off : Nat) (bytes : List Byte) : State × List Word :=
  let put (b : List (Nat × Byte)) : List (Nat × Byte) := (bytes.zipIdx).foldl (fun b q => Memory.set b (off + q.2) q.1) b
  if bankB == (s.chip chip).col.activeB || 4096 < bytes.length || 0x800000 < off + bytes.length then (s, [1])
  else (modCol s chip fun c => if bankB then { c with bankB := put c.bankB } else { c with bankA := put c.bankA }, [0])

def execCollierWriteBank (chip : ChipNo) (bankB : Bool) (off : BitVec 23) (bytes : List Byte) (s : State) :
    Host.Outcome State Fault Refusal :=
  command s chip fun s => .ok (writeBank s chip bankB off.toNat bytes)

/-- Verify the inactive bank and mark it pending, or reject it with status 2 (R443). -/
def activateBank (s : State) (chip : ChipNo) (sigOk : Bool) : State × List Word :=
  if sigOk then (modCol s chip fun c => { c with pending := true }, [0])
  else (logEvent s chip (collierEp chip) 0x04 0, [2])

def execCollierActivateBank (chip : ChipNo) (sigOk : Bool) (s : State) : Host.Outcome State Fault Refusal :=
  command s chip fun s => .ok (activateBank s chip sigOk)

/-- The last sample of sensors 0-159 (R441). -/
def readSensor (s : State) (chip : ChipNo) (n : Nat) : List Word :=
  if 160 ≤ n then [1] else [0, BitVec.ofInt 64 (alGet (s.chip chip).col.samples n 0)]

def execCollierReadSensor (chip : ChipNo) (n : BitVec 8) (s : State) : Host.Outcome State Fault Refusal :=
  command s chip fun s => .ok (s, readSensor s chip n.toNat)

/-- A plan of the ageing monitors: logged, and measurement block 3 changes (R444). -/
def runPlan (s : State) (chip : ChipNo) (failing : List Nat) : State :=
  let s := modCol s chip fun c => { c with plan := c.plan + 1, failing := (c.failing ++ failing).eraseDups }
  remeasure (logEvent s chip (collierEp chip) 0x08 0) chip

/-- Which monitors fail in it is a free value (notes/assumptions/63.md). -/
def execCollierReplan (chip : ChipNo) (s : State) : Host.Outcome State Fault Refusal :=
  command s chip fun s => .ok (runPlan { s with freeIx := s.freeIx + 1 } chip ((Config.failingMonitors s.freeIx).map fun i => i.toNat), [0])

/-- Which of a port's failed lanes are found failed when it trains: which are intact again is left to chance
(notes/assumptions/63.md). -/
def lanesNow (failed : BitVec 16) (ix : Nat) : BitVec 16 := failed &&& (Config.freeWord ix).setWidth 16

/-- Port p and its partner stop and train again, at the widest width whose lanes are intact now (R441). -/
def retrainPort (s : State) (chip : ChipNo) (p : BitVec 4) : State × List Word :=
  if 12 ≤ p.toNat then (s, [1])
  else
    let (ix, s) := s.draw
    let again (x : Port) : Port := { x with failed := lanesNow x.failed ix, stopped := true, state := 1 }
    let s := match partnerOf s chip p with
      | some (c, q) => colEvent (setPort s c q (again (portOf s c q))) c
      | none => s
    (setPort s chip p (again (portOf s chip p)), [0])

def execCollierRetrainPort (chip : ChipNo) (port : BitVec 4) (s : State) : Host.Outcome State Fault Refusal :=
  command s chip fun s => .ok (retrainPort s chip port)

/-! ### Sensors and ageing (R444, R445) -/

/-- The package stops as on loss of power: no report, and the host sees the link go down. -/
def losePower (s : State) (chip : ChipNo) : State := s.modChip chip fun c => { c with stopped := true, dark := true }

def execPowerLoss (chip : ChipNo) (s : State) : Host.Outcome State Fault Refusal := event s (.ok (losePower s chip))

/-- A sample: a cluster above 105 is throttled until it falls below 100; a temperature above 115 stops the package. -/
def sample (s : State) (chip : ChipNo) (n : Nat) (v : Int) : State :=
  if 160 ≤ n || (s.chip chip).stopped then s
  else
    let s := colEvent (modCol s chip fun c => { c with samples := alPut c.samples n v }) chip
    let hot := (s.chip chip).col.throttled.contains n
    let s :=
      if n < 128 && 105 < v && !hot then logEvent (modCol s chip fun c => { c with throttled := c.throttled ++ [n] }) chip (collierEp chip) 0x06 n
      else if v < 100 then modCol s chip fun c => { c with throttled := c.throttled.filter fun x => x != n }
      else s
    if n < 136 && 115 < v then losePower s chip else s

def execSensorSample (chip : ChipNo) (n : BitVec 8) (v : Int) (s : State) : Host.Outcome State Fault Refusal :=
  event s (.ok (sample s chip n.toNat v))

/-- The plan of every 1,000 powered hours, with the clusters whose monitors fail at the highest permitted voltage. -/
def execAgeingPlan (chip : ChipNo) (failing : List (BitVec 7)) (s : State) : Host.Outcome State Fault Refusal :=
  event s (.ok (unlessStopped s chip (runPlan s chip (failing.map fun i => i.toNat))))

/-- The watchdog has not been written for 100 ms: a collier failure (R440). -/
def execWatchdogExpire (chip : ChipNo) (s : State) : Host.Outcome State Fault Refusal :=
  event s (.ok (unlessStopped s chip (fatalStop s chip .collier)))

def execFatalEvent (chip : ChipNo) (c : FatalCause) (s : State) : Host.Outcome State Fault Refusal :=
  event s (.ok (fatalStop s chip c))

/-! ### Soft repair (R447) -/

/-- A row is repaired while its channel is quiesced; one channel of a stack at a time. -/
def beginRepair (s : State) (chip : ChipNo) (stack channel row : Nat) : State :=
  if (s.chip chip).stopped || (s.chip chip).col.quiesced.any fun q => q.1 == stack then s
  else
    let s := correctable s chip .pf bumpOther
    let s := logEvent s chip (collierEp chip) 0x05 (row * 2 ^ 16 + channel * 2 ^ 8 + stack)
    modCol s chip fun c => { c with soft := satAdd 16 c.soft 1, quiesced := c.quiesced ++ [(stack, channel, s.time + Config.repairPeriod)] }

def execSoftRepair (chip : ChipNo) (stack : BitVec 3) (channel : BitVec 5) (row : Word32) (s : State) :
    Host.Outcome State Fault Refusal :=
  event s (.ok (beginRepair s chip stack.toNat channel.toNat row.toNat))

def execRepairQuiesceEnd (chip : ChipNo) (stack : BitVec 3) (channel : BitVec 5) (s : State) : Host.Outcome State Fault Refusal :=
  event s (.ok (modCol s chip fun c => { c with quiesced := c.quiesced.filter fun q => !(q.1 == stack.toNat && q.2.1 == channel.toNat) }))

/-! ### Reset (R440, R425) -/

/-- What a package that is reset held on the link is gone: the operations it belonged to end (R396, R398; DEDUCED,
notes/assumptions/118.md). -/
def loseHeld (s : State) (chip : ChipNo) : State := (heldOps s chip).foldl loseOp s

/-- Cords between a package that is reset and the teams of others are lost, and those teams vote LINK. -/
def loseCords (s : State) (chip : ChipNo) : State :=
  let lost := (s.cords.filter fun c => c.chip != chip && epChip c.dest == chip).map fun c => (c.chip, c.team)
  let s := lost.foldl (fun s t => voteLink s t.1 t.2) s
  { s with cords := s.cords.filter (fun c => c.chip != chip && epChip c.dest != chip)
           statuses := s.statuses.filter fun c => c.chip != chip }

/-- Whether an operation on the link still has anything that waits for it. -/
def opThere (s : State) (op : Nat) : Bool :=
  s.packets.any (fun p => p.id == op) || s.cords.any (fun c => c.id == op) || s.statuses.any (fun c => c.id == op) ||
  s.cores.any fun (k : Nat × Core) => k.2.engine.any fun o => o.id == op

/-- The contexts, cores, teams and traffic of a package are gone. -/
def dropWork (s : State) (chip : ChipNo) (mine : EP → Bool) : State :=
  let unready (q : ReadyQ) : ReadyQ := q.map fun l => l.filter fun r => r.chip != chip
  { s with
    cx := if mine s.cx.ep then Context.idle s.cx.ep s.cx.no else s.cx
    others := s.others.filter fun c => !mine c.ep
    cores := s.cores.filter fun k => !mine (BitVec.ofNat 32 k.1)
    ready := s.ready.map fun q => (q.1, unready q.2)
    waiters := s.waiters.filter fun w => w.chip != chip
    teams := s.teams.filter fun t => t.chip != chip
    deltas := s.deltas.filter fun d => d.2.chip != chip
    undo := s.undo.filter fun u => u.chip != chip
    reds := s.reds.filter fun r => r.chip != chip
    landings := s.landings.filter fun l => l.chip != chip
    updates := s.updates.filter fun u => u.chip != chip
    fabricMsgs := s.fabricMsgs.filter fun m => !mine m.1
    poison := s.poison.filter fun l => !(isBufKey (64 * l) && mine (bufKeyEp (64 * l)))
    packets := s.packets.filter fun p => p.chip != chip
    frags := s.frags.filter fun f => f.chip != chip
    mem := s.mem.dropRange (bufKey (mkEp chip false 0) 0 0) (bufKey (mkEp chip true 8191) 8 0) }

/-- Nothing of a package's work survives its reset. -/
def clearWork (s : State) (chip : ChipNo) : State :=
  let mine (e : EP) : Bool := epChip e == chip
  let s := loseCords (loseHeld s chip) chip
  let s := dropWork s chip mine
  { s with transit := s.transit.filter fun t => opThere s t.1 }

/-- A port as it trains in a reset: sequence numbers and buffers start over; what the cabling joins stays. -/
def trainedPort (failed : BitVec 16) (peer cable : Option (ChipNo × BitVec 4)) : Port :=
  let st := if peer.isSome then widthOf failed else 0
  { Port.reset with failed := failed, peer := if st = 0 then none else peer, cable := cable, state := st, stopped := st == 0 }

/-- The other end of a link that has trained in a reset: it has trained with it, to the same width, has learnt its partner, and
sends again what is unacknowledged, by the sequence numbers that start over; or its port is down too (R395, R396, R450). One of a
package that has stopped stays as it is. -/
def restartPeer (s : State) (chip : ChipNo) (p : BitVec 4) (partner : Option (ChipNo × BitVec 4)) : State :=
  match answering s partner with
  | none => s
  | some (c, q) =>
    let x := portOf s chip p
    let y := portOf s c q
    let s := colEvent s c
    if x.state = 0 then
      let down := { y with state := 0, failed := x.failed, stopped := true, broken := false, buf := [], out := [] }
      moveWaiting (moveBuffer (setPort s c q down) c y) c q.toNat
    else
      let buf := y.buf.zipIdx.map fun (b : (BitVec 12 × LinkPacket) × Nat) => (BitVec.ofNat 12 b.2, b.1.2)
      setPort (linkError s c) c q
        { y with state := x.state, failed := x.failed, peer := some (chip, p), cable := some (chip, p), stopped := false, broken := false,
                 retrain := satAdd 16 y.retrain 1, txNext := BitVec.ofNat 12 buf.length, txAcked := 4095, buf := buf,
                 out := buf.map packetFlit, rxNext := 0, rxUnacked := 0, nakSent := false, txSince := s.time }

/-- What any reset does to the collier's own state: soft repairs become hard, a pending bank becomes active or is rejected,
and the clusters whose monitors failed are retired. -/
def afterReset (c : Collier) (pendingOk : Bool) : Collier :=
  let cl := (c.failing.map fun i => (decide (64 ≤ i), i % 64)).filter fun x => !c.retiredCl.contains x
  { c with hard := satAdd 16 c.hard c.soft, soft := 0, activeB := if c.pending && pendingOk then !c.activeB else c.activeB,
           pending := false, failing := [], retiredCl := c.retiredCl ++ cl.eraseDups, quiesced := [], throttled := [], samples := [],
           event := false, doe := [] }

/-- What a reset logs: a rejected image, the plan, each cluster newly retired. -/
def logReset (s : State) (chip : ChipNo) (old : Collier) (r : BootReport) : State :=
  let s := if old.pending && !r.pendingOk then logEvent s chip (collierEp chip) 0x04 0 else s
  let s := runPlan s chip (r.failing.map fun i => i.toNat)
  ((s.chip chip).col.retiredCl.filter fun x => !old.retiredCl.contains x).foldl (fun s x =>
    logEvent s chip (collierEp chip) 0x07 (64 * x.1.toNat + x.2)) s

/-- A removed unit (R446): the spare column takes the place of the first failed column of a die; a later one takes its
clusters with it. -/
def retireUnit (s : State) (chip : ChipNo) (u : RetiredUnit) : State :=
  let note (s : State) (d : Nat) : State := logEvent s chip (collierEp chip) 0x07 d
  match u with
  | .column die x =>
    let c := (s.chip chip).col
    let used := c.spare.any fun p => p.1 == die && p.2 != x.toNat
    let gone := (List.range 8).map fun j => (die, 8 * j + x.toNat / 4 % 8)
    let s := modCol s chip fun c =>
      if used then { c with retiredCl := (c.retiredCl ++ gone).eraseDups } else { c with spare := (c.spare ++ [(die, x.toNat)]).eraseDups }
    note s (64 * die.toNat + x.toNat)
  | .cluster die i => note (modCol s chip fun c => { c with retiredCl := (c.retiredCl ++ [(die, i.toNat)]).eraseDups }) (64 * die.toNat + i.toNat)
  | .hbmChannel ctl left =>
    let s := s.modChip chip fun c => c.setReg (0x230 + ctl.toNat) (left.setWidth 64)
    note (modCol s chip fun c => { c with retiredCh := satAdd 16 c.retiredCh 1 }) ctl.toNat
  | .lane port lane => note s (16 * port.toNat + lane.toNat)

/-- The lanes of a port that a report finds failed. -/
def failedLanes (r : BootReport) (p : Nat) : BitVec 16 :=
  r.retired.foldl (fun m u => match u with
    | .lane q l => if q.toNat = p then m ||| (1 <<< l.toNat) else m
    | _ => m) ((r.laneMask[p]?).getD 0)

/-- The lanes removed, beside those that the report's list names (R446). -/
def otherLanes (r : BootReport) : List RetiredUnit :=
  let all := (List.range 12).flatMap fun p =>
    ((List.range 16).filter fun l => ((r.laneMask[p]?).getD 0).getLsbD l).map fun l => RetiredUnit.lane (BitVec.ofNat 4 p) (BitVec.ofNat 4 l)
  all.filter fun u => !r.retired.contains u

/-- Training in a reset (R440 step 4): every port at the widest width whose lanes are intact, down where no partner answers; the
other ends have trained with it. `olds` are the ends that the cabling joined before. -/
def trainPorts (s : State) (chip : ChipNo) (r : BootReport) (olds : List (Option (ChipNo × BitVec 4))) : State :=
  let partner (p : Nat) : Option (ChipNo × BitVec 4) := (r.partners[p]?).getD none
  let cable (p : Nat) : Option (ChipNo × BitVec 4) := (partner p).orElse fun _ => (olds[p]?).getD none
  let s := s.modChip chip fun c =>
    { c with ports := (Vector.range 12).map fun p => trainedPort (failedLanes r p) (answering s (partner p)) (cable p) }
  (List.range 12).foldl (fun s p => restartPeer s chip (BitVec.ofNat 4 p) (cable p)) s

/-- The steps of a reset (R440), on a package whose work is gone: the active bank verified, the plan, the repairs, the ports and
RTBASE. Without a bank that verifies, the package stays in step 2, answering configuration requests only. -/
def boot (s : State) (chip : ChipNo) (r : BootReport) (olds : List (Option (ChipNo × BitVec 4))) (old : Collier) (new : Chip) : State :=
  if !(r.activeOk || (old.pending && r.pendingOk)) then logEvent (s.setChip chip { new with stopped := true }) chip (collierEp chip) 0x04 0
  else
    let s := logReset (s.setChip chip new) chip old r
    let s := (r.retired ++ otherLanes r).foldl (fun (s : State) u => retireUnit s chip u) s
    let s := s.modChip chip fun c => { c with regs := alPut c.regs 0x620 (r.rtbase &&& 0x000FFFFFFFF80000) }
    trainPorts s chip r olds

/-- The other ends of a package's links. -/
def cabling (s : State) (chip : ChipNo) : List (Option (ChipNo × BitVec 4)) :=
  (List.range 12).map fun p => partnerOf s chip (BitVec.ofNat 4 p)

/-- A hot reset: ERRFAT, the event log, the firmware, the package's number and the units removed at earlier resets stay
(notes/assumptions/64.md). -/
def resetHot (s : State) (chip : ChipNo) (r : BootReport) : State :=
  let c := s.chip chip
  let olds := cabling s chip
  let kept := c.regs.filter fun r => isIn 0x230 0x23F r.1
  let new : Chip := { Chip.reset c.no with regs := kept, col := afterReset c.col r.pendingOk, errs := { Errs.reset with fatal := c.errs.fatal } }
  boot (clearWork s chip) chip r olds c.col new

/-- The reset meets what it meets: a free report (notes/assumptions/63.md). -/
def execHotReset (chip : ChipNo) (s : State) : Host.Outcome State Fault Refusal :=
  event s (.ok (resetHot { s with freeIx := s.freeIx + 1 } chip (Config.bootReport s.freeIx)))

/-- FABID names the package: its memory keeps its contents under the new number (R386, R440). -/
def renumber (s : State) (chip new : ChipNo) : State :=
  if new = chip then s
  else
    let lo := physKey chip 0
    let cells := s.mem.filter fun c => decide (lo ≤ c.1) && decide (c.1 < lo + 2 ^ 64)
    let at_ := physKey new 0
    let mem := (s.mem.dropRange lo (lo + 2 ^ 64)).dropRange at_ (at_ + 2 ^ 64)
    { s with mem := cells.foldl (fun m c => Memory.set m (c.1 - lo + at_) c.2) mem, chips := s.chips.filter fun c => c.1 != chip.toNat }

/-- A fundamental reset (R440). -/
def resetFull (s : State) (chip : ChipNo) (r : BootReport) : State :=
  let c := s.chip chip
  let olds := cabling s chip
  let s := renumber (clearWork s chip) chip r.fabid
  let col : Collier := { afterReset { c.col with retiredCl := [], spare := [], retiredCh := 0 } r.pendingOk with epoch := s.time, log := [], total := 0 }
  boot s r.fabid r olds { c.col with retiredCl := [] } { Chip.reset r.fabid with col := col }

def execFundamentalReset (chip : ChipNo) (r : BootReport) (s : State) : Host.Outcome State Fault Refusal :=
  event s (.ok (resetFull s chip r))

end Sys2Proof.Machine
end

