-- ==== Sys2Proof/Machine/Control.lean ====
section
/-! DEFINITION. Meanings: control transfers, signatures, END, NOP, GROW and SHRINK (R51-R57). -/
namespace Sys2Proof.Machine

/-! ### Transfers -/

/-- The target of the branch layout (R16). A sum outside the 51-bit line field gives a value that R11 rejects. -/
def branchTarget (pc : Word) (off : Word32) : Word :=
  let line : Int := (pc.extractLsb' 6 51).toNat + (off.extractLsb' 3 29).toInt
  let t : Word := BitVec.ofInt 64 (line * 64 + (off.extractLsb' 0 3).toNat)
  t

/-- Whether the sum of R16 gives a line address. -/
def branchInRange (pc : Word) (off : Word32) : Bool :=
  let line : Int := (pc.extractLsb' 6 51).toNat + (off.extractLsb' 3 29).toInt
  decide (0 ≤ line) && decide (line < 2 ^ 51)

/-- A transfer in the branch layout. -/
def branch (s : State) (off : Word32) : Res State :=
  let t := branchTarget s.cx.ipc off
  if branchInRange s.cx.ipc off then transfer s t
  else .error (fetchTrap (Trap.of Code.btarget) t none)

def execBr (off : Word32) (ms : Ms) (s : State) : Host.Outcome State Fault Refusal :=
  scalar (.br off ms) ms s fun s => branch s off
def execJmp (target : Word) (s : State) : Host.Outcome State Fault Refusal :=
  scalar (.jmp target) Ms.always s fun s => transfer s target
def execJmpi (a : GReg) (ms : Ms) (s : State) : Host.Outcome State Fault Refusal :=
  scalar (.jmpi a ms) ms s fun s => transfer s (s.g a)

/-- The link of a call (R52): the slot after it, or after its pair. -/
def linkOf (s : State) : Word := slotAfter s.cx

def execCall (d : GReg) (off : Word32) (ms : Ms) (s : State) : Host.Outcome State Fault Refusal :=
  scalar (.call d off ms) ms s fun s => do
    let t ← branch s off
    .ok (t.setG d (linkOf s))
def execCalli (d a : GReg) (ms : Ms) (s : State) : Host.Outcome State Fault Refusal :=
  scalar (.calli d a ms) ms s fun s => do
    let t ← transfer s (s.g a)
    .ok (t.setG d (linkOf s))
def execRet (a : GReg) (ms : Ms) (s : State) : Host.Outcome State Fault Refusal :=
  scalar (.ret a ms) ms s fun s => transfer s (s.g a)

/-- R53: a taken back-edge that fails its checks leaves the counter. -/
def execLoop (d : GReg) (off : Word32) (ms : Ms) (s : State) : Host.Outcome State Fault Refusal :=
  scalar (.loop d off ms) ms s fun s =>
    let n := s.g d - 1
    if n = 0 then .ok (s.setG d n)
    else do
      let t ← branch s off
      .ok (t.setG d n)

/-- R54: the block before it ends here; the new one opens. -/
def execBsig (crc : BitVec 16) (s : State) : Host.Outcome State Fault Refusal :=
  scalar (.bsig crc) Ms.always s fun s =>
    if sigBad s.cx.sig then .error (.trap { sigTrap with resume := some (slotAfter s.cx) })
    else .ok { s with cx := { s.cx with sig := some (crc, 0xFFFF) } }

/-! ### END -/

def queuesEmpty (c : Context) : Bool := c.q.toList.all List.isEmpty

/-- Elements of a context in a core's ricks, cords and statuses. -/
def ricksOfCtx (k : Core) (no : BitVec 2) : List Nat :=
  (k.ricks.toList.zipIdx.filter fun r => r.1.elems.any fun e => e.ctx == no).map (·.2)
def cordsOfCtx (s : State) (e : EP) (no : BitVec 2) : Bool :=
  (s.cords.any fun c => c.src == e && c.elems.any fun x => x.ctx == no) ||
  s.statuses.any fun c => c.src == e && c.ctxs.contains no

/-- Item 1 of R55: the vector stream has drained and every cord with an element of the context has returned. -/
def endWait (s : State) : Res Unit :=
  let c := s.cx
  if vecBusy c then stall s
  else match ricksOfCtx (s.core c.ep) c.no with
    | [] => if cordsOfCtx s c.ep c.no then stall s else .ok ()
    | is => stall (is.foldl (fun s i => sendRick s c.ep i .flush) s)

/-- Whether every record of a team is DONE. -/
def allDone (s : State) (t : Team) : Res Bool := do
  let w := devWho s (t.coreOf 0) t.chip t.id
  let sts ← t.recs.mapM fun a => readRec s w a
  .ok (sts.all fun r => r.st == stDone)

/-- R419: a service program whose last continuation has ended writes CVAL, and its core leaves service. -/
def serviceEnd (s : State) (t : Team) : State :=
  let s := putCword s t.chip t.part t.id t.cword t.cval
  let s := s.modCore (t.coreOf 0) fun k => { k with service := false, team := 0 }
  let s := s.modChip t.chip fun c => { c with svc := 3 }
  s.modTeam t.chip t.id fun t => { t with state := .complete }

/-- R55: the continuation ends and its record is DONE. -/
def endContinuation (s : State) : Res State := do
  let c := s.cx
  let w := devWho s c.ep c.chip c.team
  let s ← putState s w c.recA stDone
  let s ← leaveGang s c.chip c.team c.recA
  let s := { releaseCx s with note := .transfer }
  match s.team? c.chip c.team with
  | some t =>
    if t.service then
      let done ← allDone s t
      .ok (if done then serviceEnd s t else s)
    else .ok s
  | none => .ok s

/-- R55 says of an END that finds a queue non-empty only that it faults and has no effect. The model makes the check after the
wait and the flush of item 1, when the vector stream can no longer change a queue, as R104 words it for SSYNC (DESIGN CHOICE,
notes/assumptions/129.md). -/
def execEndC (ms : Ms) (s : State) : Host.Outcome State Fault Refusal :=
  scalar (.endC ms) ms s fun s => do
    let _ ← endWait s
    need (queuesEmpty s.cx) Code.qmisuse
    if sigBad s.cx.sig then .error (.trap sigTrap)
    else endContinuation s

def execNop (ms : Ms) (s : State) : Host.Outcome State Fault Refusal :=
  scalar (.nop ms) ms s fun s => .ok s

/-! ### The allotment (R56, R57) -/

/-- Zero the registers from `lo` up to `hi`. -/
def zeroG (g : Vector Word 128) (lo hi : Nat) : Vector Word 128 :=
  (List.range (hi - lo)).foldl (fun g i => g.setIfInBounds (lo + i) 0) g
def zeroV (v : Vector VWord 32) (lo hi : Nat) : Vector VWord 32 :=
  (List.range (hi - lo)).foldl (fun v i => v.setIfInBounds (lo + i) 0) v

def execGrow (d : PReg) (g : BitVec 5) (v : BitVec 3) (ms : Ms) (s : State) : Host.Outcome State Fault Refusal :=
  scalar (.grow d g v ms) ms s fun s => do
    let c := s.cx
    let k := s.core c.ep
    let gn := c.gGran + g.toNat
    let vn := c.vGran + v.toNat
    need (decide (gn ≤ 16) && decide (vn ≤ 8)) Code.allot
    if g.toNat ≤ k.freeG ∧ v.toNat ≤ k.freeV then
      let s := s.setCore c.ep { k with freeG := k.freeG - g.toNat, freeV := k.freeV - v.toNat }
      let s := { s with cx := { c with gGran := gn, vGran := vn, g := zeroG c.g (8 * c.gGran) (8 * gn),
                                       v := zeroV c.v (4 * c.vGran) (4 * vn) } }
      .ok (s.setP d true)
    else .ok (s.setP d false)

/-- Granules that SHRINK releases stay held until the team's next commit; a service core closes no superstep and frees
them at once (notes/assumptions/12.md). -/
def execShrink (g : BitVec 5) (v : BitVec 3) (ms : Ms) (s : State) : Host.Outcome State Fault Refusal :=
  scalar (.shrink g v ms) ms s fun s => do
    let c := s.cx
    let gn := c.gGran - g.toNat
    let vn := c.vGran - v.toNat
    need (decide (g.toNat + 2 ≤ c.gGran) && decide (v.toNat + 2 ≤ c.vGran)) Code.allot
    if v != 0 && vecBusy c then stall s
    else
      let s := s.modCore c.ep fun k =>
        if isService s c.ep then { k with freeG := k.freeG + g.toNat, freeV := k.freeV + v.toNat }
        else { k with heldG := k.heldG + g.toNat, heldV := k.heldV + v.toNat }
      .ok { s with cx := { c with gGran := gn, vGran := vn, g := zeroG c.g (8 * gn) (8 * c.gGran),
                                  v := zeroV c.v (4 * vn) (4 * c.vGran) } }

end Sys2Proof.Machine
end

