-- ==== Sys2Proof/Machine/FloatOps.lean ====
section
/-! DEFINITION. Meanings: scalar floating point (R58-R65). -/
namespace Sys2Proof.Machine

/-- The low bits of a register as a float type reads them (R58). -/
def fbits (ty : FloatTy) (x : Word) : Nat := x.toNat % 2 ^ (Ty.flt ty).width

/-- Write a float result, the higher bits zero, and OR its flags into FFLAGS (R58, R59). -/
def fput (s : State) (d : GReg) (r : Nat × Fl) : State := (s.setG d (BitVec.ofNat 64 r.1)).orFlags r.2

/-- R60, R61: the shape of a binary float instruction. -/
def fltBin (i : Instr) (ty : FloatTy) (d a : GReg) (b : BReg) (ms : Ms) (s : State) (f : Nat → Nat → Nat × Fl) :
    Host.Outcome State Fault Refusal :=
  scalar i ms s fun s => .ok (fput s d (f (fbits ty (s.g a)) (fbits ty (b.val s))))

def execFadd (ty : FloatTy) (d a : GReg) (b : BReg) (rnd : Rnd) (ms : Ms) (s : State) : Host.Outcome State Fault Refusal :=
  fltBin (.fadd ty d a b rnd ms) ty d a b ms s ((fspec ty).add rnd)
def execFsub (ty : FloatTy) (d a : GReg) (b : BReg) (rnd : Rnd) (ms : Ms) (s : State) : Host.Outcome State Fault Refusal :=
  fltBin (.fsub ty d a b rnd ms) ty d a b ms s ((fspec ty).sub rnd)
def execFmul (ty : FloatTy) (d a : GReg) (b : BReg) (rnd : Rnd) (ms : Ms) (s : State) : Host.Outcome State Fault Refusal :=
  fltBin (.fmul ty d a b rnd ms) ty d a b ms s ((fspec ty).mul rnd)
def execFfma (ty : FloatTy) (d a : GReg) (b : BReg) (rnd : Rnd) (ms : Ms) (s : State) : Host.Outcome State Fault Refusal :=
  scalar (.ffma ty d a b rnd ms) ms s fun s =>
    .ok (fput s d ((fspec ty).fma rnd (fbits ty (s.g a)) (fbits ty (b.val s)) (fbits ty (s.g d))))
def execFdiv (ty : FloatTy) (d a : GReg) (b : BReg) (rnd : Rnd) (ms : Ms) (s : State) : Host.Outcome State Fault Refusal :=
  fltBin (.fdiv ty d a b rnd ms) ty d a b ms s ((fspec ty).div rnd)
def execFsqrt (ty : FloatTy) (d a : GReg) (rnd : Rnd) (ms : Ms) (s : State) : Host.Outcome State Fault Refusal :=
  scalar (.fsqrt ty d a rnd ms) ms s fun s => .ok (fput s d ((fspec ty).sqrt rnd (fbits ty (s.g a))))
def execFmin (ty : FloatTy) (d a : GReg) (b : BReg) (ms : Ms) (s : State) : Host.Outcome State Fault Refusal :=
  fltBin (.fmin ty d a b ms) ty d a b ms s ((fspec ty).minmax false)
def execFmax (ty : FloatTy) (d a : GReg) (b : BReg) (ms : Ms) (s : State) : Host.Outcome State Fault Refusal :=
  fltBin (.fmax ty d a b ms) ty d a b ms s ((fspec ty).minmax true)
def execFcmp (c : FCond) (ty : FloatTy) (d : PReg) (a : GReg) (b : BReg) (ms : Ms) (s : State) :
    Host.Outcome State Fault Refusal :=
  scalar (.fcmp c ty d a b ms) ms s fun s =>
    let r := (fspec ty).cmp c (fbits ty (s.g a)) (fbits ty (b.val s))
    .ok ((s.setP d r.1).orFlags r.2)

/-- The exact value of an element of a type. -/
def tyVal (t : Ty) (x : Nat) : FV :=
  match t with
  | .int i => fvOfInt (if i.signed then sintOf i.bits x else (x % 2 ^ i.bits : Nat))
  | .flt f => (fspec f).decode x

/-- Convert a value to a type (R63): the element's bits and the flags. -/
def tyOf (t : Ty) (rnd : Rnd) (v : FV) : Nat × Fl :=
  match t with
  | .int i => let r := fvToInt i.bits i.signed rnd v; (natOfInt i.bits r.1, r.2)
  | .flt f => (fspec f).ofFV rnd v

def execFcvt (d a : GReg) (f : FcvtForm) (ms : Ms) (s : State) : Host.Outcome State Fault Refusal :=
  scalar (.fcvt d a f ms) ms s fun s =>
    let x := (s.g a).toNat
    match f with
    | .conv dst src rnd =>
      let r := tyOf dst rnd (tyVal src (x % 2 ^ src.width))
      .ok ((s.setG d (extend dst.width dst.isSigned r.1)).orFlags r.2)
    | .split p =>
      let r := splitParts (x % 2 ^ 32)
      let y := match p with
        | .hi => r.1.1
        | .mid => r.1.2.1
        | .lo => r.1.2.2
      .ok (fput s d (y, r.2))

def execFclass (ty : FloatTy) (d a : GReg) (ms : Ms) (s : State) : Host.Outcome State Fault Refusal :=
  scalar (.fclass ty d a ms) ms s fun s => .ok (s.setG d (BitVec.ofNat 64 ((fspec ty).classify (fbits ty (s.g a)))))

/-- FSGN sets no flag (R65). -/
def execFsgn (op : SgnOp) (ty : FloatTy) (d a : GReg) (b : BReg) (ms : Ms) (s : State) : Host.Outcome State Fault Refusal :=
  fltBin (.fsgn op ty d a b ms) ty d a b ms s fun x y => ((fspec ty).sgn op x y, 0)

end Sys2Proof.Machine
end

