-- ==== Sys2Proof/Machine/Quant.lean ====
section
/-! DEFINITION. Meanings: statistics records (R292-R297) and the quantising instructions (R298-R303). -/
namespace Sys2Proof.Machine

/-! ### Record indices and the scale rule -/

/-- R292: a record index within NREC. -/
def recordIndex (s : State) (b : Word) : Res (Team × Nat) :=
  match s.myTeam with
  | some t => if b.toNat < t.nrec ∧ b.toNat < 2 ^ 16 then .ok (t, b.toNat) else fail Code.space
  | none => fail Code.space

/-- Floor(Log2(F / A)) of two exact positive values. -/
def ratioLog2 (fm : Nat) (fe : Int) (am : Nat) (ae : Int) : Int :=
  let k : Int := (log2 fm : Int) - log2 am
  (if magGt am k fm 0 then k - 1 else k) + fe - ae

/-- The largest finite value F of a target (R297). -/
def targetMax (tfmt : Nat) : Nat × Int :=
  match fmtKind tfmt with
  | .flt f => f.maxVal
  | .int w _ => (2 ^ (w - 1) - 1, 0)
  | .sbp _ => (127, 0)
  | .bad => (0, 0)

/-- The scale rule (R296) on an amax that is not a NaN. -/
def scaleCode (tfmt : Nat) (a : FV) : Nat :=
  match a with
  | .fin _ m e =>
    if m = 0 then 0
    else
      let f := targetMax tfmt
      let x := ratioLog2 f.1 f.2 m e
      let x : Int := if x < -127 then -127 else if 127 < x then 127 else x
      (127 - x).toNat
  | _ => 254

/-- The committed amax as a value, and whether the record is empty (R295, R296). -/
def committedAmax (s : State) (t : Team) (i : Nat) : FV × Bool :=
  let h := committed s t i
  (fp32.decode h.amax.toNat, h.count == 0)

/-! ### TSRD, TSCLR, TSSCALE -/

/-- The field that SEL names in a half, or in the record's configuration (R294). -/
def statField (s : State) (t : Team) (i : Nat) (h : Half') (sel : Nat) : Nat :=
  let rd (off n : Nat) : Nat := leNat (s.mem.getBytes (t.recordKey i off) n)
  if sel < 32 then (h.bins[sel]?).getD 0
  else match sel with
    | 0x20 => h.amax.toNat
    | 0x21 => h.count
    | 0x22 => h.nans
    | 0x23 => h.infs
    | 0x24 => h.sats
    | 0x25 => rd 80 4
    | 0x26 => rd 78 2
    | _ => rd 84 1 % 32

/-- R294: whether updates of the core's own earlier writes, copies and drains may still be on their way. -/
def statsInFlight (s : State) (e : EP) : Bool :=
  let k := s.core e
  (s.updates.any fun u => u.src == e) ||
  (k.engine.any fun o => match o.kind with | .cpy .. => true | _ => false) ||
  k.mx.queue.any fun m => (m.cmd.extractLsb' 0 8).toNat == 4

def execTsrd (wrk : Bool) (d : GReg) (b : BReg) (sel : BitVec 6) (ms : Ms) (s : State) : Host.Outcome State Fault Refusal :=
  scalar (.tsrd wrk d b sel ms) ms s fun s => do
    let (t, i) ← recordIndex s (b.val s)
    if wrk then do
      vecDone s
      if statsInFlight s s.cx.ep then stall s
      else .ok (s.setG d (BitVec.ofNat 64 (statField s t i ((t.statRec i).work.getD halfEmpty) sel.toNat)))
    else .ok (s.setG d (BitVec.ofNat 64 (statField s t i (committed s t i) sel.toNat)))

/-- The clear that stands when another reaches the record (R295): the highest rank's, and of one rank the last. -/
def laterClear (old : Option (Word × Nat × Nat)) (cfg : Word) (rank : Nat) : Option (Word × Nat × Nat) :=
  match old with
  | some (c, r, n) => if rank < r then some (c, r, n) else some (cfg, rank, n + 1)
  | none => some (cfg, rank, 0)

/-- Set or clear CLRPEND in a record's STATUS (R314). -/
def setClrPend (s : State) (t : Team) (i : Nat) (v : Bool) : State :=
  let b := s.mem.get (t.recordKey i 85)
  putRecBytes s t i 85 [if v then b ||| 1 else b &&& 0xFE]

def execTsclr (a : GReg) (b : BReg) (ms : Ms) (s : State) : Host.Outcome State Fault Refusal :=
  scalar (.tsclr a b ms) ms s fun s => do
    let (t, i) ← recordIndex s (b.val s)
    let cfg := s.g a
    need (cfg.extractLsb' 21 43 == 0) Code.space
    let s := s.modTeam t.chip t.id fun t =>
      let r := t.statRec i
      t.setStat { r with clr := laterClear r.clr cfg s.cx.rank }
    .ok (setClrPend s t i true)

def execTsscale (d : GReg) (b : BReg) (tfmt : BitVec 5) (ms : Ms) (s : State) : Host.Outcome State Fault Refusal :=
  scalar (.tsscale d b tfmt ms) ms s fun s => do
    let (t, i) ← recordIndex s (b.val s)
    need (decide (tfmt.toNat < 0x18)) Code.fmt
    let a := committedAmax s t i
    .ok (s.setG d (if a.2 then 0xFF else BitVec.ofNat 64 (scaleCode tfmt.toNat a.1)))

/-! ### The checks of R299 -/

/-- A range that a quantising instruction reads or writes. -/
structure QuantRange where
  nd : Need
  align : Nat
  p : Word
  len : Nat
  deriving DecidableEq, Repr

def QuantRange.marked (r : QuantRange) (x : Res α) : Res α := if r.nd.w then asWrite x else x

/-- R299's first step on one range: spaces 0-4, LIN, the vector stream's rights, RANK. -/
def QuantRange.space (s : State) (r : QuantRange) : Res Unit := r.marked do
  needAt (decide (ptrSpace r.p ≤ 4)) Code.space r.p
  spaceCheck s (ctxWho s true) r.nd .lin false r.p r.len

/-- ALIGN, which comes after SPACE and RANK. -/
def QuantRange.aligned (r : QuantRange) : Res Unit := r.marked (needAt (decide (r.p.toNat % r.align = 0)) Code.align r.p)

/-- The translation of every byte. -/
def QuantRange.find (s : State) (r : QuantRange) : Res (List Place) :=
  placesFound s (ctxWho s true) r.nd .lin r.align false r.p r.len

/-- The last step: its class, and an error that nothing corrects. -/
def QuantRange.sound (s : State) (r : QuantRange) (pls : List Place) : Res Unit := placesSound s (ctxWho s true) r.nd r.p pls

/-- Where a range begins: a byte of a buffer, or a virtual address. -/
def QuantRange.start (s : State) (r : QuantRange) : Nat :=
  if ptrSpace r.p = 0 then 2 ^ 80 + r.p.toNat
  else
    let x := route s (ctxWho s true) .lin r.p
    bufKey (x.1.getD s.cx.ep) (ptrSpace r.p) x.2

/-- Whether two ranges have an address in common. -/
def QuantRange.meets (s : State) (a b : QuantRange) : Bool :=
  decide (a.start s < b.start s + b.len) && decide (b.start s < a.start s + a.len)

/-- R273, R299: whether a byte's recorded format agrees with the instruction's. `prnd` is compared where it counts. -/
def fmtAgrees (s : State) (fmt geom : Nat) (prnd : Option Bool) (pl : Place) : Bool :=
  let modeOk (m : Bool) : Bool := match prnd with | some p => p == m | none => true
  if isBufKey pl.key then
    let sp := bufKeySpace pl.key
    if sp = 2 ∨ sp = 3 then
      let r := regionFmt s (bufKeyEp pl.key) sp (bufKeyOff pl.key)
      r.1 == 0x1F || (r.1 == fmt && (!isSbp fmt || modeOk r.2.2))
    else true
  else cwFmt pl.cw == fmt && (!isSbp fmt || (cwGeom pl.cw == geom && modeOk (cwPrnd pl.cw)))

/-- Whether two ranges have a byte in common. -/
def overlap (a b : List Place) : Bool := a.any fun x => b.any fun y => x.key == y.key

/-- What a quantising instruction has checked: source, destination, code array. -/
structure QuantArgs where
  src : ElemRange
  dst : ElemRange
  codes : List Place
  deriving DecidableEq, Repr

/-- All checks of R299 before any read or write, each step on every range before the next step. `codeW` is none without a code array, else whether it is written. -/
def quantCheck (s : State) (a : GReg) (sf df geom lb : Nat) (prnd : Option Bool) (codeW : Option Bool) : Res QuantArgs := do
  let dst := s.g a
  let src := s.g (grpReg a 1)
  let n := (s.g (grpReg a 2)).toNat
  let blk := 512 * 2 ^ geom
  needAt (decide (n ≤ 65536)) Code.space dst
  need (decide (sf < 0x18) && decide (df < 0x18)) Code.fmt
  if n = 0 then
    .ok { src := { fmt := sf, blk := blk, n := 0, pls := [] }, dst := { fmt := df, blk := blk, n := 0, pls := [] }, codes := [] }
  else do
    need (!(isSbp sf || isSbp df) || n % blk == 0) Code.illop
    let rs : QuantRange := { nd := .read, align := elemAlign sf, p := src, len := elemBytes sf n }
    let rd : QuantRange := { nd := .write, align := elemAlign df, p := dst, len := elemBytes df n }
    let nb := (n + 32 * 2 ^ lb - 1) / (32 * 2 ^ lb)
    let rc : List QuantRange := codeW.toList.map fun w =>
      { nd := if w then Need.write else Need.read, align := 1, p := s.g (grpReg a 3), len := nb }
    (rs :: rd :: rc).forM fun r => r.space s
    needAt (!rs.meets s rd && rc.all fun r => !rs.meets s r && !rd.meets s r) Code.space dst
    (rs :: rd :: rc).forM QuantRange.aligned
    let w := ctxWho s true
    let sp ← rs.find s
    let dp ← meetingAt w sp (rd.find s)
    let cp ← match rc with
      | r :: _ => meetingAt w (sp ++ dp) (r.find s)
      | [] => (.ok [] : Res (List Place))
    let all := sp ++ dp ++ cp
    meetingAt w all (do
      rs.sound s sp
      rd.sound s dp
      rc.forM fun r => r.sound s cp
      needAt (!overlap sp dp && !overlap sp cp && !overlap dp cp) Code.space dst
      needAt (sp.all (fmtAgrees s sf geom prnd)) Code.fmt src
      needAt (dp.all (fmtAgrees s df geom none)) Code.fmt dst)
    let _ ← awaitRicks s s.cx.ep s.cx.recA (all.map (·.dest)).eraseDups
    .ok { src := { fmt := sf, blk := blk, n := n, pls := sp }, dst := { fmt := df, blk := blk, n := n, pls := dp }, codes := cp }

/-! ### The element rules -/

/-- R300's body for one element; `zero` when the amax is 0 and the record is not empty. -/
def quantElem (tfmt : Nat) (mode : Rnd) (e : Int) (zero : Bool) (x : FV) : QElem :=
  match x with
  | .nan _ _ =>
    let r := fmtOf tfmt mode x
    { code := r.1, flags := r.2, s := false, sat := false, asNan := !(fmtVal tfmt false r.1).isNan }
  | _ =>
    if zero then
      let nz := match x with | .fin _ m _ => m != 0 | _ => true
      { code := 0, flags := 0, s := nz, sat := false, asNan := false }
    else
      let y : FV := match x with | .fin n m k => .fin n m (k + e) | v => v
      let isInf := match x with | .inf _ => true | _ => false
      match fmtKind tfmt with
      | .int w _ =>
        let r := fvToInt 512 true mode y
        let lim : Int := 2 ^ (w - 1) - 1
        if r.1 < -lim then { code := natOfInt w (-lim), flags := flNV, s := true, sat := true, asNan := false }
        else if lim < r.1 then { code := natOfInt w lim, flags := flNV, s := true, sat := true, asNan := false }
        else { code := natOfInt w r.1, flags := r.2, s := false, sat := false, asNan := false }
      | _ =>
        let r := fmtOf tfmt mode y
        let beyond := isInf || r.2 &&& (flOF ||| flNV) != 0
        let toInf := match fmtVal tfmt false r.1 with | .inf _ => true | _ => false
        { code := r.1, flags := r.2, s := beyond, sat := beyond && !toInf, asNan := false }

/-- R303 for one element under a scale code. -/
def dequantElem (f : FSpec) (tfmt : Nat) (prnd : Bool) (mode : Rnd) (c : Nat) (q : Nat) : QElem :=
  let x : FV := match fmtVal tfmt prnd q with | .fin n m k => .fin n m (k + ((c : Int) - 127)) | v => v
  let r := f.ofFV mode x
  let toInf := match f.decode r.1 with | .inf _ => true | _ => false
  { code := r.1, flags := r.2, s := false, sat := r.2 &&& flOF != 0 && !toInf, asNan := false }

/-- What an element contributes, if its page is bound (R316). -/
def elemStat (r : ElemRange) (i : Nat) (x : QElem) : Option StatEl :=
  match r.pls[elemAt r.fmt r.blk i]? with
  | some pl =>
    if isBufKey pl.key || cwRidx pl.cw == 0xFFFF then none
    else
      let v : FV := if isSbp r.fmt then fvOfInt (sintOf 8 x.code) else fmtVal r.fmt false x.code
      some { idx := cwRidx pl.cw, v := v, sat := x.sat, asNan := x.asNan }
  | none => none

/-- Write the elements of a destination with their statistics, and OR their flags (R299). -/
def putElems (s : State) (r : ElemRange) (xs : List QElem) : State :=
  let w := ctxWho s true
  let s := touch s w r.pls
  let last : Byte := (r.pls.getLast?.map (readByte s w)).getD 0
  let bs := packElems r.fmt r.blk (xs.map fun x => x.code) last
  let room := w.service || clampRoom s w r.pls
  let s := writePlaces s w s.cx.no s.cx.ipc r.pls bs
  let s := if room then sendStats s w.chip w.team w.ep s.cx.ipc (xs.zipIdx.filterMap fun q => elemStat r q.2 q.1) else s
  s.orFlags (xs.foldl (fun f x => f ||| x.flags) 0)

/-- The elements of a source. -/
def readElems (s : State) (r : ElemRange) : List Nat := unpackElems r.fmt r.blk r.n (readPlaces s (ctxWho s true) r.pls)

/-- The format code of a quantising instruction's float type. -/
def QTy.fmt : QTy → Nat
  | .f32 => 1
  | .bf16 => 3
  | .f16 => 4

def QTy.spec : QTy → FSpec
  | .f32 => fp32
  | .bf16 => bf16
  | .f16 => fp16

def satCount (xs : List QElem) : Nat :=
  let n := (xs.filter fun x => x.s).length
  if n < 2 ^ 32 then n else 2 ^ 32 - 1

/-! ### QNT, QNTL, DQNT -/

/-- The source, and the codes that are read, have been read. -/
def QuantArgs.seen (x : QuantArgs) (s : State) (codes : Bool) : State :=
  touch s (ctxWho s true) (if codes then x.src.pls ++ x.codes else x.src.pls)

/-- R301: RESCALE is raised after the last write; the record arrives with cause 6. -/
def raiseRescale (s : State) (count : Nat) : Res State :=
  takeFault s { Trap.of Code.rescale with cause := some 6, extra0 := BitVec.ofNat 64 count }

def execQnt (ty : QTy) (d a : GReg) (b : BReg) (rnd : Rnd) (tfmt : BitVec 5) (trap : Bool) (geom : BitVec 2) (ms : Ms) (s : State) :
    Host.Outcome State Fault Refusal :=
  scalar (.qnt ty d a b rnd tfmt trap geom ms) ms s fun s => do
    vecDone s
    let (t, i) ← recordIndex s (b.val s)
    let am := committedAmax s t i
    let x ← quantCheck s a (QTy.fmt ty) tfmt.toNat geom.toNat 0 none none
    let c := if am.2 then 127 else scaleCode tfmt.toNat am.1
    let zero := !am.2 && c == 0 && (match am.1 with | .fin _ m _ => m == 0 | _ => false)
    let out := (readElems s x.src).map fun q => quantElem tfmt.toNat rnd (127 - (c : Int)) zero (fmtVal (QTy.fmt ty) false q)
    let s := x.seen s false
    let s := if x.dst.n = 0 then s else putElems s x.dst out
    let n := satCount out
    let s := s.setG d (BitVec.ofNat 64 (n * 2 ^ 32 + c))
    if trap && decide (statField s t i halfEmpty 0x26 < (out.filter fun e => e.s).length) then raiseRescale s n else .ok s

/-- The largest magnitude of the elements that are not NaNs (R302). -/
def blockAmax (xs : List FV) : FV :=
  xs.foldl (fun a x =>
    match a, x with
    | .inf _, _ => a
    | _, .nan _ _ => a
    | _, .inf _ => .inf false
    | .fin _ m e, .fin _ n f => if magGt n f m e then .fin false n f else a
    | _, _ => a) (.fin false 0 0)

/-- Consecutive blocks of a list. -/
def blocksOf (n : Nat) : Nat → List α → List (List α)
  | 0, _ => []
  | _, [] => []
  | f + 1, xs => xs.take n :: blocksOf n f (xs.drop n)

def execQntl (ty : QTy) (d a : GReg) (rnd : Rnd) (tfmt : BitVec 5) (geom : BitVec 2) (lb : BitVec 2) (ms : Ms) (s : State) :
    Host.Outcome State Fault Refusal :=
  scalar (.qntl ty d a rnd tfmt geom lb ms) ms s fun s => do
    vecDone s
    let x ← quantCheck s a (QTy.fmt ty) tfmt.toNat geom.toNat lb.toNat none (some true)
    let vals := (readElems s x.src).map (fmtVal (QTy.fmt ty) false)
    let blocks := blocksOf (32 * 2 ^ lb.toNat) vals.length vals
    let codes := blocks.map fun bl => scaleCode tfmt.toNat (blockAmax bl)
    let out := ((blocks.zip codes).map fun q =>
      let zero := match blockAmax q.1 with | .fin _ m _ => m == 0 | _ => false
      q.1.map (quantElem tfmt.toNat rnd (127 - (q.2 : Int)) zero)).flatten
    let s := x.seen s false
    let s := if x.dst.n = 0 then s else putElems s x.dst out
    let w := ctxWho s true
    let s := if x.dst.n = 0 then s
      else storePlaces s w s.cx.no s.cx.ipc x.codes (codes.map fun c => BitVec.ofNat 8 c)
    .ok (s.setG d (BitVec.ofNat 64 (satCount out * 2 ^ 32)))

def execDqnt (ty : QTy) (blk : Bool) (a : GReg) (b : BReg) (rnd : Rnd) (tfmt : BitVec 5) (geom : BitVec 2) (lb : BitVec 2)
    (prnd : Bool) (ms : Ms) (s : State) : Host.Outcome State Fault Refusal :=
  scalar (.dqnt ty blk a b rnd tfmt geom lb prnd ms) ms s fun s => do
    vecDone s
    let one := b.val s
    need (blk || decide (one.toNat < 256)) Code.illop
    let x ← quantCheck s a tfmt.toNat (QTy.fmt ty) geom.toNat lb.toNat (some prnd) (if blk then some false else none)
    let codes : List Nat := if blk then (readPlaces s (ctxWho s true) x.codes).map fun c => c.toNat else [one.toNat]
    need (x.dst.n == 0 || !codes.contains 255) Code.fmt
    let per := if blk then 32 * 2 ^ lb.toNat else 65536
    let out := (readElems s x.src).zipIdx.map fun q =>
      dequantElem (QTy.spec ty) tfmt.toNat prnd rnd ((codes[q.2 / per]?).getD 127) q.1
    let s := x.seen s true
    .ok (if x.dst.n = 0 then s else putElems s x.dst out)

end Sys2Proof.Machine
end

