-- ==== Sys2Proof/Machine/System.lean ====
section
/-! DEFINITION. Meanings: the system instructions: TRAP and BRK (R376), FMSG (R377), FREPLY with the replies (R378, R145,
R206, R351), SRD and SWR (R379), TLBI and shoot-downs (R380, R348), IDENT (R381), HALT (R382). -/
namespace Sys2Proof.Machine

/-! ### TRAP and BRK (R376) -/

/-- The fault of TRAP or BRK: the record's PC names the slot that follows. -/
def softTrap (s : State) (c : BitVec 16) (x : BitVec 16) : Stop :=
  .trap { Trap.of c with resume := some (nextSlot s.cx.ipc), extra0 := x.setWidth 64 }

def execTrap (code : BitVec 16) (ms : Ms) (s : State) : Host.Outcome State Fault Refusal :=
  scalar (.trap code ms) ms s fun s => .error (softTrap s Code.trapi code)

def execBrk (ms : Ms) (s : State) : Host.Outcome State Fault Refusal :=
  scalar (.brk ms) ms s fun s => .error (softTrap s Code.brk 0)

/-! ### The mailbox (R377) -/

def execFmsg (nb : Bool) (d : GReg) (ms : Ms) (s : State) : Host.Outcome State Fault Refusal :=
  scalar (.fmsg nb d ms) ms s fun s => do
    need s.cx.gang.isNone Code.group
    match takeMail s s.cx.ep with
    | some (m, s) => .ok (s.setGroup d m.words)
    | none =>
      if nb then .ok (s.setGroup d (List.replicate 8 0))
      else if epUnit s.cx.ep = 1088 then stall s
      else do
        suspendOrder s
        suspendFor s stWaitQueue 0 (.mailbox d)

/-! ### Replies (R145, R206, R351) -/

/-- A message as a reply names it. -/
structure Reply where
  code : Nat
  cause : Nat
  fault : BitVec 16
  ctx : BitVec 2
  flags : Byte
  rank : Nat
  aborts : Nat
  pc : Word
  recA : Word
  ssn : Word32
  team : Word32
  src : EP
  seq : BitVec 16
  deriving DecidableEq, Repr

/-- The message in eight words, with a reply word (R349, R378). -/
def replyOf (ws : List Word) (b : Word) : Reply :=
  let w (i : Nat) : Nat := ((ws[i]?).getD 0).toNat
  { code := b.toNat % 4, cause := bits b.toNat 8 8, fault := BitVec.ofNat 16 (w 0), ctx := BitVec.ofNat 2 (bits (w 0) 16 2),
    flags := BitVec.ofNat 8 (bits (w 0) 24 8), rank := bits (w 0) 32 12, aborts := bits (w 0) 48 16, pc := BitVec.ofNat 64 (w 1),
    recA := BitVec.ofNat 64 (w 3), ssn := BitVec.ofNat 32 (w 4), team := BitVec.ofNat 32 (w 4 / 2 ^ 32), src := BitVec.ofNat 32 (w 5),
    seq := BitVec.ofNat 16 (bits (w 5) 32 16) }

/-- The cause that a VOTE-ABORT enters (R200): 0x01-0x08, 0x0A and 0x0B as they are, any other as 0x0B. -/
def voteCause (c : Nat) : Nat := if (1 ≤ c ∧ c ≤ 8) ∨ c = 10 ∨ c = 11 then c else 11

def Reply.vote (r : Reply) (rank : Nat) (pc : Word) : Vote := { cause := voteCause r.cause, pc := pc, rank := rank, ctx := r.ctx }

/-- The first byte and the end of the page of an address. -/
def pageSpan (s : State) (chip : ChipNo) (part va : Nat) : Nat × Nat :=
  let sz : Nat := match walk s chip part va with
    | .ok l => 2 ^ pageShift l.ps
    | .error _ => 4096
  (va / sz * sz, va / sz * sz + sz)

/-- What a RETRY discards before anything goes on (R351): the page of a fault address in the cluster TLBs of the faulting core's
group, in the die's TLB, on its path in the walk cache, and its lines in the L1s of the group. -/
def retryPage (s : State) (e : EP) (team : Word32) (addr : Word) : State :=
  if ptrSpace addr != 0 then s
  else
    let chip := epChip e
    let part := partFor s chip team e
    let r := pageSpan s chip part (addr.toNat % 2 ^ 57)
    let die := (epDie e).toNat
    let homes := (if isCompute e then (List.range 4).map fun i => 64 * die + clusterIx e / 4 * 4 + i else []) ++ [128 + die]
    let s := s.modChip chip fun c => dropWalks (homes.foldl (fun c h => dropTlb c h part r.1 r.2) c) die part r.1 r.2
    let inGroup (u : EP) : Bool := u == e || (isCompute e && isCompute u && epChip u == chip && groupOf u == groupOf e)
    { s with cores := s.cores.map fun (k : Nat × Core) => if inGroup (BitVec.ofNat 32 k.1) then (k.1, dropL1 k.2 part r.1 r.2) else k }

/-- A record parked for a fault of the message's superstep and attempt. -/
def parkedFor (s : State) (r : Reply) : Option (Waiter × Word × Word × Bool × Bool) :=
  (s.waiters.find? fun x => x.chip == epChip r.src && x.team == r.team && x.recA == r.recA).bind fun x =>
    match x.kind with
    | .parked ssn att pc addr votes voted =>
      if ssn = r.ssn ∧ att % 2 ^ 16 = r.aborts then some (x, pc, addr, votes, voted) else none
    | _ => none

/-- A reply to the message of a parked record (R145). RESUME and RETRY have no effect on a record whose fault has voted, nor on one
that a VOTE-ABORT has reached in the same attempt (DESIGN CHOICE, notes/assumptions/122.md). A VOTE-ABORT to a RESCALE adds its
cause as R145, which names RESCALE among these faults, says (DEDUCED, notes/assumptions/113.md). -/
def replyParked (s : State) (r : Reply) (t : Team) (x : Waiter) (pc addr : Word) (votes voted : Bool) : Res State :=
  match r.code with
  | 0 => if votes || voted then .ok s else readyParked s x.chip x.team x.recA
  | 1 => if votes || voted then .ok s else readyParked (retryPage s r.src x.team addr) x.chip x.team x.recA
  | 2 => .ok (terminateAll s t r.fault.toNat false)
  | _ =>
    let f (y : Waiter) : Waiter :=
      if y.chip == x.chip && y.team == x.team && y.recA == x.recA then
        match y.kind with
        | .parked ssn att p a v _ => { y with kind := .parked ssn att p a v true }
        | _ => y
      else y
    .ok (addVote { s with waiters := s.waiters.map f } t.chip t.id (r.vote r.rank pc))

/-- The matrix command, engine operation or walker of a core that a message stopped at: it goes on, after a RETRY with the page
of its fault address discarded, or is abandoned. -/
def engineReply (s0 : State) (r : Reply) (goOn : Bool) : State :=
  let k := s0.core r.src
  let at_ : Word :=
    match k.engine.find? fun o => o.stuck && o.recA == r.recA && o.pc == r.pc with
    | some o => o.at_
    | none => if k.walker.stuck && k.walker.recA == r.recA && k.walker.pc == r.pc then k.walker.at_ else ((k.mx.queue.head?).map fun m => m.at_).getD 0
  let s := if r.code = 1 then retryPage s0 r.src r.team at_ else s0
  let k := s.core r.src
  let headHit : Bool := match k.mx.queue with
    | x :: _ => x.stuck && x.recA == r.recA && x.pc == r.pc && cmdSeq x.cmd == r.seq
    | [] => false
  match k.engine.find? fun o => o.stuck && o.recA == r.recA && o.pc == r.pc with
  | some o =>
    if headHit then (if goOn then setHead s r.src fun x => { x with stuck := false } else popHead s r.src)
    else
      let keep (p : EngineOp) : Option EngineOp := if p.id = o.id then (if goOn then some { p with stuck := false } else none) else some p
      s.setCore r.src { k with engine := k.engine.filterMap keep }
  | none =>
    if headHit then (if goOn then setHead s r.src fun x => { x with stuck := false } else popHead s r.src)
    else if k.walker.stuck && k.walker.recA == r.recA && k.walker.pc == r.pc then
      setWalker s r.src fun w => { w with stuck := false, state := if goOn then w.state else .error }
    else s

/-- A reply to a message that parked no record: matched against the team's superstep and attempt count. A reply to a notice has no
effect (R173); one to an ABFT report finds nothing that it stopped (R420). -/
def replyLoose (s : State) (r : Reply) (t : Team) : Res State :=
  if r.flags.getLsbD 0 || t.ssn != r.ssn || t.attempts % 2 ^ 16 != r.aborts then .ok s
  else
    let eng := r.flags.getLsbD 1 && r.fault != Code.abft
    match r.code with
    | 0 | 1 => .ok (if eng then engineReply s r true else s)
    | 2 => .ok (terminateAll s t r.fault.toNat false)
    | _ =>
      let s := if eng then engineReply s r false else s
      .ok (addVote s t.chip t.id (r.vote r.rank r.pc))

/-- A reply: to a team that is no longer live it is discarded. -/
def applyReply (s : State) (r : Reply) : Res State :=
  match s.liveTeam? (epChip r.src) r.team with
  | none => .ok s
  | some t =>
    if (r.flags &&& 7) != 0 then replyLoose s r t
    else match parkedFor s r with
      | some (x, pc, addr, votes, voted) => replyParked s r t x pc addr votes voted
      | none => .ok s

def execFreply (a : GReg) (b : BReg) (ms : Ms) (s : State) : Host.Outcome State Fault Refusal :=
  scalar (.freply a b ms) ms s fun s => do
    let w := b.val s
    need ((w &&& ~~~0xFF03) == 0 && (w.extractLsb' 0 2 == 3 || w.extractLsb' 8 8 == 0)) Code.illop
    let r := replyOf (s.group a 8) w
    let s ← release s
    applyReply s r

/-! ### System registers (R379); FFLAGS is read and cleared once the earlier vector instructions' flags are in it (R80) -/

def execSrd (d : GReg) (n : BitVec 12) (ms : Ms) (s : State) : Host.Outcome State Fault Refusal :=
  scalar (.srd d n ms) ms s fun s => do
    need (srAccess n.toNat).isSome Code.illsr
    if n == 0x10 && flagsDue s.cx then stall s
    else .ok (s.setG d (BitVec.ofNat 64 (readReg s n.toNat)))

/-- R290: a write to the matrix registers waits for the commands queued before it. -/
def mxOrder (s : State) (n : Nat) : Res Unit :=
  if isIn 0x300 0x3FF n && !(s.core s.cx.ep).mx.queue.isEmpty then stall s else .ok ()

/-- What SWR writes: FFLAGS is cleared where a one is written (R59), the repetition's registers are read-only (R108). -/
def writeSr (s : State) (n : Nat) (v : Word) : Res State :=
  if n = 0x10 then .ok { s with cx := { s.cx with fflags := s.cx.fflags &&& ~~~(v.setWidth 5) } }
  else writeReg s s.cx.ep n v

def execSwr (a : GReg) (n : BitVec 12) (ms : Ms) (s : State) : Host.Outcome State Fault Refusal :=
  scalar (.swr a n ms) ms s fun s => do
    need (srAccess n.toNat).isSome Code.illsr
    mxOrder s n.toNat
    if n == 0x10 && flagsDue s.cx then stall s else
    writeSr s n.toNat (s.g a)

/-! ### Shoot-downs (R347, R348, R380) -/

/-- The range of a TLBI: every page it intersects. -/
def tlbiRange (s : State) (chip : ChipNo) (part : Nat) (all : Bool) (a n : Nat) : Nat × Nat :=
  if all then (0, 2 ^ 57) else ((pageSpan s chip part a).1, (pageSpan s chip part (a + n - 1)).2)

/-- The shoot-down of a TLBI: it starts, is waited for, and is done once every node has acknowledged. -/
def shootDown (s : State) (part : Nat) (r : Nat × Nat) : Res State :=
  let c := s.cx
  let chip := epChip c.ep
  let mine (x : Shoot) : Bool := x.ep == c.ep && x.ctx == c.no
  match (s.chip chip).shoots.find? fun x => mine x && x.part == part && x.lo == r.1 && x.hi == r.2 with
  | some x => if x.nodes.isEmpty then .ok (dropShoot s chip x.id) else stall s
  | none =>
    let s := s.modChip chip fun k => { k with shoots := k.shoots.filter fun y => !mine y }
    stall (startShoot s chip c.ep c.no part r.1 r.2).2

def execTlbi (all : Bool) (part : BitVec 3) (a : GReg) (b : BReg) (ms : Ms) (s : State) : Host.Outcome State Fault Refusal :=
  scalar (.tlbi all part a b ms) ms s fun s => do
    let lo := (s.g a).toNat
    let n := (b.val s).toNat
    need (all || (decide (lo < 2 ^ 57) && decide (lo + n ≤ 2 ^ 57))) Code.illop
    if !all && n == 0 then .ok s
    else shootDown s part.toNat (tlbiRange s (epChip s.cx.ep) part.toNat all lo n)

def execShootdownAck (id : Nat) (s : State) : Host.Outcome State Fault Refusal := event s (.ok (ackShoot s id))

/-! ### Sleep (R348) -/

/-- Contexts, engines, walker and ricks idle. -/
def coreIdle (s : State) (e : EP) : Bool :=
  let k := s.core e
  !((s.coreCtxs e).any Context.bound) && k.engine.isEmpty && k.mx.queue.isEmpty && k.walker.state != .running && (openRicks k).isEmpty

def sleepDue (s : State) (e : EP) : Bool :=
  isCompute e && !(s.core e).asleep && coreIdle s e && decide ((s.core e).idleSince + 4096 ≤ s.time)

def execCoreSleep (ep : EP) (s : State) : Host.Outcome State Fault Refusal :=
  event s (.ok (if sleepDue s ep then s.modCore ep fun k => { k with asleep := true } else s))

/-- A core wakes. -/
def execCoreWake (ep : EP) (s : State) : Host.Outcome State Fault Refusal := event s (.ok (wakeCore s ep))

/-! ### IDENT (R381) -/

/-- Whether cluster (i, j) of a die is in service. -/
def clusterIn (c : Chip) (die : Bool) (i j : Nat) : Bool := !c.col.retiredCl.contains (die, 8 * j + i)

def coresIn (c : Chip) (die : Bool) : Nat :=
  16 * ((List.range 64).filter fun n => clusterIn c die (n % 8) (n / 8)).length

/-- Every rectangle of clusters in service that a die offers, as (width, height) in cores. -/
def freeRects (c : Chip) : List (Nat × Nat) :=
  let ok (die : Bool) (x y w h : Nat) : Bool :=
    decide (x + w ≤ 8) && decide (y + h ≤ 8) && (List.range h).all fun j => (List.range w).all fun i => clusterIn c die (x + i) (y + j)
  ((List.range 64).filter fun n => ([false, true] : List Bool).any fun d => (List.range 64).any fun o => ok d (o % 8) (o / 8) (n % 8 + 1) (n / 8 + 1)).map
    fun n => (4 * (n % 8 + 1), 4 * (n / 8 + 1))

/-- The largest of them; which, among equals, is left open. -/
def largestRect (c : Chip) : Nat × Nat :=
  let rs := freeRects c
  let top := rs.foldl (fun m r => if m < r.1 * r.2 then r.1 * r.2 else m) 0
  match rs.filter fun r => r.1 * r.2 == top with
  | [] => (0, 0)
  | [r] => r
  | r :: more => (((r :: more)[Config.identTie (r :: more).length % (more.length + 1)]?).getD r)

def identWord (s : State) (sel : Nat) : Nat :=
  let c := s.chip (epChip s.cx.ep)
  match sel with
  | 0 => fld 48 0x4E5A + fld 32 0x5304 + (Config.partForm.val + 1)
  | 1 => s.cx.ep.toNat
  | 2 => fld 40 (largestRect c).2 + fld 32 (largestRect c).1 + fld 16 (coresIn c true) + coresIn c false
  | _ => ((List.range 16).map fun j => hbmBlocks c j).sum * 4096 / 2 ^ 30 % 2 ^ 16

def execIdent (d : GReg) (sel : BitVec 4) (ms : Ms) (s : State) : Host.Outcome State Fault Refusal :=
  scalar (.ident d sel ms) ms s fun s => do
    need (decide (sel.toNat < 4)) Code.illop
    .ok (s.setG d (BitVec.ofNat 64 (identWord s sel.toNat)))

/-! ### HALT (R382) -/

/-- The context stops until the next collier event. -/
def execHalt (ms : Ms) (s : State) : Host.Outcome State Fault Refusal :=
  scalar (.halt ms) ms s fun s => do
    let s := modCol s (epChip s.cx.ep) fun c => { c with event := false }
    .ok { s with cx := { s.cx with mode := .halted } }

/-- A collier event ends HALT. -/
def wakeCollier (s : State) : State :=
  let due (c : Context) : Bool := c.mode == .halted && (s.chip (epChip c.ep)).col.event
  let wake (c : Context) : Context := if due c then { c with mode := .running } else c
  { s with cx := wake s.cx, others := s.others.map wake }

end Sys2Proof.Machine
end

