-- ==== Sys2Proof/Machine/Vector.lean ====
section
/-! DEFINITION. Meanings: vector arithmetic, compare, select, move, permutation, reduction and conversion (R79-R94). -/
namespace Sys2Proof.Machine

/-! ### Element-wise arithmetic (R79, R80) -/

/-- Write each active element with a function that also gives flags; the flags of the active elements are ORed. -/
def mapFlags (t : Ty) (mask : Mask) (old : VWord) (f : Nat → Nat × Fl) : VWord × Fl :=
  (List.range t.count).foldl (fun r e =>
    if elemOn mask t.count e then let x := f e; (putElem t r.1 e x.1, r.2 ||| x.2) else r) (old, 0)

/-- The shape of a vector instruction that writes v[D] element by element. -/
def vecMap (i : Instr) (t : Ty) (d : VReg) (ms : Ms) (s : State) (f : State → Nat → Nat × Fl) :
    Host.Outcome State Fault Refusal :=
  vector i s fun s =>
    let r := mapFlags t (ms.mask s.cx) (s.v d) (f s)
    .ok ((s.setV d r.1).orFlags r.2)

/-- The shape of a binary one: an operation per type class on the elements of A and B. -/
def vecBin (i : Instr) (t : Ty) (d a : VReg) (b : VB) (ms : Ms) (s : State) (fi : IntTy → Nat → Nat → Nat)
    (ff : FSpec → Nat → Nat → Nat × Fl) : Host.Outcome State Fault Refusal :=
  vecMap i t d ms s fun s e =>
    let x := elemOf t (s.v a) e
    let y := b.elem s t e
    match t with
    | .int k => (fi k x y % 2 ^ k.bits, 0)
    | .flt k => ff (fspec k) x y

/-- Integer division of a type (R42, R79). -/
def intDiv (k : IntTy) (x y : Nat) : Nat :=
  if k.signed then opDiv k.bits x y else if y = 0 then 2 ^ k.bits - 1 else x / y

def execVadd (ty : Ty) (d a : VReg) (b : VB) (rnd : Rnd) (ms : Ms) (s : State) : Host.Outcome State Fault Refusal :=
  vecBin (.vadd ty d a b rnd ms) ty d a b ms s (fun _ x y => x + y) fun f x y => f.add rnd x y
def execVsub (ty : Ty) (d a : VReg) (b : VB) (rnd : Rnd) (ms : Ms) (s : State) : Host.Outcome State Fault Refusal :=
  vecBin (.vsub ty d a b rnd ms) ty d a b ms s (fun k x y => x + 2 ^ k.bits - y) fun f x y => f.sub rnd x y
def execVmul (ty : Ty) (d a : VReg) (b : VB) (rnd : Rnd) (ms : Ms) (s : State) : Host.Outcome State Fault Refusal :=
  vecBin (.vmul ty d a b rnd ms) ty d a b ms s (fun _ x y => x * y) fun f x y => f.mul rnd x y
def execVfma (ty : Ty) (d a : VReg) (b : VB) (rnd : Rnd) (ms : Ms) (s : State) : Host.Outcome State Fault Refusal :=
  vecMap (.vfma ty d a b rnd ms) ty d ms s fun s e =>
    let x := elemOf ty (s.v a) e
    let y := b.elem s ty e
    let z := elemOf ty (s.v d) e
    match ty with
    | .int k => ((x * y + z) % 2 ^ k.bits, 0)
    | .flt k => (fspec k).fma rnd x y z
def execVdiv (ty : Ty) (d a : VReg) (b : VB) (rnd : Rnd) (ms : Ms) (s : State) : Host.Outcome State Fault Refusal :=
  vecBin (.vdiv ty d a b rnd ms) ty d a b ms s intDiv fun f x y => f.div rnd x y
def execVsqrt (ty : FloatTy) (d a : VReg) (rnd : Rnd) (ms : Ms) (s : State) : Host.Outcome State Fault Refusal :=
  vecMap (.vsqrt ty d a rnd ms) (.flt ty) d ms s fun s e => (fspec ty).sqrt rnd (elemOf (.flt ty) (s.v a) e)

/-- The smaller or larger element of a type (R61, R79). -/
def minmaxOf (t : Ty) (max : Bool) (x y : Nat) : Nat × Fl :=
  match t with
  | .int k =>
    (match k.signed, max with
      | true, true => opMaxS k.bits x y
      | true, false => opMinS k.bits x y
      | false, true => opMaxU x y
      | false, false => opMinU x y, 0)
  | .flt k => (fspec k).minmax max x y

def execVmin (ty : Ty) (d a : VReg) (b : VB) (ms : Ms) (s : State) : Host.Outcome State Fault Refusal :=
  vecMap (.vmin ty d a b ms) ty d ms s fun s e => minmaxOf ty false (elemOf ty (s.v a) e) (b.elem s ty e)
def execVmax (ty : Ty) (d a : VReg) (b : VB) (ms : Ms) (s : State) : Host.Outcome State Fault Refusal :=
  vecMap (.vmax ty d a b ms) ty d ms s fun s e => minmaxOf ty true (elemOf ty (s.v a) e) (b.elem s ty e)

/-- The bits of a float element with its sign cleared or inverted; FP19's ignored bits are written as zero (R58). -/
def signOp (f : FSpec) (flip : Bool) (x : Nat) : Nat :=
  let w := f.low + f.fbits + f.ebits
  x % 2 ^ w / 2 ^ f.low * 2 ^ f.low + f.signBit (flip && !testBit x w)

def execVabs (ty : Ty) (d a : VReg) (ms : Ms) (s : State) : Host.Outcome State Fault Refusal :=
  vecMap (.vabs ty d a ms) ty d ms s fun s e =>
    let x := elemOf ty (s.v a) e
    match ty with
    | .int k => (if k.signed then natOfInt k.bits (sintOf k.bits x).natAbs else x, 0)
    | .flt k => (signOp (fspec k) false x, 0)
def execVneg (ty : Ty) (d a : VReg) (ms : Ms) (s : State) : Host.Outcome State Fault Refusal :=
  vecMap (.vneg ty d a ms) ty d ms s fun s e =>
    let x := elemOf ty (s.v a) e
    match ty with
    | .int k => ((2 ^ k.bits - x) % 2 ^ k.bits, 0)
    | .flt k => (signOp (fspec k) true x, 0)

/-- The shape of an integer-only one. -/
def vecInt (i : Instr) (ty : IntTy) (d a : VReg) (b : VB) (ms : Ms) (s : State) (f : Nat → Nat → Nat) :
    Host.Outcome State Fault Refusal :=
  vecMap i (.int ty) d ms s fun s e => (f (elemOf (.int ty) (s.v a) e) (b.elem s (.int ty) e) % 2 ^ ty.bits, 0)

def execVand (ty : IntTy) (d a : VReg) (b : VB) (ms : Ms) (s : State) : Host.Outcome State Fault Refusal :=
  vecInt (.vand ty d a b ms) ty d a b ms s fun x y => x &&& y
def execVor (ty : IntTy) (d a : VReg) (b : VB) (ms : Ms) (s : State) : Host.Outcome State Fault Refusal :=
  vecInt (.vor ty d a b ms) ty d a b ms s fun x y => x ||| y
def execVxor (ty : IntTy) (d a : VReg) (b : VB) (ms : Ms) (s : State) : Host.Outcome State Fault Refusal :=
  vecInt (.vxor ty d a b ms) ty d a b ms s fun x y => x ^^^ y
def execVshl (ty : IntTy) (d a : VReg) (b : VB) (ms : Ms) (s : State) : Host.Outcome State Fault Refusal :=
  vecInt (.vshl ty d a b ms) ty d a b ms s fun x y => x * 2 ^ (y % ty.bits)
def execVshr (ty : IntTy) (d a : VReg) (b : VB) (ms : Ms) (s : State) : Host.Outcome State Fault Refusal :=
  vecInt (.vshr ty d a b ms) ty d a b ms s fun x y => x / 2 ^ (y % ty.bits)
def execVsar (ty : IntTy) (d a : VReg) (b : VB) (ms : Ms) (s : State) : Host.Outcome State Fault Refusal :=
  vecInt (.vsar ty d a b ms) ty d a b ms s (opSar ty.bits)

/-! ### Compare, select and move (R82-R84) -/

/-- The element that holds lane l. -/
def elemAtLane (n l : Nat) : Nat := if n = 8 then l / 2 else l

/-- A mask from bits. -/
def maskOf (f : Nat → Bool) : Mask := BitVec.ofNat 16 ((List.range 16).map fun l => (f l).toNat * 2 ^ l).sum

def VCmp.ty : VCmp → Ty
  | .int _ t => .int t
  | .flt _ t => .flt t

/-- The condition on one pair of elements, with its flags. -/
def vcond (c : VCmp) (x y : Nat) : Bool × Fl :=
  match c with
  | .int c t => (icond c t.bits t.signed x y, 0)
  | .flt c t => (fspec t).cmp c x y

def execVcmp (c : VCmp) (d : KReg) (a : VReg) (b : VB) (ms : Ms) (s : State) : Host.Outcome State Fault Refusal :=
  vector (.vcmp c d a b ms) s fun s =>
    let t := VCmp.ty c
    let m := ms.mask s.cx
    let r (l : Nat) : Bool × Fl :=
      let e := elemAtLane t.count l
      if elemOn m t.count e then vcond c (elemOf t (s.v a) e) (b.elem s t e) else (false, 0)
    .ok ((s.setK d (maskOf fun l => (r l).1)).orFlags ((List.range 16).foldl (fun f l => f ||| (r l).2) 0))

def execVsel (ty : IntTy) (d a : VReg) (b : VB) (sk : KReg) (inv : Bool) (ms : Ms) (s : State) : Host.Outcome State Fault Refusal :=
  vecMap (.vsel ty d a b sk inv ms) (.int ty) d ms s fun s e =>
    (if elemOn (s.k sk) (Ty.int ty).count e != inv then elemOf (.int ty) (s.v a) e else b.elem s (.int ty) e, 0)

/-- Pop a queue from the vector side (R100): q4-q7 are misused, an empty queue waits. -/
def popVec (s : State) (q : QReg) : Res (Word × State) :=
  if 4 ≤ q.toNat then fail Code.qmisuse
  else match s.q q with
    | [] => stall s
    | x :: xs => .ok (x, s.setQ q xs)

/-- Push a queue from the vector side (R100). -/
def pushVec (s : State) (q : QReg) (x : Word) : Res State :=
  if q.toNat < 4 then fail Code.qmisuse
  else if 8 ≤ (s.q q).length then stall s
  else .ok (s.setQ q (s.q q ++ [x]))

def execVbcast (ty : Ty) (d : VReg) (f : BcastForm) (ms : Ms) (s : State) : Host.Outcome State Fault Refusal :=
  vector (.vbcast ty d f ms) s fun s => do
    let (x, s) ← match f with
      | .g a => .ok ((s.g a).toNat, s)
      | .q q => do
        let (x, s) ← popVec s q
        .ok (x.toNat, s)
      | .lane a i => .ok (elemOf ty (s.v a) i.toNat, s)
    .ok (s.setV d (mapElems ty (ms.mask s.cx) (s.v d) fun _ => x % 2 ^ ty.width))

/-- Extend an element to 64 bits as its type (R84). -/
def extElem (t : Ty) (x : Nat) : Word := extend t.width t.isSigned x

/-- Deliver a value that leaves the vector side: element 0 of v[D] whatever the mask, g[D], or a queue (R89). -/
def deliver (s : State) (t : Ty) (d : VDest) (x : Nat) : Res State :=
  match d with
  | .v r => .ok (s.setV r (putElem t (s.v r) 0 x))
  | .g r => .ok (s.setG r (extElem t x))
  | .q q => pushVec s q (extElem t x)

def execVextr (ty : Ty) (d : VDest) (a : VReg) (i : BitVec 4) (ms : Ms) (s : State) : Host.Outcome State Fault Refusal :=
  vector (.vextr ty d a i ms) s fun s =>
    deliver s ty d (if elemOn (ms.mask s.cx) ty.count i.toNat then elemOf ty (s.v a) i.toNat else 0)

def execVins (ty : Ty) (d : VReg) (a : GReg) (i : BitVec 4) (ms : Ms) (s : State) : Host.Outcome State Fault Refusal :=
  vector (.vins ty d a i ms) s fun s =>
    .ok (if elemOn (ms.mask s.cx) ty.count i.toNat then s.setV d (putElem ty (s.v d) i.toNat ((s.g a).toNat % 2 ^ ty.width)) else s)

/-! ### Lane position and permutation (R85-R88) -/

/-- Active elements in rising order. -/
def activeElems (t : Ty) (m : Mask) : List Nat := (List.range t.count).filter (elemOn m t.count)

def execVfirst (ty : Ty) (d : VDest) (a : VReg) (ms : Ms) (s : State) : Host.Outcome State Fault Refusal :=
  vector (.vfirst ty d a ms) s fun s =>
    let m := ms.mask s.cx
    let first := (activeElems ty m).head?.map (elemOf ty (s.v a))
    match d with
    | .v r => .ok (s.setV r (mapElems ty m (s.v r) fun _ => first.getD 0))
    | .g r => .ok (s.setG r ((first.map (extElem ty)).getD 0))
    | .q q => pushVec s q ((first.map (extElem ty)).getD 0)

def execViota (ty : IntTy) (d : VReg) (ms : Ms) (s : State) : Host.Outcome State Fault Refusal :=
  vecMap (.viota ty d ms) (.int ty) d ms s fun s e =>
    (((activeElems (.int ty) (ms.mask s.cx)).filter fun x => decide (x < e)).length, 0)

def execVperm (ty : Ty) (d a : VReg) (b : VB) (ms : Ms) (s : State) : Host.Outcome State Fault Refusal :=
  vecMap (.vperm ty d a b ms) ty d ms s fun s e => (elemOf ty (s.v a) (b.elem s ty e % ty.count), 0)

def execVslide (ty : Ty) (up : Bool) (d a b : VReg) (m : BitVec 5) (ms : Ms) (s : State) : Host.Outcome State Fault Refusal :=
  vecMap (.vslide ty up d a b m ms) ty d ms s fun s e =>
    let n := ty.count
    let k := m.toNat
    (if up then (if k ≤ e then elemOf ty (s.v a) (e - k) else elemOf ty (s.v b) (e + n - k))
     else if e + k < n then elemOf ty (s.v a) (e + k) else elemOf ty (s.v b) (e + k - n), 0)

/-! ### Reductions and the paired dot product (R89-R91) -/

/-- One addition of a type. -/
def addOf (t : Ty) (rnd : Rnd) (x y : Nat) : Nat × Fl :=
  match t with
  | .int k => ((x + y) % 2 ^ k.bits, 0)
  | .flt k => (fspec k).add rnd x y

/-- Fold the active elements in rising order from element 0 of B. -/
def reduceElems (t : Ty) (m : Mask) (v : VWord) (b0 : Nat) (f : Nat → Nat → Nat × Fl) : Nat × Fl :=
  (activeElems t m).foldl (fun r e => let x := f r.1 (elemOf t v e); (x.1, r.2 ||| x.2)) (b0, 0)

def execVreds (ty : Ty) (d : VDest) (a : VReg) (b : VB) (rnd : Rnd) (ms : Ms) (s : State) : Host.Outcome State Fault Refusal :=
  vector (.vreds ty d a b rnd ms) s fun s => do
    let r := reduceElems ty (ms.mask s.cx) (s.v a) (b.elem s ty 0) (addOf ty rnd)
    let s ← deliver s ty d r.1
    .ok (s.orFlags r.2)

def execVredm (ty : Ty) (max : Bool) (d : VDest) (a : VReg) (b : VB) (ms : Ms) (s : State) : Host.Outcome State Fault Refusal :=
  vector (.vredm ty max d a b ms) s fun s => do
    let r := reduceElems ty (ms.mask s.cx) (s.v a) (b.elem s ty 0) (minmaxOf ty max)
    let s ← deliver s ty d r.1
    .ok (s.orFlags r.2)

/-- The 32-bit pair of lane l that a B operand gives VDOT2. -/
def pairOf (s : State) (b : VB) (ty : Ty) (l : Nat) : Nat :=
  match b with
  | .cw c => let x := s.cwSlot c % 2 ^ ty.width; x + x * 2 ^ 16
  | b => b.elem s (.int .n32) l

/-- R91 on one lane: two products and the accumulator, exact and rounded once. -/
def dot2 (ty : Ty) (rnd : Rnd) (x y acc : Nat) : Nat × Fl :=
  let xl := bits x 0 16; let xh := bits x 16 16; let yl := bits y 0 16; let yh := bits y 16 16
  match ty with
  | .int k =>
    let v (n : Nat) : Int := if k.signed then sintOf 16 n else n
    (natOfInt 32 (v xl * v yl + v xh * v yh + (acc : Int)), 0)
  | .flt k =>
    let f := (fspec k).decode
    let ins := [f xl, f yl, f xh, f yh, fp32.decode acc]
    fp32.sum rnd ins (badMul (f xl) (f yl) || badMul (f yl) (f xl) || badMul (f xh) (f yh) || badMul (f yh) (f xh))
      [mulFV (f xl) (f yl), mulFV (f xh) (f yh), fp32.decode acc]

def execVdot2 (ty : Ty) (d a : VReg) (b : VB) (rnd : Rnd) (ms : Ms) (s : State) : Host.Outcome State Fault Refusal :=
  vecMap (.vdot2 ty d a b rnd ms) (.int .n32) d ms s fun s l =>
    dot2 ty rnd (elemOf (.int .n32) (s.v a) l) (pairOf s b ty l) (elemOf (.int .n32) (s.v d) l)

/-! ### Conversion (R92-R94) -/

/-- The bits of a narrow element within a packed register: position and width (R92). -/
def narrowPos (f : Nat) (part l : Nat) : Nat × Nat :=
  if f = 9 then (8 * (8 * part + l / 2) + 4 * (l % 2), 4) else (8 * (16 * part + l), 8)

/-- The value of a narrow source; SBP is read with floor (R93). -/
def narrowVal (f x : Nat) : FV := fmtVal f false (match f with | 7 | 8 => x % 64 | _ => x)

/-- Convert a source value to a narrow target (R93). -/
def narrowOf (f : Nat) (rnd : Rnd) (v : FV) : Nat × Fl := fmtOf f rnd v

/-- R92: conversions with no narrow side, by source and destination widths. The table lists 64-bit types to and from 32-bit
ones; those to and from 16- and 8-bit types are placed as their lanes are (DEDUCED, notes/assumptions/110.md). -/
def cvtWide (s : State) (dt st : Ty) (part : Nat) (d a : VReg) (rnd : Rnd) (m : Mask) : VWord × Fl :=
  let conv (x : Nat) : Nat × Fl := tyOf dt rnd (tyVal st x)
  if st.width = 64 && dt.width != 64 then
    (List.range 8).foldl (fun r j =>
      if elemOn m 16 (8 * part + j) then
        let x := conv (elemOf st (s.v a) j); (putElem dt r.1 (8 * part + j) x.1, r.2 ||| x.2) else r) (s.v d, 0)
  else if st.width != 64 && dt.width = 64 then
    (List.range 8).foldl (fun r j =>
      if elemOn m 8 j then let x := conv (elemOf st (s.v a) (8 * part + j)); (putElem dt r.1 j x.1, r.2 ||| x.2) else r) (s.v d, 0)
  else mapFlags dt m (s.v d) fun e => conv (elemOf st (s.v a) e)

/-- R92: to a narrow format; a byte or nibble is written only when its source lane and the lane that holds it are active. -/
def cvtToNarrow (s : State) (f : Nat) (st : Ty) (part : Nat) (d a : VReg) (rnd : Rnd) (m : Mask) : VWord × Fl :=
  (List.range 16).foldl (fun r l =>
    let p := narrowPos f part l
    if m.getLsbD l && m.getLsbD (p.1 / 32) then
      let x := narrowOf f rnd (tyVal st (elemOf st (s.v a) l)); (putBits r.1 p.1 p.2 x.1, r.2 ||| x.2) else r) (s.v d, 0)

/-- R92: from a narrow format. -/
def cvtFromNarrow (s : State) (dt : Ty) (f : Nat) (part : Nat) (d a : VReg) (rnd : Rnd) (m : Mask) : VWord × Fl :=
  mapFlags dt m (s.v d) fun l =>
    let p := narrowPos f part l
    tyOf dt rnd (narrowVal f (bits (s.v a).toNat p.1 p.2))

/-- A reserved narrow code faults FMT (R22). -/
def narrowGood (f : BitVec 5) : Bool :=
  (decide (5 ≤ f.toNat) && decide (f.toNat ≤ 9)) || (decide (0x10 ≤ f.toNat) && decide (f.toNat ≤ 0x17))

def execVcvt (dst src : CvtSide) (part : BitVec 3) (d a : VReg) (rnd : Rnd) (ms : Ms) (s : State) : Host.Outcome State Fault Refusal :=
  vector (.vcvt dst src part d a rnd ms) s fun s => do
    let m := ms.mask s.cx
    -- class 7 is met only by an instruction with an active lane (R73)
    let good (f : BitVec 5) : Bool := narrowGood f || m == 0
    let r ← (match dst, src with
      | .wide dt, .wide st => .ok (cvtWide s dt st part.toNat d a rnd m)
      | .narrow f, .wide st => if good f then .ok (cvtToNarrow s f.toNat st part.toNat d a rnd m) else fail Code.fmt
      | .wide dt, .narrow f => if good f then .ok (cvtFromNarrow s dt f.toNat part.toNat d a rnd m) else fail Code.fmt
      | .narrow _, .narrow _ => fail Code.illop : Res (VWord × Fl))
    .ok ((s.setV d r.1).orFlags r.2)

/-- VSPLIT3 (R94): the source is read before the three destinations are written. -/
def execVsplit3 (d a : VReg) (high : Bool) (ms : Ms) (s : State) : Host.Outcome State Fault Refusal :=
  vector (.vsplit3 d a high ms) s fun s =>
    let m := ms.mask s.cx
    let src := s.v a
    let lo := if high then 16 else 0
    let part (pick : Nat × Nat × Nat → Nat) (old : VWord) : VWord × Fl :=
      (List.range 16).foldl (fun r l =>
        if m.getLsbD l then
          let x := splitParts (bits src.toNat (32 * l) 32); (putBits r.1 (32 * l + lo) 16 (pick x.1), r.2 ||| x.2) else r) (old, 0)
    let h := part (fun t => t.1) (s.v d)
    let s := (s.setV d h.1).orFlags h.2
    let s := s.setV (d + 1) (part (fun t => t.2.1) (s.v (d + 1))).1
    .ok (s.setV (d + 2) (part (fun t => t.2.2) (s.v (d + 2))).1)

end Sys2Proof.Machine
end

