-- ==== Sys2Proof/Machine/Dispatch.lean ====
section
/-! DEFINITION. Dispatch: one arm per constructor of Instr, each one direct call of the instruction's meaning. -/
namespace Sys2Proof.Machine

/-- The meaning of an instruction or an event on a state. -/
def exec (i : Instr) (s : State) : Host.Outcome State Fault Refusal :=
  match i with
  | .add ty d a b ms => Sys2Proof.Machine.execAdd ty d a b ms s
  | .sub ty d a b ms => Sys2Proof.Machine.execSub ty d a b ms s
  | .mul ty d a b ms => Sys2Proof.Machine.execMul ty d a b ms s
  | .mulh w d a b ms => Sys2Proof.Machine.execMulh w d a b ms s
  | .mulhn w d a b ms => Sys2Proof.Machine.execMulhn w d a b ms s
  | .div w d a b ms => Sys2Proof.Machine.execDiv w d a b ms s
  | .divn w d a b ms => Sys2Proof.Machine.execDivn w d a b ms s
  | .remS w d a b ms => Sys2Proof.Machine.execRemS w d a b ms s
  | .remn w d a b ms => Sys2Proof.Machine.execRemn w d a b ms s
  | .andI ty d a b ms => Sys2Proof.Machine.execAndI ty d a b ms s
  | .orI ty d a b ms => Sys2Proof.Machine.execOrI ty d a b ms s
  | .xorI ty d a b ms => Sys2Proof.Machine.execXorI ty d a b ms s
  | .andn ty d a b ms => Sys2Proof.Machine.execAndn ty d a b ms s
  | .orn ty d a b ms => Sys2Proof.Machine.execOrn ty d a b ms s
  | .shl ty d a b ms => Sys2Proof.Machine.execShl ty d a b ms s
  | .shr ty d a b ms => Sys2Proof.Machine.execShr ty d a b ms s
  | .sar ty d a b ms => Sys2Proof.Machine.execSar ty d a b ms s
  | .rol ty d a b ms => Sys2Proof.Machine.execRol ty d a b ms s
  | .clz ty d a ms => Sys2Proof.Machine.execClz ty d a ms s
  | .ctz ty d a ms => Sys2Proof.Machine.execCtz ty d a ms s
  | .popc ty d a ms => Sys2Proof.Machine.execPopc ty d a ms s
  | .brev ty d a ms => Sys2Proof.Machine.execBrev ty d a ms s
  | .minS w d a b ms => Sys2Proof.Machine.execMinS w d a b ms s
  | .maxS w d a b ms => Sys2Proof.Machine.execMaxS w d a b ms s
  | .minn w d a b ms => Sys2Proof.Machine.execMinn w d a b ms s
  | .maxn w d a b ms => Sys2Proof.Machine.execMaxn w d a b ms s
  | .sext d a n ms => Sys2Proof.Machine.execSext d a n ms s
  | .zext d a n ms => Sys2Proof.Machine.execZext d a n ms s
  | .bfx d a pos len ms => Sys2Proof.Machine.execBfx d a pos len ms s
  | .bfxn d a pos len ms => Sys2Proof.Machine.execBfxn d a pos len ms s
  | .bfi d a pos len ms => Sys2Proof.Machine.execBfi d a pos len ms s
  | .cmp c ty d a b ms => Sys2Proof.Machine.execCmp c ty d a b ms s
  | .sel d a b p inv ms => Sys2Proof.Machine.execSel d a b p inv ms s
  | .plog op d a b ms => Sys2Proof.Machine.execPlog op d a b ms s
  | .mov f ms => Sys2Proof.Machine.execMov f ms s
  | .li d imm => Sys2Proof.Machine.execLi d imm s
  | .lcw d f ms => Sys2Proof.Machine.execLcw d f ms s
  | .lea d a b sh off ms => Sys2Proof.Machine.execLea d a b sh off ms s
  | .mkptr d a f sp ms => Sys2Proof.Machine.execMkptr d a f sp ms s
  | .ptrx sel d a ms => Sys2Proof.Machine.execPtrx sel d a ms s
  | .br off ms => Sys2Proof.Machine.execBr off ms s
  | .jmp target => Sys2Proof.Machine.execJmp target s
  | .jmpi a ms => Sys2Proof.Machine.execJmpi a ms s
  | .call d off ms => Sys2Proof.Machine.execCall d off ms s
  | .calli d a ms => Sys2Proof.Machine.execCalli d a ms s
  | .ret a ms => Sys2Proof.Machine.execRet a ms s
  | .loop d off ms => Sys2Proof.Machine.execLoop d off ms s
  | .bsig crc => Sys2Proof.Machine.execBsig crc s
  | .endC ms => Sys2Proof.Machine.execEndC ms s
  | .nop ms => Sys2Proof.Machine.execNop ms s
  | .grow d g v ms => Sys2Proof.Machine.execGrow d g v ms s
  | .shrink g v ms => Sys2Proof.Machine.execShrink g v ms s
  | .fadd ty d a b rnd ms => Sys2Proof.Machine.execFadd ty d a b rnd ms s
  | .fsub ty d a b rnd ms => Sys2Proof.Machine.execFsub ty d a b rnd ms s
  | .fmul ty d a b rnd ms => Sys2Proof.Machine.execFmul ty d a b rnd ms s
  | .ffma ty d a b rnd ms => Sys2Proof.Machine.execFfma ty d a b rnd ms s
  | .fdiv ty d a b rnd ms => Sys2Proof.Machine.execFdiv ty d a b rnd ms s
  | .fsqrt ty d a rnd ms => Sys2Proof.Machine.execFsqrt ty d a rnd ms s
  | .fmin ty d a b ms => Sys2Proof.Machine.execFmin ty d a b ms s
  | .fmax ty d a b ms => Sys2Proof.Machine.execFmax ty d a b ms s
  | .fcmp c ty d a b ms => Sys2Proof.Machine.execFcmp c ty d a b ms s
  | .fcvt d a f ms => Sys2Proof.Machine.execFcvt d a f ms s
  | .fclass ty d a ms => Sys2Proof.Machine.execFclass ty d a ms s
  | .fsgn op ty d a b ms => Sys2Proof.Machine.execFsgn op ty d a b ms s
  | .ld sz am d a b off ms => Sys2Proof.Machine.execLd sz am d a b off ms s
  | .st sz am d a b off ms => Sys2Proof.Machine.execSt sz am d a b off ms s
  | .ldl am d a b off ms => Sys2Proof.Machine.execLdl am d a b off ms s
  | .stl am d a b off ms => Sys2Proof.Machine.execStl am d a b off ms s
  | .pref wr am a b off ms => Sys2Proof.Machine.execPref wr am a b off ms s
  | .vadd ty d a b rnd ms => Sys2Proof.Machine.execVadd ty d a b rnd ms s
  | .vsub ty d a b rnd ms => Sys2Proof.Machine.execVsub ty d a b rnd ms s
  | .vmul ty d a b rnd ms => Sys2Proof.Machine.execVmul ty d a b rnd ms s
  | .vfma ty d a b rnd ms => Sys2Proof.Machine.execVfma ty d a b rnd ms s
  | .vdiv ty d a b rnd ms => Sys2Proof.Machine.execVdiv ty d a b rnd ms s
  | .vsqrt ty d a rnd ms => Sys2Proof.Machine.execVsqrt ty d a rnd ms s
  | .vmin ty d a b ms => Sys2Proof.Machine.execVmin ty d a b ms s
  | .vmax ty d a b ms => Sys2Proof.Machine.execVmax ty d a b ms s
  | .vabs ty d a ms => Sys2Proof.Machine.execVabs ty d a ms s
  | .vneg ty d a ms => Sys2Proof.Machine.execVneg ty d a ms s
  | .vand ty d a b ms => Sys2Proof.Machine.execVand ty d a b ms s
  | .vor ty d a b ms => Sys2Proof.Machine.execVor ty d a b ms s
  | .vxor ty d a b ms => Sys2Proof.Machine.execVxor ty d a b ms s
  | .vshl ty d a b ms => Sys2Proof.Machine.execVshl ty d a b ms s
  | .vshr ty d a b ms => Sys2Proof.Machine.execVshr ty d a b ms s
  | .vsar ty d a b ms => Sys2Proof.Machine.execVsar ty d a b ms s
  | .vcmp c d a b ms => Sys2Proof.Machine.execVcmp c d a b ms s
  | .vsel ty d a b sk inv ms => Sys2Proof.Machine.execVsel ty d a b sk inv ms s
  | .vbcast ty d f ms => Sys2Proof.Machine.execVbcast ty d f ms s
  | .vextr ty d a i1 ms => Sys2Proof.Machine.execVextr ty d a i1 ms s
  | .vins ty d a i1 ms => Sys2Proof.Machine.execVins ty d a i1 ms s
  | .vfirst ty d a ms => Sys2Proof.Machine.execVfirst ty d a ms s
  | .viota ty d ms => Sys2Proof.Machine.execViota ty d ms s
  | .vperm ty d a b ms => Sys2Proof.Machine.execVperm ty d a b ms s
  | .vslide ty up d a b m ms => Sys2Proof.Machine.execVslide ty up d a b m ms s
  | .vreds ty d a b rnd ms => Sys2Proof.Machine.execVreds ty d a b rnd ms s
  | .vredm ty max d a b ms => Sys2Proof.Machine.execVredm ty max d a b ms s
  | .vdot2 ty d a b rnd ms => Sys2Proof.Machine.execVdot2 ty d a b rnd ms s
  | .vcvt dst src part d a rnd ms => Sys2Proof.Machine.execVcvt dst src part d a rnd ms s
  | .vsplit3 d a high ms => Sys2Proof.Machine.execVsplit3 d a high ms s
  | .vld sz step am d a b off ms => Sys2Proof.Machine.execVld sz step am d a b off ms s
  | .vst sz step am d a b off ms => Sys2Proof.Machine.execVst sz step am d a b off ms s
  | .vlds sz am d a b off ms => Sys2Proof.Machine.execVlds sz am d a b off ms s
  | .vgath sz am d a b sh off ms => Sys2Proof.Machine.execVgath sz am d a b sh off ms s
  | .vscat sz am d a b sh off ms => Sys2Proof.Machine.execVscat sz am d a b sh off ms s
  | .klog op d a b => Sys2Proof.Machine.execKlog op d a b s
  | .kpopc d a => Sys2Proof.Machine.execKpopc d a s
  | .kfirst d a => Sys2Proof.Machine.execKfirst d a s
  | .kmov f => Sys2Proof.Machine.execKmov f s
  | .ktest t d a b => Sys2Proof.Machine.execKtest t d a b s
  | .rep a n wb ws st => Sys2Proof.Machine.execRep a n wb ws st s
  | .qcnt vec d q ms => Sys2Proof.Machine.execQcnt vec d q ms s
  | .qdrain vec f ms => Sys2Proof.Machine.execQdrain vec f ms s
  | .queueDeadlock ep ctx => Sys2Proof.Machine.execQueueDeadlock ep ctx s
  | .arm d a b ms => Sys2Proof.Machine.execArm d a b ms s
  | .dec d a b ms => Sys2Proof.Machine.execDec d a b ms s
  | .inc d a b ms => Sys2Proof.Machine.execInc d a b ms s
  | .spawn a ms => Sys2Proof.Machine.execSpawn a ms s
  | .tspawn d a q ms => Sys2Proof.Machine.execTspawn d a q ms s
  | .tspawnAppend chip q => Sys2Proof.Machine.execTspawnAppend chip q s
  | .waita c d a b ms => Sys2Proof.Machine.execWaita c d a b ms s
  | .waitaWake chip rc => Sys2Proof.Machine.execWaitaWake chip rc s
  | .yield ms => Sys2Proof.Machine.execYield ms s
  | .susp ms => Sys2Proof.Machine.execSusp ms s
  | .arrive d a b ms => Sys2Proof.Machine.execArrive d a b ms s
  | .await d a b ms => Sys2Proof.Machine.execAwait d a b ms s
  | .drop a b ms => Sys2Proof.Machine.execDrop a b ms s
  | .ssync d a b v op ms => Sys2Proof.Machine.execSsync d a b v op ms s
  | .ssyncArrivalCount ep ctx => Sys2Proof.Machine.execSsyncArrivalCount ep ctx s
  | .arrivedSuspend ep ctx => Sys2Proof.Machine.execArrivedSuspend ep ctx s
  | .ssnum d ms => Sys2Proof.Machine.execSsnum d ms s
  | .fuse shape ms => Sys2Proof.Machine.execFuse shape ms s
  | .split ms => Sys2Proof.Machine.execSplit ms s
  | .tqpush a b ms => Sys2Proof.Machine.execTqpush a b ms s
  | .tqpop d a ms => Sys2Proof.Machine.execTqpop d a ms s
  | .gwload a first count ms => Sys2Proof.Machine.execGwload a first count ms s
  | .gwrun node ms => Sys2Proof.Machine.execGwrun node ms s
  | .gwstat d ms => Sys2Proof.Machine.execGwstat d ms s
  | .walkerNodeStep ep => Sys2Proof.Machine.execWalkerNodeStep ep s
  | .cond a b ms => Sys2Proof.Machine.execCond a b ms s
  | .cpy a b ms => Sys2Proof.Machine.execCpy a b ms s
  | .copyPiece ep op => Sys2Proof.Machine.execCopyPiece ep op s
  | .pfl a count ms => Sys2Proof.Machine.execPfl a count ms s
  | .pflComplete ep op => Sys2Proof.Machine.execPflComplete ep op s
  | .contextBind ep ctx => Sys2Proof.Machine.execContextBind ep ctx s
  | .readyAge chip rc => Sys2Proof.Machine.execReadyAge chip rc s
  | .lqdb chip q => Sys2Proof.Machine.execLqdb chip q s
  | .hostDoorbell chip fn v => Sys2Proof.Machine.execHostDoorbell chip fn v s
  | .launch chip q => Sys2Proof.Machine.execLaunch chip q s
  | .barrierDecision chip team => Sys2Proof.Machine.execBarrierDecision chip team s
  | .preqNow chip part => Sys2Proof.Machine.execPreqNow chip part s
  | .shadowSwapDone chip slot => Sys2Proof.Machine.execShadowSwapDone chip slot s
  | .preqAtBarrier chip part => Sys2Proof.Machine.execPreqAtBarrier chip part s
  | .resqResume chip slot die x y => Sys2Proof.Machine.execResqResume chip slot die x y s
  | .resqKill chip slot => Sys2Proof.Machine.execResqKill chip slot s
  | .ldacq sz am scope d a b off ms => Sys2Proof.Machine.execLdacq sz am scope d a b off ms s
  | .strel sz am scope d a b off ms => Sys2Proof.Machine.execStrel sz am scope d a b off ms s
  | .fence scope ms => Sys2Proof.Machine.execFence scope ms s
  | .aadd sz am o d a b ms => Sys2Proof.Machine.execAadd sz am o d a b ms s
  | .amin u sz am o d a b ms => Sys2Proof.Machine.execAmin u sz am o d a b ms s
  | .amax u sz am o d a b ms => Sys2Proof.Machine.execAmax u sz am o d a b ms s
  | .aand sz am o d a b ms => Sys2Proof.Machine.execAand sz am o d a b ms s
  | .aor sz am o d a b ms => Sys2Proof.Machine.execAor sz am o d a b ms s
  | .axor sz am o d a b ms => Sys2Proof.Machine.execAxor sz am o d a b ms s
  | .aswp sz am o d a b ms => Sys2Proof.Machine.execAswp sz am o d a b ms s
  | .afadd dbl am o rnd d a b ms => Sys2Proof.Machine.execAfadd dbl am o rnd d a b ms s
  | .acas sz am o d a b ms => Sys2Proof.Machine.execAcas sz am o d a b ms s
  | .red op dbl am rel scope a b ms => Sys2Proof.Machine.execRed op dbl am rel scope a b ms s
  | .pgq st am d a b off ms => Sys2Proof.Machine.execPgq st am d a b off ms s
  | .rred op dbl am a b ms => Sys2Proof.Machine.execRred op dbl am a b ms s
  | .rflush one w am a ms => Sys2Proof.Machine.execRflush one w am a ms s
  | .rstat f ms => Sys2Proof.Machine.execRstat f ms s
  | .fcas o d a b w p ms => Sys2Proof.Machine.execFcas o d a b w p ms s
  | .fenq o d a b ms => Sys2Proof.Machine.execFenq o d a b ms s
  | .fchase acq scope d a m off ms => Sys2Proof.Machine.execFchase acq scope d a m off ms s
  | .tsrd wrk d b sel ms => Sys2Proof.Machine.execTsrd wrk d b sel ms s
  | .tsclr a b ms => Sys2Proof.Machine.execTsclr a b ms s
  | .tsscale d b tfmt ms => Sys2Proof.Machine.execTsscale d b tfmt ms s
  | .qnt ty d a b rnd tfmt trap geom ms => Sys2Proof.Machine.execQnt ty d a b rnd tfmt trap geom ms s
  | .qntl ty d a rnd tfmt geom lb ms => Sys2Proof.Machine.execQntl ty d a rnd tfmt geom lb ms s
  | .dqnt ty blk a b rnd tfmt geom lb prnd ms => Sys2Proof.Machine.execDqnt ty blk a b rnd tfmt geom lb prnd ms s
  | .kput a b ms => Sys2Proof.Machine.execKput a b ms s
  | .kget a b ms => Sys2Proof.Machine.execKget a b ms s
  | .peerPacketApply ep op => Sys2Proof.Machine.execPeerPacketApply ep op s
  | .kcoll a b n ms => Sys2Proof.Machine.execKcoll a b n ms s
  | .collContrib id => Sys2Proof.Machine.execCollContrib id s
  | .collChain id => Sys2Proof.Machine.execCollChain id s
  | .collForward id => Sys2Proof.Machine.execCollForward id s
  | .collMulticast id => Sys2Proof.Machine.execCollMulticast id s
  | .collDeliver id => Sys2Proof.Machine.execCollDeliver id s
  | .fedj a b ms => Sys2Proof.Machine.execFedj a b ms s
  | .fedl ms => Sys2Proof.Machine.execFedl ms s
  | .gqpush a ms => Sys2Proof.Machine.execGqpush a ms s
  | .gqEgressSend ep => Sys2Proof.Machine.execGqEgressSend ep s
  | .gqDeliver id => Sys2Proof.Machine.execGqDeliver id s
  | .gqpop d a ms => Sys2Proof.Machine.execGqpop d a ms s
  | .gqwin rl d a b ms => Sys2Proof.Machine.execGqwin rl d a b ms s
  | .gprio a lvl ms => Sys2Proof.Machine.execGprio a lvl ms s
  | .ostep d b ms => Sys2Proof.Machine.execOstep d b ms s
  | .trap code ms => Sys2Proof.Machine.execTrap code ms s
  | .brk ms => Sys2Proof.Machine.execBrk ms s
  | .fmsg nb d ms => Sys2Proof.Machine.execFmsg nb d ms s
  | .freply a b ms => Sys2Proof.Machine.execFreply a b ms s
  | .srd d n ms => Sys2Proof.Machine.execSrd d n ms s
  | .swr a n ms => Sys2Proof.Machine.execSwr a n ms s
  | .tlbi all part a b ms => Sys2Proof.Machine.execTlbi all part a b ms s
  | .shootdownAck id => Sys2Proof.Machine.execShootdownAck id s
  | .coreSleep ep => Sys2Proof.Machine.execCoreSleep ep s
  | .coreWake ep => Sys2Proof.Machine.execCoreWake ep s
  | .ident d sel ms => Sys2Proof.Machine.execIdent d sel ms s
  | .halt ms => Sys2Proof.Machine.execHalt ms s
  | .mxSlotAdmit ep => Sys2Proof.Machine.execMxSlotAdmit ep s
  | .mxClaim ep ctx => Sys2Proof.Machine.execMxClaim ep ctx s
  | .mxMma ep => Sys2Proof.Machine.execMxMma ep s
  | .mxMmat ep => Sys2Proof.Machine.execMxMmat ep s
  | .mxZero ep => Sys2Proof.Machine.execMxZero ep s
  | .mxDrain ep => Sys2Proof.Machine.execMxDrain ep s
  | .mxXch ep => Sys2Proof.Machine.execMxXch ep s
  | .mxCksum ep => Sys2Proof.Machine.execMxCksum ep s
  | .mxMark ep => Sys2Proof.Machine.execMxMark ep s
  | .rickAgeOut ep i1 => Sys2Proof.Machine.execRickAgeOut ep i1 s
  | .cordApply id => Sys2Proof.Machine.execCordApply id s
  | .cordStatus id => Sys2Proof.Machine.execCordStatus id s
  | .statsUpdateMerge id => Sys2Proof.Machine.execStatsUpdateMerge id s
  | .migreqGo chip part va => Sys2Proof.Machine.execMigreqGo chip part va s
  | .migrationLineCopy chip => Sys2Proof.Machine.execMigrationLineCopy chip s
  | .hostAtomicop chip part op dbl va opnd cmp => Sys2Proof.Machine.execHostAtomicop chip part op dbl va opnd cmp s
  | .flitReceive chip port f => Sys2Proof.Machine.execFlitReceive chip port f s
  | .ackTimer chip port => Sys2Proof.Machine.execAckTimer chip port s
  | .replayTimeout chip port => Sys2Proof.Machine.execReplayTimeout chip port s
  | .gatewayForward chip id => Sys2Proof.Machine.execGatewayForward chip id s
  | .laneFail chip port lane => Sys2Proof.Machine.execLaneFail chip port lane s
  | .portRetrainDone chip port => Sys2Proof.Machine.execPortRetrainDone chip port s
  | .linkHeartbeat chip => Sys2Proof.Machine.execLinkHeartbeat chip s
  | .chipLost chip lost => Sys2Proof.Machine.execChipLost chip lost s
  | .lossReportReceive chip lost => Sys2Proof.Machine.execLossReportReceive chip lost s
  | .ptrootWrite chip part v => Sys2Proof.Machine.execPtrootWrite chip part v s
  | .optbindWrite chip j v => Sys2Proof.Machine.execOptbindWrite chip j v s
  | .optrecWrite chip v => Sys2Proof.Machine.execOptrecWrite chip v s
  | .svcbootWrite chip v => Sys2Proof.Machine.execSvcbootWrite chip v s
  | .portstClear chip port => Sys2Proof.Machine.execPortstClear chip port s
  | .registerWrite ep pv n v => Sys2Proof.Machine.execRegisterWrite ep pv n v s
  | .feataccWrite chip v => Sys2Proof.Machine.execFeataccWrite chip v s
  | .partenWrite chip v => Sys2Proof.Machine.execPartenWrite chip v s
  | .lockInterfaceRequest chip vf => Sys2Proof.Machine.execLockInterfaceRequest chip vf s
  | .startInterfaceRequest chip vf => Sys2Proof.Machine.execStartInterfaceRequest chip vf s
  | .stopInterfaceRequest chip vf => Sys2Proof.Machine.execStopInterfaceRequest chip vf s
  | .functionLevelReset chip vf => Sys2Proof.Machine.execFunctionLevelReset chip vf s
  | .scrubDone chip vf => Sys2Proof.Machine.execScrubDone chip vf s
  | .ideKmRequest chip st set1 r => Sys2Proof.Machine.execIdeKmRequest chip st set1 r s
  | .ideIntegrityFail chip st => Sys2Proof.Machine.execIdeIntegrityFail chip st s
  | .getVersion chip fn => Sys2Proof.Machine.execGetVersion chip fn s
  | .getCapabilities chip fn req => Sys2Proof.Machine.execGetCapabilities chip fn req s
  | .negotiateAlgorithms chip fn offersSuite req => Sys2Proof.Machine.execNegotiateAlgorithms chip fn offersSuite req s
  | .getDigests chip fn => Sys2Proof.Machine.execGetDigests chip fn s
  | .getCertificate chip fn slot off len => Sys2Proof.Machine.execGetCertificate chip fn slot off len s
  | .challenge chip fn slot nonce => Sys2Proof.Machine.execChallenge chip fn slot nonce s
  | .getMeasurements chip fn sign idx nonce => Sys2Proof.Machine.execGetMeasurements chip fn sign idx nonce s
  | .keyExchange chip fn req => Sys2Proof.Machine.execKeyExchange chip fn req s
  | .finish chip fn hmacOk => Sys2Proof.Machine.execFinish chip fn hmacOk s
  | .heartbeat chip fn => Sys2Proof.Machine.execHeartbeat chip fn s
  | .keyUpdate chip fn => Sys2Proof.Machine.execKeyUpdate chip fn s
  | .endSession chip fn => Sys2Proof.Machine.execEndSession chip fn s
  | .collierReadEvent chip i1 => Sys2Proof.Machine.execCollierReadEvent chip i1 s
  | .collierSvcboot chip addr => Sys2Proof.Machine.execCollierSvcboot chip addr s
  | .collierWriteBank chip bankB off bytes => Sys2Proof.Machine.execCollierWriteBank chip bankB off bytes s
  | .collierActivateBank chip sigOk => Sys2Proof.Machine.execCollierActivateBank chip sigOk s
  | .collierReadSensor chip n => Sys2Proof.Machine.execCollierReadSensor chip n s
  | .collierReplan chip => Sys2Proof.Machine.execCollierReplan chip s
  | .collierRetrainPort chip port => Sys2Proof.Machine.execCollierRetrainPort chip port s
  | .sensorSample chip n v => Sys2Proof.Machine.execSensorSample chip n v s
  | .ageingPlan chip failing => Sys2Proof.Machine.execAgeingPlan chip failing s
  | .watchdogExpire chip => Sys2Proof.Machine.execWatchdogExpire chip s
  | .softRepair chip stack channel row => Sys2Proof.Machine.execSoftRepair chip stack channel row s
  | .repairQuiesceEnd chip stack channel => Sys2Proof.Machine.execRepairQuiesceEnd chip stack channel s
  | .fundamentalReset chip r => Sys2Proof.Machine.execFundamentalReset chip r s
  | .hotReset chip => Sys2Proof.Machine.execHotReset chip s
  | .fatalEvent chip c => Sys2Proof.Machine.execFatalEvent chip c s
  | .laneFailureSignal chip port => Sys2Proof.Machine.execLaneFailureSignal chip port s
  | .powerLoss chip => Sys2Proof.Machine.execPowerLoss chip s
  | .configurationWrite chip w => Sys2Proof.Machine.execConfigurationWrite chip w s

end Sys2Proof.Machine
end

