-- ==== Sys2Proof/Machine/Due.lean ====
section
/-! DEFINITION. Which events of the device can happen next; of these, the scheduler leaves out those that would change nothing.
What the outside world does (the host, the module, failures) comes by the agenda instead (notes/assumptions/5.md). -/
namespace Sys2Proof.Machine

/-- The cores of packages that have not stopped. -/
def liveCores (s : State) : List (EP × Core) :=
  (s.cores.map fun k => (BitVec.ofNat 32 k.1, k.2)).filter fun k => !(s.chip (epChip k.1)).stopped
def liveChips (s : State) : List (ChipNo × Chip) :=
  (s.chips.map fun c => (BitVec.ofNat 18 c.1, c.2)).filter fun c => !c.2.stopped
def liveCtxs (s : State) : List Context := s.contexts.filter fun c => c.bound && !(s.chip (epChip c.ep)).stopped

/-- A core of a team whose federation's decision has not reached its chip yet (R397): nothing of it moves. -/
def coreHeld (s : State) (k : Core) : Bool := (s.team? k.chip k.team).any fun t => t.state.awaits

/-! ### Contexts -/

def ctxEvents (s : State) : List Instr :=
  (liveCtxs s).flatMap fun c =>
    let s1 := s.switchTo c.ep c.no
    (if (deadlock s1).isSome then [Instr.queueDeadlock c.ep c.no] else []) ++
    (if c.mode == .syncing then [Instr.ssyncArrivalCount c.ep c.no] else []) ++
    (if c.mode == .arrived && (withGang s1 c).all (fun x => x.mode == .arrived) && wantsContext s1 c.ep then [Instr.arrivedSuspend c.ep c.no] else [])

/-! ### Cores -/

/-- The step of an engine operation. -/
def engineEvent (s : State) (e : EP) (o : EngineOp) : Option Instr :=
  if o.stuck || !forkReady s e o.recA o.behind o.forked then none
  else match o.kind with
    | .cpy .. => some (.copyPiece e o.id)
    | .pfl .. => some (.pflComplete e o.id)
    | .peer .. => some (.peerPacketApply e o.id)
    | .coll _ | .gq _ => none

/-- The command at a unit's head. -/
def matrixEvent (s : State) (e : EP) (k : Core) : Option Instr :=
  match k.mx.queue with
  | [] => none
  | x :: _ =>
    if headHeld s e x then none
    else
      let together := !cmdShare x.cmd || x.cwOnly || (shareUnits e (cmdGmask x.cmd)).all fun u => (sharedHead s u).isSome
      match cmdCode x.cmd with
      | 1 => if together then some (.mxMma e) else none
      | 2 => if together then some (.mxMmat e) else none
      | 3 => some (.mxZero e)
      | 4 => some (.mxDrain e)
      | 5 => some (.mxXch e)
      | 6 => some (.mxCksum e)
      | _ => some (.mxMark e)

/-- The ricks whose oldest element is past the age limit. -/
def agedRicks (s : State) (k : Core) : List (BitVec 3) :=
  (k.ricks.toList.zipIdx.filter fun r => r.1.elems.head?.any fun x => decide (x.time + rickAge k < s.time)).map fun r => BitVec.ofNat 3 r.2

def coreEvents (s : State) : List Instr :=
  ((liveCores s).filter fun q => !coreHeld s q.2).flatMap fun q =>
    let e := q.1
    let k := q.2
    k.engine.filterMap (engineEvent s e) ++ (matrixEvent s e k).toList ++
    (if k.walker.state == .running && !k.walker.stuck && forkReady s e k.walker.recA k.walker.behind k.walker.forked then [Instr.walkerNodeStep e] else []) ++
    (if admitDue s e then [Instr.mxSlotAdmit e] else []) ++
    (([0, 1, 2, 3] : List (BitVec 2)).filter fun c => claimDue s e c).map (fun c => Instr.mxClaim e c) ++
    (agedRicks s k).map (fun i => Instr.rickAgeOut e i) ++
    (if k.egress.isEmpty then [] else [Instr.gqEgressSend e]) ++
    (if sleepDue s e then [Instr.coreSleep e] else []) ++
    (if k.asleep && !coreIdle s e then [Instr.coreWake e] else [])

/-- A context that can take a record: the queue it takes it from, and its place among those that seek there. -/
structure Seeker where
  ep : EP
  ctx : BitVec 2
  key : Nat
  own : Bool
  place : Nat
  deriving DecidableEq, Repr

def seekers (s : State) : List Seeker :=
  (liveCores s).flatMap fun q => (idleCtxs s q.1).filterMap fun n =>
    (seek s q.1 n).map fun r =>
      let own := r.1 == queueKey q.1
      { ep := q.1, ctx := n, key := r.1, own := own, place := 4 * (if own then coreInCluster q.1 else epUnit q.1) + n.toNat }

/-- The contexts of a cluster take their records in ascending core index, then context number; those that steal from it, in
ascending unit number, then context number (R122, R123). -/
def bindEvents (s : State) : List Instr :=
  let xs := seekers s
  let first (x : Seeker) : Bool := xs.all fun y => y.key != x.key || y.own != x.own || decide (x.place ≤ y.place)
  (xs.filter first).map fun x => Instr.contextBind x.ep x.ctx

/-! ### Messages in flight -/

/-- The hop of a collective packet. -/
def hopEvent (p : CollPacket) : Option Instr :=
  match p.entries with
  | [] => none
  | (_, op, arg) :: _ =>
    match op with
    | 0 => some (if arg = 0 then .collContrib p.id else .collChain p.id)
    | 1 => some (.collForward p.id)
    | 2 => some (.collDeliver p.id)
    | _ => some (.collMulticast p.id)

/-- Whether the node that a packet stands at serves it now (R404). -/
def atNode (s : State) (p : CollPacket) : Bool :=
  p.entries.head?.any fun h => served s p h.1 && !(s.chip (epChip h.1)).stopped

def flightEvents (s : State) : List Instr :=
  ((s.cords.filter fun c => cordFirst s c && !moving s c.id && !(s.chip (epChip c.dest)).stopped).map fun c => Instr.cordApply c.id) ++
  ((s.statuses.filter fun c => !moving s c.id && !(s.chip (epChip c.src)).stopped).map fun c => Instr.cordStatus c.id) ++
  ((s.updates.filter fun u => !(s.chip u.chip).stopped).map fun u => Instr.statsUpdateMerge u.id) ++
  (s.packets.filter (atNode s)).filterMap hopEvent ++
  ((s.frags.filter fun f => fragFirst s f && !(s.chip (epChip (fragDest s f))).stopped).map fun f => Instr.gqDeliver f.id)

/-! ### Records and teams -/

/-- Records at the heads of levels that have waited their time (R121). -/
def agedRecords (s : State) : List (ChipNo × Word) :=
  s.ready.flatMap fun q => ([2, 1, 0] : List Nat).filterMap fun l =>
    ((q.2.level l).head?.filter fun r => (agedHead s r.chip r.recA).isSome).map fun r => (r.chip, r.recA)

def teamEvents (s : State) : List Instr :=
  ((s.waiters.filter fun w => !(s.chip w.chip).stopped).filterMap fun w => match w.kind with | .addr _ _ _ _ (some _) => some (Instr.waitaWake w.chip w.recA) | _ => none) ++
  (((agedRecords s).filter fun r => !(s.chip r.1).stopped).map fun r => Instr.readyAge r.1 r.2) ++
  ((s.teams.filter fun t => (t.state == .opened || t.state == .closing) && !(s.chip t.chip).stopped).map fun t =>
    Instr.barrierDecision t.chip t.id)

/-! ### Packages -/

/-- The other end of a port has lanes failed that this end has not heard of, or trains for them. -/
def signalDue (s : State) (chip : ChipNo) (p : BitVec 4) : Bool :=
  let x := portOf s chip p
  match x.peer with
  | some (c, q) => x.state != 0 && (((portOf s c q).failed &&& ~~~x.failed) != 0)
  | none => false

/-- A port that trains is done once both ends agree on the lanes and the wires are empty (R403). -/
def trainDue (s : State) (chip : ChipNo) (p : BitVec 4) : Bool :=
  let x := portOf s chip p
  x.state == 1 && wiresEmpty s chip p && !signalDue s chip p && (match x.peer with
    | some (c, q) => !signalDue s c q
    | none => true)

/-- The flit that reaches a port next: the head of its partner's wire. -/
def arriving (s : State) (chip : ChipNo) (p : BitVec 4) : Option Flit :=
  match (portOf s chip p).peer with
  | some (c, q) => (portOf s c q).out.head?
  | none => none

def portEvents (s : State) (chip : ChipNo) : List Instr :=
  ((List.range 12).map fun i => BitVec.ofNat 4 i).flatMap fun p =>
    ((arriving s chip p).map fun f => Instr.flitReceive chip p f).toList ++
    (if ackDue s chip p then [Instr.ackTimer chip p] else []) ++
    (if replayDue s chip p then [Instr.replayTimeout chip p] else []) ++
    (if signalDue s chip p then [Instr.laneFailureSignal chip p] else []) ++
    (if trainDue s chip p then [Instr.portRetrainDone chip p] else [])

/-- The federations a chip has a live team in. -/
def fedsOn (s : State) (chip : ChipNo) : List Fed :=
  s.feds.filter fun f => s.teams.any fun t => t.chip == chip && t.fed == f.id && t.live

/-- A chip of a federation sends its heartbeats every 8 us (R397). -/
def beatDue (s : State) (chip : ChipNo) : Bool :=
  ((fedsOn s chip).any fun f => !(treeNeighbours f chip).isEmpty) && decide ((s.chip chip).beaten + Config.heartbeatPeriod ≤ s.time)

/-- The chips that a chip judges lost: a tree neighbour unheard of for 64 us, a member without a route (R398). -/
def lostTo (s : State) (chip : ChipNo) : List ChipNo :=
  ((fedsOn s chip).flatMap fun f =>
    (fedChips f).filter fun n => sharesFed chip n f &&
      ((routePort s chip n).isNone ||
        ((treeNeighbours f chip).contains n && decide (alGet (s.chip chip).heard n s.time + Config.lossPeriod ≤ s.time)))).eraseDups

def chipEvents (s : State) : List Instr :=
  (liveChips s).flatMap fun q =>
    let n := q.1
    let c := q.2
    (c.tails.map fun t => Instr.launch n (BitVec.ofNat 4 t.1)) ++
    ((c.lheld.map fun h => h.1).eraseDups.map fun i => Instr.tspawnAppend n (BitVec.ofNat 4 i)) ++
    ((c.shadow.filter fun x => x.2.swapping).map fun x => Instr.shadowSwapDone n (BitVec.ofNat 4 x.1)) ++
    ((c.shoots.filter fun x => !x.nodes.isEmpty).map fun x => Instr.shootdownAck x.id) ++
    (if c.mig.state = 1 ∨ c.mig.state = 2 then [Instr.migrationLineCopy n] else []) ++
    portEvents s n ++ (c.gw.map fun g => Instr.gatewayForward n g.id) ++
    (if beatDue s n then [Instr.linkHeartbeat n] else []) ++
    ((lostTo s n).map fun m => Instr.chipLost n m) ++ (c.told.map fun m => Instr.lossReportReceive n m) ++
    ((c.host.ifaces.toList.zipIdx.filter fun f => f.1.scrubbing).map fun f => Instr.scrubDone n (BitVec.ofNat 3 f.2)) ++
    ((c.col.quiesced.filter fun x => decide (x.2.2 ≤ s.time)).map fun x =>
      Instr.repairQuiesceEnd n (BitVec.ofNat 3 x.1) (BitVec.ofNat 5 x.2.1))

/-- The events that are due. -/
def dueEvents (s : State) : List Instr := ctxEvents s ++ coreEvents s ++ bindEvents s ++ flightEvents s ++ teamEvents s ++ chipEvents s

end Sys2Proof.Machine
end

