-- ==== Sys2Proof/Machine/Sched.lean ====
section
/-! DEFINITION. Which agent moves next (R113; notes/assumptions/5.md), what a move is, and the placing of one instruction
where the next step runs it (notes/assumptions/11.md). The meanings come in as `run`. -/
namespace Sys2Proof.Machine

/-- A control stream that has had to wait keeps no admission of the slot (R277). -/
def regrant (o : Out) : Out :=
  match o with
  | .next a => .next (if a.note == .stalled then ungrant a else a)
  | o => o

/-- An agent moves. -/
def runAgent (run : Run) (a : Agent) (s : State) : Out :=
  match a with
  | .control e n => regrant (issueAgent (issueControl run) (s.switchTo e n))
  | .vector e n => issueVecAgent (issueVector run) (s.switchTo e n)
  | .event i => run i s

/-- A context may issue: its package has not stopped, its team does not wait for a decision to reach its chip (R397), and it is
not a member that follows a leader's fetch. -/
def canIssue (s : State) (c : Context) : Bool :=
  !(s.chip (epChip c.ep)).stopped && (match c.gang with | some l => l == c.recA | none => true) &&
  !((s.team? c.chip c.team).any fun t => t.state.awaits)

/-- What an agent's move comes to: nothing at all, some progress of a stream that has to wait on, or a move. -/
inductive Moves where
  | idle | waits | acts
  deriving DecidableEq, Repr

def movesOf (run : Run) (s : State) (a : Agent) : Moves :=
  let s := match a with
    | .control e n | .vector e n => s.switchTo e n
    | .event _ => s
  match runAgent run a s with
  | .next t =>
    if { t with note := s.note } = s then .idle
    else match a with
      | .event _ => .acts
      | _ => if t.note = .stalled then .waits else .acts
  | _ => .acts

/-- A stream that can issue, with its unit's core, when it last issued, and its context's number. -/
structure Ready where
  agent : Agent
  vec : Bool
  ep : EP
  last : Nat
  no : Nat
  deriving DecidableEq, Repr

/-- A bound context still reissues what was saved with it: its control stream goes on after that (R78). A vector stream that
stands at a queue lets the control stream go on, which alone can serve the queue (DEDUCED, notes/assumptions/127.md). -/
def reissues (c : Context) : Bool := c.reissuing && vecBusy c && !vecHeld c

/-- The streams of the bound contexts. -/
def allStreams (s : State) : List Ready :=
  (s.contexts.filter (canIssue s)).flatMap fun c =>
    (if c.mode == .running && !reissues c then
      [{ agent := .control c.ep c.no, vec := false, ep := c.ep, last := c.ranC, no := c.no.toNat }] else []) ++
    (if vecReady c then
      [{ agent := .vector c.ep c.no, vec := true, ep := c.ep, last := c.ranV, no := c.no.toNat }] else [])

/-- The streams that can move: in each pipeline and vector unit, of the contexts that can issue, the one that issued least
recently (R113); and those that wait, but have something to bring on its way. Of contexts that have never issued, or last
issued in the same step, the lowest-numbered goes first; a gang competes on its leader's core alone, by when the leader last
issued (R113 says neither; DESIGN CHOICE, notes/assumptions/128.md). -/
def streams (run : Run) (s : State) : List Agent :=
  let all := allStreams s
  let can := all.filter fun x => movesOf run s x.agent = .acts
  let first (x : Ready) : Bool :=
    can.all fun y => y.ep != x.ep || y.vec != x.vec || decide (x.last < y.last) || (x.last == y.last && decide (x.no ≤ y.no))
  (can.filter first).map (fun x => x.agent) ++ (all.filter fun x => movesOf run s x.agent = .waits).map fun x => x.agent

/-- Everything that can happen next. -/
def agents (run : Run) (s : State) : List Agent :=
  streams run s ++ ((dueEvents s).map Agent.event).filter fun a => movesOf run s a = .acts

/-- The stream of a context that is bound. -/
def Agent.ofBound (s : State) : Agent → Bool
  | .control e n | .vector e n => (s.ctx e n).bound
  | .event _ => false

/-- How many more moves each agent that was passed over may be passed over (R124): what is left of its patience, or a patience that
nothing bounds but its being finite (notes/assumptions/5.md). A bound context's stream that cannot move just now, and is not the
one chosen, keeps what it has left. -/
def patienceOf (s : State) (chosen : Agent) (xs : List Agent) : List (Agent × Nat) :=
  (xs.zipIdx.map fun x => (x.1, match s.patience.lookup x.1 with
    | some n => n - 1
    | none => Config.patience (s.freeIx + 1 + x.2))) ++
  s.patience.filter fun p => p.1 != chosen && !xs.contains p.1 && p.1.ofBound s

/-- The agent that moves next: one that has been passed over for as long as it may be, else any. -/
def choose (s : State) (xs : List Agent) : Option Agent :=
  (xs.find? fun a => s.patience.lookup a == some 0).orElse fun _ => xs[Config.pick s.freeIx % xs.length]?

/-! ### Errors from outside (R200, R345, R346, R421) -/

def bumpEcc (e : Errs) : Errs := { e with ecc := satAdd 16 e.ecc 1 }

/-- Change the entry of a list at an index. -/
def modAt (l : List α) (i : Nat) (f : α → α) : List α := l.zipIdx.map fun x => if x.2 = i then f x.1 else x.1

/-- An error comes about in the device's state. -/
def applyUpset (s : State) (u : Upset) : State :=
  match u with
  | .tlb chip i => s.modChip chip fun c => { c with tlb := modAt c.tlb i fun x => { x with bad := true } }
  | .walk chip i => s.modChip chip fun c => { c with walks := modAt c.walks i fun x => { x with bad := true } }
  | .reads chip xs => s.modChip chip fun c => { c with noise := xs }
  | .corrected chip part => correctable s chip (match part with | some p => reporter s chip p | none => .pf) bumpEcc
  | .memory key => { s with poison := (s.poison ++ [key / 64]).eraseDups }
  | .context ep ctx => if (s.ctx ep ctx).bound then s.modCtx ep ctx fun c => { c with hurt := true } else s
  | .matrix ep => s.modCore ep fun k => { k with mx := { k.mx with hurt := true } }
  | .superstep chip team =>
    match s.liveTeam? chip team with
    | some _ => addVote { s with freeIx := s.freeIx + 1 } chip team { cause := 1, pc := Config.freeWord s.freeIx, rank := 0, ctx := 0 }
    | none => s

def applyUpsets (s : State) : State :=
  if s.upsets.isEmpty then s else s.upsets.foldl applyUpset { s with upsets := [] }

/-- One move: the agent that `sel` names, else the next input from outside, else one of the agents that can move. -/
def move (run : Run) (s : State) : Out :=
  let s := applyUpsets s
  match s.sel with
  | some a => runAgent run a { s with sel := none }
  | none =>
    match s.agenda with
    | i :: is => run i { s with agenda := is }
    | [] =>
      let xs := agents run s
      match choose s xs with
      | none => .next { s with note := .done }
      | some a =>
        let rest := xs.filter fun x => x != a
        runAgent run a { s with freeIx := s.freeIx + 1 + rest.length, patience := patienceOf s a rest }

/-- A core that works is not idle (R348). -/
def stampIdle (s : State) : State :=
  { s with cores := s.cores.map fun (k : Nat × Core) =>
      if k.2.asleep || coreIdle s (BitVec.ofNat 32 k.1) then k else (k.1, { k.2 with idleSince := s.time }) }

/-- Reads that errors have disturbed are over with the move. -/
def dropNoise (s : State) : State :=
  if s.chips.all fun (c : Nat × Chip) => c.2.noise.isEmpty then s
  else { s with chips := s.chips.map fun (c : Nat × Chip) => (c.1, { c.2 with noise := [] }) }

/-- What a change of the state brings about by itself: awaited words are seen (R176), interfaces whose frozen set was broken
halt their teams (R435), a collier event ends HALT (R382), a queue that is off fails what is held for it (R192). -/
def follow (s : State) : State := dropNoise (stampIdle (failHeld (wakeCollier (settleIfaces (latchWaits s)))))

/-- One F-cycle passes with each move. -/
def tick (o : Out) : Out :=
  match o with
  | .next s => .next (follow { s with time := s.time + 1 })
  | o => o

/-! ### Placing one instruction -/

/-- The line that holds a slot alone: slot 0 a branch target in its stream, slots 1-4 empty, both parities right. -/
def soloLine (vec : Bool) (w : Slot) : Line :=
  let spar := popCount w.toNat 96 % 2
  let low := 1 + (if vec then 2 else 0) * 2 ^ 5 + 255 * 2 ^ 7 + spar * 2 ^ 15
  let word := low + popCount low 20 % 2 * 2 ^ 20
  BitVec.ofNat 512 (word + w.toNat * 2 ^ 32)

def placeRoot : Nat := 0x200000
def placeRec : Word := 0x1000
def placeSave : Word := 0x2000

/-- A team of one core on chip 0, as a launch would record it. -/
def placeTeam (e : EP) : Team :=
  { chip := epChip e, id := 1, state := .opened, die := epDie e, x0 := coreX e, y0 := coreY e, w := 1, h := 1, queue := 0,
    entry := 0, strict := false, budget := 0, gGran := 16, vGran := 8, prio := 0, k0 := 0, parent := 0,
    svc := collierEp (epChip e), cword := 0, cval := 0, nrec := 0, rectab := 0, recPages := [], npeer := 0, peert := 0,
    mirt := 0, lchip := 0, root := BitVec.ofNat 64 placeRoot, ssn := 1, retry := 0, aborts := 0, attempts := 0,
    lastCause := 0, prev := none, confl := 0, resumes := 0, votes := [], arrivals := [], recs := [placeRec], held := [],
    ckpt := Ckpt.empty, fed := 0, gone := [], ask := none, atBarrier := [], steps := 0, stepMark := false, stats := [],
    service := false, resumeSsn := none, optRecs := [], gangs := [] }

/-- Bytes of the tables, the line and the record, by physical address: one 2 MiB leaf maps the virtual addresses 0 to
2 MiB - 1 onto the physical ones, readable, writable, executable by the user, live, bound to no record. -/
def placeCells (vec : Bool) (w : Slot) : List (Nat × List Byte) :=
  let ptr (a : Nat) : List Byte := bytesOf (a + 1) 8
  [ (0, bytesOf (soloLine vec w).toNat 64),
    (0x1000, bytesOf 0 8 ++ bytesOf (2 ^ 9 + stRunning) 4 ++ bytesOf (8 * 2 ^ 8 + 16) 4 ++ bytesOf placeSave.toNat 8 ++
      List.replicate 20 0 ++ bytesOf 1 4 ++ List.replicate 16 0),
    (placeRoot, ptr (placeRoot + 0x2000)),
    (placeRoot + 0x2000, ptr (placeRoot + 0x4000)),
    (placeRoot + 0x4000, ptr (placeRoot + 0x6000)),
    (placeRoot + 0x6000, bytesOf (2 * 2 ^ 7 + 0x3F) 8),
    (placeRoot + 0x7000, bytesOf (0xFFFF * 2 ^ 46 + 2 ^ 40 + 0x1F * 2 ^ 32 + 0xFFFFFFFF) 8) ]

/-- The state whose next step runs the instruction of `w` on the executing context's unit, as the first instruction of a
team of one. -/
def placeWord (s : State) (w : Slot) : State :=
  let vec := !streamOk false (w.extractLsb' 88 8)
  let e := s.cx.ep
  let chip := epChip e
  let mem := (placeCells vec w).foldl (fun m c => m.setBytes (physKey chip c.1) c.2) s.mem
  let s := { s with mem := mem, teams := s.teams ++ [placeTeam e], sel := some (.control e s.cx.no), agenda := [] }
  let s := s.modChip chip fun c => c.setReg (0x210 + partOf e) (BitVec.ofNat 64 placeRoot)
  let s := s.modCore e fun k => { k with team := 1, rank := 0, freeG := k.freeG - 16, freeV := k.freeV - 8 }
  { s with cx := { s.cx with mode := .running, chip := chip, team := 1, rank := 0, recA := placeRec, pc := 0, gGran := 16,
                             vGran := 8, line := none } }

end Sys2Proof.Machine
end

