-- ==== Sys2Proof/Safety.lean ====
section
/-! DEFINITION. What counts as a safe run, and the conditions in whose terms claims are stated: when an instruction may
take its effect at once, and the invariants of the state. -/
namespace Sys2Proof.Machine

/-! ### Invariants and runs -/

/-- The invariant of the memory representation (Machine/Mem.lean). -/
def State.MemOk (s : State) : Prop := Memory.wf s.mem = true

/-- A step that goes on. -/
def State.Goes (s : State) : Prop := ∃ t, step s = .next t

/-- A run of n steps that goes on throughout, with memory canonical at its end. -/
def State.SafeRun (n : Nat) (s : State) : Prop := ∃ t, Sys2Proof.core.run n s = .next t ∧ t.MemOk

/-- No context stands halted while a collier event of its package is pending (R382). -/
def State.HaltOk (s : State) : Prop :=
  ∀ c ∈ s.contexts, c.mode = .halted → (s.chip (epChip c.ep)).col.event = false

/-! ### When an instruction takes its effect -/

/-- The state with the note that an instruction is done: its PC moves on. -/
def State.done (s : State) : State := { s with note := .done }

/-- The control stream may run an instruction now: its privilege (R379, R383), its registers inside the allotment (R24), no
vector instruction before it that writes one of them (R38), and, where one of its fields reads a constant-window slot, no vector access
before it (R77) and no error in the slot (R200). -/
def State.canRun (s : State) (i : Instr) : Bool :=
  decide (i.privNeed ≤ s.cx.priv.level) && allotOk s.cx i.uses && !scalarHazard s.cx i.uses &&
  ((i.cws s).isEmpty || !(vecWaiting s.cx).any VEntry.touches) && windowClean s (i.cws s)

/-- The executing context issues a control-stream instruction, and no vector instruction of it waits. -/
def State.atControl (s : State) : Bool :=
  s.cx.vsrc == .control && s.cx.caps.isEmpty && s.cx.vq.isEmpty && !s.cx.rep.active && !s.cx.rep.loaded && !s.cx.rep.capturing &&
  s.cx.vAllot.isNone && s.cx.capG2.isNone && s.cx.iterNo == 0

/-- The vector stream and its core's vector unit are idle, and an instruction may issue at once (R75, R113,
notes/assumptions/9.md). -/
def State.canIssueVec (s : State) (i : Instr) : Bool :=
  s.atControl && unitFree s && windowClean s i.vcws && decide (i.privNeed ≤ s.cx.priv.level) && allotOk s.cx i.uses

/-! ### When an access goes through -/

/-- `i` may run in `s` and its predicate is on. -/
def Runs (i : Instr) (ms : Ms) (s : State) : Prop := s.canRun i = true ∧ ms.on s = true

/-- No rick and no cord of the executing core holds an element for one of the endpoints (R333). -/
def NoRick (s : State) (ds : List EP) : Prop :=
  rickFor s s.cx.ep ds = [] ∧ ∀ c ∈ s.cords, c.src = s.cx.ep → c.dest ∉ ds

/-- No rick and no cord of the executing core holds an element of the executing context for one of the endpoints (R77). -/
def NoOwnRick (s : State) (ds : List EP) : Prop :=
  (∀ r ∈ (s.core s.cx.ep).ricks.toList, ∀ d, r.dest = some d → d ∈ ds → ∀ x ∈ r.elems, x.recA ≠ s.cx.recA) ∧
    ∀ c ∈ s.cords, c.src = s.cx.ep → c.dest ∈ ds → ∀ x ∈ c.elems, x.recA ≠ s.cx.recA

/-- An operation on the bytes `pls` need not wait at the far agent of the first: nothing that arrived there before it stands in the
agent's request queue (R334). -/
def FarHead (s : State) (pls : List Place) : Prop :=
  farQueues s = true → ∀ pl, pls.head? = some pl → isBufKey pl.key = false →
    match s.myReq with
    | none => farAhead s (farAgentOf pl.key) s.nextId = false
    | some r => r.agent = farAgentOf pl.key ∧ farAhead s r.agent r.seq = false

/-- No rick, no cord and no status of the executing core is open, so a release of any scope passes (R232). -/
def Released (s : State) : Prop :=
  openRicks (s.core s.cx.ep) = [] ∧ (∀ c ∈ s.cords, c.src ≠ s.cx.ep) ∧ ∀ c ∈ s.statuses, c.src ≠ s.cx.ep

/-- A release of a scope passes: of scope context or core because no vector instruction waits, wider because all is drained. -/
def ReleaseOk (s : State) (rel : Bool) (sc : Scope) : Prop :=
  rel = true → sc = .context ∨ sc = .core ∨ Released s

/-- The control stream's access of `n` bytes at `p` passes every check of R66, its bytes are `pls`, and neither R77 nor R333
holds it up. -/
def Reaches (s : State) (nd : Need) (am : Am) (align : Nat) (p : Word) (n : Nat) (pls : List Place) : Prop :=
  s.atControl = true ∧ places s.done (ctxWho s.done false) nd am align false p n = .ok pls ∧
    NoRick s (pls.map (·.dest)).eraseDups

end Sys2Proof.Machine
end

