-- ==== Sys2Proof/Certificates/Slice0/Obligations.lean ====
section
/-! DEFINITION. The statements for the provers, from the numbered rules of the spec. Each docstring says what the statement
claims; OBLIGATIONS.json gives its rules. -/
open Sys2Proof Sys2Proof.Machine

/-! ### Words of W bits (R40) -/

/-- The low `w` bits of a 64-bit value. -/
def Sys2Proof.Machine.lowBits (w : Nat) (x : Word) : BitVec w := x.setWidth w

/-- A result of `w` bits as a g register holds it: sign-extended or zero-extended (R40). -/
def Sys2Proof.Machine.widen {w : Nat} (sg : Bool) (x : BitVec w) : Word := if sg then x.signExtend 64 else x.setWidth 64

/-- R40: `i`, whose operands are g[A] and b, writes `op` of their low W bits, extended, to g[D] and does nothing else. -/
def Sys2Proof.Machine.WritesBin (i : Instr) (w : Nat) (sg : Bool) (d a : GReg) (b : BOp) (ms : Ms)
    (op : BitVec w → BitVec w → BitVec w) : Prop :=
  ∀ s : State, s.canRun i = true → ms.on s = true →
    exec i s = .next (s.done.setG d (widen sg (op (lowBits w (s.g a)) (lowBits w (b.val s)))))

/-- `i` writes the value `f` of the state to g[D] and does nothing else. -/
def Sys2Proof.Machine.WritesG (i : Instr) (d : GReg) (ms : Ms) (f : State → Word) : Prop :=
  ∀ s : State, s.canRun i = true → ms.on s = true → exec i s = .next (s.done.setG d (f s))

/-- `i` writes the truth value `f` of the state to p[D] and does nothing else. -/
def Sys2Proof.Machine.WritesP (i : Instr) (d : PReg) (ms : Ms) (f : State → Bool) : Prop :=
  ∀ s : State, s.canRun i = true → ms.on s = true → exec i s = .next (s.done.setP d (f s))

/-- In every state where the instruction may run and its predicate is on, ADD, SUB and MUL write the W-bit sum,
difference and product of the low W bits of g[A] and b, and MULH and MULHN bits [2W-1:W] of the signed and the
unsigned product; AND, OR, XOR, ANDN and ORN are bitwise; SHL, SHR, SAR and ROL shift or rotate a by b modulo W; MIN
and MAX compare as signed and MINN and MAXN as unsigned; each result is extended by the type's signedness and nothing
but g[D] changes (the execution part of R40, R41 and R43). (spec/02_scalar_ops.md section Integer instructions) -/
def Obligations.IntegerArithmetic : Prop :=
  (∀ ty d a b ms, WritesBin (.add ty d a b ms) ty.bits ty.signed d a b ms fun x y => x + y) ∧
  (∀ ty d a b ms, WritesBin (.sub ty d a b ms) ty.bits ty.signed d a b ms fun x y => x - y) ∧
  (∀ ty d a b ms, WritesBin (.mul ty d a b ms) ty.bits ty.signed d a b ms fun x y => x * y) ∧
  (∀ w d a b ms, WritesBin (.mulh w d a b ms) w.bits true d a b ms fun x y =>
    (x.signExtend (2 * w.bits) * y.signExtend (2 * w.bits)).extractLsb' w.bits w.bits) ∧
  (∀ w d a b ms, WritesBin (.mulhn w d a b ms) w.bits false d a b ms fun x y =>
    (x.setWidth (2 * w.bits) * y.setWidth (2 * w.bits)).extractLsb' w.bits w.bits) ∧
  (∀ ty d a b ms, WritesBin (.andI ty d a b ms) ty.bits ty.signed d a b ms fun x y => x &&& y) ∧
  (∀ ty d a b ms, WritesBin (.orI ty d a b ms) ty.bits ty.signed d a b ms fun x y => x ||| y) ∧
  (∀ ty d a b ms, WritesBin (.xorI ty d a b ms) ty.bits ty.signed d a b ms fun x y => x ^^^ y) ∧
  (∀ ty d a b ms, WritesBin (.andn ty d a b ms) ty.bits ty.signed d a b ms fun x y => x &&& ~~~y) ∧
  (∀ ty d a b ms, WritesBin (.orn ty d a b ms) ty.bits ty.signed d a b ms fun x y => x ||| ~~~y) ∧
  (∀ ty d a b ms, WritesBin (.shl ty d a b ms) ty.bits ty.signed d a b ms fun x y => x <<< (y.toNat % ty.bits)) ∧
  (∀ ty d a b ms, WritesBin (.shr ty d a b ms) ty.bits ty.signed d a b ms fun x y => x >>> (y.toNat % ty.bits)) ∧
  (∀ ty d a b ms, WritesBin (.sar ty d a b ms) ty.bits ty.signed d a b ms fun x y => x.sshiftRight (y.toNat % ty.bits)) ∧
  (∀ ty d a b ms, WritesBin (.rol ty d a b ms) ty.bits ty.signed d a b ms fun x y => x.rotateLeft (y.toNat % ty.bits)) ∧
  (∀ w d a b ms, WritesBin (.minS w d a b ms) w.bits true d a b ms fun x y => if y.slt x then y else x) ∧
  (∀ w d a b ms, WritesBin (.maxS w d a b ms) w.bits true d a b ms fun x y => if x.slt y then y else x) ∧
  (∀ w d a b ms, WritesBin (.minn w d a b ms) w.bits false d a b ms fun x y => if y.ult x then y else x) ∧
  (∀ w d a b ms, WritesBin (.maxn w d a b ms) w.bits false d a b ms fun x y => if x.ult y then y else x)

/-- In every state where the instruction may run and its predicate is on, DIV and REM write the signed quotient
truncated toward zero and its remainder, DIVN and REMN the unsigned ones; a divisor of zero gives all W bits ones as
the quotient and a as the remainder, and the most negative number divided by -1 gives itself and the remainder 0;
nothing but g[D] changes. (R42) -/
def Obligations.Division : Prop :=
  (∀ w d a b ms, WritesBin (.div w d a b ms) w.bits true d a b ms fun x y =>
    if y = 0 then BitVec.allOnes w.bits else x.sdiv y) ∧
  (∀ w d a b ms, WritesBin (.divn w d a b ms) w.bits false d a b ms fun x y =>
    if y = 0 then BitVec.allOnes w.bits else x.udiv y) ∧
  (∀ w d a b ms, WritesBin (.remS w d a b ms) w.bits true d a b ms fun x y => if y = 0 then x else x.srem y) ∧
  (∀ w d a b ms, WritesBin (.remn w d a b ms) w.bits false d a b ms fun x y => if y = 0 then x else x.umod y) ∧
  (∀ w : Width, (BitVec.intMin w.bits).sdiv (BitVec.allOnes w.bits) = BitVec.intMin w.bits ∧
    (BitVec.intMin w.bits).srem (BitVec.allOnes w.bits) = 0)

/-- In every state where the instruction may run and its predicate is on: CLZ writes the n whose W-n low bits hold the
highest set bit, and W for 0; CTZ writes the position of the lowest set bit, and W for 0; POPC writes the number of
ones; BREV writes the low W bits in reverse order, extended by the type's signedness. For every well-formed
instruction: SEXT and ZEXT extend the low n bits of g[A]; BFX and BFXN write the field of len bits at pos,
sign-extended or zero-extended; BFI replaces exactly those bits of the old g[D] by the low bits of g[A]. Nothing but
g[D] changes. (spec/02_scalar_ops.md section Integer instructions) -/
def Obligations.BitCountsAndFields : Prop :=
  (∀ ty d a ms s, s.canRun (.clz ty d a ms) = true → ms.on s = true →
    ∃ n ≤ ty.bits, exec (.clz ty d a ms) s = .next (s.done.setG d (BitVec.ofNat 64 n)) ∧
      (∀ k, ty.bits - n ≤ k → (lowBits ty.bits (s.g a)).getLsbD k = false) ∧
      (n < ty.bits → (lowBits ty.bits (s.g a)).getLsbD (ty.bits - n - 1) = true)) ∧
  (∀ ty d a ms s, s.canRun (.ctz ty d a ms) = true → ms.on s = true →
    ∃ n ≤ ty.bits, exec (.ctz ty d a ms) s = .next (s.done.setG d (BitVec.ofNat 64 n)) ∧
      (∀ k < n, (lowBits ty.bits (s.g a)).getLsbD k = false) ∧
      (n < ty.bits → (lowBits ty.bits (s.g a)).getLsbD n = true)) ∧
  (∀ ty d a ms, WritesG (.popc ty d a ms) d ms fun s =>
    BitVec.ofNat 64 ((List.range ty.bits).filter fun k => (s.g a).getLsbD k).length) ∧
  (∀ ty d a ms, WritesG (.brev ty d a ms) d ms fun s => widen ty.signed (lowBits ty.bits (s.g a)).reverse) ∧
  (∀ d a n ms, (Instr.sext d a n ms).WellFormed →
    WritesG (.sext d a n ms) d ms fun s => widen true (lowBits n.toNat (s.g a))) ∧
  (∀ d a n ms, (Instr.zext d a n ms).WellFormed →
    WritesG (.zext d a n ms) d ms fun s => widen false (lowBits n.toNat (s.g a))) ∧
  (∀ d a pos len ms, (Instr.bfx d a pos len ms).WellFormed →
    WritesG (.bfx d a pos len ms) d ms fun s => widen true ((s.g a).extractLsb' pos.toNat len.toNat)) ∧
  (∀ d a pos len ms, (Instr.bfxn d a pos len ms).WellFormed →
    WritesG (.bfxn d a pos len ms) d ms fun s => widen false ((s.g a).extractLsb' pos.toNat len.toNat)) ∧
  (∀ d a pos len ms s, (Instr.bfi d a pos len ms).WellFormed → s.canRun (.bfi d a pos len ms) = true → ms.on s = true →
    ∃ v : Word, exec (.bfi d a pos len ms) s = .next (s.done.setG d v) ∧
      ∀ k < 64, v.getLsbD k =
        if pos.toNat ≤ k ∧ k < pos.toNat + len.toNat then (s.g a).getLsbD (k - pos.toNat) else (s.g d).getLsbD k)

/-- In every state where the instruction may run and its predicate is on: CMP writes the condition of the low W bits,
signed for .iW and unsigned for .nW; SEL chooses by p[IMM32[2:0]] XOR IMM32[3]; PLOG combines two predicates; MOV
moves a register, a sign-extended immediate or a predicate; LI writes its 64-bit immediate; LCW writes a slot of the
constant window; nothing but the destination changes. (spec/02_scalar_ops.md section Integer instructions) -/
def Obligations.CompareSelectMove : Prop :=
  (∀ c ty d a b ms, WritesP (.cmp c ty d a b ms) d ms fun s =>
    let x := lowBits ty.bits (s.g a)
    let y := lowBits ty.bits (b.val s)
    let lt := if ty.signed then x.slt y else x.ult y
    match c with
    | .eq => x == y
    | .ne => x != y
    | .lt => lt
    | .le => lt || x == y
    | .gt => !(lt || x == y)
    | .ge => !lt) ∧
  (∀ d a b p inv ms, WritesG (.sel d a b p inv ms) d ms fun s => if (s.p p ^^ inv) = true then s.g a else b.val s) ∧
  (∀ op d a b ms, WritesP (.plog op d a b ms) d ms fun s =>
    match op with
    | .and => s.p a && s.p b
    | .or => s.p a || s.p b
    | .xor => s.p a ^^ s.p b
    | .andn => s.p a && !s.p b
    | .orn => s.p a || !s.p b
    | .nor => !(s.p a || s.p b)) ∧
  (∀ d a ms, WritesG (.mov (.gFromG d a) ms) d ms fun s => s.g a) ∧
  (∀ d imm ms, WritesG (.mov (.gFromImm d imm) ms) d ms fun _ => imm.signExtend 64) ∧
  (∀ d a ms, WritesG (.mov (.gFromP d a) ms) d ms fun s => if s.p a then 1 else 0) ∧
  (∀ d a ms, WritesP (.mov (.pFromG d a) ms) d ms fun s => decide (s.g a ≠ 0)) ∧
  (∀ d imm, WritesG (.li d imm) d Ms.always fun _ => imm) ∧
  (∀ d c ms, WritesG (.lcw d (.slot c) ms) d ms fun s => BitVec.ofNat 64 (s.cwSlot c)) ∧
  (∀ d a ms, WritesG (.lcw d (.reg a) ms) d ms fun s => BitVec.ofNat 64 (s.cwSlot ((s.g a).setWidth 8)))

/-- PtrAdd changes only the address field of its pointer ([19:0] in spaces 1-5, [56:0] in space 0, [47:0] in space 6,
all bits elsewhere) and adds within that width. In every state where the instruction may run and its predicate is on,
LEA writes PtrAdd of g[A] and the scaled b plus the offset, MKPTR builds the pointer of its space, field and address,
and PTRX extracts the space, the rank or peer, the address or the owner's rank; nothing but g[D] changes.
(spec/02_scalar_ops.md section Pointer instructions) -/
def Obligations.PointerOperations : Prop :=
  (∀ p x : Word,
    (ptrAdd p x).extractLsb' 60 4 = p.extractLsb' 60 4 ∨ 7 ≤ ptrSpace p) ∧
  (∀ p x : Word, 1 ≤ ptrSpace p → ptrSpace p ≤ 5 →
    (ptrAdd p x).extractLsb' 20 44 = p.extractLsb' 20 44 ∧
    (ptrAdd p x).extractLsb' 0 20 = p.extractLsb' 0 20 + x.extractLsb' 0 20) ∧
  (∀ p x : Word, ptrSpace p = 0 →
    (ptrAdd p x).extractLsb' 57 7 = p.extractLsb' 57 7 ∧
    (ptrAdd p x).extractLsb' 0 57 = p.extractLsb' 0 57 + x.extractLsb' 0 57) ∧
  (∀ p x : Word, ptrSpace p = 6 →
    (ptrAdd p x).extractLsb' 48 16 = p.extractLsb' 48 16 ∧
    (ptrAdd p x).extractLsb' 0 48 = p.extractLsb' 0 48 + x.extractLsb' 0 48) ∧
  (∀ p x : Word, 7 ≤ ptrSpace p → ptrAdd p x = p + x) ∧
  (∀ d a b sh off ms, WritesG (.lea d a b sh off ms) d ms fun s =>
    ptrAdd (s.g a) ((b.val s <<< sh.toNat) + off.signExtend 64)) ∧
  (∀ d a (f : MkForm) (sp : BitVec 4) ms, (Instr.mkptr d a f sp ms).WellFormed → WritesG (.mkptr d a f sp ms) d ms fun s =>
    let fld : BitVec 12 := match f with | .imm x => x | .reg b => (s.g b).setWidth 12
    if sp = 0 then ((s.g a).extractLsb' 0 57).setWidth 64
    else if sp = 6 then sp ++ fld ++ (s.g a).extractLsb' 0 48
    else sp ++ fld ++ 0#28 ++ (s.g a).extractLsb' 0 20) ∧
  (∀ d a ms, WritesG (.ptrx .space d a ms) d ms fun s => BitVec.ofNat 64 (ptrSpace (s.g a))) ∧
  (∀ d a ms, WritesG (.ptrx .rank d a ms) d ms fun s =>
    if 1 ≤ ptrSpace (s.g a) ∧ ptrSpace (s.g a) ≤ 6 then BitVec.ofNat 64 (ptrRank (s.g a)) else 0) ∧
  (∀ d a ms, WritesG (.ptrx .addr d a ms) d ms fun s =>
    let p := s.g a
    if ptrSpace p = 0 then (p.extractLsb' 0 57).setWidth 64
    else if ptrSpace p ≤ 5 then (p.extractLsb' 0 20).setWidth 64
    else if ptrSpace p = 6 then (p.extractLsb' 0 48).setWidth 64
    else p) ∧
  (∀ d a ms, WritesG (.ptrx .owner d a ms) d ms fun s =>
    let p := s.g a
    if 1 ≤ ptrSpace p ∧ ptrSpace p ≤ 5 ∧ ptrRank p = 0xFFF then BitVec.ofNat 64 (s.cwSlot 0xF0)
    else if 1 ≤ ptrSpace p ∧ ptrSpace p ≤ 6 then BitVec.ofNat 64 (ptrRank p) else 0)

/-- In every state where the instruction may run and its predicate is on, FADD, FSUB, FMUL, FFMA, FDIV, FSQRT, FMIN,
FMAX and FSGN write the pattern that their operation gives for the low bits of g[A], b and, for FFMA, the old g[D],
with the higher bits zero, and OR its flags into FFLAGS (FSGN sets none); FCLASS writes the one-hot class; FCMP writes
p[D]; FCVT converts between types or splits an FP32 value; nothing else changes. (spec/02_scalar_ops.md section Scalar
floating-point instructions) -/
def Obligations.FloatArithmetic : Prop :=
  (∀ ty d a b rnd ms s, s.canRun (.fadd ty d a b rnd ms) = true → ms.on s = true →
    exec (.fadd ty d a b rnd ms) s = .next (fput s.done d ((fspec ty).add rnd (fbits ty (s.g a)) (fbits ty (b.val s))))) ∧
  (∀ ty d a b rnd ms s, s.canRun (.fsub ty d a b rnd ms) = true → ms.on s = true →
    exec (.fsub ty d a b rnd ms) s = .next (fput s.done d ((fspec ty).sub rnd (fbits ty (s.g a)) (fbits ty (b.val s))))) ∧
  (∀ ty d a b rnd ms s, s.canRun (.fmul ty d a b rnd ms) = true → ms.on s = true →
    exec (.fmul ty d a b rnd ms) s = .next (fput s.done d ((fspec ty).mul rnd (fbits ty (s.g a)) (fbits ty (b.val s))))) ∧
  (∀ ty d a b rnd ms s, s.canRun (.ffma ty d a b rnd ms) = true → ms.on s = true →
    exec (.ffma ty d a b rnd ms) s =
      .next (fput s.done d ((fspec ty).fma rnd (fbits ty (s.g a)) (fbits ty (b.val s)) (fbits ty (s.g d))))) ∧
  (∀ ty d a b rnd ms s, s.canRun (.fdiv ty d a b rnd ms) = true → ms.on s = true →
    exec (.fdiv ty d a b rnd ms) s = .next (fput s.done d ((fspec ty).div rnd (fbits ty (s.g a)) (fbits ty (b.val s))))) ∧
  (∀ ty d a rnd ms s, s.canRun (.fsqrt ty d a rnd ms) = true → ms.on s = true →
    exec (.fsqrt ty d a rnd ms) s = .next (fput s.done d ((fspec ty).sqrt rnd (fbits ty (s.g a))))) ∧
  (∀ ty d a b ms s, s.canRun (.fmin ty d a b ms) = true → ms.on s = true →
    exec (.fmin ty d a b ms) s = .next (fput s.done d ((fspec ty).minmax false (fbits ty (s.g a)) (fbits ty (b.val s))))) ∧
  (∀ ty d a b ms s, s.canRun (.fmax ty d a b ms) = true → ms.on s = true →
    exec (.fmax ty d a b ms) s = .next (fput s.done d ((fspec ty).minmax true (fbits ty (s.g a)) (fbits ty (b.val s))))) ∧
  (∀ op ty d a b ms, WritesG (.fsgn op ty d a b ms) d ms fun s =>
    BitVec.ofNat 64 ((fspec ty).sgn op (fbits ty (s.g a)) (fbits ty (b.val s)))) ∧
  (∀ ty d a ms, WritesG (.fclass ty d a ms) d ms fun s => BitVec.ofNat 64 ((fspec ty).classify (fbits ty (s.g a)))) ∧
  (∀ c ty d a b ms s, s.canRun (.fcmp c ty d a b ms) = true → ms.on s = true →
    exec (.fcmp c ty d a b ms) s =
      .next ((s.done.setP d ((fspec ty).cmp c (fbits ty (s.g a)) (fbits ty (b.val s))).1).orFlags
        ((fspec ty).cmp c (fbits ty (s.g a)) (fbits ty (b.val s))).2)) ∧
  (∀ d a t u r ms s, s.canRun (.fcvt d a (.conv t u r) ms) = true → ms.on s = true →
    exec (.fcvt d a (.conv t u r) ms) s =
      .next ((s.done.setG d (extend t.width t.isSigned (tyOf t r (tyVal u ((s.g a).toNat % 2 ^ u.width))).1)).orFlags
        (tyOf t r (tyVal u ((s.g a).toNat % 2 ^ u.width))).2)) ∧
  (∀ d a p ms s, s.canRun (.fcvt d a (.split p) ms) = true → ms.on s = true →
    exec (.fcvt d a (.split p) ms) s =
      .next (fput s.done d (match p with
        | .hi => (splitParts ((s.g a).toNat % 2 ^ 32)).1.1
        | .mid => (splitParts ((s.g a).toNat % 2 ^ 32)).1.2.1
        | .lo => (splitParts ((s.g a).toNat % 2 ^ 32)).1.2.2, (splitParts ((s.g a).toNat % 2 ^ 32)).2)))

/-- For each of the five float types and every rounding mode: an operand that is a NaN, the addend of FFMA among them,
makes the sum, difference, product, fused result, quotient and root the canonical quiet NaN, and NV is set when an
operand is a signalling NaN or the product of FFMA is one of zero and infinity; the sum of two infinities of opposite
sign, in FFMA that of an infinite product and an infinite addend of the other sign, the quotient of two zeros or of
two infinities, a product of zero and infinity and the root of a negative non-zero number are the quiet NaN with NV; a
finite non-zero number divided by zero is an infinity with DZ; the root of a zero is that zero without a flag.
(spec/02_scalar_ops.md section Scalar floating-point instructions) -/
def Obligations.FloatSpecialCases : Prop :=
  ∀ (ty : FloatTy) (rnd : Rnd) (a b : Nat),
    let f := fspec ty
    let x := f.decode a
    let y := f.decode b
    (x.isNan = true ∨ y.isNan = true →
      f.add rnd a b = (f.qnan, sigFlag [x, y]) ∧ f.sub rnd a b = (f.qnan, sigFlag [x, y]) ∧
      f.mul rnd a b = (f.qnan, sigFlag [x, y]) ∧ f.div rnd a b = (f.qnan, sigFlag [x, y]) ∧
      ∀ d, f.fma rnd a b d = (f.qnan, if badMul x y then flNV else sigFlag [x, y, f.decode d])) ∧
    (∀ d, (f.decode d).isNan = true → f.fma rnd a b d = (f.qnan, if badMul x y then flNV else sigFlag [x, y, f.decode d])) ∧
    (x.isNan = true → f.sqrt rnd a = (f.qnan, sigFlag [x])) ∧
    (∀ n, x = .inf n → y = .inf (!n) → f.add rnd a b = (f.qnan, flNV)) ∧
    (∀ n, x = .inf n → y = .inf n → f.sub rnd a b = (f.qnan, flNV)) ∧
    (∀ n d, x.isNan = false → y.isNan = false → badMul x y = false → mulFV x y = .inf n → f.decode d = .inf (!n) →
      f.fma rnd a b d = (f.qnan, flNV)) ∧
    (∀ n m, x = .inf n → y = .inf m → f.div rnd a b = (f.qnan, flNV)) ∧
    (∀ n m e k d, x = .fin n m e → y = .fin k 0 d →
      f.div rnd a b = if m = 0 then (f.qnan, flNV) else (f.infBits (n != k), flDZ)) ∧
    (∀ n k d, x = .inf n → y = .fin k 0 d → f.mul rnd a b = (f.qnan, flNV) ∧ f.mul rnd b a = (f.qnan, flNV) ∧
      ∀ c, f.fma rnd a b c = (f.qnan, flNV)) ∧
    (∀ n e, x = .fin n 0 e → f.sqrt rnd a = (f.signBit n, 0)) ∧
    (∀ m e, m ≠ 0 → x = .fin true m e → f.sqrt rnd a = (f.qnan, flNV))

/-! ### Rounding of real numbers (R267, R268) -/

/-- The exact value of a finite value. -/
def Sys2Proof.Machine.FV.Is (v : FV) (x : ℝ) : Prop :=
  match v with
  | .fin n m e => x = (if n = true then -1 else 1) * (m : ℝ) * (2 : ℝ) ^ e
  | _ => False

/-- R267: y is x taken to a multiple of q under a mode. -/
def Sys2Proof.Machine.RoundsAt (mode : Rnd) (q x y : ℝ) : Prop :=
  let lo := q * ⌊x / q⌋
  let hi := lo + q
  (lo = x → y = x) ∧
  (lo ≠ x → match mode with
    | .rz => (0 < x → y = lo) ∧ (x < 0 → y = hi)
    | .ru => y = hi
    | .rd => y = lo
    | .rna => (x - lo < hi - x → y = lo) ∧ (hi - x < x - lo → y = hi) ∧
        (x - lo = hi - x → (0 < x → y = hi) ∧ (x < 0 → y = lo))
    | .rne => (x - lo < hi - x → y = lo) ∧ (hi - x < x - lo → y = hi) ∧
        (x - lo = hi - x → (Even ⌊x / q⌋ → y = lo) ∧ (¬ Even ⌊x / q⌋ → y = hi)))

/-- R267 and R268: `r` is the pattern and the flags of the non-zero real number `x`, rounded once to a format with infinities. -/
def Sys2Proof.Machine.RoundedTo (f : FSpec) (mode : Rnd) (x : ℝ) (r : Nat × Fl) : Prop :=
  ∃ (t : ℤ) (y : ℝ), (2 : ℝ) ^ t ≤ |x| ∧ |x| < (2 : ℝ) ^ (t + 1) ∧
    RoundsAt mode ((2 : ℝ) ^ (max t (1 - (f.bias : ℤ)) - (f.fbits : ℤ))) x y ∧
    let top : ℝ := (2 - (2 : ℝ) ^ (-(f.fbits : ℤ))) * (2 : ℝ) ^ (f.bias : ℤ)
    (|y| ≤ top → (f.decode r.1).Is y ∧ ((f.decode r.1).isNeg = true ↔ x < 0) ∧
      r.1 < 2 ^ (1 + f.ebits + f.fbits + f.low) ∧ r.1 % 2 ^ f.low = 0 ∧
      (y = x → r.2 = 0) ∧
      (y ≠ x → (|y| < (2 : ℝ) ^ (1 - (f.bias : ℤ)) → r.2 = flNX ||| flUF) ∧ ((2 : ℝ) ^ (1 - (f.bias : ℤ)) ≤ |y| → r.2 = flNX))) ∧
    (top < |y| →
      let inf (n : Bool) : Nat × Fl := (f.infBits n, flOF ||| flNX)
      let max (n : Bool) : Nat × Fl := (f.signBit n + ((2 ^ f.ebits - 1) * 2 ^ f.fbits - 1) * 2 ^ f.low, flOF ||| flNX)
      (0 < x → r = match mode with | .rne | .rna | .ru => inf false | .rz | .rd => max false) ∧
      (x < 0 → r = match mode with | .rne | .rna | .rd => inf true | .rz | .ru => max true))

/-- For each of the five float types, every rounding mode and all finite operands a, b and d: when it is not zero, the
exact sum, difference, product, a times b plus d, quotient by a non-zero b, and square root of a positive a is rounded
once, as R267 takes a real number to the type and R268 takes it beyond range, with NX when inexact, UF when inexact
and below the smallest normal, and OF beyond range; an exact zero sum, difference or fused result is the zero of its
terms' common sign when they are all zeros of one sign, and otherwise +0, or -0 under RD, and a zero product or
quotient has the exclusive-or of the signs, without a flag. What the instructions write is these (statement
FloatArithmetic). (spec/02_scalar_ops.md section Scalar floating-point instructions, spec/13_formats.md section
Rounding) -/
def Obligations.FloatRounding : Prop :=
  ∀ (ty : FloatTy) (rnd : Rnd) (a b d : Nat) (nx ny nz : Bool) (mx my mz : Nat) (ex ey ez : Int) (x y z : ℝ),
    let f := fspec ty
    f.decode a = .fin nx mx ex → f.decode b = .fin ny my ey → f.decode d = .fin nz mz ez →
    (f.decode a).Is x → (f.decode b).Is y → (f.decode d).Is z →
    let zero (n : Bool) : Nat × Fl := (f.signBit n, 0)
    let cancelled := zero (rnd == .rd)
    (x + y ≠ 0 → RoundedTo f rnd (x + y) (f.add rnd a b)) ∧
    (x + y = 0 → f.add rnd a b = if mx = 0 ∧ my = 0 ∧ nx = ny then zero nx else cancelled) ∧
    (x - y ≠ 0 → RoundedTo f rnd (x - y) (f.sub rnd a b)) ∧
    (x - y = 0 → f.sub rnd a b = if mx = 0 ∧ my = 0 ∧ nx = !ny then zero nx else cancelled) ∧
    (x * y ≠ 0 → RoundedTo f rnd (x * y) (f.mul rnd a b)) ∧
    (x * y = 0 → f.mul rnd a b = zero (nx != ny)) ∧
    (x * y + z ≠ 0 → RoundedTo f rnd (x * y + z) (f.fma rnd a b d)) ∧
    (x * y + z = 0 → f.fma rnd a b d = if (mx = 0 ∨ my = 0) ∧ mz = 0 ∧ (nx != ny) = nz then zero nz else cancelled) ∧
    (x ≠ 0 → y ≠ 0 → RoundedTo f rnd (x / y) (f.div rnd a b)) ∧
    (x = 0 → y ≠ 0 → f.div rnd a b = zero (nx != ny)) ∧
    (0 < x → RoundedTo f rnd (Real.sqrt x) (f.sqrt rnd a))

/-- FCVT gives, from the value of its source: to an integer 0 with NV for a NaN, the maximum or minimum with NV for an
infinity or a rounded value outside the type, and otherwise the rounded integer with NX when inexact; to a float type
the canonical quiet NaN, with NV for a signalling one, an infinity, a zero of the same sign, and a finite non-zero
number or integer rounded once. The parts of an FP32 number a are its rounding toward zero to BF16, that of what
remains, and the rounding to nearest of what then remains, each +0 when nothing remains, with no flag; a NaN gives
three quiet NaNs and an infinity hi alone. FCLASS sets the one bit that the sign, exponent and fraction fields name;
FSGN keeps every bit below the sign, but for the ignored bits of .f19, which it clears, and takes its sign from b, the
inverse of b's or the exclusive-or of both. What the instructions write is these (statement FloatArithmetic).
(spec/02_scalar_ops.md section Scalar floating-point instructions) -/
def Obligations.FloatConversions : Prop :=
  (∀ (i : IntTy) rnd (v : FV) (lo hi : Int), lo = (if i.signed then -(2 ^ (i.bits - 1)) else 0) →
    hi = (if i.signed then 2 ^ (i.bits - 1) - 1 else 2 ^ i.bits - 1) →
    let out (n : Int) (fl : Fl) : Nat × Fl := ((n % 2 ^ i.bits).toNat, fl)
    (v.isNan = true → tyOf (.int i) rnd v = out 0 flNV) ∧
    (∀ n, v = .inf n → tyOf (.int i) rnd v = out (if n then lo else hi) flNV) ∧
    (∀ (x : ℝ) (y : Int), v.Is x → RoundsAt rnd 1 x y →
      (y < lo → tyOf (.int i) rnd v = out lo flNV) ∧ (hi < y → tyOf (.int i) rnd v = out hi flNV) ∧
      (lo ≤ y → y ≤ hi → (x = y → tyOf (.int i) rnd v = out y 0) ∧ (x ≠ y → tyOf (.int i) rnd v = out y flNX)))) ∧
  (∀ (t : FloatTy) rnd (v : FV),
    (∀ n g, v = .nan n g → tyOf (.flt t) rnd v = ((fspec t).qnan, if g then flNV else 0)) ∧
    (∀ n, v = .inf n → tyOf (.flt t) rnd v = ((fspec t).infBits n, 0)) ∧
    (∀ n e, v = .fin n 0 e → tyOf (.flt t) rnd v = ((fspec t).signBit n, 0)) ∧
    (∀ x : ℝ, v.Is x → x ≠ 0 → RoundedTo (fspec t) rnd x (tyOf (.flt t) rnd v))) ∧
  (∀ (i : IntTy) (w : Nat), w < 2 ^ i.bits →
    (tyVal (.int i) w).Is (if i.signed = true ∧ 2 ^ (i.bits - 1) ≤ w then (w : ℝ) - 2 ^ i.bits else w)) ∧
  (∀ (u t : FloatTy) rnd (w : Nat) (x : ℝ), (fspec u).fbits ≤ (fspec t).fbits → (fspec u).ebits ≤ (fspec t).ebits →
    ((fspec u).decode w).Is x → ((fspec t).decode (tyOf (.flt t) rnd (tyVal (.flt u) w)).1).Is x ∧
      (tyOf (.flt t) rnd (tyVal (.flt u) w)).2 = 0) ∧
  (∀ w : Nat,
    (∀ n g, fp32.decode w = .nan n g → splitParts w = ((bf16.qnan, bf16.qnan, bf16.qnan), if g then flNV else 0)) ∧
    (∀ n, fp32.decode w = .inf n → splitParts w = ((bf16.infBits n, 0, 0), 0)) ∧
    (∀ n e, fp32.decode w = .fin n 0 e → splitParts w = ((bf16.signBit n, 0, 0), 0)) ∧
    (∀ x : ℝ, (fp32.decode w).Is x → x ≠ 0 →
      ∃ (hi mid lo : Nat) (h m : ℝ), splitParts w = ((hi, mid, lo), 0) ∧
        (∃ fl, RoundedTo bf16 .rz x (hi, fl)) ∧ (bf16.decode hi).Is h ∧
        (x - h = 0 → mid = 0) ∧ (x - h ≠ 0 → ∃ fl, RoundedTo bf16 .rz (x - h) (mid, fl)) ∧ (bf16.decode mid).Is m ∧
        (x - h - m = 0 → lo = 0) ∧ (x - h - m ≠ 0 → ∃ fl, RoundedTo bf16 .rne (x - h - m) (lo, fl)))) ∧
  (∀ (ty : FloatTy) (w : Nat),
    let f := fspec ty
    let e := w / 2 ^ (f.low + f.fbits) % 2 ^ f.ebits
    let r := w / 2 ^ f.low % 2 ^ f.fbits
    let neg := w.testBit (f.low + f.fbits + f.ebits)
    f.classify w = 2 ^ (
      if e = 2 ^ f.ebits - 1 then
        (if r = 0 then (if neg then 0 else 7) else if 2 ^ (f.fbits - 1) ≤ r then 9 else 8)
      else if e = 0 then
        (if r = 0 then (if neg then 3 else 4) else if neg then 2 else 5)
      else if neg then 1 else 6)) ∧
  (∀ op (ty : FloatTy) (a b k : Nat),
    let f := fspec ty
    let w := f.low + f.fbits + f.ebits
    (f.sgn op a b).testBit k =
      if k = w then (match op with | .copy => b.testBit w | .neg => !b.testBit w | .xor => a.testBit w ^^ b.testBit w)
      else decide (f.low ≤ k ∧ k < w) && a.testBit k)

/-- For each of the five float types and all operands a and b of its width: when both are NaNs the result is the
canonical quiet NaN; when exactly one is, it is the other operand; otherwise FMIN returns an operand that is not above
the other and FMAX one that is not below, and of two zeros of opposite sign FMIN returns the negative one and FMAX the
positive one; NV is set exactly when an operand is a signalling NaN. Every operand is returned bit for bit, except
that the ignored low bits of .f19 are zero. The instructions write that result and its flags. In every state where
FCMP may run and its predicate is on, it writes p[D] and ORs the flags: without a NaN each condition is the ordered
relation (UN is 0, OR is 1) and no flag is set; with a NaN, NE and UN are 1 and the others 0, LT, LE, GT and GE set
NV, and the others set NV for a signalling NaN only; +0 and -0 compare equal. (R61, R62) -/
def Obligations.FloatMinMaxCompare : Prop :=
  (∀ (ty : FloatTy) (a b : Nat), a < 2 ^ (Ty.flt ty).width → b < 2 ^ (Ty.flt ty).width →
    let f := fspec ty
    let x := f.decode a
    let y := f.decode b
    let held (v : Nat) := v / 2 ^ f.low * 2 ^ f.low
    (∀ mx, (f.minmax mx a b).2 = sigFlag [x, y]) ∧
    (∀ mx, x.isNan = true → y.isNan = true → (f.minmax mx a b).1 = f.qnan) ∧
    (∀ mx, x.isNan = true → y.isNan = false → (f.minmax mx a b).1 = held b) ∧
    (∀ mx, x.isNan = false → y.isNan = true → (f.minmax mx a b).1 = held a) ∧
    (x.isNan = false → y.isNan = false →
      (cmpFV x y = .lt → (f.minmax false a b).1 = held a ∧ (f.minmax true a b).1 = held b) ∧
      (cmpFV x y = .gt → (f.minmax false a b).1 = held b ∧ (f.minmax true a b).1 = held a) ∧
      (cmpFV x y = .eq → x.isNeg = true → y.isNeg = false →
        (f.minmax false a b).1 = held a ∧ (f.minmax true a b).1 = held b) ∧
      (cmpFV x y = .eq → x.isNeg = false → y.isNeg = true →
        (f.minmax false a b).1 = held b ∧ (f.minmax true a b).1 = held a))) ∧
  (∀ ty d a b ms s, s.canRun (.fmin ty d a b ms) = true → ms.on s = true →
    exec (.fmin ty d a b ms) s = .next (fput s.done d ((fspec ty).minmax false (fbits ty (s.g a)) (fbits ty (b.val s))))) ∧
  (∀ ty d a b ms s, s.canRun (.fmax ty d a b ms) = true → ms.on s = true →
    exec (.fmax ty d a b ms) s = .next (fput s.done d ((fspec ty).minmax true (fbits ty (s.g a)) (fbits ty (b.val s))))) ∧
  (∀ c ty d a b ms s, s.canRun (.fcmp c ty d a b ms) = true → ms.on s = true →
    let f := fspec ty
    let x := f.decode (fbits ty (s.g a))
    let y := f.decode (fbits ty (b.val s))
    let o := cmpFV x y
    let nan := x.isNan || y.isNan
    let res : Bool := match c with
      | .eq => !nan && o == .eq
      | .ne => nan || o != .eq
      | .lt => !nan && o == .lt
      | .le => !nan && o != .gt
      | .gt => !nan && o == .gt
      | .ge => !nan && o != .lt
      | .un => nan
      | .or => !nan
    let fl : Fl := match c with
      | .lt | .le | .gt | .ge => if nan then flNV else 0
      | _ => sigFlag [x, y]
    exec (.fcmp c ty d a b ms) s = .next ((s.done.setP d res).orFlags fl)) ∧
  (∀ x y : FV, x.isNan = false → y.isNan = false → sigFlag [x, y] = 0) ∧
  (∀ n m d e, cmpFV (.fin n 0 d) (.fin m 0 e) = .eq)

/-! ### Control -/

/-- The state after a transfer of control to `t`, whose line is `l` and which leaves the state `u` when its line is fetched. -/
def Sys2Proof.Machine.entered (u : State) (t : Word) (l : Line) : State :=
  { u with cx := { u.cx with line := some (pcLine t, l), pc := t }, note := .transfer }

/-- The checks of R11 hold for a target: its shape, a TGT bit and a slot that is not empty, in the line fetched. -/
def Sys2Proof.Machine.targetOk (s : State) (t : Word) (u : State) (l : Line) : Prop :=
  fetchLine s.done t = .ok (u, l) ∧ pcShape t = true ∧ lineTgt l (pcSlot t) = true ∧ lineTmpl l (pcSlot t) ≠ 3

/-- In every state where the instruction may run and its predicate is on, and for a target t that passes the checks of
R11: BR, CALL and a LOOP whose counter is not 1 go to the line and slot that R16 adds to the instruction's line; JMP
goes to its immediate, JMPI, RET and CALLI to g[A]; CALL and CALLI write the link, the slot that follows; LOOP writes
its counter less 1. A LOOP whose counter is 1 writes 0 and goes on. No check has any other effect on registers or
memory. (spec/02_scalar_ops.md section Control instructions) -/
def Obligations.Transfers : Prop :=
  (∀ s u t l, targetOk s t u l →
    (∀ off ms, s.canRun (.br off ms) = true → ms.on s = true → branchInRange s.cx.ipc off = true →
      branchTarget s.cx.ipc off = t → exec (.br off ms) s = .next (entered u t l)) ∧
    (s.canRun (.jmp t) = true → exec (.jmp t) s = .next (entered u t l)) ∧
    (∀ a ms, s.canRun (.jmpi a ms) = true → ms.on s = true → s.g a = t → exec (.jmpi a ms) s = .next (entered u t l)) ∧
    (∀ a ms, s.canRun (.ret a ms) = true → ms.on s = true → s.g a = t → exec (.ret a ms) s = .next (entered u t l)) ∧
    (∀ d off ms, s.canRun (.call d off ms) = true → ms.on s = true → branchInRange s.cx.ipc off = true →
      branchTarget s.cx.ipc off = t → exec (.call d off ms) s = .next ((entered u t l).setG d (slotAfter s.cx))) ∧
    (∀ d a ms, s.canRun (.calli d a ms) = true → ms.on s = true → s.g a = t →
      exec (.calli d a ms) s = .next ((entered u t l).setG d (slotAfter s.cx))) ∧
    (∀ d off ms, s.canRun (.loop d off ms) = true → ms.on s = true → branchInRange s.cx.ipc off = true →
      branchTarget s.cx.ipc off = t → s.g d ≠ 1 → exec (.loop d off ms) s = .next ((entered u t l).setG d (s.g d - 1))) ∧
    u.cx = s.cx ∧ u.mem = s.mem ∧ u.deltas = s.deltas) ∧
  (∀ s d off ms, s.canRun (.loop d off ms) = true → ms.on s = true → s.g d = 1 →
    exec (.loop d off ms) s = .next (s.done.setG d 0)) ∧
  (∀ (pc : Word) (off : Word32), branchInRange pc off = true →
    (branchTarget pc off).extractLsb' 0 6 = 0#3 ++ off.extractLsb' 0 3 ∧
    ((branchTarget pc off).extractLsb' 6 51).toInt % 2 ^ 51 =
      ((pc.extractLsb' 6 51).toInt + (off.extractLsb' 3 29).toInt) % 2 ^ 51)

/-- When the line of the target of a JMP, JMPI, RET or CALLI, or of a BR, CALL or LOOP whose sum is in range and, for
LOOP, whose counter is not 1, is fetched and its shape, its TGT bit or its slot's template fails R11, the instruction
takes a fault with code BTARGET, the target as its address and FETCH set; no link is written and no counter changes. A
target whose line is not fetched takes the fault of that fetch. A BR, CALL or LOOP whose sum of R16 gives no line
address takes that fault without a fetch, with the low 64 bits of (sum << 6) | slot as its address.
(spec/01_instruction_word.md section The fetch line, spec/02_scalar_ops.md section Control instructions) -/
def Obligations.TransferRefused : Prop :=
  ∀ s t e, (∀ u l, fetchLine s.done t = .ok (u, l) →
      ¬ (pcShape t = true ∧ lineTgt l (pcSlot t) = true ∧ lineTmpl l (pcSlot t) ≠ 3) ∧
        e = Stop.trap { Trap.on Code.btarget t with fetch := true }) → (∀ e', fetchLine s.done t = .error e' → e = e') →
    let bad := finish s.done (.error e)
    (s.canRun (.jmp t) = true → exec (.jmp t) s = bad) ∧
    (∀ a ms, s.canRun (.jmpi a ms) = true → ms.on s = true → s.g a = t → exec (.jmpi a ms) s = bad) ∧
    (∀ a ms, s.canRun (.ret a ms) = true → ms.on s = true → s.g a = t → exec (.ret a ms) s = bad) ∧
    (∀ d a ms, s.canRun (.calli d a ms) = true → ms.on s = true → s.g a = t → exec (.calli d a ms) s = bad) ∧
    (∀ off ms, s.canRun (.br off ms) = true → ms.on s = true → branchInRange s.cx.ipc off = true →
      branchTarget s.cx.ipc off = t → exec (.br off ms) s = bad) ∧
    (∀ d off ms, s.canRun (.call d off ms) = true → ms.on s = true → branchInRange s.cx.ipc off = true →
      branchTarget s.cx.ipc off = t → exec (.call d off ms) s = bad) ∧
    (∀ d off ms, s.canRun (.loop d off ms) = true → ms.on s = true → branchInRange s.cx.ipc off = true →
      branchTarget s.cx.ipc off = t → s.g d ≠ 1 → exec (.loop d off ms) s = bad) ∧
    (∀ off : Word32, let sum : Int := (s.cx.ipc.extractLsb' 6 51).toNat + (off.extractLsb' 3 29).toInt
      sum < 0 ∨ 2 ^ 51 ≤ sum →
      let out := raise s.done { Trap.on Code.btarget (BitVec.ofInt 64 (sum * 64 + (off.extractLsb' 0 3).toNat)) with fetch := true }
      (∀ ms, s.canRun (.br off ms) = true → ms.on s = true → exec (.br off ms) s = out) ∧
      (∀ d ms, s.canRun (.call d off ms) = true → ms.on s = true → exec (.call d off ms) s = out) ∧
      (∀ d ms, s.canRun (.loop d off ms) = true → ms.on s = true → s.g d ≠ 1 → exec (.loop d off ms) s = out))

/-- In every state where the instruction may run and its predicate is on: NOP changes nothing; BSIG opens a block with
its CRC and the initial value 0xFFFF when no open block is wrong; GROW within the architectural limit takes the
granules from the core's pool, zeroes the new registers and writes p[D] = 1 when the pool holds them, and otherwise
writes only p[D] = 0; SHRINK that leaves 2 granules of each file, with no vector instruction waiting, zeroes the g and
v registers that it gives up and holds their granules (a service core adds them to its pools, the model's choice of
notes/assumptions/12.md); END with empty queues, no rick element or cord of the context and no wrong signature writes
DONE to its record's STATE, leaves the context idle and adds its granules to the core's pools, and the last END of a
service program also ends that program. Nothing else changes. A GROW beyond 16 or 8 granules and a SHRINK below 2
fault ALLOT, and an END that finds a queue non-empty faults QMISUSE, after its wait and its flush (the order of these
is the model's choice of notes/assumptions/129.md). A record in a gang leaves it first (notes/assumptions/128.md); one
in no gang changes nothing there. (spec/02_scalar_ops.md section Control instructions) -/
def Obligations.SignatureAllotmentEnd : Prop :=
  (∀ ms s, s.canRun (.nop ms) = true → ms.on s = true → exec (.nop ms) s = .next s.done) ∧
  (∀ crc s, s.canRun (.bsig crc) = true → sigBad s.cx.sig = false →
    exec (.bsig crc) s = .next { s.done with cx := { s.cx with sig := some (crc, 0xFFFF) } }) ∧
  (∀ d (g : BitVec 5) (v : BitVec 3) ms s, s.canRun (.grow d g v ms) = true → ms.on s = true →
    s.cx.gGran + g.toNat ≤ 16 → s.cx.vGran + v.toNat ≤ 8 →
    (g.toNat ≤ (s.core s.cx.ep).freeG ∧ v.toNat ≤ (s.core s.cx.ep).freeV →
      ∃ (G : Vector Word 128) (V : Vector VWord 32),
        exec (.grow d g v ms) s = .next (State.setP
          { s.done.modCore s.cx.ep (fun k => { k with freeG := k.freeG - g.toNat, freeV := k.freeV - v.toNat }) with
            cx := { s.cx with gGran := s.cx.gGran + g.toNat, vGran := s.cx.vGran + v.toNat, g := G, v := V } } d true) ∧
        (∀ r : Fin 128, G[r.val] = if 8 * s.cx.gGran ≤ r.val ∧ r.val < 8 * (s.cx.gGran + g.toNat) then 0 else s.cx.g[r.val]) ∧
        (∀ r : Fin 32, V[r.val] = if 4 * s.cx.vGran ≤ r.val ∧ r.val < 4 * (s.cx.vGran + v.toNat) then 0 else s.cx.v[r.val])) ∧
    (¬ (g.toNat ≤ (s.core s.cx.ep).freeG ∧ v.toNat ≤ (s.core s.cx.ep).freeV) →
      exec (.grow d g v ms) s = .next (s.done.setP d false))) ∧
  (∀ (g : BitVec 5) (v : BitVec 3) ms s, s.canRun (.shrink g v ms) = true → ms.on s = true → s.atControl = true →
    g.toNat + 2 ≤ s.cx.gGran → v.toNat + 2 ≤ s.cx.vGran →
    ∃ (G : Vector Word 128) (V : Vector VWord 32),
      exec (.shrink g v ms) s = .next { s.done.modCore s.cx.ep (fun k =>
          if isService s s.cx.ep = true then { k with freeG := k.freeG + g.toNat, freeV := k.freeV + v.toNat }
          else { k with heldG := k.heldG + g.toNat, heldV := k.heldV + v.toNat }) with
        cx := { s.cx with gGran := s.cx.gGran - g.toNat, vGran := s.cx.vGran - v.toNat, g := G, v := V } } ∧
      (∀ r : Fin 128, G[r.val] = if 8 * (s.cx.gGran - g.toNat) ≤ r.val ∧ r.val < 8 * s.cx.gGran then 0 else s.cx.g[r.val]) ∧
      (∀ r : Fin 32, V[r.val] = if 4 * (s.cx.vGran - v.toNat) ≤ r.val ∧ r.val < 4 * s.cx.vGran then 0 else s.cx.v[r.val])) ∧
  (∀ ms s x u, s.canRun (.endC ms) = true → ms.on s = true → s.atControl = true → queuesEmpty s.cx = true →
    sigBad s.cx.sig = false → ricksOfCtx (s.core s.cx.ep) s.cx.no = [] → cordsOfCtx s s.cx.ep s.cx.no = false →
    putState s.done (devWho s.done s.cx.ep s.cx.chip s.cx.team) s.cx.recA stDone = .ok x →
    leaveGang x s.cx.chip s.cx.team s.cx.recA = .ok u →
    let v : State := { releaseCx u with note := .transfer }
    ((∀ t, v.team? s.cx.chip s.cx.team = some t → t.service = false) → exec (.endC ms) s = .next v) ∧
    (∀ t b, v.team? s.cx.chip s.cx.team = some t → t.service = true → allDone v t = .ok b →
      exec (.endC ms) s = .next (if b = true then serviceEnd v t else v))) ∧
  (∀ ms s, s.canRun (.endC ms) = true → ms.on s = true → s.atControl = true → queuesEmpty s.cx = false →
    ricksOfCtx (s.core s.cx.ep) s.cx.no = [] → cordsOfCtx s s.cx.ep s.cx.no = false →
    exec (.endC ms) s = raise s.done (Trap.of Code.qmisuse)) ∧
  (∀ d (g : BitVec 5) (v : BitVec 3) ms s, s.canRun (.grow d g v ms) = true → ms.on s = true →
    16 < s.cx.gGran + g.toNat ∨ 8 < s.cx.vGran + v.toNat → exec (.grow d g v ms) s = raise s.done (Trap.of Code.allot)) ∧
  (∀ (g : BitVec 5) (v : BitVec 3) ms s, s.canRun (.shrink g v ms) = true → ms.on s = true →
    s.cx.gGran < g.toNat + 2 ∨ s.cx.vGran < v.toNat + 2 → exec (.shrink g v ms) s = raise s.done (Trap.of Code.allot)) ∧
  (∀ (u : State) chip team a t, u.team? chip team = some t → gangOf t a = [] → leaveGang u chip team a = .ok u) ∧
  (∀ u : State, (releaseCx u).cx = { Context.idle u.cx.ep u.cx.no with ranC := u.cx.ranC, ranV := u.cx.ranV } ∧
    ((releaseCx u).core u.cx.ep).freeG = (u.core u.cx.ep).freeG + u.cx.gGran ∧
    ((releaseCx u).core u.cx.ep).freeV = (u.core u.cx.ep).freeV + u.cx.vGran ∧
    (releaseCx u).mem = u.mem ∧ (releaseCx u).others = u.others ∧ (releaseCx u).teams = u.teams)

/-! ### Accesses to memory -/

/-- R66: PtrAdd of g[A] and b plus the offset. -/
def Sys2Proof.Machine.eaOf (s : State) (a : GReg) (b : BReg) (off : Word32) : Word :=
  ptrAdd (s.g a) (b.val s + off.signExtend 64)

/-- The bytes of an access as the control stream reads them. -/
def Sys2Proof.Machine.seenBytes (s : State) (pls : List Place) : List Byte := pls.map (readByte s (ctxWho s false))

/-- What a load of a size makes of its bytes: the new state (R66 and the size table of chapter 2). -/
def Sys2Proof.Machine.afterLoad (s : State) (sz : Size) (d : GReg) (bs : List Byte) : State :=
  match sz with
  | .d => s.setG d (BitVec.ofNat 64 (leNat bs))
  | .w => s.setG d ((BitVec.ofNat 32 (leNat bs)).signExtend 64)
  | .wn => s.setG d (BitVec.ofNat 64 (leNat bs))
  | .h => s.setG d ((BitVec.ofNat 16 (leNat bs)).signExtend 64)
  | .hn => s.setG d (BitVec.ofNat 64 (leNat bs))
  | .b => s.setG d ((BitVec.ofNat 8 (leNat bs)).signExtend 64)
  | .bn => s.setG d (BitVec.ofNat 64 (leNat bs))
  | .f | .l => s.setGroup d (wordsOf bs)

/-- The keys that a store of some bytes reaches: its bytes and their mirror copies. -/
def Sys2Proof.Machine.touched (pls : List Place) : List Nat := pls.map (·.key) ++ pls.filterMap fun pl => pl.mirror.map (·.1)

/-- What a store of `bs` at the bytes `pls` leaves: every register of every context and every system register of every core as
they were; and while no clamp runs over into its overflow area, every other byte as every agent sees it as it was and, where
there is room for it and no frozen byte, the stored bytes as the writer sees them. -/
def Sys2Proof.Machine.Stored (s t : State) (pls : List Place) (bs : List Byte) : Prop :=
  let w := ctxWho s false
  t.cx = s.cx ∧ t.note = s.note ∧ t.others = s.others ∧ (∀ e n d, (t.core e).reg n d = (s.core e).reg n d) ∧
  ((∀ e, clampUsed t e ≤ Config.clampSlots) →
    (∀ (v : Who) (pl : Place), pl.key ∉ touched pls → readByte t v pl = readByte s v pl) ∧
    (s.MemOk → (touched pls).Nodup → bs.length = pls.length → (w.service = true ∨ clampRoom s w pls = true) →
      (∀ pl ∈ pls, frozenBy s pl.key = none ∧ pl.zero = false ∧
        (∀ d ∈ s.deltas, d.1 = pl.key → sameStep s (d.2.chip, d.2.team) (w.chip, w.team) = true → d.2.tag = w.writeTag)) →
      ∀ q ∈ pls.zip bs, readByte t w q.1 = q.2))

/-- A plain store of `n` bytes at `p` passes every check of R66, its bytes are `pls`, and nothing of a rick or cord stands before it:
of any context for a store that flushes, which one of more than 8 bytes and STREL do (R333), else of its own (R77). -/
def Sys2Proof.Machine.Lands (s : State) (flush : Bool) (am : Am) (align : Nat) (p : Word) (n : Nat) (pls : List Place) : Prop :=
  let ds := (pls.map (·.dest)).eraseDups
  s.atControl = true ∧ places s.done (ctxWho s.done false) .write am align false p n = .ok pls ∧
    (if flush = true ∨ 8 < n then NoRick s ds else NoOwnRick s ds)

/-- The state that an access of the control stream to these bytes leaves: the TLBs, the walk cache and the L1 hold what it used,
and a core whose buffer it reaches is awake (R343, R344, R348). -/
def Sys2Proof.Machine.State.touchedBy (s : State) (pls : List Place) : State := touch s.done (ctxWho s false) pls

/-- In every state where the instruction may run and its predicate is on, and whose access passes the checks of R66
unhindered: LD writes its bytes, little-endian, sign-extended or zero-extended as its size says, or the 4 or 8 words
of its group; LDL reads the 64 bytes of the line of its address; LDACQ does as LD at its natural alignment. PREF
outside space 0 changes nothing; in space 0 it makes the checks and the translation of its access and fills the TLBs
and the L1 as that access would, and where a check fails it takes no fault. PGQ reads 0 for an address without a leaf,
and otherwise the page's status or companion word. No register but the destination changes; an access leaves memory,
every delta, every team and every context as they were, and only the TLBs, the walk caches, the L1s and the sleep of
cores follow it. (spec/02_scalar_ops.md section Basic memory instructions, spec/10_memory_model.md section The
ordering model, spec/11_memory_matrix_ops.md section Fields of 0xD0–0xD6) -/
def Obligations.Loads : Prop :=
  (∀ sz am d a b off ms s pls, Runs (.ld sz am d a b off ms) ms s →
    Reaches s .read am 1 (eaOf s a b off) (Size.nbytes sz) pls →
    exec (.ld sz am d a b off ms) s = .next (afterLoad (s.touchedBy pls) sz d (seenBytes s pls))) ∧
  (∀ am d a b off ms s pls, Runs (.ldl am d a b off ms) ms s →
    Reaches s .read am 1 (eaOf s a b off &&& ~~~63#64) 64 pls →
    exec (.ldl am d a b off ms) s = .next (afterLoad (s.touchedBy pls) .l d (seenBytes s pls))) ∧
  (∀ sz am sc d a b off ms s pls, Runs (.ldacq sz am sc d a b off ms) ms s →
    Reaches s .read am (Size.nbytes sz) (eaOf s a b off) (Size.nbytes sz) pls →
    exec (.ldacq sz am sc d a b off ms) s = .next (afterLoad (s.touchedBy pls) sz d (seenBytes s pls))) ∧
  (∀ wr am a b off ms s, Runs (.pref wr am a b off ms) ms s →
    (ptrSpace (eaOf s a b off) ≠ 0 → exec (.pref wr am a b off ms) s = .next s.done) ∧
    (ptrSpace (eaOf s a b off) = 0 →
      let r := places s.done (ctxWho s.done false) (if wr then .write else .read) am 1 false (eaOf s a b off) 1
      (∀ pls, r = .ok pls → exec (.pref wr am a b off ms) s = .next (s.touchedBy pls)) ∧
      (∀ e, r = .error e → exec (.pref wr am a b off ms) s =
        .next (match e with | .trap t => applyRefetches s.done t | _ => s.done)))) ∧
  (∀ st am d a b off ms s, Runs (.pgq st am d a b off ms) ms s → am = .lin →
    ptrSpace (eaOf s a b off) = 0 → (eaOf s a b off).extractLsb' 57 3 = 0 →
    let w := ctxWho s false
    let v : Word := match walk s w.chip w.part ((eaOf s a b off).toNat % 2 ^ 57) with
      | .error _ => 0
      | .ok l => if st then BitVec.ofNat 64 (1 + 2 * l.ps + 8 * (!isCompute w.ep || l.cw.getLsbD (groupOf w.ep)).toNat) else l.cw
    exec (.pgq st am d a b off ms) s = .next (s.done.setG d v)) ∧
  (∀ (s : State) (w : Who) (pls : List Place), (touch s w pls).mem = s.mem ∧ (touch s w pls).deltas = s.deltas ∧
    (touch s w pls).cx = s.cx ∧ (touch s w pls).others = s.others ∧ (touch s w pls).teams = s.teams) ∧
  (∀ (s : State) (t : Trap), (applyRefetches s t).mem = s.mem ∧ (applyRefetches s t).deltas = s.deltas ∧
    (applyRefetches s t).cx = s.cx ∧ (applyRefetches s t).others = s.others ∧ (applyRefetches s t).teams = s.teams)

/-- In every state where the instruction may run and its predicate is on, and whose access passes the checks of R66
unhindered: a store that is not carried by a rick and does not go to the queue window writes the low bytes of g[D], or
its group's 32 or 64 bytes, at the bytes its address resolves to; no register changes and, while no clamp runs over
into its overflow area, no other byte of any memory or buffer changes; where the clamp has room and no byte is frozen
the writer then reads the bytes it stored. STREL needs its ricks drained at cluster scope or wider. FENCE changes
nothing. (spec/02_scalar_ops.md section Basic memory instructions, spec/10_memory_model.md section The ordering model)
-/
def Obligations.Stores : Prop :=
  (∀ sz am d a b off ms s pls, Runs (.st sz am d a b off ms) ms s →
    (sz = .f ∨ sz = .l ∨ goesByRick s am (eaOf s a b off) (Size.nbytes sz) = false) →
    Lands s false am 1 (eaOf s a b off) (Size.nbytes sz) pls →
    ∃ t, exec (.st sz am d a b off ms) s = .next t ∧ Stored s.done t pls (storedBytes s sz d)) ∧
  (∀ am d a b off ms s pls, Runs (.stl am d a b off ms) ms s → inWindow s am (eaOf s a b off &&& ~~~63#64) = false →
    Lands s false am 1 (eaOf s a b off &&& ~~~63#64) 64 pls →
    ∃ t, exec (.stl am d a b off ms) s = .next t ∧ Stored s.done t pls (storedBytes s .l d)) ∧
  (∀ sz am sc d a b off ms s pls, Runs (.strel sz am sc d a b off ms) ms s → ReleaseOk s true sc →
    Lands s true am (Size.nbytes sz) (eaOf s a b off) (Size.nbytes sz) pls →
    ∃ t, exec (.strel sz am sc d a b off ms) s = .next t ∧ Stored s.done t pls (storedBytes s sz d)) ∧
  (∀ sc ms s, Runs (.fence sc ms) ms s → s.atControl = true → ReleaseOk s true sc →
    exec (.fence sc ms) s = .next s.done)

/-- The element of a store of bytes that all lie in one word of another core (R325). -/
def Sys2Proof.Machine.storeElem (s : State) (p : Word) (e : EP) (o : Nat) (bs : List Byte) : RickElem :=
  { addr := p, dst := bufKey e (ptrSpace p) o, global := false, entry := none, bytes := bs.length, op := .store,
    opnd := BitVec.ofNat 64 (leNat bs), ctx := s.cx.no, recA := s.cx.recA, pc := s.cx.ipc,
    ssn := (s.myTeam.map (·.ssn)).getD 0, time := s.time, team := s.cx.team, rank := s.cx.rank, late := false }

/-- In every state where ST may run and its predicate is on, a store in the linear mode of 1, 2, 4 or 8 bytes to space
1 to 4 whose address names another core of the team and lies in one aligned word there enters one element, with the
address, the bytes and the context it came from, into the rick of that core; no byte of memory changes. Entering puts
the element behind those already in that core's rick; at 16 elements the rick, of a destination on the own chip,
leaves as a cord of all of them. When no rick is for that core and one is empty, the lowest-numbered empty one takes
it and no rick leaves. (spec/19_ricks.md section What enters a rick, spec/19_ricks.md section When a rick leaves) -/
def Obligations.StoreByRick : Prop :=
  (∀ (sz : Size) d a b off ms (s : State) (e : EP), Runs (.st sz .lin d a b off ms) ms s → s.atControl = true → sz ≠ .f → sz ≠ .l →
    let p := eaOf s a b off
    let o := (p.extractLsb' 0 20).toNat
    isCompute s.cx.ep = true → 1 ≤ ptrSpace p → ptrSpace p ≤ 4 → p.extractLsb' 20 28 = 0 →
    (route s (ctxWho s false) .lin p).1 = some e → e ≠ s.cx.ep →
    o % 8 + Size.nbytes sz ≤ 8 →
    exec (.st sz .lin d a b off ms) s =
      .next (enterElem s.done s.cx.ep e (storeElem s p e o (storedBytes s sz d)))) ∧
  (∀ (s : State) (src dest : EP) (x : RickElem), (enterElem s src dest x).mem = s.mem ∧ (enterElem s src dest x).cx = s.cx) ∧
  (∀ (s : State) (src dest : EP) (x : RickElem) (i : Nat) (r : Rick), epChip dest = epChip src → (openRicks (s.core src)).find? (fun q => q.2 == dest) = some (i, dest) →
    (s.core src).ricks.toList[i]? = some r →
    if r.elems.length = 15 then
      (((enterElem s src dest x).core src).ricks.toList[i]? = some { dest := none, elems := [] } ∧
        ∃ c, (enterElem s src dest x).cords = s.cords ++ [c] ∧ c.src = src ∧ c.dest = dest ∧ c.elems = r.elems ++ [x])
    else (((enterElem s src dest x).core src).ricks.toList[i]? = some { dest := some dest, elems := r.elems ++ [x] } ∧
      (enterElem s src dest x).cords = s.cords)) ∧
  (∀ (s : State) (src dest : EP) (x : RickElem) (i : Nat), rickFor s src [dest] = [] →
    ((s.core src).ricks.toList[i]?).map Rick.elems = some [] →
    (∀ j < i, ((s.core src).ricks.toList[j]?).map Rick.elems ≠ some []) →
    ((enterElem s src dest x).core src).ricks.toList[i]? = some { dest := some dest, elems := [x] } ∧
      (enterElem s src dest x).cords = s.cords)

/-- The checked word of an atomic (R239): both rights, its natural alignment, no versioned byte, and nothing before it in its far
agent's queue. -/
def Sys2Proof.Machine.AtomReaches (s : State) (am : Am) (p : Word) (n : Nat) (hosted : Bool) (pls : List Place) : Prop :=
  Reaches s { r := true, w := true, x := false, atomic := hosted } am n p n pls ∧ FarHead s pls ∧
    ∀ pl ∈ pls, pl.cls = 0 → isService s s.cx.ep = true ∧ isBufKey pl.key = true

/-- R239 and R240: `i` reads the word at g[A], writes what `new` makes of it, if anything, ORs the flags, counts the operation
at the word's home and gives the old value to g[D]. -/
def Sys2Proof.Machine.AtomicDoes (i : Instr) (sz : ASize) (am : Am) (o : Ord) (d a : GReg) (hosted : Bool) (ms : Ms)
    (new : State → BitVec (ASize.width sz) → Option (BitVec (ASize.width sz)) × Fl) : Prop :=
  ∀ s pls, Runs i ms s → ReleaseOk s o.rel o.scope → AtomReaches s am (s.g a) (ASize.nbytes sz) hosted pls →
    let old : BitVec (ASize.width sz) := BitVec.ofNat _ (leNat (seenBytes s pls))
    let u := match (new s old).1 with
      | some x => writePlaces (s.touchedBy pls) (ctxWho s false) s.cx.no s.cx.ipc pls (bytesOf x.toNat (ASize.nbytes sz))
      | none => s.touchedBy pls
    exec i s = .next (((countFarAt u pls).setG d (if sz = .wn then old.setWidth 64 else old.signExtend 64)).orFlags (new s old).2)

/-- In every state where the instruction may run and its predicate is on, with its ricks drained when it releases,
whose word passes the checks of R239 and whose turn at its far agent has come: AADD, AMIN, AMAX, AAND, AOR, AXOR and
ASWP write the sum, the signed or unsigned minimum or maximum, the logical result or b; AFADD writes the rounded sum
and ORs its flags; ACAS writes b exactly when the old value equals the low bits of the old g[D]; g[D] receives the old
value, sign-extended for .w and zero-extended for .wn; no other register changes. (spec/11_memory_matrix_ops.md
section Atomics) -/
def Obligations.Atomics : Prop :=
  (∀ sz am o d a b ms, AtomicDoes (.aadd sz am o d a b ms) sz am o d a (sz != .wn) ms fun s x =>
    (some (x + lowBits _ (b.val s)), 0)) ∧
  (∀ u sz am o d a b ms, AtomicDoes (.amin u sz am o d a b ms) sz am o d a false ms fun s x =>
    let y := lowBits _ (b.val s)
    (some (if (if u then y.ult x else y.slt x) then y else x), 0)) ∧
  (∀ u sz am o d a b ms, AtomicDoes (.amax u sz am o d a b ms) sz am o d a false ms fun s x =>
    let y := lowBits _ (b.val s)
    (some (if (if u then x.ult y else x.slt y) then y else x), 0)) ∧
  (∀ sz am o d a b ms, AtomicDoes (.aand sz am o d a b ms) sz am o d a false ms fun s x => (some (x &&& lowBits _ (b.val s)), 0)) ∧
  (∀ sz am o d a b ms, AtomicDoes (.aor sz am o d a b ms) sz am o d a false ms fun s x => (some (x ||| lowBits _ (b.val s)), 0)) ∧
  (∀ sz am o d a b ms, AtomicDoes (.axor sz am o d a b ms) sz am o d a false ms fun s x => (some (x ^^^ lowBits _ (b.val s)), 0)) ∧
  (∀ sz am o d a b ms, AtomicDoes (.aswp sz am o d a b ms) sz am o d a (sz != .wn) ms fun s _ => (some (lowBits _ (b.val s)), 0)) ∧
  (∀ dbl am o rnd d a b ms, AtomicDoes (.afadd dbl am o rnd d a b ms) (if dbl then .d else .w) am o d a false ms fun s x =>
    let r := (fspec (if dbl then .f64 else .f32)).add rnd x.toNat ((b.val s).toNat % 2 ^ ASize.width (if dbl then .d else .w))
    (some (BitVec.ofNat _ r.1), r.2)) ∧
  (∀ sz am o d a b ms, AtomicDoes (.acas sz am o d a b ms) sz am o d a (sz != .wn) ms fun s x =>
    (if x = lowBits _ (s.g d) then some (lowBits _ (b.val s)) else none, 0))

/-- The element of an RRED whose destination was found at issue (R304). -/
def Sys2Proof.Machine.rredElem (s : State) (op : RedOp) (dbl : Bool) (a : GReg) (b : BReg) (d : RredDest) : RickElem :=
  { addr := s.g a, dst := d.dst, global := decide (ptrSpace (s.g a) = 0 ∨ ptrSpace (s.g a) = 6), entry := d.entry,
    bytes := if dbl then 8 else 4, op := .red op, opnd := b.val s, ctx := s.cx.no, recA := s.cx.recA, pc := s.cx.ipc,
    ssn := (s.myTeam.map (·.ssn)).getD 0, time := s.time, team := s.cx.team, rank := s.cx.rank, late := false }

/-- In every state where the instruction may run and its predicate is on: RED, whose turn at its far agent has come,
on a versioned global word with room in the redo area appends one reduction of its operand with the writer's rank, and
on a live or standing word writes New(old, b) at once; RRED to another endpoint enters one element there, and to the
own core's buffer is performed at once; RFLUSH without W sends every rick of the core, or the one of its address, as a
cord, so that none holds an element, and with nothing outstanding changes nothing; RSTAT reads entry n of the fault
log (zeros when there is none) or the counts, or clears the log. (spec/11_memory_matrix_ops.md section Atomics,
spec/15_stats_remote_ops.md section Remote words, spec/19_ricks.md section Registers) -/
def Obligations.Reductions : Prop :=
  (∀ op dbl am rel sc a b ms s pl pls, Runs (.red op dbl am rel sc a b ms) ms s → ReleaseOk s rel sc →
    let n := if dbl then 8 else 4
    let buf := decide (1 ≤ ptrSpace (s.g a)) && decide (ptrSpace (s.g a) ≤ 5)
    Reaches s { r := !buf, w := true, x := false, atomic := false } am n (s.g a) n (pl :: pls) → FarHead s (pl :: pls) →
    (∀ q ∈ pl :: pls, q.cls = 0 → isBufKey q.key = true → isService s s.cx.ep = true) →
    let w := ctxWho s false
    (pl.cls = 0 → isService s s.cx.ep = false → redoFull s (pl :: pls) = false →
      exec (.red op dbl am rel sc a b ms) s = .next { s.touchedBy (pl :: pls) with nextId := s.nextId + 1, reds := s.reds ++
        [{ key := pl.key, bytes := (pl :: pls).length, op := op, opnd := b.val s, rank := w.writeTag.num, seq := s.nextId,
           chip := w.chip, team := w.team, mirror := pl.mirror.map (·.1) }] }) ∧
    ((pl.cls ≠ 0 ∨ isService s s.cx.ep = true) →
      exec (.red op dbl am rel sc a b ms) s = .next (writePlaces (countFar s.done pl.key) w s.cx.no s.cx.ipc (pl :: pls)
        (bytesOf (redNew op (pl :: pls).length (leNat (seenBytes s (pl :: pls))) (b.val s).toNat) (pl :: pls).length)))) ∧
  (∀ op dbl am a b ms s d, Runs (.rred op dbl am a b ms) ms s → s.atControl = true →
    rredRoute s.done am (s.g a) (if dbl then 8 else 4) (if dbl then 8 else 4) = .ok d →
    (d.own = false → exec (.rred op dbl am a b ms) s =
      .next (enterElem (useXlat s.done (ctxWho s false) d.via) s.cx.ep d.ep (rredElem s op dbl a b d))) ∧
    (∀ t, d.own = true → applyElem (useXlat s.done (ctxWho s false) d.via) (ctxWho s false) (rredElem s op dbl a b d) = .ok t →
      exec (.rred op dbl am a b ms) s = .next t)) ∧
  (∀ w am a ms s, Runs (.rflush false w am a ms) ms s → Released s → exec (.rflush false w am a ms) s = .next s.done) ∧
  (∀ am a ms s, Runs (.rflush false false am a ms) ms s →
    ∃ t : State, exec (.rflush false false am a ms) s = .next t ∧ openRicks (t.core s.cx.ep) = [] ∧ t.cx = s.cx ∧ t.mem = s.mem ∧
      ((∀ q ∈ openRicks (s.core s.cx.ep), epChip q.2 = epChip s.cx.ep) →
        t.cords.length = s.cords.length + (openRicks (s.core s.cx.ep)).length)) ∧
  (∀ w am a ms s d, Runs (.rflush true w am a ms) ms s → rredRoute s.done am (s.g a) 1 1 = .ok d →
    (d.own = true ∨ Released s → exec (.rflush true w am a ms) s = .next (useXlat s.done (ctxWho s false) d.via)) ∧
    (d.own = false → w = false → exec (.rflush true w am a ms) s =
      .next ((rickFor s s.cx.ep [d.ep]).foldl (fun u i => sendRick u s.cx.ep i .flush)
        (useXlat s.done (ctxWho s false) d.via)))) ∧
  (∀ d n ms s, Runs (.rstat (.entry d n) ms) ms s →
    exec (.rstat (.entry d n) ms) s = .next (s.done.setGroup d (match (s.core s.cx.ep).rickLog[n.toNat]? with
      | some x => [x.addr, x.opnd, x.word2, x.pc]
      | none => [0, 0, 0, 0]))) ∧
  (∀ d ms s, Runs (.rstat (.count d) ms) ms s → exec (.rstat (.count d) ms) s =
    .next (s.done.setG d (BitVec.ofNat 64 ((s.core s.cx.ep).rickLost * 2 ^ 32 + (s.core s.cx.ep).rickLog.length)))) ∧
  (∀ ms s, Runs (.rstat .clear ms) ms s → ∃ t : State, exec (.rstat .clear ms) s = .next t ∧
    (t.core s.cx.ep).rickLog = [] ∧ (t.core s.cx.ep).rickLost = 0 ∧ t.cx = s.cx ∧ t.mem = s.mem)

/-- The first address of a far-agent operation (R307): global or peer, live or standing bytes, and its turn at the agent. -/
def Sys2Proof.Machine.FarReaches (s : State) (nd : Need) (align : Nat) (p : Word) (n : Nat) (pls : List Place) : Prop :=
  (ptrSpace p = 0 ∨ ptrSpace p = 6) ∧ Reaches s nd .lin align p n pls ∧ FarHead s pls ∧ ∀ pl ∈ pls, pl.cls = 1 ∨ pl.cls = 2

/-- In every state where the instruction may run and its predicate is on, with its ricks drained when it releases,
whose first address passes the checks of R307 and whose turn at the far agent has come: FCAS of N words inside one
line writes g[B]'s group exactly when the words equal g[D]'s group, gives g[D]'s group the old words and p the
outcome; FENQ writes 0 to the node's link, the node to the old tail's link, or to the head of an empty queue, and to
the tail word, and gives g[D] the old tail; FCHASE gives g[D] the last node and the next register the number of links
followed, at most M, and changes no memory; the link of 0 ends the chase where it stands. Each link after the first is
a request of its own: the instruction stalls, its node and count held, and goes on from there when its turn comes at
the next agent. (spec/15_stats_remote_ops.md section Far-agent operations) -/
def Obligations.FarAgentOperations : Prop :=
  (∀ o d a b w p ms s pls, Runs (.fcas o d a b w p ms) ms s → ReleaseOk s o.rel o.scope →
    let n := w.toNat + 1
    (s.g a).toNat % 64 + 8 * n ≤ 64 → FarReaches s .farRw 8 (s.g a) (8 * n) pls →
    let old := wordsOf (seenBytes s pls)
    let same := decide (old = s.group d n)
    let u := if same then writePlaces (s.touchedBy pls) (ctxWho s false) s.cx.no s.cx.ipc pls (((s.group b n).map fun x => bytesOf x.toNat 8).flatten)
      else s.touchedBy pls
    exec (.fcas o d a b w p ms) s = .next (((countFarAt u pls).setGroup d old).setP p same)) ∧
  (∀ o d a b ms s pls f np tp, Runs (.fenq o d a b ms) ms s → ReleaseOk s o.rel o.scope →
    FarReaches s .farRw 16 (s.g a) 16 pls → farSpace s.done (s.g a) true = .ok f →
    let t : Word := BitVec.ofNat 64 (leNat ((seenBytes s pls).drop 8))
    let v := useXlat (s.touchedBy pls) (ctxWho s false) f.via
    farPlaces v f (s.g b) 8 .write = .ok np →
    (if t = 0 then tp = pls.take 8 else farPlaces v f t 8 .write = .ok tp) →
    let put (u : State) (x : List Place) (v : Word) : State :=
      writePlaces u (ctxWho s false) s.cx.no s.cx.ipc x (bytesOf v.toNat 8)
    exec (.fenq o d a b ms) s =
      .next ((countFarAt (put (put (put v np 0) tp (s.g b)) (pls.drop 8) (s.g b)) pls).setG d t)) ∧
  (∀ acq sc d a m off ms s pls f, Runs (.fchase acq sc d a m off ms) ms s → chaseAt s (s.g a) = none →
    FarReaches s .read 8 (ptrAdd (s.g a) (off.setWidth 64)) 8 pls →
    farSpace s.done (ptrAdd (s.g a) (off.setWidth 64)) false = .ok f →
    let w : Word := BitVec.ofNat 64 (leNat (seenBytes s pls))
    (∀ q k u, chase f off.toNat m.toNat 0 (s.g a) pls (useXlat s.done (ctxWho s false) f.via) = .ok (q, k, u) →
      exec (.fchase acq sc d a m off ms) s = .next ((u.setG d q).setG (grpReg d 1) (BitVec.ofNat 64 k)) ∧
        k ≤ m.toNat ∧ u.mem = s.mem ∧ u.deltas = s.deltas ∧ u.cx = s.cx ∧
        (w = 0 → q = s.g a ∧ k = 0) ∧ (m = 0 → q = s.g a ∧ k = 0) ∧ (m = 1 → w ≠ 0 → q = w ∧ k = 1)) ∧
    (2 ≤ m.toNat → w ≠ 0 → farQueues s = true → soundRead s.done pls (s.g a) = .ok () →
      ∃ t, exec (.fchase acq sc d a m off ms) s = .next t ∧ t.note = .stalled ∧ t.mem = s.mem ∧ t.deltas = s.deltas ∧
        ∃ r, t.cx = { s.cx with req := some r } ∧ r.pc = s.cx.pc ∧ r.chase = some { node := w, links := 1, entry := f.entry })) ∧
  (∀ acq sc d a m off ms s pls f c q k u, Runs (.fchase acq sc d a m off ms) ms s → chaseAt s (s.g a) = some c →
    farSide s.done (ptrAdd (s.g a) (off.setWidth 64)) false c.entry [] = .ok f →
    farPlaces s.done f (c.node + off.setWidth 64) 8 .read = .ok pls → FarHead s pls →
    chase f off.toNat (m.toNat - c.links) c.links c.node pls s.done = .ok (q, k, u) →
    exec (.fchase acq sc d a m off ms) s = .next ((u.setG d q).setG (grpReg d 1) (BitVec.ofNat 64 k)) ∧
      (c.links ≤ m.toNat → k ≤ m.toNat) ∧ u.mem = s.mem ∧ u.deltas = s.deltas ∧ u.cx = s.cx ∧
      (leNat (seenBytes s pls) = 0 → q = c.node ∧ k = c.links))

/-! ### The vector stream -/

/-- A state in which the vector unit's turn has gone to the executing context (R113). -/
def Sys2Proof.Machine.State.ranVec (s : State) : State := { s with cx := { s.cx with ranV := s.time + 1 } }

/-- `i` has the effect `P` whenever it issues in a state where `ok` holds: at once, from an idle vector stream, or from the
issue queue or the repetition, which then moves on (R75, R107), and after a memory access the operations forked behind it wait
for one less (R233). -/
def Sys2Proof.Machine.VecDoes (i : Instr) (ok : State → Prop) (P : State → State → Prop) : Prop :=
  (∀ s, s.canIssueVec i = true → ok s → ∃ t, exec i s = .next t ∧ P s.done.ranVec t) ∧
  (∀ s, s.cx.vsrc ≠ .control → i.privNeed ≤ s.cx.priv.level → allotOk s.cx i.uses = true → windowClean s i.vcws = true → ok s →
    ∃ t, exec i s = .next (paid (vecAdvance t) i s.cx.recA) ∧ P s.done t)

/-- The bits of element e's lane, or pair of lanes, of a register (R72). -/
def Sys2Proof.Machine.slotOf (ty : Ty) (v : VWord) (e : Nat) : Nat :=
  bits v.toNat ((if ty.width = 64 then 64 else 32) * e) (if ty.width = 64 then 64 else 32)

/-- `fl` is the OR of the flags of the elements that are on (R59, R73). -/
def Sys2Proof.Machine.OredFlags (fl : Fl) (n : Nat) (on : Nat → Bool) (g : Nat → Fl) : Prop :=
  ∀ j < 5, fl.getLsbD j = true ↔ ∃ e < n, on e = true ∧ (g e).getLsbD j = true

/-- v[D] receives `f e` in each active element, extended to its lane, keeps its inactive ones, and FFLAGS takes the flags of
the active elements (R72, R73, R79). -/
def Sys2Proof.Machine.VPut (ty : Ty) (d : VReg) (ms : Ms) (f : State → Nat → Nat × Fl) (s t : State) : Prop :=
  let on := elemOn (ms.mask s.cx) ty.count
  ∃ (x : VWord) (fl : Fl), t = (s.setV d x).orFlags fl ∧ OredFlags fl ty.count on (fun e => (f s e).2) ∧
    ∀ e < ty.count, slotOf ty x e = if on e = true then laneOf ty (f s e).1 else slotOf ty (s.v d) e

/-- `i` writes v[D] element by element. -/
def Sys2Proof.Machine.VWrites (i : Instr) (ty : Ty) (d : VReg) (ms : Ms) (f : State → Nat → Nat × Fl) : Prop :=
  VecDoes i (fun _ => True) (VPut ty d ms f)

/-- An operation per type class on two elements: on the words of an integer type, or with a float format's rules. -/
def Sys2Proof.Machine.byClass (ty : Ty) (fi : (k : IntTy) → BitVec k.bits → BitVec k.bits → BitVec k.bits)
    (ff : FSpec → Nat → Nat → Nat × Fl) (x y : Nat) : Nat × Fl :=
  match ty with
  | .int k => ((fi k (BitVec.ofNat _ x) (BitVec.ofNat _ y)).toNat, 0)
  | .flt k => ff (fspec k) x y

/-- `i` writes that operation on the elements of v[A] and B. -/
def Sys2Proof.Machine.VWritesBin (i : Instr) (ty : Ty) (d a : VReg) (b : VB) (ms : Ms)
    (fi : (k : IntTy) → BitVec k.bits → BitVec k.bits → BitVec k.bits) (ff : FSpec → Nat → Nat → Nat × Fl) : Prop :=
  VWrites i ty d ms fun s e => byClass ty fi ff (elemOf ty (s.v a) e) (b.elem s ty e)

/-- The smaller or the larger of two words of an integer type. -/
def Sys2Proof.Machine.pick (mx : Bool) (k : IntTy) (x y : BitVec k.bits) : BitVec k.bits :=
  let less := if k.signed then (if mx then x.slt y else y.slt x) else if mx then x.ult y else y.ult x
  if less then y else x

/-- A float pattern without the bits its format ignores. -/
def Sys2Proof.Machine.held (f : FSpec) (x : Nat) : Nat := x / 2 ^ f.low * 2 ^ f.low

/-- Whenever the instruction issues, VADD, VSUB, VMUL, VFMA, VDIV, VSQRT, VMIN, VMAX, VABS, VNEG, VAND, VOR, VXOR,
VSHL, VSHR and VSAR write their operation on the elements of v[A] and B into each active element of v[D], extended to
its lane; inactive elements keep their bits; the flags of the active elements are ORed into FFLAGS; no other register
and no memory changes. Integer operations wrap, divide by R42, shift by b modulo W and compare by the type's
signedness; |x| of the most negative integer is itself. (spec/03_vector_ops.md section Arithmetic,
spec/03_vector_ops.md section Lanes, elements and the mask) -/
def Obligations.VectorArithmetic : Prop :=
  (∀ ty d a b rnd ms, VWritesBin (.vadd ty d a b rnd ms) ty d a b ms (fun _ x y => x + y) fun f x y => f.add rnd x y) ∧
  (∀ ty d a b rnd ms, VWritesBin (.vsub ty d a b rnd ms) ty d a b ms (fun _ x y => x - y) fun f x y => f.sub rnd x y) ∧
  (∀ ty d a b rnd ms, VWritesBin (.vmul ty d a b rnd ms) ty d a b ms (fun _ x y => x * y) fun f x y => f.mul rnd x y) ∧
  (∀ ty d a b rnd ms, VWrites (.vfma ty d a b rnd ms) ty d ms fun s e =>
    byClass ty (fun _ x y => x * y + BitVec.ofNat _ (elemOf ty (s.v d) e))
      (fun f x y => f.fma rnd x y (elemOf ty (s.v d) e)) (elemOf ty (s.v a) e) (b.elem s ty e)) ∧
  (∀ ty d a b rnd ms, VWritesBin (.vdiv ty d a b rnd ms) ty d a b ms
    (fun k x y => if y = 0 then BitVec.allOnes _ else if k.signed then x.sdiv y else x.udiv y) fun f x y => f.div rnd x y) ∧
  (∀ ty d a rnd ms, VWrites (.vsqrt ty d a rnd ms) (.flt ty) d ms fun s e => (fspec ty).sqrt rnd (elemOf (.flt ty) (s.v a) e)) ∧
  (∀ ty d a b ms, VWritesBin (.vmin ty d a b ms) ty d a b ms (pick false) fun f x y => f.minmax false x y) ∧
  (∀ ty d a b ms, VWritesBin (.vmax ty d a b ms) ty d a b ms (pick true) fun f x y => f.minmax true x y) ∧
  (∀ ty d a ms, VWrites (.vabs ty d a ms) ty d ms fun s e =>
    byClass ty (fun k x _ => if k.signed && x.msb then -x else x) (fun f x _ => (held f x % 2 ^ (ty.width - 1), 0))
      (elemOf ty (s.v a) e) 0) ∧
  (∀ ty d a ms, VWrites (.vneg ty d a ms) ty d ms fun s e =>
    byClass ty (fun _ x _ => -x) (fun f x _ => (held f x ^^^ 2 ^ (ty.width - 1), 0)) (elemOf ty (s.v a) e) 0) ∧
  (∀ k d a b ms, VWritesBin (.vand k d a b ms) (.int k) d a b ms (fun _ x y => x &&& y) fun _ x _ => (x, 0)) ∧
  (∀ k d a b ms, VWritesBin (.vor k d a b ms) (.int k) d a b ms (fun _ x y => x ||| y) fun _ x _ => (x, 0)) ∧
  (∀ k d a b ms, VWritesBin (.vxor k d a b ms) (.int k) d a b ms (fun _ x y => x ^^^ y) fun _ x _ => (x, 0)) ∧
  (∀ k d a b ms, VWritesBin (.vshl k d a b ms) (.int k) d a b ms (fun k x y => x <<< (y.toNat % k.bits)) fun _ x _ => (x, 0)) ∧
  (∀ k d a b ms, VWritesBin (.vshr k d a b ms) (.int k) d a b ms (fun k x y => x >>> (y.toNat % k.bits)) fun _ x _ => (x, 0)) ∧
  (∀ k d a b ms, VWritesBin (.vsar k d a b ms) (.int k) d a b ms (fun k x y => x.sshiftRight (y.toNat % k.bits)) fun _ x _ => (x, 0))

/-- Whenever the instruction issues: VCMP writes each bit of k[D] as the condition of its lane's element when that
element is active and 0 otherwise; VSEL takes each active element from v[A] or B by a bit of the selecting mask;
VBCAST copies the low bits of a g register, a lane or, with the queue holding a value that it removes, of a queue's
head to every active element; VINS writes one element if active; VIOTA writes the number of active elements below;
VPERM and VSLIDE move elements; nothing else changes. (spec/03_vector_ops.md section Compare, select and move,
spec/03_vector_ops.md section Lane position and permutation) -/
def Obligations.VectorSelectAndPermute : Prop :=
  (∀ c d a b ms, VecDoes (.vcmp c d a b ms) (fun _ => True) fun s t =>
    let ty := match c with | .int _ k => Ty.int k | .flt _ k => Ty.flt k
    let at_ (l : Nat) : Nat := if ty.width = 64 then l / 2 else l
    let on (l : Nat) : Bool := elemOn (ms.mask s.cx) ty.count (at_ l)
    let r (l : Nat) : Bool × Fl :=
      let x := elemOf ty (s.v a) (at_ l)
      let y := b.elem s ty (at_ l)
      match c with
      | .int c k =>
        let p : BitVec k.bits := BitVec.ofNat _ x
        let q : BitVec k.bits := BitVec.ofNat _ y
        let lt := if k.signed then p.slt q else p.ult q
        (match c with | .eq => p == q | .ne => p != q | .lt => lt | .le => lt || p == q | .gt => !(lt || p == q) | .ge => !lt, 0)
      | .flt c k => (fspec k).cmp c x y
    ∃ (m : Mask) (fl : Fl), t = (s.setK d m).orFlags fl ∧ OredFlags fl 16 on (fun l => (r l).2) ∧
      ∀ l < 16, m.getLsbD l = (on l && (r l).1)) ∧
  (∀ k d a b sk inv ms, VWrites (.vsel k d a b sk inv ms) (.int k) d ms fun s e =>
    (if (elemOn (s.k sk) (Ty.int k).count e ^^ inv) = true then elemOf (.int k) (s.v a) e else b.elem s (.int k) e, 0)) ∧
  (∀ ty d a ms, VWrites (.vbcast ty d (.g a) ms) ty d ms fun s _ => ((s.g a).toNat % 2 ^ ty.width, 0)) ∧
  (∀ ty d a n ms, VWrites (.vbcast ty d (.lane a n) ms) ty d ms fun s _ => (elemOf ty (s.v a) n.toNat, 0)) ∧
  (∀ ty d (q : QReg) ms x xs, q.toNat < 4 → VecDoes (.vbcast ty d (.q q) ms) (fun s => s.q q = x :: xs) fun s t =>
    VPut ty d ms (fun _ _ => (x.toNat % 2 ^ ty.width, 0)) (s.setQ q xs) t) ∧
  (∀ ty d a (n : BitVec 4) ms, n.toNat < ty.count → VecDoes (.vins ty d a n ms) (fun _ => True) fun s t =>
    let on := elemOn (ms.mask s.cx) ty.count n.toNat
    ∃ x : VWord, t = s.setV d x ∧ ∀ e < ty.count, slotOf ty x e =
      if e = n.toNat ∧ on = true then laneOf ty ((s.g a).toNat % 2 ^ ty.width) else slotOf ty (s.v d) e) ∧
  (∀ k d ms, VWrites (.viota k d ms) (.int k) d ms fun s e =>
    (((List.range e).filter (elemOn (ms.mask s.cx) (Ty.int k).count)).length, 0)) ∧
  (∀ ty d a b ms, VWrites (.vperm ty d a b ms) ty d ms fun s e => (elemOf ty (s.v a) (b.elem s ty e % ty.count), 0)) ∧
  (∀ ty up d a b (m : BitVec 5) ms, m.toNat ≤ ty.count → VWrites (.vslide ty up d a b m ms) ty d ms fun s e =>
    let x (n : Nat) : Nat := if n < ty.count then elemOf ty (s.v a) n else elemOf ty (s.v b) (n - ty.count)
    let y (n : Nat) : Nat := if n < ty.count then elemOf ty (s.v b) n else elemOf ty (s.v a) (n - ty.count)
    (if up then y (e + ty.count - m.toNat) else x (e + m.toNat), 0))

/-- A value leaves the vector side for its destination: element 0 of v[D], g[D] extended, or the tail of a queue (R89, R100);
the flags go to FFLAGS. -/
def Sys2Proof.Machine.Delivered (ty : Ty) (d : VDest) (x : Nat) (fl : Fl) (s t : State) : Prop :=
  match d with
  | .v r => ∃ w : VWord, t = (s.setV r w).orFlags fl ∧
      ∀ e < ty.count, slotOf ty w e = if e = 0 then laneOf ty x else slotOf ty (s.v r) e
  | .g r => t = (s.setG r (extend ty.width ty.isSigned x)).orFlags fl
  | .q q => t = (s.setQ q (s.q q ++ [extend ty.width ty.isSigned x])).orFlags fl

/-- A destination that can take a value now: a queue of q4 to q7 with room. -/
def Sys2Proof.Machine.CanTake (d : VDest) (s : State) : Prop :=
  match d with
  | .q q => 4 ≤ q.toNat ∧ (s.q q).length < 8
  | _ => True

/-- The active elements of a register in rising order. -/
def Sys2Proof.Machine.activeOf (s : State) (ty : Ty) (ms : Ms) : List Nat :=
  (List.range ty.count).filter (elemOn (ms.mask s.cx) ty.count)

/-- Whenever the instruction issues, with room in a queue it names: VEXTR delivers one element, or 0 when it is
inactive; VFIRST the first active element, or 0 (to a v register it writes every active element); VREDS and VREDM fold
the active elements in rising order from element 0 of B and deliver the result; VDOT2 writes in each active lane the
two products plus the lane, exact and rounded once; VCVT converts element by element between types of at most 32 bits;
eight 64-bit elements to the lanes of the half that the part names, or that half's lanes to eight 64-bit elements
(with a type of 16 or 8 bits as with one of 32: the model's choice of notes/assumptions/110.md); or to and from the
bytes or nibbles of a narrow format at the part, one written only where its own lane and the lane that holds it are
active, every other bit kept; VSPLIT3 writes the three parts of each active FP32 lane into one half of the lanes of
three registers. Nothing but the destination and FFLAGS changes. (spec/03_vector_ops.md section Reductions and the
paired dot product, spec/03_vector_ops.md section Conversion, spec/03_vector_ops.md section Compare, select and move)
-/
def Obligations.VectorReductionsAndConversions : Prop :=
  (∀ ty d a (n : BitVec 4) ms, VecDoes (.vextr ty d a n ms) (CanTake d) fun s t =>
    Delivered ty d (if elemOn (ms.mask s.cx) ty.count n.toNat = true then elemOf ty (s.v a) n.toNat else 0) 0 s t) ∧
  (∀ ty r a ms, VWrites (.vfirst ty (.v r) a ms) ty r ms fun s _ =>
    (((activeOf s ty ms).head?.map (elemOf ty (s.v a))).getD 0, 0)) ∧
  (∀ ty d a ms, (∀ r, d ≠ .v r) → VecDoes (.vfirst ty d a ms) (CanTake d) fun s t =>
    Delivered ty d (((activeOf s ty ms).head?.map (elemOf ty (s.v a))).getD 0) 0 s t) ∧
  (∀ ty d a b rnd ms, VecDoes (.vreds ty d a b rnd ms) (CanTake d) fun s t =>
    let r := (activeOf s ty ms).foldl (fun (r : Nat × Fl) e =>
      let x := byClass ty (fun _ x y => x + y) (fun f x y => f.add rnd x y) r.1 (elemOf ty (s.v a) e)
      (x.1, r.2 ||| x.2)) (b.elem s ty 0, 0)
    Delivered ty d r.1 r.2 s t) ∧
  (∀ ty mx d a b ms, VecDoes (.vredm ty mx d a b ms) (CanTake d) fun s t =>
    let r := (activeOf s ty ms).foldl (fun (r : Nat × Fl) e =>
      let x := byClass ty (pick mx) (fun f x y => f.minmax mx x y) r.1 (elemOf ty (s.v a) e)
      (x.1, r.2 ||| x.2)) (b.elem s ty 0, 0)
    Delivered ty d r.1 r.2 s t) ∧
  (∀ ty d a b rnd ms, VWrites (.vdot2 ty d a b rnd ms) (.int .n32) d ms fun s l =>
    let y := match b with
      | .cw c => s.cwSlot c % 2 ^ ty.width + s.cwSlot c % 2 ^ ty.width * 2 ^ 16
      | b => b.elem s (.int .n32) l
    dot2 ty rnd (elemOf (.int .n32) (s.v a) l) y (elemOf (.int .n32) (s.v d) l)) ∧
  (∀ (dt st : Ty) part d a rnd ms, dt.width ≠ 64 → st.width ≠ 64 →
    VWrites (.vcvt (.wide dt) (.wide st) part d a rnd ms) dt d ms fun s e => tyOf dt rnd (tyVal st (elemOf st (s.v a) e))) ∧
  (∀ (dt st : Ty) (part : BitVec 3) d a rnd ms, (dt.width = 64 ∨ st.width = 64) → part.toNat < 2 →
    VecDoes (.vcvt (.wide dt) (.wide st) part d a rnd ms) (fun _ => True) fun s t =>
      ∃ (x : VWord) (fl : Fl), t = (s.setV d x).orFlags fl ∧
        let conv (e : Nat) : Nat × Fl := tyOf dt rnd (tyVal st (elemOf st (s.v a) e))
        let half := 8 * part.toNat
        if dt.width ≠ 64 then
          let on (l : Nat) : Bool := decide (half ≤ l ∧ l < half + 8) && (ms.mask s.cx).getLsbD l
          OredFlags fl 16 on (fun l => (conv (l - half)).2) ∧
          ∀ l < 16, slotOf dt x l = if on l = true then laneOf dt (conv (l - half)).1 else slotOf dt (s.v d) l
        else
          let on := elemOn (ms.mask s.cx) 8
          let src (j : Nat) : Nat := if st.width = 64 then j else half + j
          OredFlags fl 8 on (fun j => (conv (src j)).2) ∧
          ∀ j < 8, slotOf dt x j = if on j = true then laneOf dt (conv (src j)).1 else slotOf dt (s.v d) j) ∧
  (∀ (f : BitVec 5) (st : Ty) (part : BitVec 3) d a rnd ms, (f ≠ 9 → part.toNat < 4) →
    VecDoes (.vcvt (.narrow f) (.wide st) part d a rnd ms) (fun s => narrowGood f = true ∨ ms.mask s.cx = 0) fun s t =>
      ∃ (x : VWord) (fl : Fl), t = (s.setV d x).orFlags fl ∧
        let conv (l : Nat) : Nat × Fl := fmtOf f.toNat rnd (tyVal st (elemOf st (s.v a) l))
        let bit (l : Nat) : Nat := if f = 9 then 8 * (8 * part.toNat + l / 2) + 4 * (l % 2) else 8 * (16 * part.toNat + l)
        let len := if f = 9 then 4 else 8
        let on (l : Nat) : Bool := (ms.mask s.cx).getLsbD l && (ms.mask s.cx).getLsbD (bit l / 32)
        OredFlags fl 16 on (fun l => (conv l).2) ∧
        (∀ l < 16, on l = true → bits x.toNat (bit l) len = (conv l).1 % 2 ^ len) ∧
        ∀ k < 512, (∀ l < 16, on l = true → ¬ (bit l ≤ k ∧ k < bit l + len)) → x.getLsbD k = (s.v d).getLsbD k) ∧
  (∀ (f : BitVec 5) (dt : Ty) (part : BitVec 3) d a rnd ms,
    VecDoes (.vcvt (.wide dt) (.narrow f) part d a rnd ms) (fun s => narrowGood f = true ∨ ms.mask s.cx = 0)
      (VPut dt d ms fun s l =>
        let x := if f = 9 then bits (s.v a).toNat (8 * (8 * part.toNat + l / 2) + 4 * (l % 2)) 4
          else bits (s.v a).toNat (8 * (16 * part.toNat + l)) (if f = 7 ∨ f = 8 then 6 else 8)
        tyOf dt rnd (fmtVal f.toNat false x))) ∧
  (∀ d a hi ms, VecDoes (.vsplit3 d a hi ms) (fun _ => True) fun s t =>
    ∃ (h m l : VWord) (fl : Fl), t = (((s.setV d h).setV (d + 1) m).setV (d + 2) l).orFlags fl ∧
      OredFlags fl 16 (fun j => (ms.mask s.cx).getLsbD j) (fun j => (splitParts (bits (s.v a).toNat (32 * j) 32)).2) ∧
      ∀ j < 32, let on := (ms.mask s.cx).getLsbD (j / 2) && (decide (j % 2 = 1) == hi)
        let p := (splitParts (bits (s.v a).toNat (32 * (j / 2)) 32)).1
        bits h.toNat (16 * j) 16 = (if on = true then p.1 % 2 ^ 16 else bits (s.v d).toNat (16 * j) 16) ∧
        bits m.toNat (16 * j) 16 = (if on = true then p.2.1 % 2 ^ 16 else bits (s.v (d + 1)).toNat (16 * j) 16) ∧
        bits l.toNat (16 * j) 16 = (if on = true then p.2.2 % 2 ^ 16 else bits (s.v (d + 2)).toNat (16 * j) 16))

/-- The element addresses of the vector memory instructions (R96 to R98): consecutive, with a stride, or by an index. -/
def Sys2Proof.Machine.laneAddr (s : State) (i : Instr) (e : Nat) : Word :=
  match i with
  | .vld sz step _ _ a b off _ | .vst sz step _ _ a b off _ =>
    ptrAdd (ptrAdd (s.g a) (b.val s + off.signExtend 64 + (if step then BitVec.ofNat 64 (s.cx.iterNo * sz.span) else 0)))
      (BitVec.ofNat 64 (e * sz.bytes))
  | .vlds _ _ _ a b off _ => ptrAdd (s.g a) (off.signExtend 64 + BitVec.ofNat 64 e * s.g b)
  | .vgath sz _ _ a b sh off _ | .vscat sz _ _ a b sh off _ =>
    let x := (s.v b).extractLsb' (32 * (if sz = .d then 2 * e else e)) 32
    ptrAdd (s.g a) ((x.signExtend 64 <<< sh.toNat) + off.signExtend 64)
  | _ => 0

/-- Every active element of a vector access resolves to its bytes. -/
def Sys2Proof.Machine.VReaches (i : Instr) (nd : Need) (am : Am) (sz : VSize) (ms : Ms) (pls : Nat → List Place) (s : State) : Prop :=
  ∀ e < sz.elems, elemOn (ms.mask s.cx) sz.elems e = true →
    places s.done (ctxWho s.done true) nd am 1 false (laneAddr s i e) sz.bytes = .ok (pls e)

/-- The active elements of an access. -/
def Sys2Proof.Machine.VSize.activeIn (sz : VSize) (s : State) (ms : Ms) : List Nat :=
  (List.range sz.elems).filter (elemOn (ms.mask s.cx) sz.elems)

/-- A vector load whose elements resolve, with no rick of the core before them (R333): the accesses are made, and each active
element receives its bytes, extended as its size says. -/
def Sys2Proof.Machine.VLoads (i : Instr) (am : Am) (sz : VSize) (d : VReg) (ms : Ms) : Prop :=
  ∀ pls : Nat → List Place,
    VecDoes i (fun s => VReaches i .read am sz ms pls s ∧
        ∀ e < sz.elems, elemOn (ms.mask s.cx) sz.elems e = true → NoRick s ((pls e).map (·.dest)).eraseDups)
      fun s t =>
        let u := (VSize.activeIn sz s ms).foldl (fun u e => touch u (ctxWho s true) (pls e)) s
        ∃ x : VWord, t = u.setV d x ∧ ∀ e < sz.elems, slotOf sz.ty x e =
          if elemOn (ms.mask s.cx) sz.elems e = true then
            laneOf sz.ty (leNat ((pls e).map (readByte s (ctxWho s true)))) else slotOf sz.ty (s.v d) e

/-- A vector store of elements that no rick carries: registers of every context, system registers and, while no clamp runs over
into its overflow area, every byte not stored to are unchanged, and where every byte is standing memory, or the core is a
service core, and no two elements meet, the bytes stored are read back. -/
def Sys2Proof.Machine.VStores (i : Instr) (am : Am) (sz : VSize) (d : VReg) (ms : Ms) : Prop :=
  ∀ pls : Nat → List Place,
    VecDoes i (fun s => VReaches i .write am sz ms pls s ∧
        ∀ e < sz.elems, elemOn (ms.mask s.cx) sz.elems e = true →
          goesByRick s am (laneAddr s i e) sz.bytes = false ∧ NoOwnRick s ((pls e).map (·.dest)).eraseDups)
      fun s t =>
        let active := VSize.activeIn sz s ms
        let all := (active.map pls).flatten
        t.cx = s.cx ∧ t.note = s.note ∧ t.others = s.others ∧ (∀ e n d, (t.core e).reg n d = (s.core e).reg n d) ∧
        ((∀ e, clampUsed t e ≤ Config.clampSlots) →
          (∀ (v : Who) (pl : Place), pl.key ∉ touched all → readByte t v pl = readByte s v pl) ∧
          (s.MemOk → (touched all).Nodup → (∀ e ∈ active, (pls e).length = sz.bytes) →
            (∀ pl ∈ all, frozenBy s pl.key = none ∧ pl.zero = false ∧ (isService s s.cx.ep = true ∨ pl.cls = 2)) →
            ∀ e ∈ active, ∀ q ∈ (pls e).zip (laneBytes sz (s.v d) e), readByte t (ctxWho s true) q.1 = q.2))

/-- Whenever the instruction issues and every active element passes the checks of R95: VLD, VLDS and VGATH write each
active element of v[D] with its bytes, extended as the size says, and keep the inactive ones; VST and VSCAT, for
elements that no rick carries, change no register and, while no clamp runs over into its overflow area, no byte but
those of the active elements, which then hold the elements' low bytes where no rule of the superstep intervenes.
Element e of VLD and VST lies e times its size above PtrAdd of g[A] and b plus the offset (plus the iteration's span
with STEP); of VLDS e times g[B]; of VGATH and VSCAT at the sign-extended 32-bit index, shifted.
(spec/03_vector_ops.md section Loads, stores, gathers and scatters) -/
def Obligations.VectorMemory : Prop :=
  (∀ sz step am d a b off ms, VLoads (.vld sz step am d a b off ms) am sz d ms) ∧
  (∀ sz am d a b off ms, VLoads (.vlds sz am d a b off ms) am sz d ms) ∧
  (∀ sz am d a b sh off ms, VLoads (.vgath sz am d a b sh off ms) am sz d ms) ∧
  (∀ sz step am d a b off ms, VStores (.vst sz step am d a b off ms) am sz d ms) ∧
  (∀ sz am d a b sh off ms, VStores (.vscat sz am d a b sh off ms) am sz d ms)

/-- Whenever the instruction issues: KLOG writes the logical result of two masks, KPOPC the number of ones, KFIRST the
position of the lowest one or 16, KMOV a mask, the low bits of a g register, a mask as a g value or an immediate,
KTEST whether any, none or all of the bits of k[B] are set in k[A]. QCNT writes the number of entries of a queue, from
either stream. QDRAIN empties a queue of its stream, takes the head of q4 to q7, or appends to q0 to q3 with room.
Nothing else changes. A read of a queue by the stream that writes it, a write by the stream that reads it, and the
forms GET and PUT of QDRAIN in the vector stream fault QMISUSE. (spec/03_vector_ops.md section Mask instructions,
spec/03_vector_ops.md section Queue registers) -/
def Obligations.MasksAndQueues : Prop :=
  (∀ op d a b, VecDoes (.klog op d a b) (fun _ => True) fun s t => t = s.setK d (match op with
    | .and => s.k a &&& s.k b
    | .or => s.k a ||| s.k b
    | .xor => s.k a ^^^ s.k b
    | .andn => s.k a &&& ~~~(s.k b)
    | .orn => s.k a ||| ~~~(s.k b)
    | .nor => ~~~(s.k a ||| s.k b))) ∧
  (∀ d a, VecDoes (.kpopc d a) (fun _ => True) fun s t =>
    t = s.setG d (BitVec.ofNat 64 ((List.range 16).filter fun j => (s.k a).getLsbD j).length)) ∧
  (∀ d a, VecDoes (.kfirst d a) (fun _ => True) fun s t => ∃ n ≤ 16, t = s.setG d (BitVec.ofNat 64 n) ∧
    (∀ j < n, (s.k a).getLsbD j = false) ∧ (n < 16 → (s.k a).getLsbD n = true)) ∧
  (∀ d a, VecDoes (.kmov (.kk d a)) (fun _ => True) fun s t => t = s.setK d (s.k a)) ∧
  (∀ d a, VecDoes (.kmov (.kg d a)) (fun _ => True) fun s t => t = s.setK d ((s.g a).setWidth 16)) ∧
  (∀ d a, VecDoes (.kmov (.gk d a)) (fun _ => True) fun s t => t = s.setG d ((s.k a).setWidth 64)) ∧
  (∀ d x, VecDoes (.kmov (.ki d x)) (fun _ => True) fun s t => t = s.setK d x) ∧
  (∀ c d a b, VecDoes (.ktest c d a b) (fun _ => True) fun s t => t = s.setP d (match c with
    | .any => decide (∃ j : Fin 16, (s.k a).getLsbD j = true ∧ (s.k b).getLsbD j = true)
    | .none => decide (∀ j : Fin 16, ¬ ((s.k a).getLsbD j = true ∧ (s.k b).getLsbD j = true))
    | .all => decide (∀ j : Fin 16, (s.k b).getLsbD j = true → (s.k a).getLsbD j = true))) ∧
  (∀ d q ms, VecDoes (.qcnt true d q ms) (fun _ => True) fun s t => t = s.setG d (BitVec.ofNat 64 (s.q q).length)) ∧
  (∀ d q ms, WritesG (.qcnt false d q ms) d ms fun s => BitVec.ofNat 64 (s.q q).length) ∧
  (∀ (q : QReg) ms, q.toNat < 4 → VecDoes (.qdrain true (.drain q) ms) (fun _ => True) fun s t => t = s.setQ q []) ∧
  (∀ (q : QReg) ms s, 4 ≤ q.toNat → Runs (.qdrain false (.drain q) ms) ms s →
    exec (.qdrain false (.drain q) ms) s = .next (s.done.setQ q [])) ∧
  (∀ d (q : QReg) ms s x xs, 4 ≤ q.toNat → Runs (.qdrain false (.get d q) ms) ms s → s.q q = x :: xs →
    exec (.qdrain false (.get d q) ms) s = .next ((s.done.setQ q xs).setG d x)) ∧
  (∀ (q : QReg) a ms s, q.toNat < 4 → Runs (.qdrain false (.put q a) ms) ms s → (s.q q).length < 8 →
    exec (.qdrain false (.put q a) ms) s = .next (s.done.setQ q (s.q q ++ [s.g a]))) ∧
  (∀ (q : QReg) ms s, q.toNat < 4 →
    (Runs (.qdrain false (.drain q) ms) ms s → exec (.qdrain false (.drain q) ms) s = raise s.done (Trap.of Code.qmisuse)) ∧
    ∀ d, Runs (.qdrain false (.get d q) ms) ms s → exec (.qdrain false (.get d q) ms) s = raise s.done (Trap.of Code.qmisuse)) ∧
  (∀ (q : QReg) a ms s, 4 ≤ q.toNat → Runs (.qdrain false (.put q a) ms) ms s →
    exec (.qdrain false (.put q a) ms) s = raise s.done (Trap.of Code.qmisuse)) ∧
  (∀ i s, s.cx.vsrc ≠ .control → i.privNeed ≤ s.cx.priv.level → allotOk s.cx i.uses = true → windowClean s i.vcws = true →
    (∃ ms, (∃ q : QReg, 4 ≤ q.toNat ∧ (i = .qdrain true (.drain q) ms ∨ ∃ ty d, i = .vbcast ty d (.q q) ms)) ∨
      (∃ q d, i = .qdrain true (.get d q) ms) ∨ (∃ q a, i = .qdrain true (.put q a) ms) ∨
      ∃ q : QReg, q.toNat < 4 ∧ ((∃ ty a n, i = .vextr ty (.q q) a n ms) ∨ (∃ ty a, i = .vfirst ty (.q q) a ms) ∨
        (∃ ty a b rnd, i = .vreds ty (.q q) a b rnd ms) ∨ ∃ ty mx a b, i = .vredm ty mx (.q q) a b ms)) →
    exec i s = raise s.done (Trap.of Code.qmisuse))

/-- The vector instructions that a repetition may capture: all but REP (R106). -/
def Sys2Proof.Machine.inBody : Instr → Bool
  | .vadd .. | .vsub .. | .vmul .. | .vfma .. | .vdiv .. | .vsqrt .. | .vmin .. | .vmax .. | .vabs .. | .vneg .. => true
  | .vand .. | .vor .. | .vxor .. | .vshl .. | .vshr .. | .vsar .. | .vcmp .. | .vsel .. | .vbcast .. | .vextr .. => true
  | .vins .. | .vfirst .. | .viota .. | .vperm .. | .vslide .. | .vreds .. | .vredm .. | .vdot2 .. | .vcvt .. | .vsplit3 .. => true
  | .vld .. | .vst .. | .vlds .. | .vgath .. | .vscat .. | .klog .. | .kpopc .. | .kfirst .. | .kmov .. | .ktest .. => true
  | .qcnt v _ _ _ | .qdrain v _ _ => v
  | _ => false

/-- In a control stream whose vector stream is idle, REP joins the issue queue and starts a capture of N slots. Each
vector instruction other than REP that the control stream then meets, and no register of which waits (R76), joins the
body, which is whole at N, and takes no effect. When the vector stream reaches a REP whose registers lie in the
allotment, a count of 0 drops the body and another starts iteration 0 with that count. After the last instruction of
an iteration the iteration number rises and the count falls, and after the last iteration the repetition is no longer
active (that it then keeps ITER and its parameters is the model's choice of notes/assumptions/109.md). A queue
deadlock of R103 faults QMISUSE in the stream that waits; without one the event changes nothing.
(spec/03_vector_ops.md section The repetition buffer, spec/03_vector_ops.md section Queue registers) -/
def Obligations.RepetitionBuffer : Prop :=
  (∀ a n wb ws st s, s.atControl = true →
    exec (.rep a n wb ws st) s = .next { s.done with cx := { s.cx with
      vq := [entryOf s (.legal (.rep a n wb ws st))],
      rep := { RepState.reset with capturing := true, pc := s.cx.ipc, n := n.toNat, wb := wb.toNat, ws := ws.toNat, st := st.toNat } } }) ∧
  (∀ i s, inBody i = true → s.cx.vsrc = .control → s.cx.rep.capturing = true → scalarHazard s.cx i.uses.readsOnly = false →
    exec i s = .next (captureSlot s.done (.legal i))) ∧
  (∀ (s : State) (op : VOp), let t := captureSlot s op
    t.cx.rep.body = s.cx.rep.body ++ [entryOf s op] ∧
    (t.cx.rep.capturing = true ↔ s.cx.rep.body.length + 1 < s.cx.rep.n) ∧
    (t.cx.rep.loaded = true ↔ s.cx.rep.n ≤ s.cx.rep.body.length + 1) ∧
    t = { s with cx := { s.cx with rep := t.cx.rep } }) ∧
  (∀ a n wb ws st s, s.cx.vsrc = .queue → allotOk s.cx (Instr.rep a n wb ws st).uses = true →
    ∃ t : State, exec (.rep a n wb ws st) s = .next t ∧
    t = { s.done with cx := { s.cx.toControl with vq := s.cx.vq.tail, rep := t.cx.rep } } ∧
    (if (s.g a).setWidth 32 = 0#32 then t.cx.rep = RepState.reset
     else t.cx.rep = { s.cx.rep with active := true, loaded := false, remain := ((s.g a).setWidth 32).toNat, iter := 0, idx := 0 })) ∧
  (∀ s : State, s.cx.vsrc = .repetition →
    let r := s.cx.rep
    let u := (vecAdvance s).cx.rep
    (r.idx + 1 < r.n → u = { r with idx := r.idx + 1 }) ∧
    (¬ r.idx + 1 < r.n → 1 < r.remain → u = { r with idx := 0, iter := r.iter + 1, remain := r.remain - 1 }) ∧
    (¬ r.idx + 1 < r.n → r.remain ≤ 1 → u = { r with active := false, idx := 0, iter := r.iter + 1, remain := 0, body := [] })) ∧
  (∀ ep ctx s, deadlock (s.switchTo ep ctx) = none → exec (.queueDeadlock ep ctx) s = .next s.done) ∧
  (∀ ep ctx s c t, deadlock (s.switchTo ep ctx) = some c → faultContext (s.switchTo ep ctx) (Trap.of Code.qmisuse) c = .ok t →
    exec (.queueDeadlock ep ctx) s = .next t.done)

/-! ### Objects, waits and supersteps -/

/-- An operation on the object at `p` may go ahead: no vector instruction waits, the checks of R169 pass, and the clamp has
room for the object's line (R206). -/
def Sys2Proof.Machine.ObjReady (s : State) (p : Word) (o : Obj) : Prop :=
  s.atControl = true ∧ object s.done p = .ok o ∧ (o.w.service = true ∨ clampRoom s o.w o.pls = true)

/-- The state of an operation that its object's agent has counted. -/
def Sys2Proof.Machine.objOn (s : State) (o : Obj) : State := countFarAt (touch s.done o.w o.pls) o.pls

/-- The same where the operation gives `v` to g[D]. -/
def Sys2Proof.Machine.objStart (s : State) (o : Obj) (d : GReg) (v : Word) : State :=
  countFarAt (touch (s.done.setG d v) o.w o.pls) o.pls

/-- For an object whose 64 bytes and their mirror copies are distinct, its own bytes live and in no frozen set, in a
state with canonical memory: after a field of n bytes is written with v it reads v modulo 2^(8n), every field that
does not overlap it reads as before, memory stays canonical, and no register, core, team or wait changes.
(spec/07_task_ops.md section Rules shared by the chapter, spec/10_memory_model.md section Classes) -/
def Obligations.ObjectFields : Prop :=
  ∀ (s : State) (o : Obj) (off n v : Nat), s.MemOk → o.pls.length = 64 → (touched o.pls).Nodup → (∀ pl ∈ o.pls, pl.cls = 1 ∧ frozenBy s pl.key = none) →
    off + n ≤ 64 →
    o.get (o.put s off n v) off n = v % 2 ^ (8 * n) ∧
    (∀ off' n', off' + n' ≤ off ∨ off + n ≤ off' → o.get (o.put s off n v) off' n' = o.get s off' n') ∧
    (o.put s off n v).MemOk ∧ (o.put s off n v).cx = s.cx ∧ (o.put s off n v).others = s.others ∧
    (o.put s off n v).cores = s.cores ∧ (o.put s off n v).teams = s.teams ∧ (o.put s off n v).waiters = s.waiters

/-- In every state where the instruction may run and its predicate is on, its ricks are drained and its record passes
its checks: g[D] receives the old count. DEC writes the count less b, or 0 where b is larger, INC the count plus b, or
2^32 - 1 where the sum is larger, and in those two cases UNDERFLOW is posted after the count is written; ARM writes b
to COUNT and ARMED and clears UFLOW. When DEC or ARM brings the count of a record that waits for its counter to 0 (for
DEC from another count), and the record passes R116, it is made ready again. SPAWN of a DONE solo record writes 0 to
SSTEP and makes it READY when its count is 0; otherwise its STATE becomes WAIT-COUNTER and it waits for its counter.
(spec/07_task_ops.md section Dependence counters) -/
def Obligations.DependenceCounters : Prop :=
  (∀ d a b ms s o v w, Runs (.dec d a b ms) ms s → Released s → ObjReady s (s.g a) o → o.get s 44 4 = s.cx.team.toNat →
    let old := o.get s 24 4
    let n := ((b.val s).setWidth 32).toNat
    let u := objStart s o d (BitVec.ofNat 64 old)
    (if old < n then postUnderflow (o.put u 24 4 0) o (s.g a) = .ok v else v = o.put u 24 4 (old - n)) →
    (if o.get s 8 4 % 16 = stWaitCounter ∧ old ≤ n ∧ old ≠ 0 then
      (∀ t, s.myTeam = some t → recsCheck u t (s.g a) = .ok ()) ∧ readyParked v s.cx.chip s.cx.team (s.g a) = .ok w
     else w = v) →
    exec (.dec d a b ms) s = .next w) ∧
  (∀ d a b ms s o v, Runs (.inc d a b ms) ms s → Released s → ObjReady s (s.g a) o → o.get s 44 4 = s.cx.team.toNat →
    let old := o.get s 24 4
    let n := ((b.val s).setWidth 32).toNat
    let u := objStart s o d (BitVec.ofNat 64 old)
    (if 2 ^ 32 ≤ old + n then postUnderflow (o.put u 24 4 (2 ^ 32 - 1)) o (s.g a) = .ok v else v = o.put u 24 4 (old + n)) →
    exec (.inc d a b ms) s = .next v) ∧
  (∀ d a b ms s o w, Runs (.arm d a b ms) ms s → Released s → ObjReady s (s.g a) o → o.get s 44 4 = s.cx.team.toNat →
    let n := ((b.val s).setWidth 32).toNat
    let u := objStart s o d (BitVec.ofNat 64 (o.get s 24 4))
    let x := o.put (o.put u 24 4 n) 28 4 n
    let v := o.put x 8 4 (o.get x 8 4 - bits (o.get x 8 4) 8 1 * 2 ^ 8)
    (if o.get s 8 4 % 16 = stWaitCounter ∧ n = 0 then
      (∀ t, s.myTeam = some t → recsCheck u t (s.g a) = .ok ()) ∧ readyParked v s.cx.chip s.cx.team (s.g a) = .ok w
     else w = v) →
    exec (.arm d a b ms) s = .next w) ∧
  (∀ a ms s o t u, Runs (.spawn a ms) ms s → Released s → ObjReady s (s.g a) o → s.myTeam = some t →
    recCheck s.done o.w t (s.g a) (t.optRecs.lookup (s.g a)).isSome = .ok () →
    o.get s 8 4 % 16 = stDone → bits (o.get s 8 4) 6 2 = 0 →
    spawnRec (objOn s o) o t (s.g a) = .ok u → exec (.spawn a ms) s = .next u) ∧
  (∀ (s : State) (o : Obj) (t : Team) (p : Word),
    let v := o.put s 40 4 0
    let x : State := { v with teams := v.teams.map fun x => if x.chip == t.chip && x.id == t.id then
      { x with recs := if x.recs.contains p then x.recs else x.recs ++ [p] } else x }
    (o.get v 24 4 = 0 → spawnRec s o t p = makeReady x t.chip t.id p) ∧
    (o.get v 24 4 ≠ 0 → ∃ u, spawnRec s o t p = .ok u ∧
      u.mem = (o.put x 8 4 (o.get x 8 4 - o.get x 8 4 % 16 + stWaitCounter)).mem ∧
      u.waiters = s.waiters ++ [{ chip := t.chip, team := t.id, recA := p, ep := s.cx.ep, kind := .counter }]))

/-- Suspending leaves the context idle, but for the times at which its streams last ran (R113), returns its granules
to the core's pools and touches no other context; a suspension for a wait also records what is waited for. In every
state where the instruction may run, its predicate is on and no vector instruction waits: WAITA whose word satisfies
its condition gives the word to g[D] and goes on; one whose word does not suspends as waiting at that address; YIELD
whose record passes R116 suspends as READY and joins its ready queue; SUSP with a count of 0 writes its save area and
goes on, and otherwise suspends until its counter is 0. The wake of a record that waits at no address changes nothing,
and otherwise has the effect of wakeAddr. (spec/05_execution_model.md section Binding and suspension,
spec/07_task_ops.md section Waiting and yielding) -/
def Obligations.SuspensionAndWaiting : Prop :=
  (∀ (s : State) (st : Nat) (waitp pc : Word) (u : State), suspendCx s st waitp pc = .ok u →
    u.cx = { Context.idle s.cx.ep s.cx.no with ranC := s.cx.ranC, ranV := s.cx.ranV } ∧ u.others = s.others ∧
    (u.core s.cx.ep).freeG = (s.core s.cx.ep).freeG + s.cx.gGran ∧
    (u.core s.cx.ep).freeV = (s.core s.cx.ep).freeV + s.cx.vGran ∧ u.waiters = s.waiters) ∧
  (∀ (s : State) (st : Nat) (waitp : Word) (k : WaitKind) (u : State), suspendFor s st waitp k = .ok u →
    ∃ v, suspendCx s st waitp (slotAfter s.cx) = .ok v ∧ u = { v with note := .transfer, waiters := s.waiters ++
      [{ chip := s.cx.chip, team := s.cx.team, recA := s.cx.recA, ep := s.cx.ep, kind := k }] }) ∧
  (∀ c d a b ms s v w, Runs (.waita c d a b ms) ms s → s.atControl = true → waitWord s.done (s.g a) = .ok (v, w) →
    let holds := match c with | .eq => decide (w = b.val s) | .ne => decide (w ≠ b.val s) | .gen => decide ((b.val s).toNat ≤ w.toNat)
    (holds = true → exec (.waita c d a b ms) s = .next (v.setG d w)) ∧
    (∀ u, holds = false → suspendFor v stWaitAddress (s.g a) (.addr c (b.val s) d (s.g a) none) = .ok u →
      exec (.waita c d a b ms) s = .next u)) ∧
  (∀ ms s u v, Runs (.yield ms) ms s → s.atControl = true → checkOwn s.done = .ok () → suspendCx s.done stReady 0 (slotAfter s.cx) = .ok u →
    makeReady u s.cx.chip s.cx.team s.cx.recA = .ok v → exec (.yield ms) s = .next { v with note := .transfer }) ∧
  (∀ ms s r, Runs (.susp ms) ms s → s.atControl = true → readRec s.done (devWho s.done s.cx.ep s.cx.chip s.cx.team) s.cx.recA = .ok r →
    (r.count = 0 → ∀ u, putSave s.done (devWho s.done s.cx.ep s.cx.chip s.cx.team) r.save (saveList s.cx) = .ok u →
      exec (.susp ms) s = .next u ∧ u.cx = s.cx) ∧
    (r.count ≠ 0 → ∀ u, suspendFor s.done stWaitCounter 0 .counter = .ok u → exec (.susp ms) s = .next u)) ∧
  (∀ chip rc s, (∀ x ∈ s.waiters, x.recA = rc → x.chip = chip → match x.kind with | .addr .. => False | _ => True) →
    exec (.waitaWake chip rc) s = .next s.done) ∧
  (∀ chip rc s t, wakeAddr s chip rc = .ok t → exec (.waitaWake chip rc) s = .next t.done)

/-- In every state where the instruction may run and its predicate is on, with a barrier that passes its checks:
ARRIVE for the present or the next phase gives g[D] the phase plus 1, counts with its payload, and settles the
barrier, and for the phase after that suspends; AWAIT of the phase just completed gives g[D] the result, and of a
phase still open, or of the next, suspends; DROP takes one from EXPECT, at once or at the next phase, and settles the
barrier. Completing a phase makes the payload its result, the next phase's counts and payload the present ones, takes
the drops from EXPECT and adds one to PHASE. A barrier at which nobody waits completes nothing while its arrivals stay
below EXPECT, and one phase when they reach it and the next phase's do not. (spec/07_task_ops.md section Phase
barriers) -/
def Obligations.PhaseBarriers : Prop :=
  (∀ d a b ms s o, Runs (.arrive d a b ms) ms s → Released s → ObjReady s (s.g a) o →
    let r := readBar o s
    r.op ≤ 8 → r.expect ≠ 0 → ∀ u,
    ((s.g d).setWidth 32 = BitVec.ofNat 32 r.phase →
      settle (objStart s o d (s.g d + 1)) o
        { r with arrc := (r.arrc + 1) % 2 ^ 32, payc := payOp r.op r.payc (b.val s).toNat } = .ok u →
      exec (.arrive d a b ms) s = .next u) ∧
    ((s.g d).setWidth 32 = BitVec.ofNat 32 r.phase + 1 →
      settle (objStart s o d (s.g d + 1)) o
        { r with arrn := (r.arrn + 1) % 2 ^ 32, payn := payOp r.op r.payn (b.val s).toNat } = .ok u →
      exec (.arrive d a b ms) s = .next u) ∧
    (∀ v, (s.g d).setWidth 32 = BitVec.ofNat 32 r.phase + 2 →
      suspendFor (countFarAt s.done o.pls) stWaitBarrier (s.g a ||| 2 ||| BitVec.ofNat 64 ((s.g d).toNat % 2))
        (.arrive (s.g d) (b.val s) d (s.g a) s.cx.ipc s.cx.no) = .ok v →
      putBar v o r = .ok u → exec (.arrive d a b ms) s = .next u)) ∧
  (∀ d a b ms s o, Runs (.await d a b ms) ms s → s.atControl = true → object s.done (s.g a) = .ok o →
    let r := readBar o s
    r.op ≤ 8 →
    (BitVec.ofNat 32 r.phase = (s.g b).setWidth 32 + 1 →
      exec (.await d a b ms) s = .next ((countFarAt s.done o.pls).setG d (BitVec.ofNat 64 r.result))) ∧
    (∀ u v, (BitVec.ofNat 32 r.phase = (s.g b).setWidth 32 ∨ BitVec.ofNat 32 r.phase + 1 = (s.g b).setWidth 32) →
      suspendFor (countFarAt s.done o.pls) stWaitBarrier (s.g a ||| BitVec.ofNat 64 ((s.g b).toNat % 2)) (.await (s.g b) d (s.g a)) = .ok u →
      putBar u o r = .ok v → exec (.await d a b ms) s = .next v)) ∧
  (∀ a b ms s o u, Runs (.drop a b ms) ms s → Released s → ObjReady s (s.g a) o →
    let r := readBar o s
    r.op ≤ 8 → r.expect ≠ 0 →
    ((s.g b).setWidth 32 = BitVec.ofNat 32 r.phase →
      settle (objOn s o) o { r with expect := r.expect - 1 } = .ok u → exec (.drop a b ms) s = .next u) ∧
    ((s.g b).setWidth 32 = BitVec.ofNat 32 r.phase + 1 →
      settle (objOn s o) o { r with dropn := (r.dropn + 1) % 2 ^ 32 } = .ok u → exec (.drop a b ms) s = .next u)) ∧
  (∀ b : Bar, b.complete.result = b.payc ∧ b.complete.payc = b.payn ∧ b.complete.payn = payIdentity b.op ∧ b.complete.arrc = b.arrn ∧
    b.complete.arrn = 0 ∧ b.complete.phase = (b.phase + 1) % 2 ^ 32 ∧ b.complete.dropn = 0 ∧
    (b.dropn ≤ b.expect → b.expect < 2 ^ 32 → b.complete.expect = b.expect - b.dropn)) ∧
  (∀ o f s (b : Bar), waitersAt s o atBarrier = [] → b.arrc < b.expect → settleBar o f false s b = .ok (s, b)) ∧
  (∀ o f s (b : Bar), waitersAt s o atBarrier = [] → 0 < b.expect → b.expect ≤ b.arrc →
    b.complete.arrc < b.complete.expect → settleBar o (f + 2) false s b = .ok (s, b.complete)) ∧
  (∀ x y : BitVec 64,
    payOp 1 x.toNat y.toNat = (x + y).toNat ∧ payOp 2 x.toNat y.toNat = (if y.slt x then y else x).toNat ∧
    payOp 3 x.toNat y.toNat = (if x.slt y then y else x).toNat ∧ payOp 4 x.toNat y.toNat = (x &&& y).toNat ∧
    payOp 5 x.toNat y.toNat = (x ||| y).toNat ∧ payOp 6 x.toNat y.toNat = (x ^^^ y).toNat ∧
    payOp 7 x.toNat y.toNat = (if y.ult x then y else x).toNat ∧ payOp 8 x.toNat y.toNat = (if x.ult y then y else x).toNat)

/-- In every state where the instruction may run and its predicate is on, with an object that passes its checks:
TQPUSH to a queue with a free entry writes the entry at TAIL, takes one from FREE and adds one to COUNT when nobody
waits, and otherwise gives the entry to the first waiting consumer, which becomes ready; to a full queue it suspends.
TQPOP of a queue that holds entries gives g[D] the entry at HEAD and, when no producer waits, adds one to FREE and
takes one from COUNT; otherwise the first waiting producer's entry is appended and it becomes ready; of an empty queue
it suspends. FUSE suspends; the last of the subgroup to execute it forms the gang. SPLIT takes the record out of its
gang (what becomes of members that do not execute it is the model's choice of notes/assumptions/128.md). TSPAWN writes
p[D] = 0 when 16 records are held or the queue has no slot, and otherwise holds the record with the team's ID as its
PARENT and writes p[D] = 1. (spec/07_task_ops.md section Task queues, spec/07_task_ops.md section Gangs,
spec/07_task_ops.md section Launching from a team) -/
def Obligations.TaskQueuesAndGangs : Prop :=
  (∀ a b ms s o, Runs (.tqpush a b ms) ms s → Released s → s.cx.gang = none → ObjReady s (s.g a) o → queueCheck s.done o (s.g a) = .ok () →
    (o.get s 12 4 ≠ 0 → waitersAt (objOn s o) o atPop = [] → ∀ u, ringPut (objOn s o) o (s.g b) = .ok u →
      exec (.tqpush a b ms) s = .next (let v := o.put u 12 4 (o.get u 12 4 - 1); o.put v 16 4 (o.get u 16 4 + 1))) ∧
    (∀ x xs d p u v w, o.get s 12 4 ≠ 0 → waitersAt (objOn s o) o atPop = x :: xs → x.kind = .tqPop d p →
      wakeWrite (objOn s o) x.chip x.team x.recA d (s.g b) = .ok u → wakeRec u x.chip x.team x.recA = .ok v →
      putQueueLists v o = .ok w → exec (.tqpush a b ms) s = .next w) ∧
    (o.get s 12 4 = 0 → ∀ u v, suspendFor (countFarAt s.done o.pls) stWaitQueue (s.g a) (.tqPush (s.g b) (s.g a)) = .ok u →
      putQueueLists u o = .ok v → exec (.tqpush a b ms) s = .next v)) ∧
  (∀ d a ms s o, Runs (.tqpop d a ms) ms s → s.cx.gang = none → ObjReady s (s.g a) o → queueCheck s.done o (s.g a) = .ok () →
    (∀ pls, o.get s 16 4 ≠ 0 → ringPlaces (objOn s o) o (o.get s 20 4) = .ok pls →
      let x := BitVec.ofNat 64 (leNat (pls.map (readByte (objOn s o) o.w)))
      let u := o.put ((objOn s o).setG d x) 20 4 ((o.get s 20 4 + 1) % o.get s 8 4)
      (waitersAt u o atPush = [] →
        exec (.tqpop d a ms) s = .next (let v := o.put u 12 4 (o.get u 12 4 + 1); o.put v 16 4 (o.get u 16 4 - 1))) ∧
      (∀ y ys e p v w z, waitersAt u o atPush = y :: ys → y.kind = .tqPush e p → ringPut u o e = .ok v →
        wakeRec v y.chip y.team y.recA = .ok w → putQueueLists w o = .ok z → exec (.tqpop d a ms) s = .next z)) ∧
    (o.get s 16 4 = 0 → ∀ u v, suspendFor (countFarAt s.done o.pls) stWaitQueue (s.g a) (.tqPop d (s.g a)) = .ok u →
      putQueueLists u o = .ok v → exec (.tqpop d a ms) s = .next v)) ∧
  (∀ sh ms s t es u, Runs (.fuse sh ms) ms s → s.atControl = true → s.cx.gang = none → isCompute s.cx.ep = true → s.myTeam = some t →
    subgroup t s.cx.ep sh = some es → suspendFor s.done stWaitBarrier 0 (.fuse sh s.cx.ipc s.cx.no) = .ok u →
    (fuseDone u t s.cx.ep = none → exec (.fuse sh ms) s = .next u) ∧
    (∀ xs v, fuseDone u t s.cx.ep = some xs → formGang u t xs = .ok v → exec (.fuse sh ms) s = .next v)) ∧
  (∀ (s : State) (t : Team) (e : EP) xs, fuseDone s t e = some xs →
    ∃ sh es, subgroup t e sh = some es ∧ xs = fusing s t es ∧ xs.length = es.length) ∧
  (∀ ms s u v, Runs (.split ms) ms s → s.cx.gang ≠ none →
    putStatus s.done (devWho s.done s.cx.ep s.cx.chip s.cx.team) s.cx.recA 6 2 0 = .ok u →
    leaveGang u s.cx.chip s.cx.team s.cx.recA = .ok v →
    exec (.split ms) s = .next { v with cx := { v.cx with gang := none } }) ∧
  (∀ (s v : State) chip team a x, s.team? chip team = some x → leaveGang s chip team a = .ok v →
    ∃ y, v.team? chip team = some y ∧ ∀ g ∈ y.gangs, ∀ m ∈ g.2, m.1 ≠ a) ∧
  (∀ d a (q : BitVec 4) ms s pls size head tail, Runs (.tspawn d a q ms) ms s → Released s → ptrSpace (s.g a) ≤ 4 →
    Reaches s .read .lin 1 (s.g a) 128 pls →
    let u := s.touchedBy pls
    let chip := epChip s.cx.ep
    let desc := lqAddr u chip q.toNat
    desc ≠ 0 → physRead u chip (desc + 8) 4 = .ok size → physRead u chip (desc + 16) 4 = .ok head →
    physRead u chip (desc + 20) 4 = .ok tail →
    let mine := (u.myTeam.map fun t => t.held.length).getD 0
    let used := (tail + 2 ^ 32 - head) % 2 ^ 32 + heldFor u chip q.toNat
    let bs := (seenBytes s pls).take 24 ++ bytesOf s.cx.team.toNat 4 ++ (seenBytes s pls).drop 28
    (16 ≤ mine ∨ size ≤ used → exec (.tspawn d a q ms) s = .next (u.setP d false)) ∧
    (mine < 16 → used < size → exec (.tspawn d a q ms) s =
      .next (State.setP (u.modTeam s.cx.chip s.cx.team fun t =>
        { t with held := t.held ++ [(q.toNat, s.cx.rank, t.held.length, bs)] }) d true)))

/-- In every state where the instruction may run and its predicate is on: SSYNC with an operation of 0 to 8 in a core
that runs no service program moves the context to waiting at its SSYNC with its payload, operation and vote; SSNUM
gives g[D] the team's superstep number, or 0 to a core of no team (the model's choice of notes/assumptions/124.md: the
spec gives SSNUM to teams). The event of a waiting context that is drained counts its arrival, votes ABORT exactly
when V is set and g[B] is not 0, and moves its PC past the SSYNC; for a context that does not wait it changes nothing,
and one that waits with a queue that is not empty it faults QMISUSE. A context of no gang suspends once it has arrived
and a ready record wants its place, and not otherwise. (spec/07_task_ops.md section Closing a superstep,
spec/09_supersteps.md section What a closing barrier awaits) -/
def Obligations.SuperstepArrivals : Prop :=
  (∀ d a b v (op : BitVec 4) ms s, Runs (.ssync d a b v op ms) ms s → isService s s.cx.ep = false → op.toNat ≤ 8 →
    let y : Sync := { d := d, payload := s.g a, op := op.toNat, vote := v && decide (s.g b ≠ 0), pc := s.cx.ipc }
    let c : Context := { s.cx with mode := .syncing, sync := some y }
    exec (.ssync d a b v op ms) s = .next { s.done with note := .transfer, cx := c }) ∧
  (∀ d ms s t, s.myTeam = some t → Runs (.ssnum d ms) ms s → exec (.ssnum d ms) s = .next (s.done.setG d (t.ssn.setWidth 64))) ∧
  (∀ d ms s, s.myTeam = none → Runs (.ssnum d ms) ms s → exec (.ssnum d ms) s = .next (s.done.setG d 0)) ∧
  (∀ ep ctx s, (s.switchTo ep ctx).cx.mode ≠ .syncing → exec (.ssyncArrivalCount ep ctx) s = .next (s.switchTo ep ctx).done) ∧
  (∀ ep ctx s y, let u := s.switchTo ep ctx
    u.cx.mode = .syncing → u.cx.sync = some y → vecBusy u.cx = false → queuesClear u.cx = true → openRicks (u.core u.cx.ep) = [] →
    drained u u.cx = true →
    ∃ t : State, exec (.ssyncArrivalCount ep ctx) s = .next t ∧ t.cx = { u.cx with mode := .arrived, pc := nextSlot y.pc } ∧
      t.mem = s.mem ∧ ∀ x, u.myTeam = some x → ∃ z, t.myTeam = some z ∧
        z.arrivals = x.arrivals ++ [{ recA := u.cx.recA, rank := u.cx.rank, ctx := u.cx.no, ep := u.cx.ep, d := y.d, payload := y.payload,
                                      op := y.op, pc := y.pc, parked := false }] ∧
        z.votes = x.votes ++ (if y.vote then [{ cause := 11, pc := y.pc, rank := u.cx.rank, ctx := u.cx.no }] else [])) ∧
  (∀ ep ctx s t y, let u := s.switchTo ep ctx
    u.cx.mode = .syncing → u.cx.sync = some y → vecBusy u.cx = false → queuesClear u.cx = false →
    faultContext { u with cx := { u.cx with mode := .running, sync := none } } (Trap.of Code.qmisuse) true = .ok t →
    exec (.ssyncArrivalCount ep ctx) s = .next t.done) ∧
  (∀ ep ctx s, let u := s.switchTo ep ctx
    u.cx.mode ≠ .arrived ∨ wantsContext u u.cx.ep = false → u.cx.gang = none → exec (.arrivedSuspend ep ctx) s = .next u.done) ∧
  (∀ ep ctx s u, let v := s.switchTo ep ctx
    v.cx.mode = .arrived → v.cx.gang = none → wantsContext v v.cx.ep = true →
    suspendCx (v.switchTo v.cx.ep v.cx.no) stWaitBarrier 0 v.cx.pc = .ok u →
    ∃ t : State, exec (.arrivedSuspend ep ctx) s = .next t ∧ t.cx = { Context.idle v.cx.ep v.cx.no with ranC := v.cx.ranC, ranV := v.cx.ranV } ∧
      ∃ x, t.waiters = s.waiters ++ [x] ∧ x.recA = v.cx.recA ∧ x.kind = .arrived ((v.cx.sync.map fun y => y.d).getD 0))

/-! ### Engines, the scheduler, launches -/

/-- Nothing of a core's ricks and cords is for one of the endpoints (R333). -/
def Sys2Proof.Machine.CoreNoRick (s : State) (e : EP) (ds : List EP) : Prop :=
  rickFor s e ds = [] ∧ ∀ c ∈ s.cords, c.src = e → c.dest ∉ ds

/-- The event leaves everything as it was. -/
def Sys2Proof.Machine.Idles (i : Instr) (s : State) : Prop := exec i s = .next s.done

/-- In every state where the instruction may run and its predicate is on: GWLOAD copies its 64-byte nodes into the
core's graph while the walker does not run; GWRUN starts an idle walker at its node for this context; GWSTAT gives
g[D] the walker's status, node and context; COND stores a word in global memory or the core's own LM once its ricks
are drained. A walker that does not run, stands at a fault or awaits an access made before its GWRUN does nothing; a
DONE node ends it; an ENG node whose commands are all queued and a WAIT node whose word is 0 move on; a branch node
takes NEXT or ALT by its word; a node whose fields R139 does not allow, or whose command block lies where the walker
may not read, stops the walker with ERROR (that an ALT of 32 or more of an ENG, WAIT or DONE node is a value R139 does
not allow is the model's choice of notes/assumptions/13.md). (spec/07_task_ops.md section The graph walker,
spec/05_execution_model.md section The graph walker) -/
def Obligations.GraphWalker : Prop :=
  (∀ a (first : BitVec 5) (n : BitVec 6) ms s pls, Runs (.gwload a first n ms) ms s → isCompute s.cx.ep = true → 1 ≤ n.toNat →
    first.toNat + n.toNat ≤ 32 → (s.core s.cx.ep).walker.state ≠ .running → ptrSpace (s.g a) ≤ 4 →
    Reaches s .read .lin 1 (s.g a) (64 * n.toNat) pls →
    exec (.gwload a first n ms) s =
      .next { s.touchedBy pls with mem := s.mem.setBytes (bufKey s.cx.ep 1 (Config.winHi + 64 * first.toNat)) (seenBytes s pls) }) ∧
  (∀ (node : BitVec 5) ms s, Runs (.gwrun node ms) ms s → s.atControl = true → isCompute s.cx.ep = true →
    (s.core s.cx.ep).walker.state ≠ .running →
    ∃ t : State, exec (.gwrun node ms) s = .next t ∧ t.cx = s.cx ∧ t.mem = s.mem ∧ (t.core s.cx.ep).walker =
      { state := .running, node := node.toNat, ctx := s.cx.no, recA := s.cx.recA, pc := s.cx.ipc, rank := s.cx.rank, sub := 0, stuck := false,
        at_ := 0, g2 := some (s.g 2), behind := 0, forked := s.time }) ∧
  (∀ d ms s, Runs (.gwstat d ms) ms s → isCompute s.cx.ep = true →
    let w := (s.core s.cx.ep).walker
    let n := match w.state with | .idle => 0 | .running => 1 | .done => 2 | .error => 3
    exec (.gwstat d ms) s = .next (s.done.setG d (BitVec.ofNat 64 (w.ctx.toNat * 2 ^ 16 + w.node * 2 ^ 8 + n)))) ∧
  (∀ a b ms s pls, Runs (.cond a b ms) ms s → Released s →
    (ptrSpace (s.g a) = 0 ∨ (ptrSpace (s.g a) = 1 ∧ (ptrRank (s.g a) = 0xFFF ∨ ptrRank (s.g a) = s.cx.rank))) →
    Lands s false .lin 8 (s.g a) 8 pls →
    ∃ t, exec (.cond a b ms) s = .next t ∧ Stored s.done t pls (bytesOf (b.val s).toNat 8)) ∧
  (∀ e s, let w := (s.core e).walker
    (w.state ≠ .running ∨ w.stuck = true ∨ forkReady s e w.recA w.behind w.forked = false) → Idles (.walkerNodeStep e) s) ∧
  (∀ e s, let w := (s.core e).walker
    let n := readNode s e w.node
    let goes (w' : Walker) : Prop :=
      ∃ t : State, exec (.walkerNodeStep e) s = .next t ∧ (t.core e).walker = w' ∧ t.mem = s.mem ∧ t.cx = s.cx
    w.state = .running → w.stuck = false → forkReady s e w.recA w.behind w.forked = true → nodeKey e w.node / 64 ∉ s.poison →
    n.ok w.rank = true →
    (n.type = 5 → goes { w with state := .done }) ∧
    (n.type = 1 → blockOk s e n = true → n.count ≤ w.sub → goes { w with node := n.next, sub := 0 }) ∧
    (∀ u bs, n.type = 2 → walkerRead s e n.ptr 4 = .ok (u, bs) →
      goes (if leNat bs = 0 then { w with node := n.next, sub := 0 } else w)) ∧
    (∀ u bs, n.type = 3 → walkerRead s e n.ptr 8 = .ok (u, bs) → goes { w with node := if leNat bs = 0 then n.alt else n.next, sub := 0 }) ∧
    (∀ u bs, n.type = 4 → walkerRead s e n.ptr 8 = .ok (u, bs) → goes { w with node := if leNat bs = 0 then n.next else n.alt, sub := 0 })) ∧
  (∀ e s, let w := (s.core e).walker
    let n := readNode s e w.node
    w.state = .running → w.stuck = false → forkReady s e w.recA w.behind w.forked = true → nodeKey e w.node / 64 ∉ s.poison →
    (n.ok w.rank = false ∨ blockOk s e n = false) →
    ∃ t : State, exec (.walkerNodeStep e) s = .next t ∧ (t.core e).walker = { w with state := .error } ∧ t.mem = s.mem)

/-- In every state where the instruction may run, its predicate is on, its checks pass and the engine has room, CPY
and PFL add one operation of this context behind those queued and change no register and no memory. A piece of a copy,
past the ricks that its ranges meet at their start, reads its source bytes and writes them to the destination up to
its next 64-byte boundary, and adds its length to what is done; when all is done the completion word is written and
the operation is gone. An event that names no operation, or one that an access made before it still holds up, changes
nothing; a page-fetch list fetches its lines in order, and one with no line left is gone. (spec/07_task_ops.md section
The copy engine, spec/10_memory_model.md section Engines as threads) -/
def Obligations.CopyEngine : Prop :=
  (∀ a b ms s, Runs (.cpy a b ms) ms s → s.atControl = true → engineRoom s s.cx.ep = true →
    let w := engineWho s.done s.cx.ep .copy s.cx.chip s.cx.team s.cx.rank
    checkCopy s.done { w with priv := s.cx.priv } (s.g a) (s.g (grpReg a 1)) (s.g (grpReg a 2)) (s.g (grpReg a 3)) = .ok () →
    ∃ (t : State) (o : EngineOp), exec (.cpy a b ms) s = .next t ∧ (t.core s.cx.ep).engine = (s.core s.cx.ep).engine ++ [o] ∧
      o.kind = .cpy (s.g a) (s.g (grpReg a 1)) (s.g (grpReg a 2)).toNat 0 ∧ o.cw = s.g (grpReg a 3) ∧ o.val = b.val s ∧
      o.recA = s.cx.recA ∧ o.id = s.nextId ∧ t.cx = s.cx ∧ t.mem = s.mem ∧ t.deltas = s.deltas) ∧
  (∀ e id s, (∀ o, findOp s e id = some o → forkReady s e o.recA o.behind o.forked = false) →
    Idles (.copyPiece e id) s ∧ Idles (.pflComplete e id) s) ∧
  (∀ e id s o dst src n k sp dp, findOp s e id = some o → o.stuck = false → o.kind = .cpy dst src n k → k < n →
    forkReady s e o.recA o.behind o.forked = true →
    let w := opWho s e o
    let len := min (n - k) (64 - (ptrAdd dst (BitVec.ofNat 64 k)).toNat % 64)
    places s w .read .lin 1 false (ptrAdd src (BitVec.ofNat 64 k)) len = .ok sp →
    places s w .write .lin 1 false (ptrAdd dst (BitVec.ofNat 64 k)) len = .ok dp →
    (k = 0 → CoreNoRick s e ((sp ++ dp).map (·.dest)).eraseDups) →
    exec (.copyPiece e id) s = .next (setOp (storePlaces (touch s w sp) w o.ctx o.pc dp (sp.map (readByte s w))) e
      { o with kind := .cpy dst src n (k + len) }).done) ∧
  (∀ e id s o dst src n k pls, findOp s e id = some o → o.stuck = false → o.kind = .cpy dst src n k → n ≤ k →
    forkReady s e o.recA o.behind o.forked = true →
    places s (opWho s e o) .write .lin 8 false o.cw 8 = .ok pls →
    ∃ t : State, exec (.copyPiece e id) s = .next t ∧ findOp t e o.id = none ∧
      t.mem = (writePlaces s (opWho s e o) o.ctx o.pc pls (bytesOf o.val.toNat 8)).mem) ∧
  (∀ a (n : BitVec 7) ms s pls, Runs (.pfl a n ms) ms s → isCompute s.cx.ep = true → engineRoom s s.cx.ep = true →
    1 ≤ n.toNat → n.toNat ≤ 64 → Reaches s .read .lin 1 (s.g a) (16 * n.toNat) pls →
    let bs := seenBytes s pls
    let entries := (List.range n.toNat).map fun j => (word8 bs (2 * j), word8 bs (2 * j + 1))
    (entries.zipIdx.forM fun q => checkEntry (s.touchedBy pls) (engineWho (s.touchedBy pls) s.cx.ep .landing s.cx.chip s.cx.team s.cx.rank)
      (ptrOff (s.g a) (16 * q.2)) q.1.1 q.1.2) = .ok () →
    ∃ (t : State) (o : EngineOp), exec (.pfl a n ms) s = .next t ∧ (t.core s.cx.ep).engine = (s.core s.cx.ep).engine ++ [o] ∧
      o.kind = .pfl entries 0 ∧ t.cx = s.cx ∧ t.mem = s.mem) ∧
  (∀ e id s o entries i t, findOp s e id = some o → o.stuck = false → o.kind = .pfl entries i →
    forkReady s e o.recA o.behind o.forked = true → landLines e o entries i ((listLines entries).drop i) s = .ok t → exec (.pflComplete e id) s = .next t.done) ∧
  (∀ e id s o entries i, findOp s e id = some o → o.stuck = false → o.kind = .pfl entries i →
    forkReady s e o.recA o.behind o.forked = true → (listLines entries).length ≤ i →
    exec (.pflComplete e id) s = .next (dropOp s e o.id).done)

/-- A context that finds nothing to take changes nothing. Binding a record leaves its context running with the
record's PC, its granules, its k0 and the core's rank, g0 and p0 reading 0 and 1, and takes its granules from the
core's pools. A record at the head of a level below 3 that has waited its time goes to the tail of the next level with
a new wait; with none that has, the event changes nothing. (spec/05_execution_model.md section Binding and suspension,
spec/05_execution_model.md section Ready queues, ageing and stealing) -/
def Obligations.SchedulerEvents : Prop :=
  (∀ e n s, seek s e n = none → Idles (.contextBind e n) s) ∧
  (∀ e n s t, bindNext s e n = .ok t → exec (.contextBind e n) s = .next t.done) ∧
  (∀ s e n chip team a r t, readRec s (devWho s e chip team) a = .ok r → bindRec s e n chip team a = .ok t →
    let c := t.ctx e n
    c.mode = .running ∧ c.recA = a ∧ c.pc = r.pc ∧ c.chip = chip ∧ c.team = team ∧ c.rank = (s.core e).rank ∧
    c.gGran = r.ggran ∧ c.vGran = r.vgran ∧ c.kr 0 = BitVec.ofNat 16 r.k0 ∧ c.gr 0 = 0 ∧ c.pr 0 = true ∧
    (t.core e).freeG = (s.core e).freeG - r.ggran ∧ (t.core e).freeV = (s.core e).freeV - r.vgran) ∧
  (∀ chip rc s, agedHead s chip rc = none → Idles (.readyAge chip rc) s) ∧
  (∀ chip rc s t, ageRecord s chip rc = .ok t → exec (.readyAge chip rc) s = .next t.done) ∧
  (∀ s key l r home t, l < 4 → appendLevel s key l r home = .ok t →
    (t.readyQ key).level l = (s.readyQ key).level l ++ [r] ∧ ∀ m < 4, m ≠ l → (t.readyQ key).level m = (s.readyQ key).level m) ∧
  (∀ s chip rc key l r, agedHead s chip rc = some (key, l, r) → l ≤ 2 ∧ r.recA = rc ∧ r.chip = chip ∧
    r.since + Config.ageLimit ≤ s.time)

/-- A doorbell of a queue that is off, of a stopped package, over a stream that is insecure, or of a virtual function
that does not exist changes nothing; that of a well-formed queue takes up its TAIL. A queue with no record, or whose
record waits for its cores, launches nothing; a record that has passed its checks and finds its cores busy is marked
so, and from then on can fail only with 0xFF03 or 0xFF04 before it finds them free; a record that cannot be launched,
or not be started, fails with its code and HEAD moves past it; one that can be starts its team on free cores of a
valid rectangle in superstep 1, in state OPEN, with the records of its ranks. A launched core belongs to the team with
its rank, with no accumulator and an empty instruction cache. An event for a queue that no record is held for changes
nothing, and otherwise its oldest held record is dealt with. (spec/05_execution_model.md section Launch queues and
launch records, spec/05_execution_model.md section Launches from the device, spec/27_reliability_host.md section The
port) -/
def Obligations.LaunchQueues : Prop :=
  (∀ chip (q : BitVec 4) s, queueOff s chip q.toNat = true → Idles (.lqdb chip q) s) ∧
  (∀ chip (q : BitVec 4) s t, ringQueue s chip q.toNat = .ok t → exec (.lqdb chip q) s = .next t.done) ∧
  (∀ chip (q : BitVec 4) s x, queueOff s chip q.toNat = false → (s.chip chip).host.numVfs ≤ q.toNat / 2 →
    readQueue s chip q.toNat = .ok x → x.ok = true →
    ∃ t : State, exec (.lqdb chip q) s = .next t ∧ t.mem = s.mem ∧
      (t.chip chip).tails.lookup q.toNat = if x.head = x.tail then none else some x.tail) ∧
  (∀ chip fn v s, (s.chip chip).stopped = true ∨ cutOff s chip fn = true → Idles (.hostDoorbell chip fn v) s) ∧
  (∀ chip (n : BitVec 3) v s, (s.chip chip).host.numVfs ≤ n.toNat → Idles (.hostDoorbell chip (.vf n) v) s) ∧
  (∀ chip fn v s t, hostRing s chip fn v = .ok t → exec (.hostDoorbell chip fn v) s = .next t.done) ∧
  (∀ chip (q : BitVec 4) s, headTaking s chip q.toNat = .ok none → Idles (.launch chip q) s) ∧
  (∀ chip (q : BitVec 4) s x tail r, headTaking s chip q.toNat = .ok (some (x, tail, r, .waits)) → Idles (.launch chip q) s) ∧
  (∀ chip (q : BitVec 4) s x tail r, headTaking s chip q.toNat = .ok (some (x, tail, r, .passes)) →
    ∃ t : State, exec (.launch chip q) s = .next t ∧ t.mem = s.mem ∧ t.teams = s.teams ∧ t.cx = s.cx ∧
      (t.chip chip).passed.contains (q.toNat, x.head) = true) ∧
  (∀ s chip q m r, (∀ code part ps, takeRecord s chip q m r true = .fails code part ps → code = 0xFF03 ∨ code = 0xFF04) ∧
    (∀ b p, takeRecord s chip q m r b = .starts p → p.free s chip = true ∧ p.valid s chip (some q) m = true)) ∧
  (∀ chip (q : BitVec 4) s x tail r code part ps, headTaking s chip q.toNat = .ok (some (x, tail, some r, .fails code part ps)) →
    exec (.launch chip q) s = .next (advanceHead (launchFail s chip part r code ps) chip q.toNat x tail).done) ∧
  (∀ chip (q : BitVec 4) s x tail r p u, headTaking s chip q.toNat = .ok (some (x, tail, some r, .starts p)) →
    startTeam s chip q.toNat r p false = .ok (.ok u) →
    exec (.launch chip q) s = .next (advanceHead u chip q.toNat x tail).done) ∧
  (∀ chip (q : BitVec 4) s x tail r p code, headTaking s chip q.toNat = .ok (some (x, tail, some r, .starts p)) →
    startTeam s chip q.toNat r p false = .error code →
    exec (.launch chip q) s = .next (advanceHead (launchFail s chip ((p.parts.head?).getD 0) r code p.parts) chip q.toNat x tail).done) ∧
  (∀ s chip q r p sv u, startTeam s chip q r p sv = .ok (.ok u) →
    ∃ t, u.team? chip r.id = some t ∧ t.ssn = 1 ∧ t.state = .opened ∧ t.w = p.w ∧ t.h = p.h ∧ t.x0 = p.x ∧ t.y0 = p.y ∧
      t.recs = (List.range (p.w * p.h)).map fun i => BitVec.ofNat 64 (r.carea + 64 * i)) ∧
  (∀ t d s e rank, ((prepareCore t d s (e, rank)).core e).team = t.id ∧ ((prepareCore t d s (e, rank)).core e).rank = rank ∧
    ((prepareCore t d s (e, rank)).core e).mx.acc = [] ∧ ((prepareCore t d s (e, rank)).core e).icache = []) ∧
  (∀ chip (q : BitVec 4) s, heldHead s chip q.toNat = none → Idles (.tspawnAppend chip q) s) ∧
  (∀ chip (q : BitVec 4) s t, appendHeld s chip q.toNat = .ok t → exec (.tspawnAppend chip q) s = .next t.done)

/-- With no team, or one that has not arrived, the event changes nothing. An OPEN team that has arrived goes to
CLOSING and nothing else changes. A CLOSING team of no federation, or whose chip has judged a member of its federation
lost, decides when every team that decides with it is CLOSING, and else changes nothing; one of a federation without a
loss waits for its chip's teams and its children in the tree, then sends its chip's arrival to its parent or, at the
root, decides. Without a cause every team of the group whose package has not stopped commits; with one every such team
is rolled back and either all of them end or all of them are restored. Committing a team's buffer or global deltas,
none of which lies in a frozen set, gives each such byte its delta's value, leaves every other byte, and removes those
deltas and no others. A rollback leaves no delta, no deferred reduction, no vote, no arrival and no running context of
the team, and no logged line but those of a channel that a repair holds at a NOW halt (notes/assumptions/138.md);
undoing its lines gives a logged line, no byte of which is frozen, its committed contents back. (spec/09_supersteps.md
section The decision, spec/09_supersteps.md section Commit, spec/09_supersteps.md section Abort and retry,
spec/23_fabric.md section Barrier traffic and loss) -/
def Obligations.BarrierDecisions : Prop :=
  (∀ chip team s, s.team? chip team = none → Idles (.barrierDecision chip team) s) ∧
  (∀ chip team s t, s.team? chip team = some t → teamArrived s t = .ok false → Idles (.barrierDecision chip team) s) ∧
  (∀ chip team s t, s.team? chip team = some t → teamArrived s t = .ok true → t.state = .opened →
    exec (.barrierDecision chip team) s = .next (s.modTeam t.chip t.id fun t => { t with state := .closing }).done) ∧
  (∀ chip team s t g, s.team? chip team = some t → teamArrived s t = .ok true → t.state ≠ .opened →
    (∀ f, s.fedOf t = some f → ∃ p ∈ f.lost, p.1 = chip) → closing s t = .ok g → (∀ xs, g = some xs → ∃ x ∈ xs, x.state ≠ .closing) → Idles (.barrierDecision chip team) s) ∧
  (∀ chip team s t xs u, s.team? chip team = some t → teamArrived s t = .ok true → t.state ≠ .opened →
    (∀ f, s.fedOf t = some f → ∃ p ∈ f.lost, p.1 = chip) → closing s t = .ok (some xs) → (∀ x ∈ xs, x.state = .closing) → decideGroup s t xs = .ok u →
    exec (.barrierDecision chip team) s = .next u.done) ∧
  (∀ chip team s t f g, s.team? chip team = some t → teamArrived s t = .ok true → t.state ≠ .opened → s.fedOf t = some f →
    closing s t = .ok g → (∀ p ∈ f.lost, p.1 ≠ chip) →
    let here := ∀ m ∈ f.members, m.1 = chip → ∃ x, s.team? m.1 m.2 = some x ∧ x.state = .closing
    let below := ∀ c ∈ treeChildren f chip, c ∈ f.rose
    (¬ (here ∧ below) → Idles (.barrierDecision chip team) s) ∧
    (∀ par, here → below → treeParent f chip = some par →
      exec (.barrierDecision chip team) s = .next (riseArrival s f chip par).done) ∧
    (∀ xs u, here → below → treeParent f chip = none → g = some xs → (∀ x ∈ xs, x.state = .closing) → decideAll s t xs = .ok u →
      exec (.barrierDecision chip team) s = .next u.done)) ∧
  (∀ s t all d u v, decideOn s all = .ok d → d.causes = [] →
    let xs := running s all
    let top := (xs.map fun t => t.ssn).foldl (fun a b => if a.toNat < b.toNat then b else a) 0
    commitTeams top (nextSsn top) (xs.any fun t => t.stepMark) d.payload s xs = .ok u →
    xs.foldlM afterCommit (xs.foldl commitAsk u) = .ok v → decideGroup s t all = .ok v) ∧
  (∀ s t teams d c cs, decideOn s teams = .ok d → d.causes = c :: cs →
    let xs := running s teams
    let ends := xs.any fun t => (countAbort t d.primary d.cpc).2
    let u := dropLost (xs.foldl (abortTeam d ends) s) t teams
    let all := xs.filterMap fun x => u.team? x.chip x.id
    decideGroup s t teams =
      .ok (if ends = true
        then all.foldl (fun s x => terminateTeam s x (0xFE00 + d.primary) false) u
        else xs.foldl (fun s x => match s.team? x.chip x.id with | some t => restoreTeam s t | none => s) u)) ∧
  (∀ (s : State) (t : Team) (buf : Bool), s.MemOk →
    (∀ d ∈ s.deltas, ∀ e ∈ s.deltas, d.1 = e.1 → d.2.chip = e.2.chip → d.2.team = e.2.team → d = e) →
    let u := applyDeltas s t buf
    let mine (d : Nat × DeltaByte) : Prop := d.2.chip = t.chip ∧ d.2.team = t.id ∧ isBufKey d.1 = buf
    (∀ d ∈ s.deltas, mine d → frozenBy s d.1 = none) →
    u.MemOk ∧ (∀ d ∈ s.deltas, mine d → u.mem.get d.1 = d.2.val) ∧
    (∀ k, (∀ d ∈ s.deltas, mine d → d.1 ≠ k) → u.mem.get k = s.mem.get k) ∧
    (∀ d, d ∈ u.deltas ↔ d ∈ s.deltas ∧ ¬ mine d) ∧ u.cx = s.cx) ∧
  (∀ (s : State) (t : Team) (fold halt : Bool), let u := rollback s t fold halt
    (∀ d ∈ u.deltas, ¬ (d.2.chip = t.chip ∧ d.2.team = t.id)) ∧ (∀ r ∈ u.reds, ¬ (r.chip = t.chip ∧ r.team = t.id)) ∧
    (∀ x ∈ u.undo, x.chip = t.chip → x.team = t.id → halt = true ∧ channelHeld s x.key = true) ∧ (∀ w ∈ u.waiters, ¬ (w.chip = t.chip ∧ w.team = t.id)) ∧
    (∀ x, u.team? t.chip t.id = some x → x.votes = [] ∧ x.arrivals = [] ∧ x.held = [] ∧ x.ask = none) ∧
    (∀ c ∈ u.contexts, c.bound = true → ¬ (c.chip = t.chip ∧ c.team = t.id))) ∧
  (∀ (s : State) (t : Team) (x : UndoLine), s.MemOk → (s.undo.filter fun u => ofTeam t u.chip u.team) = [x] →
    (∀ i < x.old.length, frozenBy s (x.key + i) = none) →
    ∀ i < x.old.length, (undoLines s t false).mem.get (x.key + i) = (x.old[i]?).getD 0)

/-- A request for a partition without a team that it meets answers NONE (4) in its PRSTAT; a NOW request that finds no
room answers 3 and otherwise 1, PENDING, as does an AT-BARRIER request for a partition with one, which puts every such
team under it. A swap that has ended, with no line of its team left to undo in a channel that a repair holds, leaves
its team SAVED. The resume command does nothing while one is in progress; with no image in the slot it answers 5, with
an unfit rectangle 3, with one in use 4, and otherwise 2 with the team open again. The kill command ends the team of a
saved image and answers 2. (spec/09_supersteps.md section Pre-emption, spec/09_supersteps.md section The team state
machine) -/
def Obligations.Preemption : Prop :=
  (∀ chip (p : BitVec 3) s, ∃ t : State, exec (.preqNow chip p) s = .next t ∧
    (teamsIn s chip p.toNat = [] → t = (setPrstat s chip p.toNat 4).done) ∧
    (teamsIn s chip p.toNat ≠ [] → slotsFor s (haltSet s chip p.toNat) = none → t = (setPrstat s chip p.toNat 3).done) ∧
    (teamsIn s chip p.toNat ≠ [] → slotsFor s (haltSet s chip p.toNat) ≠ none →
      (t.chip chip).prstat.toList[p.toNat]? = some 1)) ∧
  (∀ chip (p : BitVec 3) s, ∃ t : State, exec (.preqAtBarrier chip p) s = .next t ∧ t.mem = s.mem ∧ t.cx = s.cx ∧
    (t.chip chip).prstat.toList[p.toNat]? = some (if teamsIn s chip p.toNat = [] then 4 else 1) ∧
    ∀ x ∈ teamsIn s chip p.toNat, ∀ y, t.team? x.chip x.id = some y → p.toNat ∈ y.atBarrier) ∧
  (∀ s chip p r, (setPrstat s chip p r).mem = s.mem ∧ (setPrstat s chip p r).teams = s.teams ∧
    (p < 8 → ((setPrstat s chip p r).chip chip).prstat.toList[p]? = some r)) ∧
  (∀ chip (n : BitVec 4) s, (∀ im, (s.chip chip).shadow.lookup n.toNat = some im → im.swapping = false) →
    Idles (.shadowSwapDone chip n) s) ∧
  (∀ chip (n : BitVec 4) s im u, (s.chip chip).shadow.lookup n.toNat = some im → u ∈ s.undo → u.chip = im.team.chip →
    u.team = im.team.id → channelHeld s u.key = true → Idles (.shadowSwapDone chip n) s) ∧
  (∀ chip (n : BitVec 4) s im, (s.chip chip).shadow.lookup n.toNat = some im → im.swapping = true →
    (∀ u ∈ s.undo, u.chip = im.team.chip → u.team = im.team.id → channelHeld s u.key = false) →
    ∃ t : State, exec (.shadowSwapDone chip n) s = .next t ∧
      ∀ x, t.team? im.team.chip im.team.id = some x → x.state = .saved) ∧
  (∀ chip (n : BitVec 4) d x y s, (s.chip chip).resq = 1 → Idles (.resqResume chip n d x y) s ∧ Idles (.resqKill chip n) s) ∧
  (∀ chip (n : BitVec 4) d x y s, (s.chip chip).resq ≠ 1 → (s.chip chip).shadow.lookup n.toNat = none →
    exec (.resqResume chip n d x y) s = .next (setResq s chip 5).done ∧ exec (.resqKill chip n) s = .next (setResq s chip 5).done) ∧
  (∀ chip (n : BitVec 4) d (x y : BitVec 5) s im t m, (s.chip chip).resq ≠ 1 → (s.chip chip).shadow.lookup n.toNat = some im →
    im.swapping = false → s.team? chip im.team.id = some t → queueMask s chip t.queue = .ok m →
    let p : Rect := { die := d, x := x.toNat, y := y.toNat, w := t.w, h := t.h }
    exec (.resqResume chip n d x y) s = .next (if placeOk s t p m = false then setResq s chip 3
      else if p.free s chip = false then setResq s chip 4 else setResq (resumeTeam s t im n.toNat p) chip 2).done) ∧
  (∀ chip (n : BitVec 4) s im t, (s.chip chip).resq ≠ 1 → (s.chip chip).shadow.lookup n.toNat = some im →
    im.swapping = false → s.team? chip im.team.id = some t →
    exec (.resqKill chip n) s = .next (setResq (terminateAll s t 0xFE09 false) chip 2).done)

/-! ### Peers, collectives, federations, gradient queues -/

/-- The executing context has queued one operation `o` of the given kind behind those of its core's engine: its completion word
and value, its continuation; no register and no memory has changed. -/
def Sys2Proof.Machine.Forked (s t : State) (cw val : Word) (kind : EngKind) : Prop :=
  ∃ o : EngineOp, (t.core s.cx.ep).engine = (s.core s.cx.ep).engine ++ [o] ∧ o.kind = kind ∧ o.cw = cw ∧ o.val = val ∧
    o.recA = s.cx.recA ∧ o.rank = s.cx.rank ∧ o.pc = s.cx.ipc ∧ o.stuck = false ∧ t.cx = s.cx ∧ t.mem = s.mem ∧ t.deltas = s.deltas

/-- In every state where the instruction may run, its predicate is on, its operands pass the checks and the engine has
room, KPUT and KGET queue one peer copy of this context with the peer-table entry and, of that moment, the chip that
serves it and the port towards it, and change no register and no memory. A packet of an operation covers the bytes up
to the destination's next 512-byte boundary: for KPUT its source bytes are read and leave, are written at the peer
with ENG deltas, and the acknowledgement that comes back adds their length to what is done; for KGET a request leaves,
the peer's bytes are read there and come back, and they are written at home, which adds their length. While a packet
of the operation is on its way the event changes nothing. After the last one the completion word is written and the
operation is gone. A packet that finds another chip serving it starts again at its first leg. An operation that no
chip serves, or none of whose ports leads where a leg goes, ends with status 61H in its completion word and a vote for
LINK. An event that names no operation, or one that stands at a fault, changes nothing. (spec/21_fabric_system_ops.md
section Peer copies, spec/21_fabric_system_ops.md section Common rules) -/
def Obligations.PeerCopies : Prop :=
  (∀ a b ms s e t ends xs, Runs (.kput a b ms) ms s → s.atControl = true → engineRoom s s.cx.ep = true → s.myTeam = some t →
    let dst := s.g a
    let src := s.g (grpReg a 1)
    let n := (s.g (grpReg a 2)).toNat
    n < 2 ^ 32 → ptrSpace src ≤ 4 → ptrSpace dst = 6 → ptrRank dst < t.npeer →
    localEnds s.done (issueWho s.done) .read src n = .ok ends → cwCheck s.done (issueWho s.done) (s.g (grpReg a 3)) = .ok () →
    peerEntry s.done (issueWho s.done) dst = .ok (e, xs) →
    let x : PeerOp := { put := true, dst := dst, src := src, n := n, done := 0, entry := e, back := none, leg := 0, data := [],
                        port := none }
    let s1 := useXlat s.done (issueWho s.done) (ends.flatMap (·.via) ++ xs)
    let way := (peerServer s1 s.cx.chip s.cx.team x).bind fun d => (routePort s1 s.cx.chip d).map fun p => (d, p)
    ∃ u, exec (.kput a b ms) s = .next u ∧
      Forked s u (s.g (grpReg a 3)) (b.val s) (.peer { x with port := way })) ∧
  (∀ a b ms s e t ends xs, Runs (.kget a b ms) ms s → s.atControl = true → engineRoom s s.cx.ep = true → s.myTeam = some t →
    let dst := s.g a
    let src := s.g (grpReg a 1)
    let n := (s.g (grpReg a 2)).toNat
    n < 2 ^ 32 → ptrSpace src = 6 → ptrSpace dst ≤ 3 → ptrRank src < t.npeer →
    localEnds s.done (issueWho s.done) .write dst n = .ok ends → cwCheck s.done (issueWho s.done) (s.g (grpReg a 3)) = .ok () →
    peerEntry s.done (issueWho s.done) src = .ok (e, xs) →
    let x : PeerOp := { put := false, dst := dst, src := src, n := n, done := 0, entry := e, back := none, leg := 0, data := [],
                        port := none }
    let s1 := useXlat s.done (issueWho s.done) (ends.flatMap (·.via) ++ xs)
    let way := (peerServer s1 s.cx.chip s.cx.team x).bind fun d => (routePort s1 s.cx.chip d).map fun p => (d, p)
    ∃ u, exec (.kget a b ms) s = .next u ∧
      Forked s u (s.g (grpReg a 3)) (b.val s) (.peer { x with port := way })) ∧
  (∀ e id s, (∀ o, findOp s e id = some o → o.stuck = true) → Idles (.peerPacketApply e id) s) ∧
  (∀ e id s o x pls, findOp s e id = some o → o.stuck = false → o.kind = .peer x → x.n ≤ x.done →
    places s (opWho s e o) .write .lin 8 false o.cw 8 = .ok pls →
    ∃ t : State, exec (.peerPacketApply e id) s = .next t ∧ findOp t e o.id = none ∧
      t.mem = (writePlaces s (opWho s e o) o.ctx o.pc pls (bytesOf o.val.toNat 8)).mem) ∧
  (∀ e id s o x u, findOp s e id = some o → o.stuck = false → o.kind = .peer x → x.done < x.n →
    peerServer s (s.core e).chip (s.core e).team x = none →
    let o' : EngineOp := { o with val := failWord 0x61, kind := .peer { x with done := x.n, leg := 0 } }
    let v : State := { s with transit := s.transit.filter fun t => t.1 != o.id }
    completeOp (voteLink (setOp v e o') (s.core e).chip (s.core e).team) e o' = .ok u → exec (.peerPacketApply e id) s = .next u.done) ∧
  (∀ e id s o x peer, findOp s e id = some o → o.stuck = false → o.kind = .peer x → x.done < x.n →
    peerServer s (s.core e).chip (s.core e).team x = some peer →
    let w := opWho s e o
    let far := { w with writeTag := .eng }
    let len := min (x.n - x.done) (512 - (ptrOff x.dst x.done).toNat % 512)
    let y := x.from peer
    let gives (r : Option State) : Prop := (∀ t, r = some t → exec (.peerPacketApply e id) s = .next t.done) ∧
      (r = none → ∀ t, peerAbsent s e o x = .ok t → exec (.peerPacketApply e id) s = .next t.done)
    (moving s id = true → Idles (.peerPacketApply e id) s) ∧
    (moving s id = false → x.put = true →
      (∀ sp, y.leg = 0 → places s w .read .lin 1 false (ptrOff x.src x.done) len = .ok sp →
        gives (peerSend (touch s w sp) e o { y with leg := 1, data := sp.map (readByte s w) } (epChip e) peer 0 (sp.map (readByte s w)))) ∧
      (∀ dp, y.leg = 1 → packetFar s far y peer (ptrOff x.dst x.done) len = .ok dp →
        gives (peerSend (writePlaces s far o.ctx o.pc dp y.data) e o { y with leg := 2 } peer (epChip e) 1 (freePayload o.id))) ∧
      (y.leg = 2 → gives (some (setOp s e { o with kind := .peer { y with leg := 0, done := x.done + len, data := [] } })))) ∧
    (moving s id = false → x.put = false →
      (y.leg = 0 → gives (peerSend s e o { y with leg := 1 } (epChip e) peer 0 (freePayload o.id))) ∧
      (∀ sp, y.leg = 1 → packetFar s w y peer (ptrOff x.src x.done) len = .ok sp →
        gives (peerSend (touch s w sp) e o { y with leg := 2, data := sp.map (readByte s w) } peer (epChip e) 0 (sp.map (readByte s w)))) ∧
      (∀ dp, y.leg = 2 → places s w .write .lin 1 false (ptrOff x.dst x.done) len = .ok dp →
        gives (some (setOp (writePlaces s w o.ctx o.pc dp y.data) e
          { o with kind := .peer { y with leg := 0, done := x.done + len, data := [] } })))))

/-- In every state where the instruction may run, its predicate is on and its header passes R365: KCOLL queues an
operation of one branch and sends a packet with the header's entries and the source's pairs towards the first entry,
once no rick and no cord of the core holds an earlier element of its context; a packet sent to a chip that the node
reaches is on its way there, and one to another is dropped. An event that names no packet that is served at its
operation changes nothing. At an adder where no loss is pending: a CONTRIB is held under its key when nothing stands
against it and else waits, and a CHAIN that meets its CONTRIB takes it away, combines the two and goes on, and else
waits. FORWARD goes on; MULTICAST sends one copy to each DELIVER, all of whose chips it reaches; DELIVER writes the
payload and its completion word, or is dropped. FEDJ and FEDL record what the team asks, once for each record; a
record that asks something else votes TRAP at its own PC (a pending request is judged record by record:
notes/assumptions/68.md). What a drop releases and what is lost with a packet are the model's readings of
notes/assumptions/118.md and notes/assumptions/120.md. (spec/21_fabric_system_ops.md section Collective packets,
spec/21_fabric_system_ops.md section Federations, spec/25_training.md section Stack adders) -/
def Obligations.CollectivesAndFederations : Prop :=
  (∀ a b (n : BitVec 7) ms s hpl spl, Runs (.kcoll a b n ms) ms s → s.atControl = true → engineRoom s s.cx.ep = true →
    let w := issueWho s.done
    let hp := s.g a
    let src := s.g (grpReg a 1)
    let hb := readPlaces s.done w hpl
    let bf := testBit (leNat (hb.take 1)) 5
    ptrSpace hp ≤ 1 → ptrSpace src ≤ 4 → places s.done w .read .lin 64 false hp 64 = .ok hpl → headerCheck hp hb = .ok () →
    places s.done w .read .lin 1 false src ((if bf then 2 else 4) * n.toNat) = .ok spl →
    forkReady s s.cx.ep s.cx.recA 0 (s.time + 1) = true →
    ∃ (u : State) (p : CollPacket), exec (.kcoll a b n ms) s = .next (sendPacket u s.cx.chip p) ∧
      Forked s u (s.g (grpReg a 3)) (b.val s) (.coll 1) ∧ u.packets = s.packets ∧ p.entries = headerEntries hb ∧
      p.dst = s.g (grpReg a 2) ∧ p.pairs = startPairs bf (readPlaces s.done w spl) n.toNat ∧ p.cw = s.g (grpReg a 3) ∧
      p.val = b.val s ∧ p.inBf16 = bf ∧ p.outBf16 = testBit (leNat (hb.take 1)) 4 ∧ p.tag = leNat ((hb.drop 2).take 2) ∧
      p.src = s.cx.ep ∧ p.opId = s.nextId ∧ p.chip = s.cx.chip ∧ p.team = s.cx.team ∧
      p.fed = (s.myTeam.map fun t => t.fed).getD 0 ∧ p.waiting = false) ∧
  (∀ id s, (packetAt s id 0 = none → Idles (.collContrib id) s ∧ Idles (.collChain id) s) ∧
    (packetAt s id 1 = none → Idles (.collForward id) s) ∧ (packetAt s id 3 = none → Idles (.collMulticast id) s) ∧
    (packetAt s id 2 = none → Idles (.collDeliver id) s)) ∧
  (∀ id s p e rest, packetAt s id 0 = some (p, e, 0, rest) → lossPending s p (epChip e) = false →
    let free := (∀ h ∈ (adderOf s e).held, h.key ≠ collKey p) ∧ (adderOf s e).held.length < 256 ∧ waitsBehind s p e 0 = false
    (free → exec (.collContrib id) s = .next (modAdder (dropId s id) e fun a => { a with held := a.held ++
      [{ key := collKey p, pairs := p.pairs, src := p.src, opId := p.opId }] }).done) ∧
    (¬ free → exec (.collContrib id) s = .next (parkPacket s p e).done)) ∧
  (∀ id s p e rest, packetAt s id 0 = some (p, e, 1, rest) → lossPending s p (epChip e) = false →
    ((∀ h ∈ (adderOf s e).held, h.key ≠ collKey p) ∨ waitsBehind s p e 1 = true →
      exec (.collChain id) s = .next (parkPacket s p e).done) ∧
    (∀ h, (adderOf s e).held.find? (fun h => h.key == collKey p) = some h → waitsBehind s p e 1 = false →
      let u := endBranch (modAdder (dropId s id) e fun a => bumpPkts { a with held := a.held.erase h }) h.src h.opId
      exec (.collChain id) s = .next (sendPacket u (epChip e)
        { p with entries := rest, pairs := combinePairs p.pairs h.pairs, waiting := false }).done)) ∧
  (∀ id s p e arg rest, packetAt s id 1 = some (p, e, arg, rest) →
    exec (.collForward id) s = .next (sendPacket (dropId s id) (epChip e) { p with entries := rest }).done) ∧
  (∀ id s p e arg rest, packetAt s id 3 = some (p, e, arg, rest) → (∀ x ∈ rest, nodeReaches s p (epChip e) (epChip x.1) = true) →
    ∃ t : State, exec (.collMulticast id) s = .next t ∧ t.mem = s.mem ∧ t.cx = s.cx ∧
      ∃ ids : List Nat, ids.length = rest.length ∧ t.packets = (s.packets.filter fun x => x.id != id) ++
        (rest.zip ids).map fun q => { p with id := q.2, entries := [q.1], node := epChip e }) ∧
  (∀ id s p e arg rest, packetAt s id 2 = some (p, e, arg, rest) →
    (collWrite s p (epChip e) p.dst (deliverBytes p.outBf16 p.pairs) true = none →
      exec (.collDeliver id) s = .next (dropPacket (collMeets s p (epChip e) p.dst (deliverBytes p.outBf16 p.pairs).length) (epChip e) p).done) ∧
    (∀ u, collWrite s p (epChip e) p.dst (deliverBytes p.outBf16 p.pairs) true = some u →
      let v := collWord u p (epChip e) p.val
      exec (.collDeliver id) s = .next (sendPacket (dropId (if 1048 ≤ epUnit e then modAdder v e bumpPkts else v) id) (epChip e)
        { p with entries := rest }).done)) ∧
  (∀ xs ys, (combinePairs xs ys).length = max xs.length ys.length) ∧
  (∀ (s : State) (frm : ChipNo) (p : CollPacket) x rest, p.entries = x :: rest →
    (nodeReaches s p frm (epChip x.1) = true → (sendPacket s frm p).packets = s.packets ++ [{ p with node := frm }] ∧
      (sendPacket s frm p).mem = s.mem ∧ (sendPacket s frm p).cx = s.cx) ∧
    (nodeReaches s p frm (epChip x.1) = false → sendPacket s frm p = dropPacket s frm p)) ∧
  (∀ a b ms s t, Runs (.fedj a b ms) ms s → s.cx.gang = none → isService s s.cx.ep = false → feature s (epChip s.cx.ep) 3 = true →
    s.myTeam = some t → t.fed = 0 →
    let m := (b.val s).toNat
    (s.g a).extractLsb' 32 32 = 0 → s.g a ≠ 0 → 2 ≤ m → m ≤ 262144 →
    (t.ask = none → exec (.fedj a b ms) s = .next (s.done.modTeam t.chip t.id fun t =>
      { t with ask := some { join := true, id := (s.g a).setWidth 32, m := m, recs := [s.cx.recA] } })) ∧
    (∀ q, t.ask = some q → s.cx.recA ∉ q.recs →
      (q.join = true ∧ q.id = (s.g a).setWidth 32 ∧ q.m = m → exec (.fedj a b ms) s = .next (s.done.modTeam t.chip t.id fun t =>
        { t with ask := some { q with recs := q.recs ++ [s.cx.recA] } })) ∧
      (¬ (q.join = true ∧ q.id = (s.g a).setWidth 32 ∧ q.m = m) → exec (.fedj a b ms) s = .next (addVote s.done t.chip t.id
        { cause := 2, pc := s.cx.ipc, rank := s.cx.rank, ctx := s.cx.no })))) ∧
  (∀ ms s t, Runs (.fedl ms) ms s → s.cx.gang = none → isService s s.cx.ep = false → s.myTeam = some t → t.fed ≠ 0 →
    (t.ask = none → exec (.fedl ms) s = .next (s.done.modTeam t.chip t.id fun x =>
      { x with ask := some { join := false, id := t.fed, m := 0, recs := [s.cx.recA] } })) ∧
    (∀ q, t.ask = some q → s.cx.recA ∉ q.recs → q.join = false → q.id = t.fed → q.m = 0 →
      exec (.fedl ms) s = .next (s.done.modTeam t.chip t.id fun t => { t with ask := some { q with recs := q.recs ++ [s.cx.recA] } })))

/-- In every state where the instruction may run, its predicate is on and its descriptor passes R370: GQPUSH with room
in the window adds a fragment with the source's bytes to the core's egress and counts it in flight; the fragment that
leaves next is the oldest of the highest level; a delivered fragment fills the slot at HEAD of its queue, once that is
free; GQPOP gives g[D] the oldest filled slot and takes one from FILLED, and of an empty queue suspends; GQWIN
releases a popped slot and takes one from the producer's count, or waits until the count is at most g[B] and gives it.
GPRIO sets the level of its bucket and of no other. OSTEP gives g[D] the team's step count and marks the step when
g[B] is not 0. (spec/21_fabric_system_ops.md section Gradient queues, spec/25_training.md section Gradient queues,
spec/25_training.md section The step counter and skipped updates) -/
def Obligations.GradientQueues : Prop :=
  (∀ a ms s o q pls, Runs (.gqpush a ms) ms s → s.atControl = true → gqueue s.done (s.g a) = .ok (o, q) →
    let src := s.g (grpReg a 1)
    let len := (s.g (grpReg a 2)).toNat
    ptrSpace src ≤ 4 → 1 ≤ len → len ≤ 512 → len % (fmtBits q.fmt / 8) = 0 → q.cons ∈ optCores s s.cx.chip s.cx.team →
    places s.done (issueWho s.done) .read .lin 1 false src len = .ok pls → (∀ pl ∈ pls, gqFmtOk s q.fmt pl = true) →
    forkReady s s.cx.ep s.cx.recA 0 (s.time + 1) = true → engineRoom s s.cx.ep = true → (s.core s.cx.ep).egress.length < 32 →
    let n := inflightOf s (s.core s.cx.ep) (s.g a)
    n < q.win → (n = 0 → (s.core s.cx.ep).inflight.length < 16) →
    ∃ (t : State) (f : Fragment), exec (.gqpush a ms) s = .next t ∧ (t.core s.cx.ep).egress = (s.core s.cx.ep).egress ++ [f] ∧
      f.bytes = readPlaces s.done (issueWho s.done) pls ∧ f.desc = s.g a ∧ f.bucket = q.bucket ∧ f.src = s.cx.ep ∧ f.chip = s.cx.chip ∧
      f.team = s.cx.team ∧ inflightOf s (t.core s.cx.ep) (s.g a) = n + 1 ∧ Forked s t 0 0 (.gq f.id)) ∧
  (∀ e s, nextFragment (s.core e) = none → Idles (.gqEgressSend e) s) ∧
  (∀ e s f, nextFragment (s.core e) = some f →
    ∃ t : State, exec (.gqEgressSend e) s = .next t ∧ t.frags = s.frags ++ [{ f with started := true }] ∧ t.mem = s.mem ∧
      (t.core e).egress = (s.core e).egress.filter fun x => x.id != f.id) ∧
  (∀ k f, nextFragment k = some f → (∀ x ∈ k.egress, bucketLevel k x.bucket ≤ bucketLevel k f.bucket) ∧
    ∃ as bs, k.egress = as ++ f :: bs ∧ ∀ x ∈ as, bucketLevel k x.bucket < bucketLevel k f.bucket) ∧
  (∀ id s, (∀ f ∈ s.frags, f.id ≠ id) → Idles (.gqDeliver id) s) ∧
  (∀ id s f bs, s.frags.find? (fun f => f.id == id) = some f →
    devRead s (engineWho s f.src .copy f.chip f.team 0) f.desc 64 = .ok bs →
    let q := gqOf bs
    let w := engineWho s q.cons .control f.chip f.team 0xFFF
    let ready := fragFirst s f = true ∧ q.ok = true ∧
      ∀ g ∈ (s.core q.cons).gqSlots, ¬ (sameQueue s f.chip f.team g.desc f.desc = true ∧ g.chip = f.chip ∧ g.slot = q.head)
    (¬ ready → Idles (.gqDeliver id) s) ∧
    (ready → gqWaiter s f.chip f.team f.desc = none → ∀ u v,
      let place (i : Nat) : Place := { key := bufKey q.cons 1 (q.ringoff + 512 * q.head) + i, cls := 1, dest := q.cons, va := 0,
                                       cw := 0, zero := false, mirror := none, peer := false, via := [] }
      let pc := ((findOp s f.src f.opId).map fun o => o.pc).getD 0
      devWriteNat (writePlaces s w 0 pc ((List.range f.bytes.length).map place) f.bytes) w (f.desc + 16) ((q.head + 1) % q.cap) 4 = .ok u →
      devWriteNat u w (f.desc + 20) (q.filled + 1) 4 = .ok v →
      let z := v.modCore q.cons fun k => { k with gqSlots := k.gqSlots ++
        [{ desc := f.desc, chip := f.chip, slot := q.head, src := f.src, len := f.bytes.length, popped := false }] }
      exec (.gqDeliver id) s = .next (dropOp { z with frags := z.frags.filter fun y => y.id != id } f.src f.opId).done)) ∧
  (∀ d a ms s o q, Runs (.gqpop d a ms) ms s → s.atControl = true → s.cx.gang = none → gqueue s.done (s.g a) = .ok (o, q) → q.cons = s.cx.ep →
    (∀ u, q.filled = 0 → suspendFor (countFarAt s.done o.pls) stWaitQueue (s.g a) (.gqPop d (s.g a)) = .ok u →
      exec (.gqpop d a ms) s = .next u) ∧
    (∀ g, q.filled ≠ 0 → (s.core s.cx.ep).gqSlots.find? (fun g => g.chip == s.cx.chip && !g.popped && sameQueue s s.cx.chip s.cx.team g.desc (s.g a)) = some g →
      (o.w.service = true ∨ clampRoom (objOn s o) o.w o.pls = true) →
      let u := o.put (objOn s o) 20 4 (q.filled - 1)
      let v := u.modCore s.cx.ep fun k => { k with gqSlots := k.gqSlots.map fun x => if x = g then { x with popped := true } else x }
      exec (.gqpop d a ms) s = .next (v.setG d (BitVec.ofNat 64 (g.src.toNat * 2 ^ 32 + g.len * 2 ^ 16 + g.slot))))) ∧
  (∀ d a b ms s o q g, Runs (.gqwin true d a b ms) ms s → gqueue s.done (s.g a) = .ok (o, q) →
    (s.core s.cx.ep).gqSlots.find? (fun g => g.chip == s.cx.chip && g.popped && g.slot == (b.val s).toNat % 256 && sameQueue s s.cx.chip s.cx.team g.desc (s.g a)) = some g →
    let u := s.done.modCore s.cx.ep fun k => { k with gqSlots := k.gqSlots.filter fun x => x != g }
    exec (.gqwin true d a b ms) s = .next (u.modCore g.src fun k => setInflight u k (s.g a) (inflightOf u k (s.g a) - 1))) ∧
  (∀ d a b ms s o q, Runs (.gqwin false d a b ms) ms s → gqueue s.done (s.g a) = .ok (o, q) → (b.val s).toNat ≤ 64 →
    inflightOf s (s.core s.cx.ep) (s.g a) ≤ (b.val s).toNat →
    exec (.gqwin false d a b ms) s = .next (s.done.setG d (BitVec.ofNat 64 (inflightOf s (s.core s.cx.ep) (s.g a))))) ∧
  (∀ a (lvl : BitVec 4) ms s, Runs (.gprio a lvl ms) ms s → (s.g a).extractLsb' 16 48 = 0 →
    ∃ t : State, exec (.gprio a lvl ms) s = .next t ∧ t.cx = s.cx ∧ t.mem = s.mem ∧
      ∀ n, bucketLevel (t.core s.cx.ep) n = if n % 64 = (s.g a).toNat % 64 then lvl.toNat else bucketLevel (s.core s.cx.ep) n) ∧
  (∀ d b ms s, Runs (.ostep d b ms) ms s →
    let u := if b.val s = 0 then s.done else s.done.modTeam s.cx.chip s.cx.team fun t => { t with stepMark := true }
    exec (.ostep d b ms) s = .next (u.setG d (BitVec.ofNat 64 ((s.myTeam.map fun t => t.steps).getD 0))))

/-- In every state where the instruction may run, its predicate is on and g[B] names a record of the team: TSRD gives
g[D] the committed field that SEL names as the table holds it, or the working half's once the core's own updates have
merged; TSCLR sets CLRPEND in the record's byte 85, in no other byte where the record has no mirror copy and lies in
no frozen set, and keeps the clear of the highest rank, and of one rank the last; TSSCALE gives FFH for an empty
record and else the scale code of its amax. An update merges into the working half of its record and of no other, AMAX
by maximum and every count by a saturating sum; with no room for a working half it votes CAPACITY and merges nothing.
(spec/15_stats_remote_ops.md section Record operands, spec/15_stats_remote_ops.md section Reading and clearing
records, spec/17_statistics.md section Merging at the home) -/
def Obligations.TensorStatistics : Prop :=
  (∀ d b (sel : BitVec 6) ms s t, Runs (.tsrd false d b sel ms) ms s → s.myTeam = some t → (b.val s).toNat < t.nrec → (b.val s).toNat < 2 ^ 16 →
    let rd (off n : Nat) : Nat := leNat (s.mem.getBytes (t.recordKey (b.val s).toNat off) n)
    let v := if sel.toNat < 32 then rd (2 * sel.toNat) 2
      else if sel = 0x20 then rd 64 4 else if sel = 0x21 then rd 68 4 else if sel = 0x22 then rd 72 2 else if sel = 0x23 then rd 74 2
      else if sel = 0x24 then rd 76 2 else if sel = 0x25 then rd 80 4 else if sel = 0x26 then rd 78 2 else rd 84 1 % 32
    exec (.tsrd false d b sel ms) s = .next (s.done.setG d (BitVec.ofNat 64 v))) ∧
  (∀ d b (sel : BitVec 6) ms s t, Runs (.tsrd true d b sel ms) ms s → s.myTeam = some t → (b.val s).toNat < t.nrec → (b.val s).toNat < 2 ^ 16 →
    vecBusy s.cx = false → statsInFlight s s.cx.ep = false →
    exec (.tsrd true d b sel ms) s = .next (s.done.setG d (BitVec.ofNat 64
      (statField s t (b.val s).toNat ((t.statRec (b.val s).toNat).work.getD halfEmpty) sel.toNat)))) ∧
  (∀ a b ms s t, Runs (.tsclr a b ms) ms s → s.myTeam = some t → (b.val s).toNat < t.nrec → (b.val s).toNat < 2 ^ 16 →
    (s.g a).extractLsb' 21 43 = 0 →
    let i := (b.val s).toNat
    let key := t.recordKey i 85
    let v := s.done.modTeam t.chip t.id fun x => x.setStat { x.statRec i with clr := match (x.statRec i).clr with
      | none => some (s.g a, s.cx.rank, 0)
      | some (c, r, n) => if s.cx.rank < r then some (c, r, n) else some (s.g a, s.cx.rank, n + 1) }
    let u := putRecBytes v t i 85 [s.mem.get key ||| 1]
    exec (.tsclr a b ms) s = .next u ∧ u.cx = s.cx ∧
    (frozenIn v key 1 = [] → (∀ m ∈ ownMirrors v t (t.rectab.toNat + 128 * i + 85) 1, m = none) →
      u.mem = s.mem.set key (s.mem.get key ||| 1))) ∧
  (∀ d b (f : BitVec 5) ms s t, Runs (.tsscale d b f ms) ms s → s.myTeam = some t → (b.val s).toNat < t.nrec → (b.val s).toNat < 2 ^ 16 →
    f.toNat < 0x18 →
    let rd (off n : Nat) : Nat := leNat (s.mem.getBytes (t.recordKey (b.val s).toNat off) n)
    exec (.tsscale d b f ms) s = .next (s.done.setG d
      (if rd 68 4 = 0 then 0xFF else BitVec.ofNat 64 (scaleCode f.toNat (fp32.decode (rd 64 4)))))) ∧
  (∀ id s, (∀ u ∈ s.updates, u.id ≠ id) → Idles (.statsUpdateMerge id) s) ∧
  (∀ id s u t, s.updates.find? (fun u => u.id == id) = some u → s.team? u.chip u.team = some t → halfRoom s t u.idx = false →
    exec (.statsUpdateMerge id) s = .next (addVote { s with updates := s.updates.filter fun x => x.id != id } u.chip u.team
      { cause := 8, pc := u.pc, rank := (s.core u.src).rank, ctx := 0 }).done) ∧
  (∀ id s u t, s.updates.find? (fun u => u.id == id) = some u → s.team? u.chip u.team = some t → halfRoom s t u.idx = true →
    ∃ (v : State) (y : Team), exec (.statsUpdateMerge id) s = .next v ∧ v.team? u.chip u.team = some y ∧ v.mem = s.mem ∧ v.cx = s.cx ∧
      v.updates = s.updates.filter (fun x => x.id != id) ∧ (∀ j, j ≠ u.idx → y.statRec j = t.statRec j) ∧
      (y.statRec u.idx).work = some (mergeHalf ((t.statRec u.idx).work.getD halfEmpty) u.half)) ∧
  (∀ a b : Half', let m := mergeHalf a b
    (m.amax = a.amax ∨ m.amax = b.amax) ∧ a.amax.toNat ≤ m.amax.toNat ∧ b.amax.toNat ≤ m.amax.toNat ∧
    m.count = min (a.count + b.count) (2 ^ 32 - 1) ∧ m.nans = min (a.nans + b.nans) (2 ^ 16 - 1) ∧
    m.infs = min (a.infs + b.infs) (2 ^ 16 - 1) ∧ m.sats = min (a.sats + b.sats) (2 ^ 16 - 1) ∧
    ∀ i x y : Nat, a.bins[i]? = some x → b.bins[i]? = some y → m.bins[i]? = some (min (x + y) (2 ^ 16 - 1)))

/-! ### Quantising and the matrix unit -/

/-- A quantising instruction's destination after its elements are written (R299). -/
def Sys2Proof.Machine.quantised (s : State) (r : ElemRange) (xs : List QElem) : State := if r.n = 0 then s else putElems s r xs

/-- The number of elements that saturated, as g[D] shows it. -/
def Sys2Proof.Machine.saturated (xs : List QElem) : Nat := min (xs.filter fun x => x.s).length (2 ^ 32 - 1)

/-- A head command ends: its completion word, if it names one, then it leaves the queue (R260). -/
def Sys2Proof.Machine.RetiresTo (s : State) (e : EP) (x : MxEntry) (t : State) : Prop :=
  (cmdCwptr x.cmd = 0 ∧ t = popHead s e) ∨
  (cmdCwptr x.cmd ≠ 0 ∧ ∃ pls, let w := (engineWho s e .copy (s.core e).chip (s.core e).team x.rank).onStack s x.recA x.g2
    places s w .write .lin 8 false (cmdCwptr x.cmd) 8 = .ok pls ∧
    t = popHead (writePlaces s w x.ctx x.pc pls (bytesOf (cmdCval x.cmd).toNat 8)) e)

/-- The event `i` runs the head command `x`: where the effect answers `u` and the command then ends in `t`, that is the next
state; where the effect meets a fault, the unit stands still and the fault is posted (R248), as it is for a parity error in the
unit's state (R419). -/
def Sys2Proof.Machine.CommandRuns (i : Instr) (s : State) (e : EP) (x : MxEntry) (f : Res State) : Prop :=
  ((s.core e).mx.hurt = false →
    (∀ u t, f = .ok u → RetiresTo u e x t → exec i s = .next t.done) ∧
    (∀ c t, f = .error (.trap c) → headFault s e x c = .ok t → exec i s = .next t.done)) ∧
  ((s.core e).mx.hurt = true → ∀ t, headFault (modMx s e fun u => { u with hurt := false }) e x hurtTrap = .ok t →
    exec i s = .next t.done)

/-- For positive amax A and largest target value F the exponent E of the scale rule has A times 2^E at most F and A
times 2^(E+1) above it; a scale code is at most 254. In every state where the instruction may run, its predicate is
on, no vector instruction waits and the checks of R299 pass, and, for DQNT, its codes are below 255: QNT writes the
source's elements quantised under the scale code of the record's committed amax and gives g[D] the code and the
saturation count; with TRAP and more elements saturated than the threshold it raises RESCALE after the last write;
QNTL quantises each block under its own code and writes the code array; DQNT writes each element scaled by its block's
code or the one in g[B]. (spec/15_stats_remote_ops.md section Quantising and dequantising, spec/13_formats.md section
Scale codes) -/
def Obligations.Quantising : Prop :=
  (∀ (fm am : Nat) (fe ae : Int), 0 < fm → 0 < am → fm < 2 ^ 2048 → am < 2 ^ 2048 →
    let k := ratioLog2 fm fe am ae
    magGt am (ae + k) fm fe = false ∧ magGt am (ae + k + 1) fm fe = true) ∧
  (∀ f a, scaleCode f a ≤ 254) ∧
  (∀ ty d a b rnd (f : BitVec 5) tr (g : BitVec 2) ms s t x, Runs (.qnt ty d a b rnd f tr g ms) ms s → vecBusy s.cx = false →
    s.myTeam = some t → (b.val s).toNat < t.nrec → (b.val s).toNat < 2 ^ 16 →
    quantCheck s.done a (QTy.fmt ty) f.toNat g.toNat 0 none none = .ok x →
    let am := committedAmax s t (b.val s).toNat
    let c := if am.2 then 127 else scaleCode f.toNat am.1
    let zero := !am.2 && c == 0 && (match am.1 with | .fin _ m _ => m == 0 | _ => false)
    let out := (readElems s.done x.src).map fun q => quantElem f.toNat rnd (127 - (c : Int)) zero (fmtVal (QTy.fmt ty) false q)
    let u := (quantised (x.seen s.done false) x.dst out).setG d (BitVec.ofNat 64 (saturated out * 2 ^ 32 + c))
    let above := statField u t (b.val s).toNat halfEmpty 0x26 < (out.filter fun e => e.s).length
    (¬ (tr = true ∧ above) → exec (.qnt ty d a b rnd f tr g ms) s = .next u) ∧
    (∀ v, tr = true → above → takeFault u { Trap.of Code.rescale with cause := some 6, extra0 := BitVec.ofNat 64 (saturated out) } = .ok v →
      exec (.qnt ty d a b rnd f tr g ms) s = .next v)) ∧
  (∀ ty d a rnd (f : BitVec 5) (g lb : BitVec 2) ms s x, Runs (.qntl ty d a rnd f g lb ms) ms s → vecBusy s.cx = false →
    quantCheck s.done a (QTy.fmt ty) f.toNat g.toNat lb.toNat none (some true) = .ok x →
    let vals := (readElems s.done x.src).map (fmtVal (QTy.fmt ty) false)
    let blocks := blocksOf (32 * 2 ^ lb.toNat) vals.length vals
    let codes := blocks.map fun bl => scaleCode f.toNat (blockAmax bl)
    let out := ((blocks.zip codes).map fun q =>
      q.1.map (quantElem f.toNat rnd (127 - (q.2 : Int)) (match blockAmax q.1 with | .fin _ m _ => m == 0 | _ => false))).flatten
    let u := quantised (x.seen s.done false) x.dst out
    exec (.qntl ty d a rnd f g lb ms) s = .next ((if x.dst.n = 0 then u
      else storePlaces u (ctxWho u true) s.cx.no s.cx.ipc x.codes (codes.map fun c => BitVec.ofNat 8 c)).setG d
        (BitVec.ofNat 64 (saturated out * 2 ^ 32)))) ∧
  (∀ ty blk a b rnd (f : BitVec 5) (g lb : BitVec 2) pr ms s x, Runs (.dqnt ty blk a b rnd f g lb pr ms) ms s → vecBusy s.cx = false →
    quantCheck s.done a f.toNat (QTy.fmt ty) g.toNat lb.toNat (some pr) (if blk then some false else none) = .ok x →
    (blk = false → (b.val s).toNat < 255) →
    let code (j : Nat) : Nat := if blk then (((readPlaces s.done (ctxWho s.done true) x.codes)[j / (32 * 2 ^ lb.toNat)]?).map (·.toNat)).getD 127
      else if j < 65536 then (b.val s).toNat else 127
    (blk = true → ∀ c ∈ readPlaces s.done (ctxWho s.done true) x.codes, c ≠ 255) →
    exec (.dqnt ty blk a b rnd f g lb pr ms) s = .next (quantised (x.seen s.done true) x.dst ((readElems s.done x.src).zipIdx.map fun q =>
      dequantElem (QTy.spec ty) f.toNat pr rnd (code q.2) q.1)))

/-- A full queue admits nothing, and a slot that has admitted a command nothing more; in a slot still free the oldest
claim is served in its own slot or a slot of any; without a claim the slot's owner is admitted when it waits, and else
the lowest context with a waiting STL, before any walker's command. An admitted STL of a context of no gang is
granted, and its control stream issues next; an admitted walker's command is read from its block, whose layout is the
model's choice (notes/assumptions/13.md), and, when it passes the checks, enters the queue. A table written to MXSLOT
leaves the table in force as it is for the round and is in force in every later round (the rounds are counted as
notes/assumptions/40.md says). A claim is gained exactly when it is due. With no command of its kind at the head an
event changes nothing. A command has its effect, writes its completion word if it names one and leaves the queue;
where its effect meets a fault, or a parity error stands in the unit's state, the unit stands still. An exchange acts
once all 16 units of the cluster hold it, and a shared multiplication once every unit of its mask does; until then the
event changes nothing. A multiplication leaves in each cell of its tile the rounded sums of R251 on the cell's old
value or 0 and no other cell of its set changed; ZERO clears its sets alone; CKSUM enables and clears the checksums of
its set alone; MARK has no effect. (spec/11_memory_matrix_ops.md section Matrix commands, spec/11_memory_matrix_ops.md
section Multiply-accumulate, spec/11_memory_matrix_ops.md section Exchange, zero, drain, checksums and marks,
spec/14_matrix_unit.md section Admission and the slot table, spec/14_matrix_unit.md section The transpose exchange,
spec/14_matrix_unit.md section Drains, spec/14_matrix_unit.md section Checksums) -/
def Obligations.MatrixUnit : Prop :=
  (∀ s e, 16 ≤ mxTaken (s.core e).mx ∨ slotFree s e = false → admits s e = none) ∧
  (∀ s e, slotFree (slotTaken s e) e = false) ∧
  (∀ s e c cs, slotFree s e = true → mxTaken (s.core e).mx < 16 → (s.core e).mx.claims = c :: cs → slotOwner s e = 4 ∨ slotOwner s e = c.toNat → admits s e = some c) ∧
  (∀ s e, slotFree s e = true → mxTaken (s.core e).mx < 16 → (s.core e).mx.claims = [] →
    (∀ c : BitVec 2, slotOwner s e = c.toNat → mxWaits (s.core e).mx c = true → admits s e = some c) ∧
    (4 ≤ slotOwner s e ∨ mxWaits (s.core e).mx (BitVec.ofNat 2 (slotOwner s e)) = false → ∀ c, admits s e = some c →
      let stl (w : MxWait) : Prop := w ∈ (s.core e).mx.waiting ∧ w.walker = false ∧ w.granted = false
      (∃ w, stl w) → (∃ w, stl w ∧ w.ctx = c) ∧ ∀ w, stl w → c.toNat ≤ w.ctx.toNat)) ∧
  (∀ s e v u, writeReg s e 0x300 v = .ok u → slotTable u e = slotTable s e ∧
    ∀ n, roundTime s e / 128 < roundTime { u with time := n } e / 128 → slotTable { u with time := n } e = v) ∧
  (∀ e s, admits s e = none → Idles (.mxSlotAdmit e) s) ∧
  (∀ e s c, admits s e = some c → (∃ w ∈ (s.core e).mx.waiting, w.ctx = c ∧ w.walker = false) →
    (s.ctx e c).mode = .running → (s.ctx e c).gang = none →
    exec (.mxSlotAdmit e) s = .next { grant s e c with sel := some (.control e c) }.done) ∧
  (∀ e s c v bs, admits s e = some c → (∀ w ∈ (s.core e).mx.waiting, w.ctx = c → w.walker = true) →
    let k := s.core e
    let w := k.walker
    let n := readNode s e w.node
    let u := modMx (slotTaken s e) e fun m => { m with waiting := m.waiting.filter fun x => !x.walker, claims := m.claims.filter fun c => c != w.ctx }
    w.state = .running → n.type = 1 → n.engine = 0 → walkerRead u e (ptrOff n.ptr (64 * w.sub)) 64 = .ok (v, bs) →
    checkCmd v e w.rank (BitVec.ofNat 512 (leNat bs)) = .ok () →
    ∃ t : State, exec (.mxSlotAdmit e) s = .next t ∧ (t.core e).walker = { w with sub := w.sub + 1 } ∧ t.mem = s.mem ∧
      (t.core e).mx.queue = k.mx.queue ++ [{ cmd := BitVec.ofNat 512 (leNat bs), ctx := w.ctx, recA := w.recA, pc := w.pc, rank := w.rank,
                                             stuck := false, cwOnly := false, at_ := 0, g2 := w.g2, behind := 0, forked := 0 }]) ∧
  (∀ e ctx s, claimDue s e ctx = false → Idles (.mxClaim e ctx) s) ∧
  (∀ e ctx s, claimDue s e ctx = true →
    exec (.mxClaim e ctx) s = .next (modMx s e fun m => { m with claims := m.claims ++ [ctx] }).done) ∧
  (∀ e s, (headCmd s e 1 = none → Idles (.mxMma e) s) ∧ (headCmd s e 2 = none → Idles (.mxMmat e) s) ∧
    (headCmd s e 3 = none → Idles (.mxZero e) s) ∧ (headCmd s e 4 = none → Idles (.mxDrain e) s) ∧ (headCmd s e 5 = none → Idles (.mxXch e) s) ∧
    (headCmd s e 6 = none → Idles (.mxCksum e) s) ∧ (headCmd s e 7 = none → Idles (.mxMark e) s)) ∧
  (∀ e s x, x.cwOnly = false →
    (headCmd s e 1 = some x → cmdShare x.cmd = false → CommandRuns (.mxMma e) s e x (mmaEffect s e x)) ∧
    (headCmd s e 2 = some x → cmdShare x.cmd = false → CommandRuns (.mxMmat e) s e x (mmaEffect s e x)) ∧
    (headCmd s e 3 = some x → CommandRuns (.mxZero e) s e x (.ok (modMx s e fun u => zeroSets u x.cmd))) ∧
    (headCmd s e 4 = some x → CommandRuns (.mxDrain e) s e x (drainEffect s e x)) ∧
    (headCmd s e 6 = some x → CommandRuns (.mxCksum e) s e x (.ok (modMx s e fun u => checksumCmd u x.cmd))) ∧
    (headCmd s e 7 = some x → CommandRuns (.mxMark e) s e x (.ok s))) ∧
  (∀ e s x, x.cwOnly = false → headCmd s e 5 = some x → (s.core e).mx.hurt = false →
    let es := shareUnits e 0xFFFF
    let heads := (es.filterMap fun u => (headCmd s u 5).map fun h => (u, h)).filter fun q => !q.2.cwOnly
    (∀ u ∈ es, (s.core u).team = (s.core e).team ∧ (s.core u).chip = (s.core e).chip) →
    (heads.length < 16 → Idles (.mxXch e) s) ∧
    (16 ≤ heads.length → (∀ q ∈ heads, cmdStep q.2.cmd = cmdStep x.cmd ∧ cmdLines q.2.cmd = cmdLines x.cmd) →
      (∀ i < 16, i ∈ heads.zipIdx.map fun q => schedDest (s.core q.1.1) (cmdStep x.cmd) q.2) →
      ∀ u, exchangeStep s heads (cmdStep x.cmd) (cmdLines x.cmd) = .ok u → exec (.mxXch e) s = .next u.done)) ∧
  (∀ e s x, headCmd s e 1 = some x → cmdShare x.cmd = true → x.cwOnly = false →
    let us := shareUnits e (cmdGmask x.cmd)
    let heads := us.filterMap fun u => (sharedHead s u).map fun h => (u, h)
    (heads.length < us.length → Idles (.mxMma e) s) ∧
    (∀ u, us.length ≤ heads.length → shareAgree s heads = true →
      heads.foldlM (fun s q => runHead s q.1 q.2 fun s => mmaEffect s q.1 q.2) s = .ok u → exec (.mxMma e) s = .next u.done)) ∧
  (∀ s e x a b0 panel, let l := x.cmd
    let oa := operandA s e x.rank l
    let ob := operandB s e x.rank l panel
    (if cmdCode l = 2 then panelLines s e x.rank l = .ok panel else panel = 0) → mxClass oa.fmt ≠ 0 → mxClass ob.fmt = mxClass oa.fmt →
    readMatrix s e x.rank oa = .ok a → readMatrix s e x.rank ob = .ok b0 → cmdM l ≤ 32 → cmdN l ≤ 32 →
    let b := if cmdCode l = 2 ∨ cmdTrans l = true then (List.range (cmdK l)).map fun k => (List.range (cmdN l)).map fun n => matAt b0 n k else b0
    let dbl := decide (mxClass oa.fmt = 100)
    let set := if dbl then 0 else cmdSet l
    let old := (s.core e).mx
    ∃ u : State, mmaEffect s e x = .ok u ∧ u.mem = s.mem ∧ u.cx = s.cx ∧
      let new := (u.core e).mx
      (∀ m < 32, ∀ n < 32, getCell new dbl set (32 * m + n) =
        if m < cmdM l ∧ n < cmdN l then mmaCell (if dbl then fp64 else fp32) a b m n (groupSize (mxClass oa.fmt)) (cmdK l)
            (if cmdAccum l then getCell old dbl set (32 * m + n) else 0) % 2 ^ (if dbl then 64 else 32)
        else getCell old dbl set (32 * m + n)) ∧
      (dbl = false → ∀ i < 1024, accCell new (1 - set) i = accCell old (1 - set) i) ∧ new.queue = old.queue) ∧
  (∀ (u : MxUnit) l set i, set < 2 → i < 1024 → accCell (zeroSets u l) set i = if cmdBoth l = true ∨ cmdSet l = set then 0 else accCell u set i) ∧
  (∀ (u : MxUnit) l, (checksumCmd u l).acc = u.acc ∧ (getChecks (checksumCmd u l) (cmdSet l)).en = cmdEnable l ∧
    getChecks (checksumCmd u l) (1 - cmdSet l) = getChecks u (1 - cmdSet l)) ∧
  (∀ s e x, cmdCksum x.cmd = false → compareChecks s e x = .ok s)

/-- A rick leaves by age exactly when its oldest element is past the age limit; a rick that leaves for its own chip,
or one to which a port leads, becomes one cord of all its elements and is empty. A cord that has come and is the next
of its destination enters the request queue of a far agent, and otherwise has one more element performed there; after
the last it is answered by a status that names its failed elements, each of which the source then logs. A cord or
status that is still on its way changes nothing; a log holds its newest eight entries. A write of MIGREQ while the
unit is busy or off changes nothing, one for an unmapped page ends in state 4, and one for an unfit frame in state 5.
The page is marked once no live delta or deferred reduction is on it; a line that migrates takes its bytes to the new
place and changes no other byte, and waits while a repair holds a channel of either; after the last line the page's
shoot-down starts, and is awaited. A host atomic on a page it may reach, whose bytes no interface has frozen, writes
its new value; one that is unaligned or unmapped, and one at a package that has stopped or whose function is cut off,
changes nothing. The queue that a cord enters is the model's reading of notes/assumptions/52.md, the team that MIGREQ
keeps that of notes/assumptions/121.md, and the host atomics without effect those of notes/assumptions/72.md.
(spec/19_ricks.md section When a rick leaves, spec/19_ricks.md section Applying a cord, spec/20_translation.md section
Changing a translation, spec/20_translation.md section Pages shared with the host) -/
def Obligations.RicksCordsAndMigration : Prop :=
  (∀ e (i : BitVec 3) s, (∀ r x, (s.core e).ricks.toList[i.toNat]? = some r → r.elems.head? = some x → s.time ≤ x.time + rickAge (s.core e)) →
    Idles (.rickAgeOut e i) s) ∧
  (∀ e (i : BitVec 3) s r x, (s.core e).ricks.toList[i.toNat]? = some r → r.elems.head? = some x → x.time + rickAge (s.core e) < s.time →
    exec (.rickAgeOut e i) s = .next (sendRick s e i.toNat .age).done) ∧
  (∀ (s : State) (e d : EP) (i : Nat) why (r : Rick), (s.core e).ricks.toList[i]? = some r → r.dest = some d → r.elems ≠ [] →
    (epChip d = epChip e ∨ (routePort s (epChip e) (epChip d)).isSome = true) →
    let t := sendRick s e i why
    t.mem = s.mem ∧ t.cx = s.cx ∧ (t.core e).ricks.toList[i]? = some { dest := none, elems := [] } ∧
    (∀ j, j ≠ i → (t.core e).ricks.toList[j]? = (s.core e).ricks.toList[j]?) ∧
    ∃ c : Cord, t.cords = s.cords ++ [c] ∧ c.src = e ∧ c.dest = d ∧ c.elems = r.elems ∧ c.team = (s.core e).team ∧ c.rank = (s.core e).rank ∧
      c.done = 0 ∧ c.failed = [] ∧ c.came = false) ∧
  (∀ id s, (∀ c, s.cords.find? (fun c => c.id == id) = some c → cordFirst s c = false ∨ moving s id = true) → Idles (.cordApply id) s) ∧
  (∀ id s c, s.cords.find? (fun c => c.id == id) = some c → cordFirst s c = true → moving s id = false →
    (isFarAgent c.dest = true → c.came = false →
      exec (.cordApply id) s = .next { s.done with nextId := s.nextId + 1, cords := s.cords.filter (fun x => x.id != id) ++ [{ c with came := true, seq := s.nextId }] }) ∧
    (isFarAgent c.dest = false ∨ c.came = true →
      let q := cordElem (if isCompute c.dest then wakeCore s c.dest else s) c
      (q.2.done < q.2.elems.length → exec (.cordApply id) s =
        .next { q.1 with note := .done, cords := q.1.cords.map fun x => if x.id = id then q.2 else x }) ∧
      (q.2.elems.length ≤ q.2.done → exec (.cordApply id) s =
        .next (statusLeaves { q.1 with cords := q.1.cords.filter fun x => x.id != id } (epChip c.dest)
          { id := id, src := c.src, chip := c.chip, team := c.team, rank := c.rank, ctxs := (c.elems.map (·.ctx)).eraseDups,
            failed := q.2.failed }).done))) ∧
  (∀ (s : State) (c : Cord) x, c.elems[c.done]? = some x → let w := cordWho s c.src c.chip x.team x.rank
    (∀ t, applyElem s w x = .ok t → cordElem s c = (t, { c with done := c.done + 1 })) ∧
    (∀ k, applyElem s w x = .error k → cordElem s c = ((elemMeets s w x).foldl applyMeet s, { c with done := c.done + 1, failed := c.failed ++ [(c.done, k, x)] }))) ∧
  (∀ (s : State) (chip : ChipNo) (c : CordStatus), epChip c.src = chip → statusLeaves s chip c = { s with statuses := s.statuses ++ [c] }) ∧
  (∀ id s, (∀ c ∈ s.statuses, c.id ≠ id) ∨ moving s id = true → Idles (.cordStatus id) s) ∧
  (∀ id s c u, s.statuses.find? (fun c => c.id == id) = some c → moving s id = false →
    c.failed.foldlM (fun s f => failElem s c.src c.chip f.2.2.team f.2.2.rank f.1 f.2.1 f.2.2)
      { s with statuses := s.statuses.filter fun x => x.id != id } = .ok u → exec (.cordStatus id) s = .next u.done) ∧
  (∀ (s : State) (e : EP) (x : RickLog), ((logRick s e x).core e).rickLog = (x :: (s.core e).rickLog).take 8 ∧
    ((s.core e).rickLog.length < 8 → ((logRick s e x).core e).rickLost = (s.core e).rickLost)) ∧
  (∀ chip (p : BitVec 3) va s, feature s chip 2 = false ∨ (s.chip chip).mig.state = 1 ∨ (s.chip chip).mig.state = 2 →
    Idles (.migreqGo chip p va) s) ∧
  (∀ chip (p : BitVec 3) va s, feature s chip 2 = true → (s.chip chip).mig.state ≠ 1 → (s.chip chip).mig.state ≠ 2 →
    let at_ : Word := va &&& 0x01FFFFFFFFFFF000
    let m := (s.chip chip).mig
    (∀ x, walk s chip p.toNat at_.toNat = .error x →
      exec (.migreqGo chip p va) s = .next (modMig s chip fun m => { m with state := 4 }).done) ∧
    (∀ l, walk s chip p.toNat at_.toNat = .ok l →
      let size := 2 ^ pageShift l.ps
      let frame := bits m.dst.toNat 12 40 * 4096
      let fit := frame % size = 0 ∧ testBit frame 51 ≠ cwOwner l.cw ∧ (testBit frame 51 = false → frameBacked (s.chip chip) frame size = true)
      (¬ fit → exec (.migreqGo chip p va) s = .next (modMig s chip fun m => { m with state := 5 }).done) ∧
      (fit →
        let new : Mig := { m with state := 1, line := 0, part := p.toNat, va := BitVec.ofNat 64 (at_.toNat / size * size), owner := cwOwner l.cw,
                                  lines := size / 64, oldPa := entryAddr l.entry, shoot := none,
                                  team := migStarter s chip p.toNat (at_.toNat / size * size) (at_.toNat / size * size + size) }
        let u := modMig s chip fun _ => new
        exec (.migreqGo chip p va) s = .next (if cwOwner l.cw = false ∧ pageHeld u chip new = true then u else markPage u chip).done))) ∧
  (∀ chip s, let m := (s.chip chip).mig
    (m.state ≠ 1 → m.state ≠ 2 → Idles (.migrationLineCopy chip) s) ∧
    (m.state = 1 → exec (.migrationLineCopy chip) s = .next (if pageHeld s chip m = true then s else markPage s chip).done) ∧
    (m.state = 2 → m.line < m.lines →
      let old := physKey chip (m.oldPa + 64 * m.line)
      let new := physKey chip (bits m.dst.toNat 12 40 * 4096 + 64 * m.line)
      (channelHeld s old = true ∨ channelHeld s new = true → Idles (.migrationLineCopy chip) s) ∧
      (channelHeld s old = false → channelHeld s new = false →
        exec (.migrationLineCopy chip) s = .next (modMig (moveLine s old new) chip fun m => { m with line := m.line + 1 }).done)) ∧
    (m.state = 2 → m.lines ≤ m.line → m.shoot = none → ∃ t : State, exec (.migrationLineCopy chip) s = .next t ∧ t.cx = s.cx ∧
      (t.chip chip).mig.shoot = some s.nextId ∧ ∃ x ∈ (t.chip chip).shoots, x.id = s.nextId ∧ x.lo = m.va.toNat ∧ x.hi = m.va.toNat + 64 * m.lines) ∧
    (∀ id, m.state = 2 → m.lines ≤ m.line → m.shoot = some id → shootDone (s.chip chip) id = false → Idles (.migrationLineCopy chip) s)) ∧
  (∀ (s : State) (old new : Nat), s.MemOk → (moveLine s old new).MemOk ∧
    (∀ i < 64, (moveLine s old new).mem.get (new + i) = s.mem.get (old + i)) ∧
    (∀ k, k < new ∨ new + 64 ≤ k → (moveLine s old new).mem.get k = s.mem.get k)) ∧
  (∀ chip (p : BitVec 3) op dbl va x c s, let n := if dbl then 8 else 4
    ((s.chip chip).stopped = true ∨ va.toNat % n ≠ 0 ∨ cutOff s chip (reporter s chip p.toNat) = true ∨ (∃ e, walk s chip p.toNat va.toNat = .error e)) → Idles (.hostAtomicop chip p op dbl va x c) s) ∧
  (∀ chip (p : BitVec 3) op dbl va x c s l, let n := if dbl then 8 else 4
    (s.chip chip).stopped = false → va.toNat % n = 0 → cutOff s chip (reporter s chip p.toNat) = false → walk s chip p.toNat va.toNat = .ok l →
    (cwOwner l.cw = true ∨ (cwSysat l.cw = true ∧ feature s chip 1 = true ∧ (cwClass l.cw = 1 ∨ cwClass l.cw = 2))) →
    let key := physKey chip (leafPa s chip p.toNat l va.toNat)
    let old := leNat (s.mem.getBytes key n)
    let a := x.toNat % 2 ^ (8 * n)
    frozenIn s key n = [] →
    ∃ t : State, exec (.hostAtomicop chip p op dbl va x c) s = .next t ∧ t.cx = s.cx ∧ t.deltas = s.deltas ∧
      t.mem = match op with
        | .fetchAdd => s.mem.setBytes key (bytesOf (old + a) n)
        | .swap => s.mem.setBytes key (bytesOf a n)
        | .cas => if old = c.toNat % 2 ^ (8 * n) then s.mem.setBytes key (bytesOf a n) else s.mem)

/-! ### Exceptions, messages, system registers -/

/-- The message that a fault of the executing context sends (R144, R349). -/
def Sys2Proof.Machine.faultMsg (s : State) (t : Trap) : Msg :=
  mkMsg s s.cx.chip s.cx.team t.code s.cx.no (t.flags false) s.cx.rank (t.pc.getD s.cx.ipc) t.addr s.cx.recA s.cx.ep 0 t.extra0 t.extra1

/-- The parked record of a fault: of this superstep and attempt, with the fault's PC and address and whether it has voted. -/
def Sys2Proof.Machine.parkedOf (s : State) (t : Trap) : Waiter :=
  { chip := s.cx.chip, team := s.cx.team, recA := s.cx.recA, ep := s.cx.ep,
    kind := .parked (faultMsg s t).sstep (((s.team? s.cx.chip s.cx.team).map (·.attempts)).getD 0) (t.pc.getD s.cx.ipc) t.addr t.cause.isSome false }

/-- The executing context's fault `t` is taken (R144): the continuation suspends as PARKED-FAULT with its record's PC at the
faulting slot, or where the fault says that it goes on; a cause is voted; a fault of a critical page is counted; the message goes to the service core's mailbox. -/
def Sys2Proof.Machine.Takes (s : State) (t : Trap) (u : State) : Prop :=
  ∃ v w : State, suspendCx s stParked 0 (t.resume.getD (t.pc.getD s.cx.ipc)) = .ok v ∧
    let x : State := { v with waiters := v.waiters ++ [parkedOf s t] }
    let y := match t.cause with
      | some k => addVote x s.cx.chip s.cx.team { cause := k, pc := t.pc.getD s.cx.ipc, rank := s.cx.rank, ctx := s.cx.no }
      | none => x
    let z := applyMeets y t
    postMsg z (svcOf z s.cx.chip s.cx.team) (faultMsg s t) = .ok w ∧ u = { w with note := .trapped t }

/-- In a context whose vector stream is idle and which is not the collier's, taking a fault leaves the context idle
with its granules given back, the record parked for this superstep and attempt, its cause voted, and its message at
the end of the service core's mailbox when that has room and nobody waits for it. A fault of the collier's own
continuation stops the package. In every state where the instruction may run and its predicate is on, TRAP takes the
fault TRAPI with its code in EXTRA0 and BRK the fault BRK, both with the record's PC after the slot.
(spec/05_execution_model.md section Faults and the service core, spec/21_fabric_system_ops.md section Traps, messages
and replies, spec/20_translation.md section The fault message and the replies) -/
def Obligations.TakingAnException : Prop :=
  (∀ s t u, s.atControl = true → epUnit s.cx.ep ≠ 1088 → Takes s t u → takeFault s t = .ok u ∧ raise s t = .next u) ∧
  (∀ s t, epUnit s.cx.ep = 1088 → raise s t = .next { fatalStop s (epChip s.cx.ep) .collier with note := .trapped t }) ∧
  (∀ s t u, Takes s t u → u.cx = { Context.idle s.cx.ep s.cx.no with ranC := s.cx.ranC, ranV := s.cx.ranV } ∧ u.others = s.others ∧ u.note = .trapped t ∧
    (u.core s.cx.ep).freeG = (s.core s.cx.ep).freeG + s.cx.gGran ∧ (u.core s.cx.ep).freeV = (s.core s.cx.ep).freeV + s.cx.vGran) ∧
  (∀ s t u, Takes s t u → let e := svcOf s s.cx.chip s.cx.team
    mailWaiter s e = none → (s.core e).mbox.length < 256 →
    (u.core e).mbox = (s.core e).mbox ++ [faultMsg s t] ∧ u.waiters = s.waiters ++ [parkedOf s t] ∧
    ∃ v, suspendCx s stParked 0 (t.resume.getD (t.pc.getD s.cx.ipc)) = .ok v ∧
    (∀ x k, v.team? s.cx.chip s.cx.team = some x → t.cause = some k → ∃ y, u.team? s.cx.chip s.cx.team = some y ∧
      y.votes = x.votes ++ [{ cause := k, pc := t.pc.getD s.cx.ipc, rank := s.cx.rank, ctx := s.cx.no }]) ∧
    (t.cause = none → u.teams = v.teams)) ∧
  (∀ s t, let m := faultMsg s t
    m.code = t.code ∧ m.addr = t.addr ∧ m.recA = s.cx.recA ∧ m.pc = t.pc.getD s.cx.ipc ∧ m.srcep = s.cx.ep ∧ m.team = s.cx.team ∧
    m.extra0 = t.extra0 ∧ m.extra1 = t.extra1 ∧
    m.flags.getLsbD 4 = t.write ∧ m.flags.getLsbD 5 = t.fetch ∧ m.flags.getLsbD 6 = t.cause.isSome ∧ m.flags.getLsbD 0 = false) ∧
  (∀ (c : BitVec 16) ms s u, Runs (.trap c ms) ms s → s.atControl = true → epUnit s.cx.ep ≠ 1088 →
    Takes s.done { Trap.of Code.trapi with resume := some (nextSlot s.cx.ipc), extra0 := c.setWidth 64 } u → exec (.trap c ms) s = .next u) ∧
  (∀ ms s u, Runs (.brk ms) ms s → s.atControl = true → epUnit s.cx.ep ≠ 1088 →
    Takes s.done { Trap.of Code.brk with resume := some (nextSlot s.cx.ipc), extra0 := 0 } u → exec (.brk ms) s = .next u)

/-- In every state where the instruction may run and its predicate is on: FMSG gives the group at g[D] the eight words
of the oldest message and takes it from the mailbox, where one that waits in the fabric then enters; an empty mailbox
gives zeros or suspends. With every earlier access performed, FREPLY to a team that is not live changes nothing;
RESUME makes the parked record of its superstep and attempt READY, unless it has voted, and RETRY does so once the
page of the fault is out of the translations; TERMINATE ends the team; VOTE-ABORT votes its cause. A reply to a fault
of an engine or a rick, unless to a notice or another superstep or attempt, lets the engine go on, ends the team or
votes and abandons it. Any other reply changes nothing. That a RESUME or RETRY after a VOTE-ABORT has no effect is the
model's choice (notes/assumptions/122.md); the team is found by the chip of SRCEP (notes/assumptions/96.md), and that
VOTE-ABORT answers every parked record alike is its reading of R145 (notes/assumptions/113.md).
(spec/21_fabric_system_ops.md section Traps, messages and replies, spec/20_translation.md section The fault message
and the replies) -/
def Obligations.MessagesAndReplies : Prop :=
  (∀ nb d ms s m u, Runs (.fmsg nb d ms) ms s → s.cx.gang = none → takeMail s.done s.cx.ep = some (m, u) →
    exec (.fmsg nb d ms) s = .next (u.setGroup d m.words)) ∧
  (∀ d ms s, Runs (.fmsg true d ms) ms s → s.cx.gang = none → (s.core s.cx.ep).mbox = [] →
    exec (.fmsg true d ms) s = .next (s.done.setGroup d (List.replicate 8 0))) ∧
  (∀ d ms s u, Runs (.fmsg false d ms) ms s → s.atControl = true → s.cx.gang = none → (s.core s.cx.ep).mbox = [] → epUnit s.cx.ep ≠ 1088 →
    suspendFor s.done stWaitQueue 0 (.mailbox d) = .ok u → exec (.fmsg false d ms) s = .next u) ∧
  (∀ (s : State) (e : EP) m ms, (s.core e).mbox = m :: ms →
    ∃ t : State, takeMail s e = some (m, t) ∧ t.mem = s.mem ∧ t.cx = s.cx ∧
      (s.fabricMsgs.find? (fun f => f.1 == e) = none → (t.core e).mbox = ms ∧ t.fabricMsgs = s.fabricMsgs) ∧
      (∀ f, s.fabricMsgs.find? (fun f => f.1 == e) = some f → (t.core e).mbox = ms ++ [f.2] ∧ t.fabricMsgs = s.fabricMsgs.erase f)) ∧
  (∀ m : Msg, m.words = [BitVec.ofNat 64 (m.code.toNat + m.ctx.toNat * 2 ^ 16 + m.flags.toNat * 2 ^ 24 + m.rank.toNat * 2 ^ 32 + m.aborts.toNat * 2 ^ 48),
    m.pc, m.addr, m.recA, BitVec.ofNat 64 (m.sstep.toNat + m.team.toNat * 2 ^ 32), BitVec.ofNat 64 (m.srcep.toNat + m.seq.toNat * 2 ^ 32),
    m.extra0, m.extra1]) ∧
  (∀ a b ms s, Runs (.freply a b ms) ms s → s.atControl = true → Released s → (b.val s &&& ~~~(0xFF03 : Word)) = 0 →
    ((b.val s).toNat % 4 = 3 ∨ (b.val s).extractLsb' 8 8 = 0) →
    let r := replyOf (s.group a 8) (b.val s)
    (s.liveTeam? (epChip r.src) r.team = none → exec (.freply a b ms) s = .next s.done) ∧
    (∀ t, s.liveTeam? (epChip r.src) r.team = some t → r.flags &&& 7 = 0 →
      (parkedFor s r = none → exec (.freply a b ms) s = .next s.done) ∧
      (∀ x pc addr votes voted, parkedFor s r = some (x, pc, addr, votes, voted) →
        (r.code ≤ 1 → (votes = true ∨ voted = true) → exec (.freply a b ms) s = .next s.done) ∧
        (∀ u, r.code ≤ 1 → votes = false → voted = false →
          readyParked (if r.code = 1 then retryPage s.done r.src x.team addr else s.done) x.chip x.team x.recA = .ok u →
          exec (.freply a b ms) s = .next u) ∧
        (r.code = 2 → exec (.freply a b ms) s = .next (terminateAll s.done t r.fault.toNat false)) ∧
        (r.code = 3 → ∃ u : State, exec (.freply a b ms) s = .next u ∧ u.mem = s.mem ∧ u.cx = s.cx ∧
          (∀ y, s.team? t.chip t.id = some y → ∃ z, u.team? t.chip t.id = some z ∧ z.votes = y.votes ++ [r.vote r.rank pc])))) ∧
    (∀ t, s.liveTeam? (epChip r.src) r.team = some t → r.flags &&& 7 ≠ 0 →
      (r.flags.getLsbD 0 = true ∨ t.ssn ≠ r.ssn ∨ t.attempts % 2 ^ 16 ≠ r.aborts → exec (.freply a b ms) s = .next s.done) ∧
      (r.flags.getLsbD 0 = false → t.ssn = r.ssn → t.attempts % 2 ^ 16 = r.aborts → let eng := r.flags.getLsbD 1 && r.fault != Code.abft
        (r.code ≤ 1 → exec (.freply a b ms) s = .next (if eng then engineReply s.done r true else s.done)) ∧
        (r.code = 2 → exec (.freply a b ms) s = .next (terminateAll s.done t r.fault.toNat false)) ∧
        (r.code = 3 → exec (.freply a b ms) s = .next (addVote (if eng then engineReply s.done r false else s.done) t.chip t.id (r.vote r.rank r.pc)))))) ∧
  (∀ (ws : List Word) b, let r := replyOf ws b
    r.code = b.toNat % 4 ∧ r.recA = (ws[3]?).getD 0 ∧ r.pc = (ws[1]?).getD 0) ∧
  (∀ r : Reply, ∀ k pc, (r.vote k pc).cause = if r.cause ∈ [1, 2, 3, 4, 5, 6, 7, 8, 10, 11] then r.cause else 11)

/-- The value that a core's own register keeps of a write, for a value it accepts (R278, R283, R329, R374). -/
def Sys2Proof.Machine.coreRegTakes (n : Nat) (v : Word) : Option Word :=
  if n = 0x300 then (if mxslotOk v then some v else none)
  else if 0x310 ≤ n ∧ n ≤ 0x323 then some v
  else if n = 0x500 then (if 64 ≤ v.toNat % 2 ^ 16 then some (v &&& 0xFFFF) else none)
  else if 0x710 ≤ n ∧ n ≤ 0x713 then some v
  else none

/-- The bits that a package's register keeps, for one whose write has no other effect (R209, R392, R442). -/
def Sys2Proof.Machine.chipRegMask (n : Nat) : Option Word :=
  if n = 0x120 then some 0xFFFFFFFF else if n = 0x620 then some 0x000FFFFFFFF80000 else if n = 0x860 then some 0xFFF else none

/-- In every state where the instruction may run and its predicate is on: SRD of a register that exists gives g[D] its
value (of FFLAGS once no vector instruction that sets flags waits), SWR of FFLAGS then clears the flags written as
ones, and SWR of a register that keeps its bits changes that register alone. Any other write has the effect of R379's
table. A register write from outside with too low a privilege, or to no register, changes nothing. A write of OPTBIND
that names the bound team changes nothing, and one that binds an idle core takes it into the team; OPTREC makes its
record ready; SVCBOOT starts a service program or records that it failed. (spec/21_fabric_system_ops.md section System
registers, translation, identity and halt, spec/21_fabric_system_ops.md section System register index) -/
def Obligations.SystemRegisters : Prop :=
  (∀ d (n : BitVec 12) ms s, Runs (.srd d n ms) ms s → (srAccess n.toNat).isSome = true → (n = 0x010 → flagsDue s.cx = false) →
    exec (.srd d n ms) s = .next (s.done.setG d (BitVec.ofNat 64 (readReg s.done n.toNat)))) ∧
  (∀ s : State, readReg s 0x000 = s.cx.no.toNat * 2 ^ 32 + s.cx.ep.toNat ∧ readReg s 0x001 = s.cx.recA.toNat ∧
    readReg s 0x010 = s.cx.fflags.toNat ∧ readReg s 0x013 = s.cx.rep.pc.toNat ∧ readReg s 0x600 = (s.chip (epChip s.cx.ep)).no.toNat ∧
    readReg s 0x720 = (s.myTeam.map fun t => t.steps).getD 0 ∧
    readReg s 0x800 = (s.core s.cx.ep).mboxLost * 2 ^ 32 + (s.core s.cx.ep).mbox.length ∧
    ∀ n v, (coreRegTakes n v).isSome = true → ∃ d : Word, readReg s n = ((s.core s.cx.ep).reg n d).toNat) ∧
  (∀ a ms s, Runs (.swr a 0x010 ms) ms s → flagsDue s.cx = false →
    let c : Context := { s.cx with fflags := s.cx.fflags &&& ~~~((s.g a).setWidth 5) }
    exec (.swr a 0x010 ms) s = .next { s.done with cx := c }) ∧
  (∀ a (n : BitVec 12) ms s v, Runs (.swr a n ms) ms s → coreRegTakes n.toNat (s.g a) = some v → (s.core s.cx.ep).mx.queue = [] →
    ∃ t : State, exec (.swr a n ms) s = .next t ∧ t.cx = s.cx ∧ t.mem = s.mem ∧ t.chips = s.chips ∧
      ∀ m d, (t.core s.cx.ep).reg m d = if m = n.toNat then v else (s.core s.cx.ep).reg m d) ∧
  (∀ a (n : BitVec 12) ms s m, Runs (.swr a n ms) ms s → chipRegMask n.toNat = some m →
    ∃ t : State, exec (.swr a n ms) s = .next t ∧ t.cx = s.cx ∧ t.mem = s.mem ∧ t.cores = s.cores ∧
      ∀ k d, (t.chip (epChip s.cx.ep)).reg k d = if k = n.toNat then s.g a &&& m else (s.chip (epChip s.cx.ep)).reg k d) ∧
  (∀ a (n : BitVec 12) ms s u, Runs (.swr a n ms) ms s → (srAccess n.toNat).isSome = true → n ≠ 0x010 → (s.core s.cx.ep).mx.queue = [] →
    writeReg s.done s.cx.ep n.toNat (s.g a) = .ok u → exec (.swr a n ms) s = .next u) ∧
  (∀ e (pv : Priv) (n : BitVec 12) v s, (∀ r w, srAccess n.toNat = some (r, w) → pv.level < w) → Idles (.registerWrite e pv n v) s) ∧
  (∀ e (pv : Priv) (n : BitVec 12) v s r w u, srAccess n.toNat = some (r, w) → w ≤ pv.level → writeReg s e n.toNat v = .ok u →
    exec (.registerWrite e pv n v) s = .next u.done) ∧
  (∀ chip (j : BitVec 5) (v : Word) s, (v >>> 32).setWidth 32 = optTeam s chip j.toNat →
    (optTeam s chip j.toNat = 0 ∨ (s.liveTeam? chip (optTeam s chip j.toNat)).isSome = true) → Idles (.optbindWrite chip j v) s) ∧
  (∀ chip (j : BitVec 5) (v : Word) s x, s.liveTeam? chip ((v >>> 32).setWidth 32) = some x → (v >>> 32).setWidth 32 ≠ optTeam s chip j.toNat →
    (v >>> 32).setWidth 32 ≠ (0 : Word32) → optStateOf s chip j.toNat < 2 →
    ∃ t : State, exec (.optbindWrite chip j v) s = .next t ∧ t.cx = s.cx ∧ (t.core (optEp chip j.toNat)).team = x.id ∧
      (t.core (optEp chip j.toNat)).rank = 0xFFF ∧ (t.core (optEp chip j.toNat)).freeG = 16 ∧ (t.core (optEp chip j.toNat)).freeV = 8 ∧
      (t.chip chip).reg (0x730 + j.toNat) 0 = BitVec.ofNat 64 (((v >>> 32).setWidth 32 : Word32).toNat * 2 ^ 32)) ∧
  (∀ chip (v : Word) s t r u x, let e := optEp chip (v.toNat % 32)
    let a : Word := (v >>> 6) <<< 6
    s.liveTeam? chip (optTeam s chip (v.toNat % 32)) = some t → (∃ l, walk s chip t.part a.toNat = .ok l) →
    readRec s (devWho s e chip t.id) a = .ok r → r.team = t.id.toNat → recCheck s (devWho s e chip t.id) t a true = .ok () → r.st = stDone →
    putRec s (devWho s e chip t.id) a 40 4 0 = .ok u →
    makeReady (u.modTeam chip t.id fun t => { t with optRecs := (t.optRecs.filter fun x => x.1 != a) ++ [(a, e)],
                                                     recs := if t.recs.contains a then t.recs else t.recs ++ [a] }) chip t.id a = .ok x →
    exec (.optrecWrite chip v) s = .next x.done) ∧
  (∀ chip (v : Word) s, let pa := v.toNat / 128 * 128
    paValid (s.chip chip) pa = false → ∃ t : State, exec (.svcbootWrite chip v) s = .next t ∧ (t.chip chip).svc = 2 ∧ t.mem = s.mem ∧ t.teams = s.teams) ∧
  (∀ chip (v : Word) s u, let pa := v.toNat / 128 * 128
    let r := lrecOf (s.mem.getBytes (physKey chip pa) 128)
    let p : Rect := { die := r.die, x := r.x, y := r.y, w := 1, h := 1 }
    paValid (s.chip chip) pa = true → paValid (s.chip chip) (pa + 127) = true → r.ok = true → r.w = 1 → r.h = 1 → r.any = false → r.svc = collierEp chip →
    p.valid s chip none 255 = true → p.free s chip = true → idInUse s chip r.id = false →
    startTeam s chip 0 r p true = .ok (.ok u) → exec (.svcbootWrite chip v) s = .next (setSvc u chip 1).done)

/-- In every state where the instruction may run and its predicate is on: TLBI of an empty range goes on; TLBI whose
shoot-down has been acknowledged by every node goes on and the shoot-down is gone. An acknowledgement takes the first
node that can give it, and no entry of the range is left there: no L1 line and, where it serves the partition, no
fetched line of a core, no TLB entry of a cluster or die. With the last acknowledgement no TLB of the package and no
L1 of its cores holds an entry of the range. That the first such node is taken, and that a core drops its fetched
lines only where it serves the partition, is the model's reading (notes/assumptions/76.md). A core sleeps exactly when
it has been idle long enough, and wakes with no fetched line and an empty L1. IDENT gives g[D] the endpoint of its
core, the form and version, the cores in service, or the memory. HALT stops its context and forgets the events before
it. (spec/21_fabric_system_ops.md section System registers, translation, identity and halt, spec/20_translation.md
section Changing a translation) -/
def Obligations.CoresAndIdentity : Prop :=
  (∀ (p : BitVec 3) a b ms s, Runs (.tlbi false p a b ms) ms s → (s.g a).toNat < 2 ^ 57 → b.val s = 0 →
    exec (.tlbi false p a b ms) s = .next s.done) ∧
  (∀ all (p : BitVec 3) a b ms s x, Runs (.tlbi all p a b ms) ms s →
    (all = false → (s.g a).toNat < 2 ^ 57 ∧ (s.g a).toNat + (b.val s).toNat ≤ 2 ^ 57 ∧ b.val s ≠ 0) →
    let chip := epChip s.cx.ep
    let r := tlbiRange s chip p.toNat all (s.g a).toNat (b.val s).toNat
    (s.chip chip).shoots.find? (fun x => (x.ep == s.cx.ep && x.ctx == s.cx.no) && x.part == p.toNat && x.lo == r.1 && x.hi == r.2) = some x →
    x.nodes = [] →
    exec (.tlbi all p a b ms) s = .next (s.done.modChip chip fun k => { k with shoots := k.shoots.filter fun y => y.id != x.id })) ∧
  (∀ id s, (∀ c ∈ s.chips, ∀ x ∈ c.2.shoots, x.id ≠ id) → Idles (.shootdownAck id) s) ∧
  (∀ id s c x, s.chips.find? (fun c => c.2.shoots.any fun x => x.id == id) = some c → c.2.shoots.find? (fun x => x.id == id) = some x →
    (x.nodes.find? (mayAck c.2 x) = none → Idles (.shootdownAck id) s) ∧
    (∀ n, x.nodes.find? (mayAck c.2 x) = some n →
      let u := (nodeDrops s c.2.no x n).modChip c.2.no fun k =>
        { k with shoots := k.shoots.map fun y => if y.id = id then { y with nodes := y.nodes.filter fun m => m != n } else y }
      exec (.shootdownAck id) s = .next (if ∀ m ∈ x.nodes, m = n then finishShoot u c.2.no x else u).done)) ∧
  (∀ (s : State) (chip : ChipNo) (x : Shoot), let u := finishShoot s chip x
    u.mem = s.mem ∧ u.cx = s.cx ∧ (∀ y ∈ (u.chip chip).tlb, y.part = x.part → x.hi ≤ y.lo ∨ y.hi ≤ x.lo) ∧
    (∀ q ∈ s.cores, epChip (BitVec.ofNat 32 q.1) = chip → ∀ l ∈ (u.core (BitVec.ofNat 32 q.1)).l1, l.part = x.part →
      x.hi ≤ 64 * l.vline ∨ 64 * l.vline + 64 ≤ x.lo)) ∧
  (∀ (s : State) (chip : ChipNo) (x : Shoot) (n : Nat), let u := nodeDrops s chip x n
    u.mem = s.mem ∧ u.cx = s.cx ∧
    (256 ≤ n → let e := nodeCore chip n
      (∀ l ∈ (u.core e).l1, l.part = x.part → x.hi ≤ 64 * l.vline ∨ 64 * l.vline + 64 ≤ x.lo) ∧
      (servesPart s (e.toNat, s.core e) chip x.part = true → ∀ l ∈ (u.core e).icache, l.1.toNat + 64 ≤ x.lo ∨ x.hi ≤ l.1.toNat)) ∧
    (n < 256 → ∀ y ∈ (u.chip chip).tlb, y.home = n → y.part = x.part → x.hi ≤ y.lo ∨ y.hi ≤ x.lo)) ∧
  (∀ e s, sleepDue s e = false → Idles (.coreSleep e) s) ∧
  (∀ e s, sleepDue s e = true → exec (.coreSleep e) s = .next (s.modCore e fun k => { k with asleep := true }).done) ∧
  (∀ e s, (s.core e).asleep = false → Idles (.coreWake e) s) ∧
  (∀ e s, (s.core e).asleep = true →
    exec (.coreWake e) s = .next (wakeCore s e).done ∧ ((wakeCore s e).core e).asleep = false ∧ ((wakeCore s e).core e).icache = [] ∧
      ((wakeCore s e).core e).l1 = [] ∧ (wakeCore s e).mem = s.mem ∧ (wakeCore s e).cx = s.cx) ∧
  (∀ d (sel : BitVec 4) ms s, Runs (.ident d sel ms) ms s → sel.toNat < 4 →
    exec (.ident d sel ms) s = .next (s.done.setG d (BitVec.ofNat 64 (identWord s sel.toNat)))) ∧
  (∀ s : State, identWord s 0 = 0x4E5A * 2 ^ 48 + 0x5304 * 2 ^ 32 + (Config.partForm.val + 1) ∧ identWord s 1 = s.cx.ep.toNat ∧
    identWord s 2 = (largestRect (s.chip (epChip s.cx.ep))).2 * 2 ^ 40 + (largestRect (s.chip (epChip s.cx.ep))).1 * 2 ^ 32 +
      coresIn (s.chip (epChip s.cx.ep)) true * 2 ^ 16 + coresIn (s.chip (epChip s.cx.ep)) false) ∧
  (∀ c : Chip, largestRect c = (0, 0) ∨ (largestRect c ∈ freeRects c ∧ ∀ r ∈ freeRects c, r.1 * r.2 ≤ (largestRect c).1 * (largestRect c).2)) ∧
  (∀ ms s, Runs (.halt ms) ms s →
    exec (.halt ms) s = .next (let u := modCol s.done (epChip s.cx.ep) fun c => { c with event := false }
      { u with cx := { s.cx with mode := .halted } }))

/-! ### Links, the host port, the collier -/

/-- The event's next state is `t`. -/
def Sys2Proof.Machine.Gives (i : Instr) (s t : State) : Prop := exec i s = .next t.done

/-- A flit leaves its sender's wire as it arrives. A port that is down takes nothing from it; a flit without its CRC,
or one that arrives where a lane has failed, is refused. The packet with the sequence awaited is accepted once, in
order, and any other is not; an accepted packet takes effect on its chip or goes to a gateway toward its destination.
Timers act exactly when they are due: an acknowledgement names the last packet accepted, a replay sends every
unacknowledged packet again in order. A gateway sends a packet once its port has room; where its port is down, every
packet that waits for that port moves, in order, to another port of its route, or is lost with its operation. A failed
lane stops the port, which trains, once its wires are empty and its partner answers, to the widest width that its
intact lanes allow, from when on both ends' lanes in use are intact, and sends again what is unacknowledged; or, with
a partner that has stopped or none, or no intact quarter, it goes down and its packets take other ports. A heartbeat
leaves for each tree neighbour that a port leads to; a loss is recorded once for every federation that both chips
belong to, and the chip that judges it reports it to every other member it reaches. A write of PORTST with CLR zeroes
its counts. What is lost with an operation is the model's reading of notes/assumptions/118.md, the NAK of every
refused flit and the entries kept for VC 3 that of notes/assumptions/74.md, the counters that of
notes/assumptions/75.md, and the numbers after training that of notes/assumptions/125.md. (spec/23_fabric.md section
The link, spec/23_fabric.md section Lanes and ports, spec/23_fabric.md section Routes and gateways, spec/23_fabric.md
section Barrier traffic and loss, spec/23_fabric.md section Port registers) -/
def Obligations.Links : Prop :=
  (∀ chip (p : BitVec 4) (f : Flit) (s : State) c q g gs, (portOf s chip p).peer = some (c, q) → (portOf s c q).out = g :: gs →
    { f with crc := 0 } = { g with crc := 0 } → takeWire s chip p f = setPort s c q { portOf s c q with out := gs }) ∧
  (∀ chip p f s, let u := takeWire s chip p f
    let x := portOf u chip p
    (x.state = 0 → Gives (.flitReceive chip p f) s u) ∧
    (x.state ≠ 0 → x.broken = true ∨ flitOk f = false →
      Gives (.flitReceive chip p f) s (setPort u chip p (if x.stopped = true then x else x.refuse))) ∧
    (x.state ≠ 0 → x.broken = false → flitOk f = true →
      let y := if f.ackValid = true ∨ f.nak = true then x.acked f.ackSeq u.time else x
      let again := f.nak = true ∧ y.stopped = false ∧ y.buf.isEmpty = false
      let z := if again then y.resend u.time else y
      let w := if again then linkError u chip else u
      (f.packet = none → Gives (.flitReceive chip p f) s (setPort w chip p z)) ∧
      (∀ q b, f.packet = some (q, b) →
        let v := setPort w chip p (z.packet q u.time).1
        Gives (.flitReceive chip p f) s (if q = x.rxNext then acceptPacket v chip b else v)))) ∧
  (∀ (x : Port) q now, let y := (x.packet q now).1
    (q = x.rxNext → y.rxNext = x.rxNext + 1 ∧ (x.packet q now).2 = true) ∧ (q ≠ x.rxNext → y.rxNext = x.rxNext ∧ (x.packet q now).2 = false) ∧
    y.buf = x.buf ∧ y.txNext = x.txNext) ∧
  (∀ (s : State) chip (x : LinkPacket), (x.dest = chip → acceptPacket s chip x = landPacket s chip x) ∧
    (x.dest ≠ chip → ∀ p, routePort s chip x.dest = some p →
      ((acceptPacket s chip x).chip chip).gw = (s.chip chip).gw ++ [{ id := s.nextId, pkt := x, port := p }]) ∧
    (x.dest ≠ chip → routePort s chip x.dest = none →
      acceptPacket s chip x = match x.load with | .part op _ => loseOp s op | _ => s)) ∧
  (∀ (s : State) chip (x : LinkPacket), x.vc = 3 → alGet ((landPacket s chip x).chip chip).heard x.src 0 = s.time) ∧
  (∀ (s : State) chip (x : LinkPacket) op i, x.load = .part op i → (op, i) ∉ (landPacket s chip x).transit) ∧
  (∀ (s : State) chip (x : LinkPacket) lost, x.load = .loss lost → lost ∈ ((landPacket s chip x).chip chip).told) ∧
  (∀ chip p s, (ackDue s chip p = false → Idles (.ackTimer chip p) s) ∧
    (ackDue s chip p = true → Gives (.ackTimer chip p) s (setPort s chip p (portOf s chip p).ack))) ∧
  (∀ x : Port, ∃ f : Flit, x.ack.out = x.out ++ [f] ∧ f.ackValid = true ∧ f.ackSeq = x.rxNext - 1 ∧ f.packet = none ∧ flitOk f = true ∧
    x.ack.rxUnacked = 0) ∧
  (∀ chip p s, (replayDue s chip p = false → Idles (.replayTimeout chip p) s) ∧
    (replayDue s chip p = true → Gives (.replayTimeout chip p) s (linkError (setPort s chip p ((portOf s chip p).resend s.time)) chip))) ∧
  (∀ (x : Port) now, x.buf ≠ [] → (x.resend now).out.filterMap (·.packet) = x.out.filterMap (·.packet) ++ x.buf ∧ (x.resend now).buf = x.buf ∧
    (x.resend now).replay = min (x.replay + 1) (2 ^ 16 - 1)) ∧
  (∀ chip id s, (∀ g ∈ (s.chip chip).gw, g.id ≠ id) → Idles (.gatewayForward chip id) s) ∧
  (∀ chip id s g, (s.chip chip).gw.find? (fun g => g.id == id) = some g →
    let rest := s.modChip chip fun c => { c with gw := c.gw.filter fun x => x.id != id }
    let q := BitVec.ofNat 4 g.port
    ((portOf s chip q).state = 0 → Gives (.gatewayForward chip id) s (moveWaiting s chip g.port)) ∧
    ((portOf s chip q).state ≠ 0 → mayForward s chip g = false → Idles (.gatewayForward chip id) s) ∧
    ((portOf s chip q).state ≠ 0 → mayForward s chip g = true →
      Gives (.gatewayForward chip id) s (setPort rest chip q ((portOf s chip q).send g.pkt s.time)))) ∧
  (∀ (s : State) chip (g : GwPacket), mayForward s chip g = true →
    (portOf s chip (BitVec.ofNat 4 g.port)).room g.pkt.vc = true ∧
    (g.pkt.vc ≠ 3 → ∀ x ∈ (s.chip chip).gw, x.pkt.vc = 3 → x.port = g.port → portUp s chip x.port = false) ∧
    ∀ x ∈ (s.chip chip).gw.takeWhile (fun x => x.id != g.id), x.pkt.vc = g.pkt.vc → x.pkt.dest = g.pkt.dest →
      x.port ≠ g.port ∧ sameOp x.pkt g.pkt = false) ∧
  (∀ (s : State) chip (q : Nat), (∀ x ∈ (s.chip chip).gw, x.port = q → (routePort s chip x.pkt.dest).isSome = true) →
    moveWaiting s chip q = s.modChip chip fun c =>
      { c with gw := c.gw.map fun x => if x.port = q then { x with port := (routePort s chip x.pkt.dest).getD 0 } else x }) ∧
  (∀ (s : State) chip (x : GwPacket), (s.chip chip).gw = [x] → routePort s chip x.pkt.dest = none →
    let rest := s.modChip chip fun c => { c with gw := [] }
    moveWaiting s chip x.port = match x.pkt.load with | .part op _ => loseOp rest op | _ => rest) ∧
  (∀ (x : Port) b now, (x.send b now).buf = x.buf ++ [(x.txNext, b)] ∧ (x.send b now).txNext = x.txNext + 1 ∧
    ∃ f, (x.send b now).out = x.out ++ [f] ∧ f.packet = some (x.txNext, b) ∧ flitOk f = true) ∧
  (∀ (s : State) chip (p : BitVec 4) m, p.toNat < 12 → let x := portOf s chip p
    portOf (stopPort s chip p m) chip p =
      if x.state = 0 then { x with failed := x.failed ||| m } else { x with failed := x.failed ||| m, stopped := true, state := 1 }) ∧
  (∀ chip (p l : BitVec 4) s, p.toNat < 12 → let x := portOf s chip p
    ∃ t : State, exec (.laneFail chip p l) s = .next t ∧ t.mem = s.mem ∧ portOf t chip p =
      if x.state = 0 then { x with failed := x.failed ||| ((1 : BitVec 16) <<< l.toNat) }
      else { x with failed := x.failed ||| ((1 : BitVec 16) <<< l.toNat), stopped := true, state := 1, broken := true }) ∧
  (∀ chip (p : BitVec 4) s c q, (portOf s chip p).peer = some (c, q) → Gives (.laneFailureSignal chip p) s (stopPort s chip p (portOf s c q).failed)) ∧
  (∀ chip (p : BitVec 4) s, (portOf s chip p).peer = none → Gives (.laneFailureSignal chip p) s (stopPort s chip p 0)) ∧
  (∀ chip p s, (portOf s chip p).state ≠ 1 ∨ wiresEmpty s chip p = false → Idles (.portRetrainDone chip p) s) ∧
  (∀ chip (p : BitVec 4) s c q, p.toNat < 12 → let x := portOf s chip p
    x.state = 1 → wiresEmpty s chip p = true → answering s (partnerOf s chip p) = some (c, q) → widthOf x.failed ≠ 0 →
    ∃ t : State, exec (.portRetrainDone chip p) s = .next t ∧ t.mem = s.mem ∧ (portOf t chip p).state = widthOf x.failed ∧
      (portOf t chip p).stopped = false ∧ (portOf t chip p).peer = some (c, q) ∧ (portOf t chip p).buf = x.buf ∧
      (portOf t chip p).out.filterMap (·.packet) = x.buf ∧ (t.chip chip).col.event = true ∧
      ((c, q) ≠ (chip, p) → q.toNat < 12 → (portOf t c q).broken = false)) ∧
  (∀ chip (p : BitVec 4) s, let x := portOf s chip p
    x.state = 1 → wiresEmpty s chip p = true → answering s (partnerOf s chip p) = none ∨ widthOf x.failed = 0 →
    Gives (.portRetrainDone chip p) s (moveWaiting (moveBuffer
      (setPort (colEvent s chip) chip p { x with state := 0, stopped := true, broken := false, buf := [], out := [] }) chip x) chip p.toNat)) ∧
  (∀ (s : State) c, answering s none = none ∧ (∀ q, answering s (some (c, q)) = if (s.chip c).stopped = true then none else some (c, q))) ∧
  (∀ (s : State) chip (x : Port), (∀ b ∈ x.buf, (routePort s chip b.2.dest).isSome = true) →
    ((moveBuffer s chip x).chip chip).gw.map (·.pkt) = x.buf.map (·.2) ++ (s.chip chip).gw.map (·.pkt) ∧ (moveBuffer s chip x).mem = s.mem) ∧
  (∀ m : BitVec 16, widthOf m = 4 ↔ m = 0) ∧
  (∀ m : BitVec 16, widthOf m = 3 ↔ m ≠ 0 ∧ (m.extractLsb' 0 8 = 0 ∨ m.extractLsb' 8 8 = 0)) ∧
  (∀ chip s, (s.chip chip).stopped = true → Idles (.linkHeartbeat chip) s) ∧
  (∀ chip s, (s.chip chip).stopped = false → ∃ t : State, exec (.linkHeartbeat chip) s = .next t ∧ t.mem = s.mem ∧ t.cx = s.cx ∧
    (t.chip chip).beaten = s.time ∧
    ∀ f ∈ s.feds, (∃ x ∈ s.teams, x.chip = chip ∧ x.fed = f.id ∧ x.live = true) → ∀ n ∈ treeNeighbours f chip,
      ∀ p, routePort s chip n = some p → ∃ g ∈ (t.chip chip).gw, g.pkt.dest = n ∧ g.pkt.vc = 3 ∧ g.pkt.load = .beat ∧ g.port = p) ∧
  (∀ chip lost s, (∀ f ∈ s.feds, sharesFed chip lost f = false) →
    let u := s.modChip chip fun c => { c with told := c.told.filter fun x => x != lost }
    Gives (.chipLost chip lost) s u ∧ Gives (.lossReportReceive chip lost) s u) ∧
  (∀ chip lost s, (∃ f ∈ s.feds, sharesFed chip lost f = true) →
    (∃ t : State, exec (.lossReportReceive chip lost) s = .next t ∧ (t.chip chip).lostLast = lost ∧ (t.chip chip).col.event = true ∧
      t.feds = s.feds.map fun f => if sharesFed chip lost f = true then { f with lost := f.lost ++ [(chip, lost)], gone := f.gone ++ [(chip, lost)] } else f) ∧
    ∃ t : State, exec (.chipLost chip lost) s = .next t ∧ (t.chip chip).lostLast = lost ∧ (t.chip chip).col.event = true ∧
      (t.feds = s.feds.map fun f => if sharesFed chip lost f = true then { f with lost := f.lost ++ [(chip, lost)], gone := f.gone ++ [(chip, lost)] } else f) ∧
      ∀ f ∈ s.feds, sharesFed chip lost f = true → ∀ n ∈ fedChips f, n ≠ chip → n ≠ lost → ∀ p, routePort (recordLoss s chip lost) chip n = some p →
        ∃ g ∈ (t.chip chip).gw, g.pkt.dest = n ∧ g.pkt.vc = 3 ∧ g.pkt.load = .loss lost ∧ g.port = p) ∧
  (∀ chip (p : BitVec 4) s, Gives (.portstClear chip p) s (setPort s chip p { portOf s chip p with replay := 0, retrain := 0 }))

/-- A request of the host to a function is heard: the package has not stopped and the function's stream is not insecure (R424, R429). -/
def Sys2Proof.Machine.Hears (s : State) (chip : ChipNo) (fn : Fn) : Prop := (s.chip chip).stopped = false ∧ cutOff s chip fn = false

/-- A configuration write to a function arrives: the package has power and the function's stream is not insecure (R429, R445). -/
def Sys2Proof.Machine.Lit (s : State) (chip : ChipNo) (fn : Fn) : Prop := (s.chip chip).dark = false ∧ cutOff s chip fn = false

/-- A write of PTROOT of a locked or running interface breaks it; of a partition with a team it is refused; else the
root takes its bits. A package that has stopped takes no request but configuration writes, one without power not those
either, and nothing is taken on a stream that is insecure. FEATACC takes its value while no partition is enabled and
no unknown feature is asked for, and else REJ is set; PARTEN takes its value when nothing locked changes. LOCK, START,
STOP and a function-level reset move an interface exactly from the states R433 gives, and a request that does not is
answered with an error; a scrub leaves it unlocked with every buffer of its partition zero. NumVFs makes and removes
interfaces; a one written to FEATST's REJ clears it; the severity bit takes no write; a collier command without a
meaning is answered with status 1, and one to a virtual function with an error. The register window reads FEATST,
PARTEN or a virtual function's bit of it, and zero where nothing is assigned. A key is kept for its stream; a switch
makes a stream with a key secure; an integrity failure makes it insecure and breaks its interface; without IDE each
request is answered with an error. The configuration write of FEATST is the model's reading of
notes/assumptions/82.md, NumVFs above 8 and removed functions that of notes/assumptions/84.md, PARTEN in the frozen
set that of notes/assumptions/61.md, the reach of a scrub that of notes/assumptions/87.md, and the switch to an absent
key its choice of notes/assumptions/139.md. (spec/27_reliability_host.md section Features, spec/27_reliability_host.md
section TDISP, spec/27_reliability_host.md section IDE, spec/27_reliability_host.md section The port,
spec/20_translation.md section Changing a translation) -/
def Obligations.HostInterfaces : Prop :=
  (∀ chip (p : BitVec 3) v s,
    (frozenSet s chip p.toNat = true → Gives (.ptrootWrite chip p v) s (enterError s chip p.toNat)) ∧
    (frozenSet s chip p.toNat = false → partHeld s chip p.toNat = true →
      exec (.ptrootWrite chip p v) s = .next { s with note := .trapped (Trap.of Code.illop) }) ∧
    (frozenSet s chip p.toNat = false → partHeld s chip p.toNat = false →
      Gives (.ptrootWrite chip p v) s (s.modChip chip fun c => c.setReg (0x210 + p.toNat) (v &&& 0x000FFFFFFFFFE000)))) ∧
  (∀ s chip i, i < 8 → (ifaceOf (enterError s chip i) chip i).state = 3 ∧ (ifaceOf (enterError s chip i) chip i).halting = false) ∧
  (∀ chip s, ¬ Hears s chip .pf → (∀ v, Idles (.feataccWrite chip v) s) ∧ ∀ v, Idles (.partenWrite chip v) s) ∧
  (∀ chip (i : BitVec 3) s, (¬ Hears s chip (.vf i) → Idles (.functionLevelReset chip i) s) ∧
    (¬ Hears s chip (.vf i) ∨ fnExists s chip (.vf i) = false →
      Idles (.lockInterfaceRequest chip i) s ∧ Idles (.startInterfaceRequest chip i) s ∧ Idles (.stopInterfaceRequest chip i) s)) ∧
  (∀ chip st s, (¬ Hears s chip (streamFn st) ∨ fnExists s chip (streamFn st) = false → ∀ k r, Idles (.ideKmRequest chip st k r) s) ∧
    ((s.chip chip).stopped = true → Idles (.ideIntegrityFail chip st) s)) ∧
  (∀ chip (v : BitVec 128) s, Hears s chip .pf → ∃ t : State, exec (.feataccWrite chip v) s = .next t ∧ t.mem = s.mem ∧ t.teams = s.teams ∧
    ((v >>> 7 = 0 ∧ (s.chip chip).host.parten = 0) → (t.chip chip).host = { (s.chip chip).host with featacc := v }) ∧
    (¬ (v >>> 7 = 0 ∧ (s.chip chip).host.parten = 0) → (t.chip chip).host = { (s.chip chip).host with rej := true })) ∧
  (∀ chip (v : BitVec 8) s, Hears s chip .pf → ∃ t : State, exec (.partenWrite chip v) s = .next t ∧
    (v ≠ 0 → feature s chip 0 = false → (t.chip chip).host = { (s.chip chip).host with rej := true }) ∧
    (v = 0 ∨ feature s chip 0 = true → (∀ i < 8, v.getLsbD i ≠ (s.chip chip).host.parten.getLsbD i → frozenSet s chip i = false) →
      (t.chip chip).host.parten = v)) ∧
  (∀ chip (i : BitVec 3) s, Hears s chip (.vf i) → fnExists s chip (.vf i) = true → let f := ifaceOf s chip i.toNat
    let may := feature s chip 6 = true ∧ f.state = 0 ∧ f.scrubbing = false ∧ partHeld s chip i.toNat = false
    (¬ may → Gives (.lockInterfaceRequest chip i) s (reply s chip (.vf i) .tdisp true)) ∧
    (may → ∃ t : State, exec (.lockInterfaceRequest chip i) s = .next t ∧ t.mem = s.mem ∧
      ifaceOf t chip i.toNat = { f with state := 1, frozen := frozenWords s chip i.toNat } ∧
      (t.chip chip).host.replies = { fn := .vf i, object := .tdisp, error := false } :: (s.chip chip).host.replies)) ∧
  (∀ chip (i : BitVec 3) s, Hears s chip (.vf i) → fnExists s chip (.vf i) = true → let f := ifaceOf s chip i.toNat
    let may := feature s chip 6 = true ∧ f.state = 1 ∧ f.scrubbing = false
    (¬ may → Gives (.startInterfaceRequest chip i) s (reply s chip (.vf i) .tdisp true)) ∧
    (may → ∃ t : State, exec (.startInterfaceRequest chip i) s = .next t ∧ t.mem = s.mem ∧ ifaceOf t chip i.toNat = { f with state := 2 } ∧
      (t.chip chip).host.replies = { fn := .vf i, object := .tdisp, error := false } :: (s.chip chip).host.replies)) ∧
  (∀ chip (i : BitVec 3) s, Hears s chip (.vf i) → Gives (.functionLevelReset chip i) s (beginScrub s chip i.toNat) ∧
    (fnExists s chip (.vf i) = true → Gives (.stopInterfaceRequest chip i) s
      (if feature s chip 6 = true then reply (beginScrub s chip i.toNat) chip (.vf i) .tdisp false else reply s chip (.vf i) .tdisp true))) ∧
  (∀ (s : State) chip i, i < 8 → let f := ifaceOf s chip i
    (f.state = 4 → beginScrub s chip i = s) ∧
    (f.state ≠ 4 → ifaceOf (beginScrub s chip i) chip i = { f with scrubbing := true } ∧ (beginScrub s chip i).mem = s.mem)) ∧
  (∀ chip (i : BitVec 3) s, (ifaceOf s chip i.toNat).scrubbing = false → Idles (.scrubDone chip i) s) ∧
  (∀ chip (i : BitVec 3) s, (ifaceOf s chip i.toNat).scrubbing = true → ∃ t : State, exec (.scrubDone chip i) s = .next t ∧ t.cx = s.cx ∧
    ifaceOf t chip i.toNat = { ifaceOf s chip i.toNat with state := 0, frozen := [], scrubbing := false } ∧
    ∀ e ∈ partCores chip i.toNat, ∀ k, bufKey e 0 0 ≤ k → k < bufKey e 8 0 → t.mem.get k = 0) ∧
  (∀ chip w s, (s.chip chip).dark = true ∨ cutOff s chip (cfgFn w) = true → Idles (.configurationWrite chip w) s) ∧
  (∀ chip (n : BitVec 4) s, (8 < n.toNat → Idles (.configurationWrite chip (.numVfs n)) s) ∧
    (n.toNat ≤ 8 → Lit s chip .pf →
      ∃ t : State, exec (.configurationWrite chip (.numVfs n)) s = .next t ∧ t.mem = s.mem ∧ (t.chip chip).host.numVfs = n.toNat ∧
      ∀ i < 8, ifaceOf t chip i = if n.toNat ≤ i then Iface.reset
        else if (ifaceOf s chip i).state = 4 then { Iface.reset with state := 0 } else ifaceOf s chip i)) ∧
  (∀ chip (i : BitVec 3) v s, let f := ifaceOf s chip i.toNat
    (f.state = 4 → Idles (.configurationWrite chip (.vfBar i v)) s ∧ Idles (.configurationWrite chip (.vfMsix i v)) s ∧
      Idles (.configurationWrite chip (.vfIde i v)) s) ∧
    (f.state = 1 ∨ f.state = 2 → Lit s chip (.vf i) → Gives (.configurationWrite chip (.vfBar i v)) s (enterError s chip i.toNat) ∧
      Gives (.configurationWrite chip (.vfMsix i v)) s (enterError s chip i.toNat) ∧ Gives (.configurationWrite chip (.vfIde i v)) s (enterError s chip i.toNat)) ∧
    (f.state = 0 ∨ f.state = 3 → Lit s chip (.vf i) →
      Gives (.configurationWrite chip (.vfBar i v)) s (modIface s chip i.toNat fun f => { f with bar := v }) ∧
      Gives (.configurationWrite chip (.vfMsix i v)) s (modIface s chip i.toNat fun f => { f with msix := v }) ∧
      Gives (.configurationWrite chip (.vfIde i v)) s (modIface s chip i.toNat fun f => { f with ideCfg := v }))) ∧
  (∀ chip (v : Word) s, ((s.chip chip).stopped = true → Idles (.configurationWrite chip (.featst v)) s) ∧
    ((s.chip chip).stopped = false → Lit s chip .pf → ∃ t : State, exec (.configurationWrite chip (.featst v)) s = .next t ∧ t.mem = s.mem ∧ t.cx = s.cx ∧
      (t.chip chip).host = { (s.chip chip).host with rej := (s.chip chip).host.rej && !v.getLsbD 0 })) ∧
  (∀ chip fn v s, Idles (.configurationWrite chip (.severity fn v)) s) ∧
  (∀ chip (n : BitVec 8) s, (1 ≤ n.toNat ∧ n.toNat ≤ 7 → Idles (.configurationWrite chip (.otherCommand n)) s) ∧
    (¬ (1 ≤ n.toNat ∧ n.toNat ≤ 7) → Lit s chip .pf → (s.chip chip).stopped = false → Gives (.configurationWrite chip (.otherCommand n)) s
      (s.modChip chip fun c => { c with col := { c.col with event := true, doe := [1] :: c.col.doe } }))) ∧
  (∀ chip (i : BitVec 3) s, Lit s chip (.vf i) → (s.chip chip).stopped = false → fnExists s chip (.vf i) = true →
    Gives (.configurationWrite chip (.vfCollier i)) s (reply s chip (.vf i) .collier true)) ∧
  (∀ (s : State) chip fn off, let h := (s.chip chip).host
    windowWord s chip fn 0x20 = 2 * h.done.toNat + h.rej.toNat ∧ windowWord s chip .pf 0x30 = h.parten.toNat ∧
    (∀ i : BitVec 3, windowWord s chip (.vf i) 0x30 = if h.parten.getLsbD i.toNat = true then 2 ^ i.toNat else 0) ∧
    (off ∉ [0x00, 0x08, 0x10, 0x18, 0x20, 0x30, 0x200, 0x208] → windowWord s chip fn off = 0)) ∧
  (∀ chip st k1 s, Hears s chip (streamFn st) → fnExists s chip (streamFn st) = true →
    let x := ideOf s chip st
    let held := if k1 = true then x.key1 else x.key0
    (feature s chip 5 = false → ∀ r, Gives (.ideKmRequest chip st k1 r) s (reply s chip (streamFn st) .ideKm true)) ∧
    (feature s chip 5 = true →
      (∀ key, ∃ t : State, exec (.ideKmRequest chip st k1 (.program key)) s = .next t ∧ t.mem = s.mem ∧
        ((ideOf t chip st).key0, (ideOf t chip st).key1) = if k1 = true then (x.key0, some key) else (some key, x.key1)) ∧
      (held = none → Gives (.ideKmRequest chip st k1 .switch) s (reply s chip (streamFn st) .ideKm true)) ∧
      (held ≠ none → ∃ t : State, exec (.ideKmRequest chip st k1 .switch) s = .next t ∧ t.mem = s.mem ∧
        (ideOf t chip st).active = k1 ∧ (ideOf t chip st).secure = true ∧ (ideOf t chip st).insecure = false ∧
        (t.chip chip).host.replies = { fn := streamFn st, object := .ideKm, error := false } :: (s.chip chip).host.replies))) ∧
  (∀ chip st s, (ideOf s chip st).secure = false → Idles (.ideIntegrityFail chip st) s) ∧
  (∀ chip st s, (s.chip chip).stopped = false → (ideOf s chip st).secure = true →
    ∃ t : State, exec (.ideIntegrityFail chip st) s = .next t ∧ (ideOf t chip st).secure = false ∧ (ideOf t chip st).insecure = true ∧
      ∀ i : BitVec 3, st = .sel (.vf i) → frozenSet s chip i.toNat = true → (ifaceOf t chip i.toNat).state = 3)

/-- A request to a function's DOE: without the function, at a stopped package or on an insecure stream, nothing; else the connection becomes what
`f` answers (R437). -/
def Sys2Proof.Machine.Talks (i : Instr) (chip : ChipNo) (fn : Fn) (f : State → Spdm → State × Spdm) : Prop :=
  ∀ s, (fnExists s chip fn = false ∨ (s.chip chip).stopped = true ∨ cutOff s chip fn = true → Idles i s) ∧
    (fnExists s chip fn = true → Hears s chip fn →
      exec i s = .next (putSpdm (f s (spdmOf s chip fn)).1 chip (f s (spdmOf s chip fn)).2).done)

/-- A request that cannot be served: an error response of a code, and nothing else changes. -/
def Sys2Proof.Machine.Refuses (x y : Spdm) (code : Byte) : Prop := y = { x with out := [0x13, 0x7F, code, 0] :: x.out }

/-- A request before its phase is refused as unexpected. Version, capabilities and algorithms go in order, and only
the one suite is agreed to. Digests, certificates, challenges, measurements and a key exchange are answered after
that; a challenge and a signed measurement end with two signatures over one hash of everything said so far. A session
handshake ends with a right HMAC only; heartbeat, key update and end are answered inside a session alone. A stopped
package answers nothing, by the model's reading of notes/assumptions/86.md, and nothing on an insecure stream is
answered. The message codes are the model's choice of notes/assumptions/62.md. (spec/27_reliability_host.md section
Attestation and signatures) -/
def Obligations.AttestationSessions : Prop :=
  (∀ chip fn, Talks (.getVersion chip fn) chip fn fun s x => (s, spdmGetVersion x)) ∧
  (∀ chip fn r, Talks (.getCapabilities chip fn r) chip fn fun s x => (s, spdmGetCapabilities x r)) ∧
  (∀ chip fn b r, Talks (.negotiateAlgorithms chip fn b r) chip fn fun s x => (s, spdmNegotiate x b r)) ∧
  (∀ chip fn, Talks (.getDigests chip fn) chip fn fun s x => (s, spdmGetDigests x)) ∧
  (∀ chip fn sl off len, Talks (.getCertificate chip fn sl off len) chip fn fun s x => (s, spdmGetCertificate x sl off len)) ∧
  (∀ chip fn sl n, Talks (.challenge chip fn sl n) chip fn fun s x => spdmChallenge s chip fn x sl n) ∧
  (∀ chip fn sg ix n, Talks (.getMeasurements chip fn sg ix n) chip fn fun s x => spdmMeasure s chip fn x sg ix n) ∧
  (∀ chip fn r, Talks (.keyExchange chip fn r) chip fn fun s x => spdmKeyExchange s x r) ∧
  (∀ chip fn ok, Talks (.finish chip fn ok) chip fn fun s x => (s, spdmFinish x ok)) ∧
  (∀ chip fn, Talks (.heartbeat chip fn) chip fn fun s x => (s, x.inSession { x with out := [0x13, 0x68, 0, 0] :: x.out })) ∧
  (∀ chip fn, Talks (.keyUpdate chip fn) chip fn fun s x => ({ s with freeIx := s.freeIx + 1 },
    x.inSession { x with key := Config.sessionKey s.freeIx, out := [0x13, 0x69, 0, 0] :: x.out })) ∧
  (∀ chip fn, Talks (.endSession chip fn) chip fn fun s x => (s, x.inSession { x with session := 0, key := 0, out := [0x13, 0x6C, 0, 0] :: x.out })) ∧
  (∀ (x y : Spdm), (x.session = 2 → x.inSession y = y) ∧ (x.session ≠ 2 → Refuses x (x.inSession y) 4)) ∧
  (∀ x : Spdm, (spdmGetVersion x).phase = 1 ∧ (spdmGetVersion x).session = 0 ∧ (spdmGetVersion x).transcript = [0x10, 0x84, 0, 0, 0x10, 4, 0, 0, 0, 1, 0, 0x13]) ∧
  (∀ (x : Spdm) r, (x.phase = 0 → Refuses x (spdmGetCapabilities x r) 4) ∧ (x.phase ≠ 0 → (spdmGetCapabilities x r).phase = 2)) ∧
  (∀ (x : Spdm) b r, (x.phase < 2 → Refuses x (spdmNegotiate x b r) 4) ∧ (2 ≤ x.phase → b = false → Refuses x (spdmNegotiate x b r) 1) ∧
    (2 ≤ x.phase → b = true → (spdmNegotiate x b r).phase = 3)) ∧
  (∀ s chip fn (x : Spdm) (sl : BitVec 4) n off len r sg ix, x.phase < 3 → Refuses x (spdmGetDigests x) 4 ∧ Refuses x (spdmGetCertificate x sl off len) 4 ∧
    Refuses x (spdmChallenge s chip fn x sl n).2 4 ∧ Refuses x (spdmMeasure s chip fn x sg ix n).2 4 ∧ Refuses x (spdmKeyExchange s x r).2 4) ∧
  (∀ (x : Spdm) (sl : BitVec 4) (off len : BitVec 16), 3 ≤ x.phase → sl.toNat < 2 →
    (off.toNat < (Config.certChain sl.toNat).length →
      ∃ h, (spdmGetCertificate x sl off len).out = (h ++ ((Config.certChain sl.toNat).drop off.toNat).take len.toNat) :: x.out ∧ h.length = 8) ∧
    ((Config.certChain sl.toNat).length ≤ off.toNat → Refuses x (spdmGetCertificate x sl off len) 1)) ∧
  (∀ s chip fn (x : Spdm) (sl : BitVec 4) (n : BitVec 256), 3 ≤ x.phase → sl.toNat < 2 →
    ∃ req body ix, let resp := body ++ signedTail ix (Config.sha384 (x.transcript ++ req ++ body))
      (spdmChallenge s chip fn x sl n).2.out = resp :: x.out ∧ (spdmChallenge s chip fn x sl n).2.transcript = x.transcript ++ req ++ resp ∧
      req = [0x13, 0x83, sl.setWidth 8, 0xFF] ++ bytesOf n.toNat 32 ∧ body.take 4 = [0x13, 3, sl.setWidth 8, 3] ∧
      s.freeIx < (spdmChallenge s chip fn x sl n).1.freeIx) ∧
  (∀ s chip fn (x : Spdm) (ix : BitVec 8) (n : BitVec 256), 3 ≤ x.phase → (1 ≤ ix.toNat ∧ ix.toNat ≤ 5) →
    ∃ body k tail, (spdmMeasure s chip fn x true ix n).2.out = (body ++ signedTail k (Config.sha384 (x.transcript ++
        ([0x13, 0xE0, 1, ix] ++ bytesOf n.toNat 32) ++ body))) :: x.out ∧
      body = [0x13, 0x60, 1, 0] ++ measurement s chip fn ix.toNat ++ tail) ∧
  (∀ s (x : Spdm) r, 3 ≤ x.phase → x.session = 0 → (spdmKeyExchange s x r).2.session = 1) ∧
  (∀ (x : Spdm), (x.session ≠ 1 → ∀ b, Refuses x (spdmFinish x b) 4) ∧ (x.session = 1 → (spdmFinish x false).session = 0 ∧ (spdmFinish x true).session = 2))

/-- A command of the collier's mailbox (R441): a stopped package serves none, and none on an insecure stream is served; else it raises a collier event, takes its effect
and answers `ws`. -/
def Sys2Proof.Machine.Answers (i : Instr) (s : State) (chip : ChipNo) (u : State) (ws : List Word) : Prop :=
  (¬ Hears s chip .pf → Idles i s) ∧
  (Hears s chip .pf → exec i s = .next (modCol u chip fun c => { c with doe := ws :: c.doe }).done)

/-- A command to a stopped package, or on an insecure stream, has no effect; else it raises a collier event and
answers. Read-event gives the entry, or zeros beyond those held; SVCBOOT starts a service program; write-bank writes
the inactive bank within its 8 MiB and refuses any other; activate marks a verified image pending and refuses another
with status 2; read-sensor gives the last sample; replan adds one to the plan, and keeps the clusters whose monitors
fail in it, which a free value names (notes/assumptions/63.md); retrain makes the port train. A sample above 115
degrees stops the package, above 105 throttles its cluster, and below 100 frees it. A soft repair quiesces its channel
unless one of its stack is quiesced, and the end of its time frees the channel. The status of a sensor above 159, of a
write to the active bank or of more than 4,096 bytes and of a port above 11, and the 0 of a sensor never sampled, are
the model's readings of notes/assumptions/94.md. (spec/28_management.md section Running the collier,
spec/28_management.md section Event log, spec/28_management.md section Firmware banks, spec/28_management.md section
Sensors and ageing, spec/28_management.md section Repair and degraded operation) -/
def Obligations.CollierCommands : Prop :=
  (∀ chip (i : Word32) s, Answers (.collierReadEvent chip i) s chip (colEvent s chip) (0 :: match (s.chip chip).col.log[i.toNat]? with
    | some e => [BitVec.ofNat 64 e.time, BitVec.ofNat 64 (e.src.toNat + e.code * 2 ^ 32), BitVec.ofNat 64 (e.data % 2 ^ 64), BitVec.ofNat 64 (e.data / 2 ^ 64)]
    | none => [0, 0, 0, 0])) ∧
  (∀ chip (a : Word) s u, bootService (colEvent s chip) chip a = .ok u → Answers (.collierSvcboot chip a) s chip u [0, (u.chip chip).svc.setWidth 64]) ∧
  (∀ chip (a : Word) s, ¬ Hears s chip .pf → Idles (.collierSvcboot chip a) s) ∧
  (∀ chip b (off : BitVec 23) bytes s, let bad := b = (s.chip chip).col.activeB ∨ 4096 < bytes.length ∨ 0x800000 < off.toNat + bytes.length
    (bad → Answers (.collierWriteBank chip b off bytes) s chip (colEvent s chip) [1]) ∧
    (¬ bad → let put (l : List (Nat × Byte)) : List (Nat × Byte) := (bytes.zipIdx).foldl (fun l q => Memory.set l (off.toNat + q.2) q.1) l
      Answers (.collierWriteBank chip b off bytes) s chip
        (modCol (colEvent s chip) chip fun c => if b = true then { c with bankB := put c.bankB } else { c with bankA := put c.bankA }) [0])) ∧
  (∀ chip s, Answers (.collierActivateBank chip true) s chip (modCol (colEvent s chip) chip fun c => { c with pending := true }) [0] ∧
    Answers (.collierActivateBank chip false) s chip (logEvent (colEvent s chip) chip (collierEp chip) 4 0) [2]) ∧
  (∀ chip (n : BitVec 8) s, Answers (.collierReadSensor chip n) s chip (colEvent s chip)
    (if 160 ≤ n.toNat then [1] else [0, BitVec.ofInt 64 (alGet (s.chip chip).col.samples n.toNat 0)])) ∧
  (∀ chip s, Answers (.collierReplan chip) s chip
    (runPlan { colEvent s chip with freeIx := s.freeIx + 1 } chip ((Config.failingMonitors s.freeIx).map fun i => i.toNat)) [0]) ∧
  (∀ (s : State) chip l, ((runPlan s chip l).chip chip).col.plan = (s.chip chip).col.plan + 1 ∧ (runPlan s chip l).mem = s.mem ∧
    (∀ i, i ∈ ((runPlan s chip l).chip chip).col.failing ↔ i ∈ (s.chip chip).col.failing ∨ i ∈ l) ∧
    ((runPlan s chip l).chip chip).col.total = min ((s.chip chip).col.total + 1) (2 ^ 32 - 1) ∧
    ∃ e, e.code = 8 ∧ ((runPlan s chip l).chip chip).col.log = (e :: (s.chip chip).col.log).take 4096) ∧
  (∀ chip (p : BitVec 4) s, 12 ≤ p.toNat → Answers (.collierRetrainPort chip p) s chip (colEvent s chip) [1]) ∧
  (∀ chip (p : BitVec 4) s, p.toNat < 12 → ∃ u : State, Answers (.collierRetrainPort chip p) s chip u [0] ∧ (portOf u chip p).state = 1 ∧
    (portOf u chip p).stopped = true ∧ u.mem = s.mem) ∧
  (∀ chip (n : BitVec 8) v s, 160 ≤ n.toNat ∨ (s.chip chip).stopped = true → Idles (.sensorSample chip n v) s) ∧
  (∀ chip (n : BitVec 8) v s, n.toNat < 160 → (s.chip chip).stopped = false → ∃ t : State, exec (.sensorSample chip n v) s = .next t ∧ t.mem = s.mem ∧
    alGet (t.chip chip).col.samples n.toNat 0 = v ∧ (t.chip chip).stopped = (decide (n.toNat < 136) && decide (115 < v)) ∧ (t.chip chip).col.event = true ∧
    (n.toNat < 128 → 105 < v → n.toNat ∈ (t.chip chip).col.throttled) ∧ (v < 100 → n.toNat ∉ (t.chip chip).col.throttled)) ∧
  (∀ chip l s, ((s.chip chip).stopped = true → Idles (.ageingPlan chip l) s) ∧
    ((s.chip chip).stopped = false → Gives (.ageingPlan chip l) s (runPlan s chip (l.map fun i => i.toNat)))) ∧
  (∀ chip (k : BitVec 3) (c : BitVec 5) r s, (s.chip chip).stopped = true ∨ (∃ q ∈ (s.chip chip).col.quiesced, q.1 = k.toNat) → Idles (.softRepair chip k c r) s) ∧
  (∀ chip (k : BitVec 3) (c : BitVec 5) r s, (s.chip chip).stopped = false → (∀ q ∈ (s.chip chip).col.quiesced, q.1 ≠ k.toNat) →
    ∃ t : State, exec (.softRepair chip k c r) s = .next t ∧ t.mem = s.mem ∧ (t.chip chip).col.soft = min ((s.chip chip).col.soft + 1) (2 ^ 16 - 1) ∧
      (t.chip chip).col.quiesced = (s.chip chip).col.quiesced ++ [(k.toNat, c.toNat, s.time + Config.repairPeriod)]) ∧
  (∀ chip (k : BitVec 3) (c : BitVec 5) s, ∃ t : State, exec (.repairQuiesceEnd chip k c) s = .next t ∧ t.mem = s.mem ∧
    ∀ q, q ∈ (t.chip chip).col.quiesced ↔ q ∈ (s.chip chip).col.quiesced ∧ ¬ (q.1 = k.toNat ∧ q.2.1 = c.toNat))

/-- Nothing is on a link on its way, and no cord of another package goes to this one: what a reset of the package has to lose
(R396, R398; notes/assumptions/118.md). -/
def Sys2Proof.Machine.State.QuietLink (s : State) (chip : ChipNo) : Prop :=
  s.transit = [] ∧ ∀ c ∈ s.cords, c.chip ≠ chip → epChip c.dest ≠ chip

/-- A fatal event stops the package, records its cause, breaks every existing interface and retires every link key,
and changes no memory; a watchdog that expires is a collier failure. Loss of power stops the package, whose host link
is down from then on, and does nothing else. A reset first clears the package's work, whatever it was: no team,
waiter, packet or bound context of the package is left and its buffers are zero. What a hot reset meets is a free
report (notes/assumptions/63.md). After a hot reset with nothing on a link and no cord of another package toward this
one, the teams of other packages and all other memory are as before, and ERRFAT stands; the package runs, if a bank
verifies, with the route base of its report, and is stopped with no bank verified. After a fundamental reset from such
a state the same holds under its FABID. What a reset does to operations that the package held for others is the
model's reading of notes/assumptions/118.md, what a hot reset keeps that of notes/assumptions/64.md, that the
interfaces break in a fatal event that of notes/assumptions/88.md, that memory survives a reset that of
notes/assumptions/89.md, and a package without a verified bank that of notes/assumptions/92.md.
(spec/27_reliability_host.md section Error classes, spec/28_management.md section Running the collier,
spec/28_management.md section Power) -/
def Obligations.ResetsAndLosses : Prop :=
  (∀ chip s, Gives (.hotReset chip) s (resetHot { s with freeIx := s.freeIx + 1 } chip (Config.bootReport s.freeIx))) ∧
  (∀ chip r s, Gives (.fundamentalReset chip r) s (resetFull s chip r)) ∧
  (∀ (s : State) chip, let u := clearWork s chip
    (∀ x ∈ u.teams, x.chip ≠ chip) ∧ (∀ x ∈ u.waiters, x.chip ≠ chip) ∧ (∀ x ∈ u.packets, x.chip ≠ chip) ∧
    (∀ c ∈ u.contexts, epChip c.ep = chip → c.mode = .idle) ∧
    ∀ k, bufKey (mkEp chip false 0) 0 0 ≤ k → k < bufKey (mkEp chip true 8191) 8 0 → u.mem.get k = 0) ∧
  (∀ chip c s, ∃ t : State, exec (.fatalEvent chip c) s = .next t ∧ t.mem = s.mem ∧ t.teams = s.teams ∧ t.cx = s.cx ∧ (t.chip chip).stopped = true ∧
    (t.chip chip).errs.fatal = (s.chip chip).errs.fatal ||| (match c with | .shadow true => 9 | .shadow false => 1 | .bridge => 2 | .collier => 4) ∧
    (∀ i < 8, (ifaceOf t chip i).state = if (ifaceOf s chip i).state = 4 then 4 else 3) ∧
    (∀ x ∈ (t.chip chip).host.ides, x.key0 = none ∧ x.key1 = none ∧ x.secure = false)) ∧
  (∀ chip s, ((s.chip chip).stopped = true → Idles (.watchdogExpire chip) s) ∧
    ((s.chip chip).stopped = false → exec (.watchdogExpire chip) s = exec (.fatalEvent chip .collier) s)) ∧
  (∀ chip s, Gives (.powerLoss chip) s (s.modChip chip fun c => { c with stopped := true, dark := true })) ∧
  (∀ chip (r : BootReport) s, s.QuietLink chip → let t := resetHot s chip r
    t.teams = s.teams.filter (fun x => x.chip != chip) ∧
    (∀ c ∈ t.contexts, epChip c.ep = chip → c.mode = .idle) ∧
    (s.MemOk → ∀ k, k < bufKey (mkEp chip false 0) 0 0 ∨ bufKey (mkEp chip true 8191) 8 0 ≤ k → t.mem.get k = s.mem.get k) ∧
    let runs := r.activeOk || ((s.chip chip).col.pending && r.pendingOk)
    (t.chip chip).errs.fatal = (s.chip chip).errs.fatal ∧ (t.chip chip).stopped = !runs ∧
    (runs = true → (t.chip chip).reg 0x620 0 = r.rtbase &&& 0x000FFFFFFFF80000) ∧
    (t.chip chip).col.hard = min ((s.chip chip).col.hard + (s.chip chip).col.soft) (2 ^ 16 - 1) ∧ (t.chip chip).col.soft = 0) ∧
  (∀ chip (r : BootReport) s, s.QuietLink chip →
    ∃ t : State, exec (.fundamentalReset chip r) s = .next t ∧ t.teams = s.teams.filter (fun x => x.chip != chip) ∧
    (∀ c ∈ t.contexts, epChip c.ep = chip → c.mode = .idle) ∧
    let runs := r.activeOk || ((s.chip chip).col.pending && r.pendingOk)
    (t.chip r.fabid).no = r.fabid ∧ (t.chip r.fabid).stopped = !runs ∧
    (runs = true → (t.chip r.fabid).reg 0x620 0 = r.rtbase &&& 0x000FFFFFFFF80000) ∧
    (t.chip r.fabid).col.soft = 0 ∧ (t.chip r.fabid).col.epoch = s.time ∧ (t.chip r.fabid).errs.fatal = 0)

/-! ### The whole machine -/

/-- The words of no predicate that hold a 64-bit immediate in their place (R15). -/
def Sys2Proof.Machine.longForm (i : Instr) : Prop := (∃ d x, i = .li d x) ∨ ∃ t, i = .jmp t

/-- The control stream hands the vector instruction `i` to the issue queue, its g operands read now (R75). -/
def Sys2Proof.Machine.handedOff (s : State) (i : Instr) : State :=
  { s.done with cx := { s.cx with vq := s.cx.vq ++ [entryOf s (.legal i)] } }

/-- For every instruction with a word in the control stream: with its predicate off it leaves everything as it was;
with too low a privilege it takes the fault PRIV and with a register beyond the allotment ALLOT, before its predicate
is looked at; while a vector instruction before it has still to write a register that it names it stalls. Every
instruction of the vector stream but REP joins the issue queue while that stream is busy and has room, and stalls
while it is full. (spec/01_instruction_word.md section The instruction word, spec/03_vector_ops.md section The two
streams, spec/21_fabric_system_ops.md section Common rules) -/
def Obligations.IssueChecks : Prop :=
  (∀ i f s, fieldsOf i = some (false, f) → ¬ longForm i → s.canRun i = true → (Ms.ofBits f.ms).on s = false → exec i s = .next s.done) ∧
  (∀ i f s, fieldsOf i = some (false, f) → s.cx.priv.level < i.privNeed → exec i s = raise s.done (Trap.of Code.priv)) ∧
  (∀ i f s, fieldsOf i = some (false, f) → i.privNeed ≤ s.cx.priv.level → allotOk s.cx i.uses = false →
    exec i s = raise s.done (Trap.of Code.allot)) ∧
  (∀ i f s, fieldsOf i = some (false, f) → i.privNeed ≤ s.cx.priv.level → allotOk s.cx i.uses = true → scalarHazard s.cx i.uses = true →
    exec i s = .next { s with note := .stalled }) ∧
  (∀ i f s, fieldsOf i = some (true, f) → (∀ a n wb ws st, i ≠ .rep a n wb ws st) → s.cx.vsrc = .control → s.cx.rep.capturing = false →
    scalarHazard s.cx i.uses.readsOnly = false → vecBusy s.cx = true →
    (s.cx.vq.length < 32 → exec i s = .next (handedOff s i)) ∧
    (32 ≤ s.cx.vq.length → exec i s = .next { s with note := .stalled }))

/-- When the control stream of an unfused context is the one that moves, no error comes about, and the slot at its PC
decodes to i, the step is exec of i at that state, with the slot added to the open signature block, then the PC past
the slot when the instruction is done, and one F-cycle. A pair issues as a pair. A slot of template 00 or 10 with
right parity, in the line that the context stands in, is the slot at its PC. A line not yet entered is read from the
bytes at its address. (spec/01_instruction_word.md section The instruction word, spec/01_instruction_word.md section
The fetch line) -/
def Obligations.StepRunsTheDecodedInstruction : Prop :=
  (∀ s e n i w v, s.upsets = [] → s.sel = some (.control e n) →
    let u := State.switchTo { s with sel := none } e n
    u.cx.gang = none → u.cx.hurt = false → fetchSlot u = .ok (v, .one w i) → v.cx.half = none →
    let b := beginSlot v v.cx.pc none
    let c : Context := { b.cx with sig := match i with | .bsig _ => b.cx.sig | _ => sigAdd b.cx.sig [w] }
    step s = tick (regrant (afterIssue v (isTransfer i) (nextSlot v.cx.pc) (exec i { b with cx := c })))) ∧
  (∀ s e n i j w1 w2 v, s.upsets = [] → s.sel = some (.control e n) →
    let u := State.switchTo { s with sel := none } e n
    u.cx.gang = none → u.cx.hurt = false → fetchSlot u = .ok (v, .pair w1 w2 i j) →
    step s = tick (regrant (issuePair exec v v.cx.pc w1 w2 i j))) ∧
  (∀ (s0 t : State) (tr : Bool) (p : Word), t.note = .done →
    tick (regrant (afterIssue s0 tr p (.next t))) = .next (follow { t with time := t.time + 1, cx := { t.cx with pc := p, entered := false } })) ∧
  (∀ s l i k, s.cx.line = some (pcLine s.cx.pc, l) → pcShape s.cx.pc = true → pcSlot s.cx.pc = k → s.cx.entered = false →
    s.cx.rep.capturing = false → lineTmpl l k = 0 ∨ lineTmpl l k = 2 → sparOk l k = true →
    decode (lineTmpl l k == 2) (lineSlot l k) = .ok i →
    fetchSlot s = .ok ({ s with cx := { s.cx with ipc := s.cx.pc, pairEnd := none, vsrc := .control } }, .one (lineSlot l k) i)) ∧
  (∀ s pls, s.cx.line = none → pcShape s.cx.pc = true →
    globalPlaces s s.cx.chip (ctxWho s false) .fetch false ((pcLine s.cx.pc).extractLsb' 0 57).toNat 64 s.cx.pc false = .ok pls →
    (∀ pl ∈ pls, pl.cls ≠ 3 ∧ pl.key / 64 ∉ s.poison) → (s.core s.cx.ep).icache.lookup (pcLine s.cx.pc) = none →
    let l : Line := BitVec.ofNat 512 (leNat (readPlaces s (ctxWho s false) pls))
    lparOk l = true → lineOk l = true →
    ∃ t : State, enterLine s s.cx.pc = .ok (t, l) ∧ t.mem = s.mem ∧ t.cx = { s.cx with line := some (pcLine s.cx.pc, l) })

/-- Right after reset MXSLOT reads ANY in every slot, RKAGE 200H, OVFCFG 200H, HBMCAP 800000H, MXSCHED its
exclusive-or schedule, PRSTAT and FEATACC 0 and every interface 4 (no virtual function); no context is bound, no team
exists, and both invariants hold. HBMCAP's value, which the spec leaves to the collier, is the model's choice of
notes/assumptions/3.md; FEATACC 0 and the absence of virtual functions that of notes/assumptions/4.md; and that a byte
of memory that nothing has written reads 0 that of notes/assumptions/2.md. (spec/21_fabric_system_ops.md section
System register index, spec/05_execution_model.md section Binding and suspension, spec/27_reliability_host.md section
TDISP, spec/27_reliability_host.md section Features) -/
def Obligations.ResetState : Prop :=
  readReg State.reset 0x300 = 0x4444444444444444 ∧ readReg State.reset 0x500 = 0x200 ∧ readReg State.reset 0x128 = 0x200 ∧
  readReg State.reset 0x230 = 0x800000 ∧ readReg State.reset 0x311 = 0xEFCDAB8967452301 ∧ readReg State.reset 0x138 = 0 ∧
  readReg State.reset 0x832 = 0 ∧ readReg State.reset 0x848 = 4 ∧ readReg State.reset 0x010 = 0 ∧
  (∀ c ∈ State.reset.contexts, c.mode = .idle) ∧ State.reset.teams = [] ∧ State.reset.MemOk ∧ State.reset.HaltOk ∧
  (∀ k, State.reset.mem.get k = 0)

/-- The slots that the spec writes out byte by byte decode, in their stream, to the instruction of their text.
(spec/01_instruction_word.md section The instruction word, spec/02_scalar_ops.md section Basic memory instructions,
spec/03_vector_ops.md section Lanes, elements and the mask, spec/07_task_ops.md section Dependence counters,
spec/11_memory_matrix_ops.md section Atomics, spec/15_stats_remote_ops.md section Quantising and dequantising,
spec/21_fabric_system_ops.md section Forms) -/
def Obligations.WorkedEncodings : Prop :=
  let no : Ms := { inv := false, idx := 0 }
  decode false 0x01000A180104000000000000#96 = .ok (.add .i64 5 6 (.cw 0x20) no) ∧
  decode false 0x60000E200000040000000040#96 = .ok (.ld .w .lin 7 8 (.reg 0) 0x40 no) ∧
  decode true 0x800006041000A40000000000#96 = .ok (.vadd (.flt .f32) 3 1 (.v 2) .rne { inv := false, idx := 2 }) ∧
  decode false 0x610002080000000000000000#96 = .ok (.st .d .lin 1 2 (.reg 0) 0 no) ∧
  decode false 0xC10000500000000100000001#96 = .ok (.dec 0 20 (.imm 1) no) ∧
  decode true 0x9B00020818002C0000000000#96 = .ok (.vdot2 (.flt .bf16) 1 2 (.v 3) .rne no) ∧
  decode false 0xD30012503000001600000000#96 = .ok (.aadd .d .lin { acq := false, rel := true, scope := .team } 9 20 (.reg 6) no) ∧
  decode false 0xE30012400084240000000026#96 = .ok (.qnt .f32 9 16 (.cw 0x10) .rne 6 true 0 no) ∧
  decode false 0xD700003CA800010000000000#96 = .ok (.rred .add true .ilv8 15 (.reg 21) no) ∧
  decode false 0xE80000403000000000000000#96 = .ok (.kput 16 (.reg 6) no) ∧
  decode false 0x1D001E340000000000000020#96 = .ok (.zext 15 13 32 no) ∧
  decode false 0xF20020000000000000000000#96 = .ok (.fmsg false 16 no) ∧
  decode false 0xF30000402800000000000000#96 = .ok (.freply 16 (.reg 5) no)

/-- For every well-formed instruction of either stream, whatever its operands, its encoded slot decodes in its stream
to the same instruction. (spec/01_instruction_word.md section The instruction word, spec/01_instruction_word.md
section The major opcode map) -/
def Obligations.DecodeOfEncode : Prop :=
  ∀ i vec w, i.WellFormed → encode i = some (vec, w) → decode vec w = .ok i

/-- From every state, whatever agent moves and whatever input arrives, the state after a step has no halted context
whose package has a collier event pending: the event that comes ends HALT in the step that brings it. The time has
moved on by one F-cycle from what the move left. (spec/21_fabric_system_ops.md section System registers, translation,
identity and halt, spec/28_management.md section Running the collier) -/
def Obligations.StepKeepsHalts : Prop :=
  ∀ s t, s.HaltOk → step s = .next t → t.HaltOk ∧ ∃ u, move exec s = .next u ∧ t.time = u.time + 1

/-- From every state whose memory is canonical, whatever agent moves and whatever input arrives, the memory after a
step is canonical: its addresses rise strictly and no entry holds the byte that an unlisted address reads as. Equal
memories are then equal data after any run. (spec/10_memory_model.md section The typed buffers and who may reach them,
spec/10_memory_model.md section Classes) -/
def Obligations.StepKeepsMemory : Prop :=
  ∀ s t, s.MemOk → step s = .next t → t.MemOk
end

