-- ==== Sys2Proof/Laws/Memory.lean ====
section
/-! SUPPORT. The laws of memory: a read after a write, and that every memory operation keeps the canonical form. -/
namespace Sys2Proof.Machine

theorem Memory.get_nil (a : Nat) : Memory.get [] a = Memory.default := rfl

theorem Memory.get_cons (k : Nat) (v : Byte) (m : Memory) (a : Nat) :
    Memory.get ((k, v) :: m) a = if a = k then v else if a < k then Memory.default else Memory.get m a := rfl

/-- A canonical list that starts above a key lists nothing at it. -/
theorem Memory.get_below (m : Memory) (lo a : Nat) (h : Memory.wfFrom (some lo) m = true) (ha : a ≤ lo) :
    Memory.get m a = Memory.default := by
  cases m with
  | nil => rfl
  | cons c m =>
    obtain ⟨k, v⟩ := c
    simp only [Memory.wfFrom, Bool.and_eq_true, decide_eq_true_eq] at h
    have hk : a < k := by omega
    rw [Memory.get_cons, if_neg (by omega), if_pos hk]

/-- A lower bound may be lowered. -/
theorem Memory.wfFrom_weaken (m : Memory) (lo lo' : Nat) (h : Memory.wfFrom (some lo) m = true) (hl : lo' ≤ lo) :
    Memory.wfFrom (some lo') m = true := by
  cases m with
  | nil => rfl
  | cons c m =>
    obtain ⟨k, v⟩ := c
    simp only [Memory.wfFrom, Bool.and_eq_true, decide_eq_true_eq] at h ⊢
    exact ⟨⟨by omega, h.1.2⟩, h.2⟩

theorem Memory.wf_of_wfFrom (m : Memory) (lo : Option Nat) (h : Memory.wfFrom lo m = true) : Memory.wf m = true := by
  cases lo with
  | none => exact h
  | some l =>
    cases m with
    | nil => rfl
    | cons c m =>
      obtain ⟨k, v⟩ := c
      simp only [Memory.wf, Memory.wfFrom, Bool.and_eq_true, decide_eq_true_eq] at h ⊢
      exact ⟨⟨trivial, h.1.2⟩, h.2⟩

/-- Writing keeps the canonical form above a bound below the key. -/
theorem Memory.wfFrom_set (m : Memory) (lo : Option Nat) (a : Nat) (v : Byte) (h : Memory.wfFrom lo m = true)
    (hl : ∀ l, lo = some l → l < a) : Memory.wfFrom lo (Memory.set m a v) = true := by
  induction m generalizing lo with
  | nil =>
    unfold Memory.set
    split
    · rfl
    · rename_i hv
      cases lo with
      | none => simp [Memory.wfFrom, hv]
      | some l => simp [Memory.wfFrom, hv, hl l rfl]
  | cons c m ih =>
    obtain ⟨k, w⟩ := c
    have hm : Memory.wfFrom (some k) m = true := by
      cases lo <;> simp only [Memory.wfFrom, Bool.and_eq_true] at h <;> exact h.2
    have hw : (w != Memory.default) = true := by
      cases lo <;> simp only [Memory.wfFrom, Bool.and_eq_true] at h <;> exact h.1.2
    unfold Memory.set
    split
    · rename_i hak
      split
      · exact h
      · rename_i hv
        have hv' : (v != Memory.default) = true := bne_iff_ne.mpr hv
        cases lo with
        | none => simp only [Memory.wfFrom, Bool.and_eq_true, decide_eq_true_eq]; exact ⟨⟨trivial, hv'⟩, ⟨hak, hw⟩, hm⟩
        | some l =>
          simp only [Memory.wfFrom, Bool.and_eq_true, decide_eq_true_eq]
          exact ⟨⟨hl l rfl, hv'⟩, ⟨hak, hw⟩, hm⟩
    · split
      · rename_i hak
        subst hak
        split
        · cases lo with
          | none => exact Memory.wf_of_wfFrom m _ hm
          | some l => exact Memory.wfFrom_weaken m a l hm (Nat.le_of_lt (hl l rfl))
        · rename_i hv
          have hv' : (v != Memory.default) = true := bne_iff_ne.mpr hv
          cases lo with
          | none => simp only [Memory.wfFrom, Bool.and_eq_true]; exact ⟨⟨trivial, hv'⟩, hm⟩
          | some l =>
            simp only [Memory.wfFrom, Bool.and_eq_true, decide_eq_true_eq]
            exact ⟨⟨hl l rfl, hv'⟩, hm⟩
      · rename_i h1 h2
        have hk : k < a := by omega
        have := ih (some k) hm (by intro l hl'; cases hl'; exact hk)
        cases lo with
        | none => simp only [Memory.wfFrom, Bool.and_eq_true]; exact ⟨⟨trivial, hw⟩, this⟩
        | some l =>
          simp only [Memory.wfFrom, Bool.and_eq_true] at h ⊢
          exact ⟨h.1, this⟩

/-- A write keeps the canonical form. -/
theorem Memory.wf_set (m : Memory) (a : Nat) (v : Byte) (h : Memory.wf m = true) : Memory.wf (Memory.set m a v) = true :=
  Memory.wfFrom_set m none a v h (by intro l hl; cases hl)

/-- Nothing is listed below a key. -/
def Memory.above : Nat → Memory → Bool
  | _, [] => true
  | n, (k, _) :: _ => decide (n ≤ k)

theorem Memory.wfFrom_some (m : Memory) (l : Nat) :
    Memory.wfFrom (some l) m = true ↔ Memory.wf m = true ∧ Memory.above (l + 1) m = true := by
  cases m with
  | nil => simp [Memory.wf, Memory.wfFrom, Memory.above]
  | cons c m =>
    obtain ⟨k, v⟩ := c
    simp only [Memory.wf, Memory.wfFrom, Memory.above, Bool.and_eq_true, decide_eq_true_eq]
    constructor
    · rintro ⟨⟨h1, h2⟩, h3⟩; exact ⟨⟨⟨trivial, h2⟩, h3⟩, h1⟩
    · rintro ⟨⟨⟨-, h2⟩, h3⟩, h1⟩; exact ⟨⟨h1, h2⟩, h3⟩

theorem Memory.wf_cons (k : Nat) (v : Byte) (m : Memory) :
    Memory.wf ((k, v) :: m) = true ↔ v ≠ Memory.default ∧ Memory.wf m = true ∧ Memory.above (k + 1) m = true := by
  rw [← Memory.wfFrom_some]
  simp [Memory.wf, Memory.wfFrom]

theorem Memory.above_mono {m : Memory} {n n' : Nat} (h : Memory.above n m = true) (hn : n' ≤ n) : Memory.above n' m = true := by
  cases m with
  | nil => rfl
  | cons c m => simp only [Memory.above, decide_eq_true_eq] at h ⊢; omega

/-- A list that starts at a key or above lists nothing below it. -/
theorem Memory.get_above {m : Memory} {n a : Nat} (h : Memory.above n m = true) (ha : a < n) : Memory.get m a = Memory.default := by
  cases m with
  | nil => rfl
  | cons c m =>
    simp only [Memory.above, decide_eq_true_eq] at h
    rw [Memory.get_cons, if_neg (by omega), if_pos (by omega)]

theorem Memory.wf_cells_append (rest : Memory) (bs : List Byte) (a : Nat) (hw : Memory.wf rest = true)
    (ha : Memory.above (a + bs.length) rest = true) :
    Memory.wf (Memory.cells a bs ++ rest) = true ∧ Memory.above a (Memory.cells a bs ++ rest) = true := by
  induction bs generalizing a with
  | nil => exact ⟨hw, ha⟩
  | cons b bs ih =>
    obtain ⟨h1, h2⟩ := ih (a + 1) (Memory.above_mono ha (by simp only [List.length_cons]; omega))
    unfold Memory.cells
    split
    · exact ⟨h1, Memory.above_mono h2 (by omega)⟩
    · rename_i hb
      exact ⟨(Memory.wf_cons _ _ _).2 ⟨hb, h1, h2⟩, by simp [Memory.above]⟩

theorem Memory.wf_dropWhile (m : Memory) (n : Nat) (h : Memory.wf m = true) :
    Memory.wf (m.dropWhile fun c => decide (c.1 < n)) = true ∧ Memory.above n (m.dropWhile fun c => decide (c.1 < n)) = true := by
  induction m with
  | nil => exact ⟨rfl, rfl⟩
  | cons c m ih =>
    obtain ⟨k, v⟩ := c
    by_cases hk : k < n
    · simp only [List.dropWhile_cons, hk, decide_true, if_true]
      exact ih ((Memory.wf_cons _ _ _).1 h).2.1
    · simp only [List.dropWhile_cons, hk, decide_false, Bool.false_eq_true, if_false]
      exact ⟨h, by simpa [Memory.above] using hk⟩

/-- Writing bytes keeps the canonical form, and a lower bound at or below the first key. -/
theorem Memory.setBytes_wf_above (m : Memory) (a : Nat) (bs : List Byte) (h : Memory.wf m = true) :
    Memory.wf (Memory.setBytes m a bs) = true ∧
    ∀ n ≤ a, Memory.above n m = true → Memory.above n (Memory.setBytes m a bs) = true := by
  induction m with
  | nil =>
    obtain ⟨h1, h2⟩ := Memory.wf_cells_append [] bs a rfl rfl
    rw [List.append_nil] at h1 h2
    exact ⟨h1, fun n hn _ => Memory.above_mono h2 hn⟩
  | cons c m ih =>
    obtain ⟨k, v⟩ := c
    obtain ⟨hv, hm, hk⟩ := (Memory.wf_cons _ _ _).1 h
    unfold Memory.setBytes
    split
    · rename_i hka
      obtain ⟨i1, i2⟩ := ih hm
      exact ⟨(Memory.wf_cons _ _ _).2 ⟨hv, i1, i2 _ hka hk⟩, fun n _ hn => hn⟩
    · obtain ⟨d1, d2⟩ := Memory.wf_dropWhile ((k, v) :: m) (a + bs.length) h
      obtain ⟨h1, h2⟩ := Memory.wf_cells_append _ bs a d1 d2
      exact ⟨h1, fun n hn _ => Memory.above_mono h2 hn⟩

theorem Memory.wf_setBytes (m : Memory) (a : Nat) (bs : List Byte) (h : Memory.wf m = true) :
    Memory.wf (Memory.setBytes m a bs) = true := (Memory.setBytes_wf_above m a bs h).1

theorem Memory.get_cells_append (rest : Memory) (bs : List Byte) (a x : Nat) (ha : Memory.above (a + bs.length) rest = true) :
    Memory.get (Memory.cells a bs ++ rest) x =
      if x < a then Memory.default else (bs[x - a]?).getD (Memory.get rest x) := by
  induction bs generalizing a with
  | nil =>
    split
    · rename_i hx; exact Memory.get_above ha (by simpa using hx)
    · simp [Memory.cells]
  | cons b bs ih =>
    have ih' := ih (a + 1) (Memory.above_mono ha (by simp only [List.length_cons]; omega))
    have hin : ¬ x < a → x ≠ a → ((b :: bs)[x - a]?) = bs[x - (a + 1)]? := by
      intro h1 h2
      obtain ⟨d, hd⟩ : ∃ d, x - a = d + 1 := ⟨x - a - 1, by omega⟩
      rw [hd, List.getElem?_cons_succ, show x - (a + 1) = d by omega]
    unfold Memory.cells
    by_cases hb : b = Memory.default
    · rw [if_pos hb, ih']
      by_cases hx : x < a
      · rw [if_pos hx, if_pos (by omega)]
      · by_cases hxa : x = a
        · subst hxa; rw [if_pos (by omega), if_neg (by omega)]; simp [hb]
        · rw [if_neg hx, if_neg (by omega), hin hx hxa]
    · rw [if_neg hb, List.cons_append, Memory.get_cons, ih']
      by_cases hxa : x = a
      · subst hxa; simp
      · by_cases hx : x < a
        · rw [if_neg hxa, if_pos hx, if_pos hx]
        · rw [if_neg hxa, if_neg hx, if_neg (by omega), if_neg hx, hin hx hxa]

theorem Memory.get_dropWhile (m : Memory) (n x : Nat) (hx : n ≤ x) :
    Memory.get (m.dropWhile fun c => decide (c.1 < n)) x = Memory.get m x := by
  induction m with
  | nil => rfl
  | cons c m ih =>
    obtain ⟨k, v⟩ := c
    by_cases hk : k < n
    · simp only [List.dropWhile_cons, hk, decide_true, if_true]
      rw [ih, Memory.get_cons, if_neg (by omega), if_neg (by omega)]
    · simp only [List.dropWhile_cons, hk, decide_false, Bool.false_eq_true, if_false]

/-- A read after bytes are written: those bytes where they lie, and elsewhere what was there. -/
theorem Memory.get_setBytes (m : Memory) (a x : Nat) (bs : List Byte) (h : Memory.wf m = true) :
    Memory.get (Memory.setBytes m a bs) x =
      if x < a then Memory.get m x else (bs[x - a]?).getD (Memory.get m x) := by
  induction m with
  | nil =>
    have := Memory.get_cells_append [] bs a x rfl
    rw [List.append_nil] at this
    exact this
  | cons c m ih =>
    obtain ⟨k, v⟩ := c
    obtain ⟨hv, hm, hk⟩ := (Memory.wf_cons _ _ _).1 h
    unfold Memory.setBytes
    split
    · rename_i hka
      rw [Memory.get_cons, Memory.get_cons, ih hm]
      by_cases hxk : x = k
      · subst hxk; rw [if_pos rfl, if_pos rfl, if_pos hka]
      · by_cases hxl : x < k
        · rw [if_neg hxk, if_neg hxk, if_pos hxl, if_pos hxl, if_pos (by omega)]
        · rw [if_neg hxk, if_neg hxk, if_neg hxl, if_neg hxl]
    · rename_i hka
      obtain ⟨-, d2⟩ := Memory.wf_dropWhile ((k, v) :: m) (a + bs.length) h
      rw [Memory.get_cells_append _ bs a x d2]
      by_cases hx : x < a
      · rw [if_pos hx, if_pos hx, Memory.get_cons, if_neg (by omega), if_pos (by omega)]
      · rw [if_neg hx, if_neg hx]
        by_cases hr : x - a < bs.length
        · rw [List.getElem?_eq_getElem hr]; rfl
        · rw [List.getElem?_eq_none (by omega)]
          exact Memory.get_dropWhile _ _ x (by omega)

/-- Canonical memories that read alike are equal. -/
theorem Memory.ext_of_wf (m m' : Memory) (h : Memory.wf m = true) (h' : Memory.wf m' = true)
    (hg : ∀ a, Memory.get m a = Memory.get m' a) : m = m' := by
  induction m generalizing m' with
  | nil =>
    cases m' with
    | nil => rfl
    | cons c m' =>
      obtain ⟨k, v⟩ := c
      have := hg k
      rw [Memory.get_cons, if_pos rfl] at this
      exact absurd this.symm ((Memory.wf_cons _ _ _).1 h').1
  | cons c m ih =>
    obtain ⟨k, v⟩ := c
    obtain ⟨hv, hm, hk⟩ := (Memory.wf_cons _ _ _).1 h
    cases m' with
    | nil =>
      have := hg k
      rw [Memory.get_cons, if_pos rfl] at this
      exact absurd this hv
    | cons c' m' =>
      obtain ⟨k', v'⟩ := c'
      obtain ⟨hv', hm', hk'⟩ := (Memory.wf_cons _ _ _).1 h'
      have hkk : k = k' := by
        have h1 := hg k
        have h2 := hg k'
        rw [Memory.get_cons, Memory.get_cons, if_pos rfl] at h1
        rw [Memory.get_cons, Memory.get_cons, if_pos rfl] at h2
        rcases Nat.lt_trichotomy k k' with hlt | heq | hlt
        · rw [if_neg (by omega), if_pos hlt] at h1; exact absurd h1 hv
        · exact heq
        · rw [if_neg (by omega), if_pos hlt] at h2; exact absurd h2.symm hv'
      subst hkk
      have hvv : v = v' := by have := hg k; rwa [Memory.get_cons, Memory.get_cons, if_pos rfl, if_pos rfl] at this
      subst hvv
      refine congrArg _ (ih m' hm hm' fun a => ?_)
      rcases Nat.lt_or_ge k a with hka | hka
      · have := hg a
        rwa [Memory.get_cons, Memory.get_cons, if_neg (by omega), if_neg (by omega), if_neg (by omega), if_neg (by omega)] at this
      · rw [Memory.get_above hk (by omega), Memory.get_above hk' (by omega)]

theorem Memory.wfFrom_filter (m : Memory) (lo : Option Nat) (p : Host.Cell → Bool) (h : Memory.wfFrom lo m = true) :
    Memory.wfFrom lo (m.filter p) = true := by
  induction m generalizing lo with
  | nil => exact h
  | cons c m ih =>
    obtain ⟨k, v⟩ := c
    have hm : Memory.wfFrom (some k) m = true := by
      cases lo <;> simp only [Memory.wfFrom, Bool.and_eq_true] at h <;> exact h.2
    rw [List.filter_cons]
    split
    · cases lo with
      | none =>
        simp only [Memory.wfFrom, Bool.and_eq_true] at h ⊢
        exact ⟨h.1, ih _ h.2⟩
      | some l =>
        simp only [Memory.wfFrom, Bool.and_eq_true] at h ⊢
        exact ⟨h.1, ih _ h.2⟩
    · have := ih (some k) hm
      cases lo with
      | none => exact Memory.wf_of_wfFrom _ _ this
      | some l =>
        simp only [Memory.wfFrom, Bool.and_eq_true, decide_eq_true_eq] at h
        exact Memory.wfFrom_weaken _ k l this (Nat.le_of_lt h.1.1)

/-- Zero-filling keeps the canonical form. -/
theorem Memory.wf_dropRange (m : Memory) (lo hi : Nat) (h : Memory.wf m = true) : Memory.wf (m.dropRange lo hi) = true :=
  Memory.wfFrom_filter m none _ h

/-- A read after a write to the same key. -/
theorem Memory.get_set_same (m : Memory) (lo : Option Nat) (a : Nat) (v : Byte) (h : Memory.wfFrom lo m = true) :
    Memory.get (Memory.set m a v) a = v := by
  induction m generalizing lo with
  | nil =>
    unfold Memory.set
    split
    · rename_i hv; rw [hv]; rfl
    · rw [Memory.get_cons, if_pos rfl]
  | cons c m ih =>
    obtain ⟨k, w⟩ := c
    have hm : Memory.wfFrom (some k) m = true := by
      cases lo <;> simp only [Memory.wfFrom, Bool.and_eq_true] at h <;> exact h.2
    unfold Memory.set
    split
    · rename_i hak
      split
      · rename_i hv
        rw [Memory.get_cons, if_neg (by omega), if_pos hak, hv]
      · rw [Memory.get_cons, if_pos rfl]
    · split
      · rename_i hak
        subst hak
        split
        · rename_i hv
          rw [Memory.get_below m a a hm (Nat.le_refl a), hv]
        · rw [Memory.get_cons, if_pos rfl]
      · rename_i h1 h2
        rw [Memory.get_cons, if_neg h2, if_neg h1]
        exact ih _ hm

/-- A write leaves every other key. -/
theorem Memory.get_set_ne (m : Memory) (lo : Option Nat) (a b : Nat) (v : Byte) (h : Memory.wfFrom lo m = true) (hb : b ≠ a) :
    Memory.get (Memory.set m a v) b = Memory.get m b := by
  induction m generalizing lo with
  | nil =>
    unfold Memory.set
    split
    · rfl
    · rw [Memory.get_cons, if_neg hb]
      split <;> rfl
  | cons c m ih =>
    obtain ⟨k, w⟩ := c
    have hm : Memory.wfFrom (some k) m = true := by
      cases lo <;> simp only [Memory.wfFrom, Bool.and_eq_true] at h <;> exact h.2
    unfold Memory.set
    split
    · rename_i hak
      split
      · rfl
      · rw [Memory.get_cons, if_neg hb]
        split
        · rename_i hba
          rw [Memory.get_cons, if_neg (by omega), if_pos (by omega)]
        · rfl
    · split
      · rename_i hak
        subst hak
        split
        · rw [Memory.get_cons, if_neg hb]
          split
          · rename_i hba
            exact Memory.get_below m a b hm (Nat.le_of_lt hba)
          · rfl
        · rw [Memory.get_cons, Memory.get_cons, if_neg hb, if_neg hb]
      · rw [Memory.get_cons, Memory.get_cons]
        split
        · rfl
        · split
          · rfl
          · exact ih _ hm

theorem Memory.read_written (m : Memory) (a : Nat) (v : Byte) (h : Memory.wf m = true) : (m.set a v).get a = v :=
  Memory.get_set_same m none a v h

theorem Memory.read_elsewhere (m : Memory) (a b : Nat) (v : Byte) (h : Memory.wf m = true) (hb : b ≠ a) :
    (m.set a v).get b = m.get b :=
  Memory.get_set_ne m none a b v h hb

end Sys2Proof.Machine
end

