-- ==== Sys2Proof/Laws/State.lean ====
section
/-! SUPPORT. What each update of the state leaves as it was, one lemma per field per update; and registers read after a
register write. -/
namespace Sys2Proof.Machine

/-! ### setG -/
@[simp] theorem State.setG_time (s : State) (r : GReg) (v : Word) : (s.setG r v).time = s.time := rfl
@[simp] theorem State.setG_freeIx (s : State) (r : GReg) (v : Word) : (s.setG r v).freeIx = s.freeIx := rfl
@[simp] theorem State.setG_nextId (s : State) (r : GReg) (v : Word) : (s.setG r v).nextId = s.nextId := rfl
@[simp] theorem State.setG_sel (s : State) (r : GReg) (v : Word) : (s.setG r v).sel = s.sel := rfl
@[simp] theorem State.setG_agenda (s : State) (r : GReg) (v : Word) : (s.setG r v).agenda = s.agenda := rfl
@[simp] theorem State.setG_upsets (s : State) (r : GReg) (v : Word) : (s.setG r v).upsets = s.upsets := rfl
@[simp] theorem State.setG_patience (s : State) (r : GReg) (v : Word) : (s.setG r v).patience = s.patience := rfl
@[simp] theorem State.setG_note (s : State) (r : GReg) (v : Word) : (s.setG r v).note = s.note := rfl
@[simp] theorem State.setG_mem (s : State) (r : GReg) (v : Word) : (s.setG r v).mem = s.mem := rfl
@[simp] theorem State.setG_poison (s : State) (r : GReg) (v : Word) : (s.setG r v).poison = s.poison := rfl
@[simp] theorem State.setG_deltas (s : State) (r : GReg) (v : Word) : (s.setG r v).deltas = s.deltas := rfl
@[simp] theorem State.setG_undo (s : State) (r : GReg) (v : Word) : (s.setG r v).undo = s.undo := rfl
@[simp] theorem State.setG_reds (s : State) (r : GReg) (v : Word) : (s.setG r v).reds = s.reds := rfl
@[simp] theorem State.setG_landings (s : State) (r : GReg) (v : Word) : (s.setG r v).landings = s.landings := rfl
@[simp] theorem State.setG_updates (s : State) (r : GReg) (v : Word) : (s.setG r v).updates = s.updates := rfl
@[simp] theorem State.setG_cords (s : State) (r : GReg) (v : Word) : (s.setG r v).cords = s.cords := rfl
@[simp] theorem State.setG_statuses (s : State) (r : GReg) (v : Word) : (s.setG r v).statuses = s.statuses := rfl
@[simp] theorem State.setG_fabricMsgs (s : State) (r : GReg) (v : Word) : (s.setG r v).fabricMsgs = s.fabricMsgs := rfl
@[simp] theorem State.setG_packets (s : State) (r : GReg) (v : Word) : (s.setG r v).packets = s.packets := rfl
@[simp] theorem State.setG_transit (s : State) (r : GReg) (v : Word) : (s.setG r v).transit = s.transit := rfl
@[simp] theorem State.setG_frags (s : State) (r : GReg) (v : Word) : (s.setG r v).frags = s.frags := rfl
@[simp] theorem State.setG_others (s : State) (r : GReg) (v : Word) : (s.setG r v).others = s.others := rfl
@[simp] theorem State.setG_cores (s : State) (r : GReg) (v : Word) : (s.setG r v).cores = s.cores := rfl
@[simp] theorem State.setG_ready (s : State) (r : GReg) (v : Word) : (s.setG r v).ready = s.ready := rfl
@[simp] theorem State.setG_waiters (s : State) (r : GReg) (v : Word) : (s.setG r v).waiters = s.waiters := rfl
@[simp] theorem State.setG_teams (s : State) (r : GReg) (v : Word) : (s.setG r v).teams = s.teams := rfl
@[simp] theorem State.setG_feds (s : State) (r : GReg) (v : Word) : (s.setG r v).feds = s.feds := rfl
@[simp] theorem State.setG_chips (s : State) (r : GReg) (v : Word) : (s.setG r v).chips = s.chips := rfl

/-! ### setV -/
@[simp] theorem State.setV_time (s : State) (r : VReg) (v : VWord) : (s.setV r v).time = s.time := rfl
@[simp] theorem State.setV_freeIx (s : State) (r : VReg) (v : VWord) : (s.setV r v).freeIx = s.freeIx := rfl
@[simp] theorem State.setV_nextId (s : State) (r : VReg) (v : VWord) : (s.setV r v).nextId = s.nextId := rfl
@[simp] theorem State.setV_sel (s : State) (r : VReg) (v : VWord) : (s.setV r v).sel = s.sel := rfl
@[simp] theorem State.setV_agenda (s : State) (r : VReg) (v : VWord) : (s.setV r v).agenda = s.agenda := rfl
@[simp] theorem State.setV_upsets (s : State) (r : VReg) (v : VWord) : (s.setV r v).upsets = s.upsets := rfl
@[simp] theorem State.setV_patience (s : State) (r : VReg) (v : VWord) : (s.setV r v).patience = s.patience := rfl
@[simp] theorem State.setV_note (s : State) (r : VReg) (v : VWord) : (s.setV r v).note = s.note := rfl
@[simp] theorem State.setV_mem (s : State) (r : VReg) (v : VWord) : (s.setV r v).mem = s.mem := rfl
@[simp] theorem State.setV_poison (s : State) (r : VReg) (v : VWord) : (s.setV r v).poison = s.poison := rfl
@[simp] theorem State.setV_deltas (s : State) (r : VReg) (v : VWord) : (s.setV r v).deltas = s.deltas := rfl
@[simp] theorem State.setV_undo (s : State) (r : VReg) (v : VWord) : (s.setV r v).undo = s.undo := rfl
@[simp] theorem State.setV_reds (s : State) (r : VReg) (v : VWord) : (s.setV r v).reds = s.reds := rfl
@[simp] theorem State.setV_landings (s : State) (r : VReg) (v : VWord) : (s.setV r v).landings = s.landings := rfl
@[simp] theorem State.setV_updates (s : State) (r : VReg) (v : VWord) : (s.setV r v).updates = s.updates := rfl
@[simp] theorem State.setV_cords (s : State) (r : VReg) (v : VWord) : (s.setV r v).cords = s.cords := rfl
@[simp] theorem State.setV_statuses (s : State) (r : VReg) (v : VWord) : (s.setV r v).statuses = s.statuses := rfl
@[simp] theorem State.setV_fabricMsgs (s : State) (r : VReg) (v : VWord) : (s.setV r v).fabricMsgs = s.fabricMsgs := rfl
@[simp] theorem State.setV_packets (s : State) (r : VReg) (v : VWord) : (s.setV r v).packets = s.packets := rfl
@[simp] theorem State.setV_transit (s : State) (r : VReg) (v : VWord) : (s.setV r v).transit = s.transit := rfl
@[simp] theorem State.setV_frags (s : State) (r : VReg) (v : VWord) : (s.setV r v).frags = s.frags := rfl
@[simp] theorem State.setV_others (s : State) (r : VReg) (v : VWord) : (s.setV r v).others = s.others := rfl
@[simp] theorem State.setV_cores (s : State) (r : VReg) (v : VWord) : (s.setV r v).cores = s.cores := rfl
@[simp] theorem State.setV_ready (s : State) (r : VReg) (v : VWord) : (s.setV r v).ready = s.ready := rfl
@[simp] theorem State.setV_waiters (s : State) (r : VReg) (v : VWord) : (s.setV r v).waiters = s.waiters := rfl
@[simp] theorem State.setV_teams (s : State) (r : VReg) (v : VWord) : (s.setV r v).teams = s.teams := rfl
@[simp] theorem State.setV_feds (s : State) (r : VReg) (v : VWord) : (s.setV r v).feds = s.feds := rfl
@[simp] theorem State.setV_chips (s : State) (r : VReg) (v : VWord) : (s.setV r v).chips = s.chips := rfl

/-! ### setK -/
@[simp] theorem State.setK_time (s : State) (r : KReg) (v : Mask) : (s.setK r v).time = s.time := rfl
@[simp] theorem State.setK_freeIx (s : State) (r : KReg) (v : Mask) : (s.setK r v).freeIx = s.freeIx := rfl
@[simp] theorem State.setK_nextId (s : State) (r : KReg) (v : Mask) : (s.setK r v).nextId = s.nextId := rfl
@[simp] theorem State.setK_sel (s : State) (r : KReg) (v : Mask) : (s.setK r v).sel = s.sel := rfl
@[simp] theorem State.setK_agenda (s : State) (r : KReg) (v : Mask) : (s.setK r v).agenda = s.agenda := rfl
@[simp] theorem State.setK_upsets (s : State) (r : KReg) (v : Mask) : (s.setK r v).upsets = s.upsets := rfl
@[simp] theorem State.setK_patience (s : State) (r : KReg) (v : Mask) : (s.setK r v).patience = s.patience := rfl
@[simp] theorem State.setK_note (s : State) (r : KReg) (v : Mask) : (s.setK r v).note = s.note := rfl
@[simp] theorem State.setK_mem (s : State) (r : KReg) (v : Mask) : (s.setK r v).mem = s.mem := rfl
@[simp] theorem State.setK_poison (s : State) (r : KReg) (v : Mask) : (s.setK r v).poison = s.poison := rfl
@[simp] theorem State.setK_deltas (s : State) (r : KReg) (v : Mask) : (s.setK r v).deltas = s.deltas := rfl
@[simp] theorem State.setK_undo (s : State) (r : KReg) (v : Mask) : (s.setK r v).undo = s.undo := rfl
@[simp] theorem State.setK_reds (s : State) (r : KReg) (v : Mask) : (s.setK r v).reds = s.reds := rfl
@[simp] theorem State.setK_landings (s : State) (r : KReg) (v : Mask) : (s.setK r v).landings = s.landings := rfl
@[simp] theorem State.setK_updates (s : State) (r : KReg) (v : Mask) : (s.setK r v).updates = s.updates := rfl
@[simp] theorem State.setK_cords (s : State) (r : KReg) (v : Mask) : (s.setK r v).cords = s.cords := rfl
@[simp] theorem State.setK_statuses (s : State) (r : KReg) (v : Mask) : (s.setK r v).statuses = s.statuses := rfl
@[simp] theorem State.setK_fabricMsgs (s : State) (r : KReg) (v : Mask) : (s.setK r v).fabricMsgs = s.fabricMsgs := rfl
@[simp] theorem State.setK_packets (s : State) (r : KReg) (v : Mask) : (s.setK r v).packets = s.packets := rfl
@[simp] theorem State.setK_transit (s : State) (r : KReg) (v : Mask) : (s.setK r v).transit = s.transit := rfl
@[simp] theorem State.setK_frags (s : State) (r : KReg) (v : Mask) : (s.setK r v).frags = s.frags := rfl
@[simp] theorem State.setK_others (s : State) (r : KReg) (v : Mask) : (s.setK r v).others = s.others := rfl
@[simp] theorem State.setK_cores (s : State) (r : KReg) (v : Mask) : (s.setK r v).cores = s.cores := rfl
@[simp] theorem State.setK_ready (s : State) (r : KReg) (v : Mask) : (s.setK r v).ready = s.ready := rfl
@[simp] theorem State.setK_waiters (s : State) (r : KReg) (v : Mask) : (s.setK r v).waiters = s.waiters := rfl
@[simp] theorem State.setK_teams (s : State) (r : KReg) (v : Mask) : (s.setK r v).teams = s.teams := rfl
@[simp] theorem State.setK_feds (s : State) (r : KReg) (v : Mask) : (s.setK r v).feds = s.feds := rfl
@[simp] theorem State.setK_chips (s : State) (r : KReg) (v : Mask) : (s.setK r v).chips = s.chips := rfl

/-! ### setP -/
@[simp] theorem State.setP_time (s : State) (r : PReg) (v : Bool) : (s.setP r v).time = s.time := rfl
@[simp] theorem State.setP_freeIx (s : State) (r : PReg) (v : Bool) : (s.setP r v).freeIx = s.freeIx := rfl
@[simp] theorem State.setP_nextId (s : State) (r : PReg) (v : Bool) : (s.setP r v).nextId = s.nextId := rfl
@[simp] theorem State.setP_sel (s : State) (r : PReg) (v : Bool) : (s.setP r v).sel = s.sel := rfl
@[simp] theorem State.setP_agenda (s : State) (r : PReg) (v : Bool) : (s.setP r v).agenda = s.agenda := rfl
@[simp] theorem State.setP_upsets (s : State) (r : PReg) (v : Bool) : (s.setP r v).upsets = s.upsets := rfl
@[simp] theorem State.setP_patience (s : State) (r : PReg) (v : Bool) : (s.setP r v).patience = s.patience := rfl
@[simp] theorem State.setP_note (s : State) (r : PReg) (v : Bool) : (s.setP r v).note = s.note := rfl
@[simp] theorem State.setP_mem (s : State) (r : PReg) (v : Bool) : (s.setP r v).mem = s.mem := rfl
@[simp] theorem State.setP_poison (s : State) (r : PReg) (v : Bool) : (s.setP r v).poison = s.poison := rfl
@[simp] theorem State.setP_deltas (s : State) (r : PReg) (v : Bool) : (s.setP r v).deltas = s.deltas := rfl
@[simp] theorem State.setP_undo (s : State) (r : PReg) (v : Bool) : (s.setP r v).undo = s.undo := rfl
@[simp] theorem State.setP_reds (s : State) (r : PReg) (v : Bool) : (s.setP r v).reds = s.reds := rfl
@[simp] theorem State.setP_landings (s : State) (r : PReg) (v : Bool) : (s.setP r v).landings = s.landings := rfl
@[simp] theorem State.setP_updates (s : State) (r : PReg) (v : Bool) : (s.setP r v).updates = s.updates := rfl
@[simp] theorem State.setP_cords (s : State) (r : PReg) (v : Bool) : (s.setP r v).cords = s.cords := rfl
@[simp] theorem State.setP_statuses (s : State) (r : PReg) (v : Bool) : (s.setP r v).statuses = s.statuses := rfl
@[simp] theorem State.setP_fabricMsgs (s : State) (r : PReg) (v : Bool) : (s.setP r v).fabricMsgs = s.fabricMsgs := rfl
@[simp] theorem State.setP_packets (s : State) (r : PReg) (v : Bool) : (s.setP r v).packets = s.packets := rfl
@[simp] theorem State.setP_transit (s : State) (r : PReg) (v : Bool) : (s.setP r v).transit = s.transit := rfl
@[simp] theorem State.setP_frags (s : State) (r : PReg) (v : Bool) : (s.setP r v).frags = s.frags := rfl
@[simp] theorem State.setP_others (s : State) (r : PReg) (v : Bool) : (s.setP r v).others = s.others := rfl
@[simp] theorem State.setP_cores (s : State) (r : PReg) (v : Bool) : (s.setP r v).cores = s.cores := rfl
@[simp] theorem State.setP_ready (s : State) (r : PReg) (v : Bool) : (s.setP r v).ready = s.ready := rfl
@[simp] theorem State.setP_waiters (s : State) (r : PReg) (v : Bool) : (s.setP r v).waiters = s.waiters := rfl
@[simp] theorem State.setP_teams (s : State) (r : PReg) (v : Bool) : (s.setP r v).teams = s.teams := rfl
@[simp] theorem State.setP_feds (s : State) (r : PReg) (v : Bool) : (s.setP r v).feds = s.feds := rfl
@[simp] theorem State.setP_chips (s : State) (r : PReg) (v : Bool) : (s.setP r v).chips = s.chips := rfl

/-! ### setQ -/
@[simp] theorem State.setQ_time (s : State) (r : QReg) (v : List Word) : (s.setQ r v).time = s.time := rfl
@[simp] theorem State.setQ_freeIx (s : State) (r : QReg) (v : List Word) : (s.setQ r v).freeIx = s.freeIx := rfl
@[simp] theorem State.setQ_nextId (s : State) (r : QReg) (v : List Word) : (s.setQ r v).nextId = s.nextId := rfl
@[simp] theorem State.setQ_sel (s : State) (r : QReg) (v : List Word) : (s.setQ r v).sel = s.sel := rfl
@[simp] theorem State.setQ_agenda (s : State) (r : QReg) (v : List Word) : (s.setQ r v).agenda = s.agenda := rfl
@[simp] theorem State.setQ_upsets (s : State) (r : QReg) (v : List Word) : (s.setQ r v).upsets = s.upsets := rfl
@[simp] theorem State.setQ_patience (s : State) (r : QReg) (v : List Word) : (s.setQ r v).patience = s.patience := rfl
@[simp] theorem State.setQ_note (s : State) (r : QReg) (v : List Word) : (s.setQ r v).note = s.note := rfl
@[simp] theorem State.setQ_mem (s : State) (r : QReg) (v : List Word) : (s.setQ r v).mem = s.mem := rfl
@[simp] theorem State.setQ_poison (s : State) (r : QReg) (v : List Word) : (s.setQ r v).poison = s.poison := rfl
@[simp] theorem State.setQ_deltas (s : State) (r : QReg) (v : List Word) : (s.setQ r v).deltas = s.deltas := rfl
@[simp] theorem State.setQ_undo (s : State) (r : QReg) (v : List Word) : (s.setQ r v).undo = s.undo := rfl
@[simp] theorem State.setQ_reds (s : State) (r : QReg) (v : List Word) : (s.setQ r v).reds = s.reds := rfl
@[simp] theorem State.setQ_landings (s : State) (r : QReg) (v : List Word) : (s.setQ r v).landings = s.landings := rfl
@[simp] theorem State.setQ_updates (s : State) (r : QReg) (v : List Word) : (s.setQ r v).updates = s.updates := rfl
@[simp] theorem State.setQ_cords (s : State) (r : QReg) (v : List Word) : (s.setQ r v).cords = s.cords := rfl
@[simp] theorem State.setQ_statuses (s : State) (r : QReg) (v : List Word) : (s.setQ r v).statuses = s.statuses := rfl
@[simp] theorem State.setQ_fabricMsgs (s : State) (r : QReg) (v : List Word) : (s.setQ r v).fabricMsgs = s.fabricMsgs := rfl
@[simp] theorem State.setQ_packets (s : State) (r : QReg) (v : List Word) : (s.setQ r v).packets = s.packets := rfl
@[simp] theorem State.setQ_transit (s : State) (r : QReg) (v : List Word) : (s.setQ r v).transit = s.transit := rfl
@[simp] theorem State.setQ_frags (s : State) (r : QReg) (v : List Word) : (s.setQ r v).frags = s.frags := rfl
@[simp] theorem State.setQ_others (s : State) (r : QReg) (v : List Word) : (s.setQ r v).others = s.others := rfl
@[simp] theorem State.setQ_cores (s : State) (r : QReg) (v : List Word) : (s.setQ r v).cores = s.cores := rfl
@[simp] theorem State.setQ_ready (s : State) (r : QReg) (v : List Word) : (s.setQ r v).ready = s.ready := rfl
@[simp] theorem State.setQ_waiters (s : State) (r : QReg) (v : List Word) : (s.setQ r v).waiters = s.waiters := rfl
@[simp] theorem State.setQ_teams (s : State) (r : QReg) (v : List Word) : (s.setQ r v).teams = s.teams := rfl
@[simp] theorem State.setQ_feds (s : State) (r : QReg) (v : List Word) : (s.setQ r v).feds = s.feds := rfl
@[simp] theorem State.setQ_chips (s : State) (r : QReg) (v : List Word) : (s.setQ r v).chips = s.chips := rfl

/-! ### orFlags -/
@[simp] theorem State.orFlags_time (s : State) (f : BitVec 5) : (s.orFlags f).time = s.time := rfl
@[simp] theorem State.orFlags_freeIx (s : State) (f : BitVec 5) : (s.orFlags f).freeIx = s.freeIx := rfl
@[simp] theorem State.orFlags_nextId (s : State) (f : BitVec 5) : (s.orFlags f).nextId = s.nextId := rfl
@[simp] theorem State.orFlags_sel (s : State) (f : BitVec 5) : (s.orFlags f).sel = s.sel := rfl
@[simp] theorem State.orFlags_agenda (s : State) (f : BitVec 5) : (s.orFlags f).agenda = s.agenda := rfl
@[simp] theorem State.orFlags_upsets (s : State) (f : BitVec 5) : (s.orFlags f).upsets = s.upsets := rfl
@[simp] theorem State.orFlags_patience (s : State) (f : BitVec 5) : (s.orFlags f).patience = s.patience := rfl
@[simp] theorem State.orFlags_note (s : State) (f : BitVec 5) : (s.orFlags f).note = s.note := rfl
@[simp] theorem State.orFlags_mem (s : State) (f : BitVec 5) : (s.orFlags f).mem = s.mem := rfl
@[simp] theorem State.orFlags_poison (s : State) (f : BitVec 5) : (s.orFlags f).poison = s.poison := rfl
@[simp] theorem State.orFlags_deltas (s : State) (f : BitVec 5) : (s.orFlags f).deltas = s.deltas := rfl
@[simp] theorem State.orFlags_undo (s : State) (f : BitVec 5) : (s.orFlags f).undo = s.undo := rfl
@[simp] theorem State.orFlags_reds (s : State) (f : BitVec 5) : (s.orFlags f).reds = s.reds := rfl
@[simp] theorem State.orFlags_landings (s : State) (f : BitVec 5) : (s.orFlags f).landings = s.landings := rfl
@[simp] theorem State.orFlags_updates (s : State) (f : BitVec 5) : (s.orFlags f).updates = s.updates := rfl
@[simp] theorem State.orFlags_cords (s : State) (f : BitVec 5) : (s.orFlags f).cords = s.cords := rfl
@[simp] theorem State.orFlags_statuses (s : State) (f : BitVec 5) : (s.orFlags f).statuses = s.statuses := rfl
@[simp] theorem State.orFlags_fabricMsgs (s : State) (f : BitVec 5) : (s.orFlags f).fabricMsgs = s.fabricMsgs := rfl
@[simp] theorem State.orFlags_packets (s : State) (f : BitVec 5) : (s.orFlags f).packets = s.packets := rfl
@[simp] theorem State.orFlags_transit (s : State) (f : BitVec 5) : (s.orFlags f).transit = s.transit := rfl
@[simp] theorem State.orFlags_frags (s : State) (f : BitVec 5) : (s.orFlags f).frags = s.frags := rfl
@[simp] theorem State.orFlags_others (s : State) (f : BitVec 5) : (s.orFlags f).others = s.others := rfl
@[simp] theorem State.orFlags_cores (s : State) (f : BitVec 5) : (s.orFlags f).cores = s.cores := rfl
@[simp] theorem State.orFlags_ready (s : State) (f : BitVec 5) : (s.orFlags f).ready = s.ready := rfl
@[simp] theorem State.orFlags_waiters (s : State) (f : BitVec 5) : (s.orFlags f).waiters = s.waiters := rfl
@[simp] theorem State.orFlags_teams (s : State) (f : BitVec 5) : (s.orFlags f).teams = s.teams := rfl
@[simp] theorem State.orFlags_feds (s : State) (f : BitVec 5) : (s.orFlags f).feds = s.feds := rfl
@[simp] theorem State.orFlags_chips (s : State) (f : BitVec 5) : (s.orFlags f).chips = s.chips := rfl

/-! ### setPc -/
@[simp] theorem State.setPc_time (s : State) (p : Word) : (s.setPc p).time = s.time := rfl
@[simp] theorem State.setPc_freeIx (s : State) (p : Word) : (s.setPc p).freeIx = s.freeIx := rfl
@[simp] theorem State.setPc_nextId (s : State) (p : Word) : (s.setPc p).nextId = s.nextId := rfl
@[simp] theorem State.setPc_sel (s : State) (p : Word) : (s.setPc p).sel = s.sel := rfl
@[simp] theorem State.setPc_agenda (s : State) (p : Word) : (s.setPc p).agenda = s.agenda := rfl
@[simp] theorem State.setPc_upsets (s : State) (p : Word) : (s.setPc p).upsets = s.upsets := rfl
@[simp] theorem State.setPc_patience (s : State) (p : Word) : (s.setPc p).patience = s.patience := rfl
@[simp] theorem State.setPc_note (s : State) (p : Word) : (s.setPc p).note = s.note := rfl
@[simp] theorem State.setPc_mem (s : State) (p : Word) : (s.setPc p).mem = s.mem := rfl
@[simp] theorem State.setPc_poison (s : State) (p : Word) : (s.setPc p).poison = s.poison := rfl
@[simp] theorem State.setPc_deltas (s : State) (p : Word) : (s.setPc p).deltas = s.deltas := rfl
@[simp] theorem State.setPc_undo (s : State) (p : Word) : (s.setPc p).undo = s.undo := rfl
@[simp] theorem State.setPc_reds (s : State) (p : Word) : (s.setPc p).reds = s.reds := rfl
@[simp] theorem State.setPc_landings (s : State) (p : Word) : (s.setPc p).landings = s.landings := rfl
@[simp] theorem State.setPc_updates (s : State) (p : Word) : (s.setPc p).updates = s.updates := rfl
@[simp] theorem State.setPc_cords (s : State) (p : Word) : (s.setPc p).cords = s.cords := rfl
@[simp] theorem State.setPc_statuses (s : State) (p : Word) : (s.setPc p).statuses = s.statuses := rfl
@[simp] theorem State.setPc_fabricMsgs (s : State) (p : Word) : (s.setPc p).fabricMsgs = s.fabricMsgs := rfl
@[simp] theorem State.setPc_packets (s : State) (p : Word) : (s.setPc p).packets = s.packets := rfl
@[simp] theorem State.setPc_transit (s : State) (p : Word) : (s.setPc p).transit = s.transit := rfl
@[simp] theorem State.setPc_frags (s : State) (p : Word) : (s.setPc p).frags = s.frags := rfl
@[simp] theorem State.setPc_others (s : State) (p : Word) : (s.setPc p).others = s.others := rfl
@[simp] theorem State.setPc_cores (s : State) (p : Word) : (s.setPc p).cores = s.cores := rfl
@[simp] theorem State.setPc_ready (s : State) (p : Word) : (s.setPc p).ready = s.ready := rfl
@[simp] theorem State.setPc_waiters (s : State) (p : Word) : (s.setPc p).waiters = s.waiters := rfl
@[simp] theorem State.setPc_teams (s : State) (p : Word) : (s.setPc p).teams = s.teams := rfl
@[simp] theorem State.setPc_feds (s : State) (p : Word) : (s.setPc p).feds = s.feds := rfl
@[simp] theorem State.setPc_chips (s : State) (p : Word) : (s.setPc p).chips = s.chips := rfl

/-! ### setCore -/
@[simp] theorem State.setCore_time (s : State) (e : EP) (c : Core) : (s.setCore e c).time = s.time := rfl
@[simp] theorem State.setCore_freeIx (s : State) (e : EP) (c : Core) : (s.setCore e c).freeIx = s.freeIx := rfl
@[simp] theorem State.setCore_nextId (s : State) (e : EP) (c : Core) : (s.setCore e c).nextId = s.nextId := rfl
@[simp] theorem State.setCore_sel (s : State) (e : EP) (c : Core) : (s.setCore e c).sel = s.sel := rfl
@[simp] theorem State.setCore_agenda (s : State) (e : EP) (c : Core) : (s.setCore e c).agenda = s.agenda := rfl
@[simp] theorem State.setCore_upsets (s : State) (e : EP) (c : Core) : (s.setCore e c).upsets = s.upsets := rfl
@[simp] theorem State.setCore_patience (s : State) (e : EP) (c : Core) : (s.setCore e c).patience = s.patience := rfl
@[simp] theorem State.setCore_note (s : State) (e : EP) (c : Core) : (s.setCore e c).note = s.note := rfl
@[simp] theorem State.setCore_mem (s : State) (e : EP) (c : Core) : (s.setCore e c).mem = s.mem := rfl
@[simp] theorem State.setCore_poison (s : State) (e : EP) (c : Core) : (s.setCore e c).poison = s.poison := rfl
@[simp] theorem State.setCore_deltas (s : State) (e : EP) (c : Core) : (s.setCore e c).deltas = s.deltas := rfl
@[simp] theorem State.setCore_undo (s : State) (e : EP) (c : Core) : (s.setCore e c).undo = s.undo := rfl
@[simp] theorem State.setCore_reds (s : State) (e : EP) (c : Core) : (s.setCore e c).reds = s.reds := rfl
@[simp] theorem State.setCore_landings (s : State) (e : EP) (c : Core) : (s.setCore e c).landings = s.landings := rfl
@[simp] theorem State.setCore_updates (s : State) (e : EP) (c : Core) : (s.setCore e c).updates = s.updates := rfl
@[simp] theorem State.setCore_cords (s : State) (e : EP) (c : Core) : (s.setCore e c).cords = s.cords := rfl
@[simp] theorem State.setCore_statuses (s : State) (e : EP) (c : Core) : (s.setCore e c).statuses = s.statuses := rfl
@[simp] theorem State.setCore_fabricMsgs (s : State) (e : EP) (c : Core) : (s.setCore e c).fabricMsgs = s.fabricMsgs := rfl
@[simp] theorem State.setCore_packets (s : State) (e : EP) (c : Core) : (s.setCore e c).packets = s.packets := rfl
@[simp] theorem State.setCore_transit (s : State) (e : EP) (c : Core) : (s.setCore e c).transit = s.transit := rfl
@[simp] theorem State.setCore_frags (s : State) (e : EP) (c : Core) : (s.setCore e c).frags = s.frags := rfl
@[simp] theorem State.setCore_cx (s : State) (e : EP) (c : Core) : (s.setCore e c).cx = s.cx := rfl
@[simp] theorem State.setCore_others (s : State) (e : EP) (c : Core) : (s.setCore e c).others = s.others := rfl
@[simp] theorem State.setCore_ready (s : State) (e : EP) (c : Core) : (s.setCore e c).ready = s.ready := rfl
@[simp] theorem State.setCore_waiters (s : State) (e : EP) (c : Core) : (s.setCore e c).waiters = s.waiters := rfl
@[simp] theorem State.setCore_teams (s : State) (e : EP) (c : Core) : (s.setCore e c).teams = s.teams := rfl
@[simp] theorem State.setCore_feds (s : State) (e : EP) (c : Core) : (s.setCore e c).feds = s.feds := rfl
@[simp] theorem State.setCore_chips (s : State) (e : EP) (c : Core) : (s.setCore e c).chips = s.chips := rfl

/-! ### modCore -/
@[simp] theorem State.modCore_time (s : State) (e : EP) (f : Core → Core) : (s.modCore e f).time = s.time := rfl
@[simp] theorem State.modCore_freeIx (s : State) (e : EP) (f : Core → Core) : (s.modCore e f).freeIx = s.freeIx := rfl
@[simp] theorem State.modCore_nextId (s : State) (e : EP) (f : Core → Core) : (s.modCore e f).nextId = s.nextId := rfl
@[simp] theorem State.modCore_sel (s : State) (e : EP) (f : Core → Core) : (s.modCore e f).sel = s.sel := rfl
@[simp] theorem State.modCore_agenda (s : State) (e : EP) (f : Core → Core) : (s.modCore e f).agenda = s.agenda := rfl
@[simp] theorem State.modCore_upsets (s : State) (e : EP) (f : Core → Core) : (s.modCore e f).upsets = s.upsets := rfl
@[simp] theorem State.modCore_patience (s : State) (e : EP) (f : Core → Core) : (s.modCore e f).patience = s.patience := rfl
@[simp] theorem State.modCore_note (s : State) (e : EP) (f : Core → Core) : (s.modCore e f).note = s.note := rfl
@[simp] theorem State.modCore_mem (s : State) (e : EP) (f : Core → Core) : (s.modCore e f).mem = s.mem := rfl
@[simp] theorem State.modCore_poison (s : State) (e : EP) (f : Core → Core) : (s.modCore e f).poison = s.poison := rfl
@[simp] theorem State.modCore_deltas (s : State) (e : EP) (f : Core → Core) : (s.modCore e f).deltas = s.deltas := rfl
@[simp] theorem State.modCore_undo (s : State) (e : EP) (f : Core → Core) : (s.modCore e f).undo = s.undo := rfl
@[simp] theorem State.modCore_reds (s : State) (e : EP) (f : Core → Core) : (s.modCore e f).reds = s.reds := rfl
@[simp] theorem State.modCore_landings (s : State) (e : EP) (f : Core → Core) : (s.modCore e f).landings = s.landings := rfl
@[simp] theorem State.modCore_updates (s : State) (e : EP) (f : Core → Core) : (s.modCore e f).updates = s.updates := rfl
@[simp] theorem State.modCore_cords (s : State) (e : EP) (f : Core → Core) : (s.modCore e f).cords = s.cords := rfl
@[simp] theorem State.modCore_statuses (s : State) (e : EP) (f : Core → Core) : (s.modCore e f).statuses = s.statuses := rfl
@[simp] theorem State.modCore_fabricMsgs (s : State) (e : EP) (f : Core → Core) : (s.modCore e f).fabricMsgs = s.fabricMsgs := rfl
@[simp] theorem State.modCore_packets (s : State) (e : EP) (f : Core → Core) : (s.modCore e f).packets = s.packets := rfl
@[simp] theorem State.modCore_transit (s : State) (e : EP) (f : Core → Core) : (s.modCore e f).transit = s.transit := rfl
@[simp] theorem State.modCore_frags (s : State) (e : EP) (f : Core → Core) : (s.modCore e f).frags = s.frags := rfl
@[simp] theorem State.modCore_cx (s : State) (e : EP) (f : Core → Core) : (s.modCore e f).cx = s.cx := rfl
@[simp] theorem State.modCore_others (s : State) (e : EP) (f : Core → Core) : (s.modCore e f).others = s.others := rfl
@[simp] theorem State.modCore_ready (s : State) (e : EP) (f : Core → Core) : (s.modCore e f).ready = s.ready := rfl
@[simp] theorem State.modCore_waiters (s : State) (e : EP) (f : Core → Core) : (s.modCore e f).waiters = s.waiters := rfl
@[simp] theorem State.modCore_teams (s : State) (e : EP) (f : Core → Core) : (s.modCore e f).teams = s.teams := rfl
@[simp] theorem State.modCore_feds (s : State) (e : EP) (f : Core → Core) : (s.modCore e f).feds = s.feds := rfl
@[simp] theorem State.modCore_chips (s : State) (e : EP) (f : Core → Core) : (s.modCore e f).chips = s.chips := rfl

/-! ### setChip -/
@[simp] theorem State.setChip_time (s : State) (c : ChipNo) (x : Chip) : (s.setChip c x).time = s.time := rfl
@[simp] theorem State.setChip_freeIx (s : State) (c : ChipNo) (x : Chip) : (s.setChip c x).freeIx = s.freeIx := rfl
@[simp] theorem State.setChip_nextId (s : State) (c : ChipNo) (x : Chip) : (s.setChip c x).nextId = s.nextId := rfl
@[simp] theorem State.setChip_sel (s : State) (c : ChipNo) (x : Chip) : (s.setChip c x).sel = s.sel := rfl
@[simp] theorem State.setChip_agenda (s : State) (c : ChipNo) (x : Chip) : (s.setChip c x).agenda = s.agenda := rfl
@[simp] theorem State.setChip_upsets (s : State) (c : ChipNo) (x : Chip) : (s.setChip c x).upsets = s.upsets := rfl
@[simp] theorem State.setChip_patience (s : State) (c : ChipNo) (x : Chip) : (s.setChip c x).patience = s.patience := rfl
@[simp] theorem State.setChip_note (s : State) (c : ChipNo) (x : Chip) : (s.setChip c x).note = s.note := rfl
@[simp] theorem State.setChip_mem (s : State) (c : ChipNo) (x : Chip) : (s.setChip c x).mem = s.mem := rfl
@[simp] theorem State.setChip_poison (s : State) (c : ChipNo) (x : Chip) : (s.setChip c x).poison = s.poison := rfl
@[simp] theorem State.setChip_deltas (s : State) (c : ChipNo) (x : Chip) : (s.setChip c x).deltas = s.deltas := rfl
@[simp] theorem State.setChip_undo (s : State) (c : ChipNo) (x : Chip) : (s.setChip c x).undo = s.undo := rfl
@[simp] theorem State.setChip_reds (s : State) (c : ChipNo) (x : Chip) : (s.setChip c x).reds = s.reds := rfl
@[simp] theorem State.setChip_landings (s : State) (c : ChipNo) (x : Chip) : (s.setChip c x).landings = s.landings := rfl
@[simp] theorem State.setChip_updates (s : State) (c : ChipNo) (x : Chip) : (s.setChip c x).updates = s.updates := rfl
@[simp] theorem State.setChip_cords (s : State) (c : ChipNo) (x : Chip) : (s.setChip c x).cords = s.cords := rfl
@[simp] theorem State.setChip_statuses (s : State) (c : ChipNo) (x : Chip) : (s.setChip c x).statuses = s.statuses := rfl
@[simp] theorem State.setChip_fabricMsgs (s : State) (c : ChipNo) (x : Chip) : (s.setChip c x).fabricMsgs = s.fabricMsgs := rfl
@[simp] theorem State.setChip_packets (s : State) (c : ChipNo) (x : Chip) : (s.setChip c x).packets = s.packets := rfl
@[simp] theorem State.setChip_transit (s : State) (c : ChipNo) (x : Chip) : (s.setChip c x).transit = s.transit := rfl
@[simp] theorem State.setChip_frags (s : State) (c : ChipNo) (x : Chip) : (s.setChip c x).frags = s.frags := rfl
@[simp] theorem State.setChip_cx (s : State) (c : ChipNo) (x : Chip) : (s.setChip c x).cx = s.cx := rfl
@[simp] theorem State.setChip_others (s : State) (c : ChipNo) (x : Chip) : (s.setChip c x).others = s.others := rfl
@[simp] theorem State.setChip_cores (s : State) (c : ChipNo) (x : Chip) : (s.setChip c x).cores = s.cores := rfl
@[simp] theorem State.setChip_ready (s : State) (c : ChipNo) (x : Chip) : (s.setChip c x).ready = s.ready := rfl
@[simp] theorem State.setChip_waiters (s : State) (c : ChipNo) (x : Chip) : (s.setChip c x).waiters = s.waiters := rfl
@[simp] theorem State.setChip_teams (s : State) (c : ChipNo) (x : Chip) : (s.setChip c x).teams = s.teams := rfl
@[simp] theorem State.setChip_feds (s : State) (c : ChipNo) (x : Chip) : (s.setChip c x).feds = s.feds := rfl

/-! ### modChip -/
@[simp] theorem State.modChip_time (s : State) (c : ChipNo) (f : Chip → Chip) : (s.modChip c f).time = s.time := rfl
@[simp] theorem State.modChip_freeIx (s : State) (c : ChipNo) (f : Chip → Chip) : (s.modChip c f).freeIx = s.freeIx := rfl
@[simp] theorem State.modChip_nextId (s : State) (c : ChipNo) (f : Chip → Chip) : (s.modChip c f).nextId = s.nextId := rfl
@[simp] theorem State.modChip_sel (s : State) (c : ChipNo) (f : Chip → Chip) : (s.modChip c f).sel = s.sel := rfl
@[simp] theorem State.modChip_agenda (s : State) (c : ChipNo) (f : Chip → Chip) : (s.modChip c f).agenda = s.agenda := rfl
@[simp] theorem State.modChip_upsets (s : State) (c : ChipNo) (f : Chip → Chip) : (s.modChip c f).upsets = s.upsets := rfl
@[simp] theorem State.modChip_patience (s : State) (c : ChipNo) (f : Chip → Chip) : (s.modChip c f).patience = s.patience := rfl
@[simp] theorem State.modChip_note (s : State) (c : ChipNo) (f : Chip → Chip) : (s.modChip c f).note = s.note := rfl
@[simp] theorem State.modChip_mem (s : State) (c : ChipNo) (f : Chip → Chip) : (s.modChip c f).mem = s.mem := rfl
@[simp] theorem State.modChip_poison (s : State) (c : ChipNo) (f : Chip → Chip) : (s.modChip c f).poison = s.poison := rfl
@[simp] theorem State.modChip_deltas (s : State) (c : ChipNo) (f : Chip → Chip) : (s.modChip c f).deltas = s.deltas := rfl
@[simp] theorem State.modChip_undo (s : State) (c : ChipNo) (f : Chip → Chip) : (s.modChip c f).undo = s.undo := rfl
@[simp] theorem State.modChip_reds (s : State) (c : ChipNo) (f : Chip → Chip) : (s.modChip c f).reds = s.reds := rfl
@[simp] theorem State.modChip_landings (s : State) (c : ChipNo) (f : Chip → Chip) : (s.modChip c f).landings = s.landings := rfl
@[simp] theorem State.modChip_updates (s : State) (c : ChipNo) (f : Chip → Chip) : (s.modChip c f).updates = s.updates := rfl
@[simp] theorem State.modChip_cords (s : State) (c : ChipNo) (f : Chip → Chip) : (s.modChip c f).cords = s.cords := rfl
@[simp] theorem State.modChip_statuses (s : State) (c : ChipNo) (f : Chip → Chip) : (s.modChip c f).statuses = s.statuses := rfl
@[simp] theorem State.modChip_fabricMsgs (s : State) (c : ChipNo) (f : Chip → Chip) : (s.modChip c f).fabricMsgs = s.fabricMsgs := rfl
@[simp] theorem State.modChip_packets (s : State) (c : ChipNo) (f : Chip → Chip) : (s.modChip c f).packets = s.packets := rfl
@[simp] theorem State.modChip_transit (s : State) (c : ChipNo) (f : Chip → Chip) : (s.modChip c f).transit = s.transit := rfl
@[simp] theorem State.modChip_frags (s : State) (c : ChipNo) (f : Chip → Chip) : (s.modChip c f).frags = s.frags := rfl
@[simp] theorem State.modChip_cx (s : State) (c : ChipNo) (f : Chip → Chip) : (s.modChip c f).cx = s.cx := rfl
@[simp] theorem State.modChip_others (s : State) (c : ChipNo) (f : Chip → Chip) : (s.modChip c f).others = s.others := rfl
@[simp] theorem State.modChip_cores (s : State) (c : ChipNo) (f : Chip → Chip) : (s.modChip c f).cores = s.cores := rfl
@[simp] theorem State.modChip_ready (s : State) (c : ChipNo) (f : Chip → Chip) : (s.modChip c f).ready = s.ready := rfl
@[simp] theorem State.modChip_waiters (s : State) (c : ChipNo) (f : Chip → Chip) : (s.modChip c f).waiters = s.waiters := rfl
@[simp] theorem State.modChip_teams (s : State) (c : ChipNo) (f : Chip → Chip) : (s.modChip c f).teams = s.teams := rfl
@[simp] theorem State.modChip_feds (s : State) (c : ChipNo) (f : Chip → Chip) : (s.modChip c f).feds = s.feds := rfl

/-! ### modTeam -/
@[simp] theorem State.modTeam_time (s : State) (c : ChipNo) (t : Word32) (f : Team → Team) : (s.modTeam c t f).time = s.time := rfl
@[simp] theorem State.modTeam_freeIx (s : State) (c : ChipNo) (t : Word32) (f : Team → Team) : (s.modTeam c t f).freeIx = s.freeIx := rfl
@[simp] theorem State.modTeam_nextId (s : State) (c : ChipNo) (t : Word32) (f : Team → Team) : (s.modTeam c t f).nextId = s.nextId := rfl
@[simp] theorem State.modTeam_sel (s : State) (c : ChipNo) (t : Word32) (f : Team → Team) : (s.modTeam c t f).sel = s.sel := rfl
@[simp] theorem State.modTeam_agenda (s : State) (c : ChipNo) (t : Word32) (f : Team → Team) : (s.modTeam c t f).agenda = s.agenda := rfl
@[simp] theorem State.modTeam_upsets (s : State) (c : ChipNo) (t : Word32) (f : Team → Team) : (s.modTeam c t f).upsets = s.upsets := rfl
@[simp] theorem State.modTeam_patience (s : State) (c : ChipNo) (t : Word32) (f : Team → Team) : (s.modTeam c t f).patience = s.patience := rfl
@[simp] theorem State.modTeam_note (s : State) (c : ChipNo) (t : Word32) (f : Team → Team) : (s.modTeam c t f).note = s.note := rfl
@[simp] theorem State.modTeam_mem (s : State) (c : ChipNo) (t : Word32) (f : Team → Team) : (s.modTeam c t f).mem = s.mem := rfl
@[simp] theorem State.modTeam_poison (s : State) (c : ChipNo) (t : Word32) (f : Team → Team) : (s.modTeam c t f).poison = s.poison := rfl
@[simp] theorem State.modTeam_deltas (s : State) (c : ChipNo) (t : Word32) (f : Team → Team) : (s.modTeam c t f).deltas = s.deltas := rfl
@[simp] theorem State.modTeam_undo (s : State) (c : ChipNo) (t : Word32) (f : Team → Team) : (s.modTeam c t f).undo = s.undo := rfl
@[simp] theorem State.modTeam_reds (s : State) (c : ChipNo) (t : Word32) (f : Team → Team) : (s.modTeam c t f).reds = s.reds := rfl
@[simp] theorem State.modTeam_landings (s : State) (c : ChipNo) (t : Word32) (f : Team → Team) : (s.modTeam c t f).landings = s.landings := rfl
@[simp] theorem State.modTeam_updates (s : State) (c : ChipNo) (t : Word32) (f : Team → Team) : (s.modTeam c t f).updates = s.updates := rfl
@[simp] theorem State.modTeam_cords (s : State) (c : ChipNo) (t : Word32) (f : Team → Team) : (s.modTeam c t f).cords = s.cords := rfl
@[simp] theorem State.modTeam_statuses (s : State) (c : ChipNo) (t : Word32) (f : Team → Team) : (s.modTeam c t f).statuses = s.statuses := rfl
@[simp] theorem State.modTeam_fabricMsgs (s : State) (c : ChipNo) (t : Word32) (f : Team → Team) : (s.modTeam c t f).fabricMsgs = s.fabricMsgs := rfl
@[simp] theorem State.modTeam_packets (s : State) (c : ChipNo) (t : Word32) (f : Team → Team) : (s.modTeam c t f).packets = s.packets := rfl
@[simp] theorem State.modTeam_transit (s : State) (c : ChipNo) (t : Word32) (f : Team → Team) : (s.modTeam c t f).transit = s.transit := rfl
@[simp] theorem State.modTeam_frags (s : State) (c : ChipNo) (t : Word32) (f : Team → Team) : (s.modTeam c t f).frags = s.frags := rfl
@[simp] theorem State.modTeam_cx (s : State) (c : ChipNo) (t : Word32) (f : Team → Team) : (s.modTeam c t f).cx = s.cx := rfl
@[simp] theorem State.modTeam_others (s : State) (c : ChipNo) (t : Word32) (f : Team → Team) : (s.modTeam c t f).others = s.others := rfl
@[simp] theorem State.modTeam_cores (s : State) (c : ChipNo) (t : Word32) (f : Team → Team) : (s.modTeam c t f).cores = s.cores := rfl
@[simp] theorem State.modTeam_ready (s : State) (c : ChipNo) (t : Word32) (f : Team → Team) : (s.modTeam c t f).ready = s.ready := rfl
@[simp] theorem State.modTeam_waiters (s : State) (c : ChipNo) (t : Word32) (f : Team → Team) : (s.modTeam c t f).waiters = s.waiters := rfl
@[simp] theorem State.modTeam_feds (s : State) (c : ChipNo) (t : Word32) (f : Team → Team) : (s.modTeam c t f).feds = s.feds := rfl
@[simp] theorem State.modTeam_chips (s : State) (c : ChipNo) (t : Word32) (f : Team → Team) : (s.modTeam c t f).chips = s.chips := rfl

/-! ### Context.setGr -/
@[simp] theorem Context.setGr_ep (c : Context) (r : GReg) (v : Word) : (c.setGr r v).ep = c.ep := by unfold Context.setGr; split <;> rfl
@[simp] theorem Context.setGr_no (c : Context) (r : GReg) (v : Word) : (c.setGr r v).no = c.no := by unfold Context.setGr; split <;> rfl
@[simp] theorem Context.setGr_mode (c : Context) (r : GReg) (v : Word) : (c.setGr r v).mode = c.mode := by unfold Context.setGr; split <;> rfl
@[simp] theorem Context.setGr_priv (c : Context) (r : GReg) (v : Word) : (c.setGr r v).priv = c.priv := by unfold Context.setGr; split <;> rfl
@[simp] theorem Context.setGr_chip (c : Context) (r : GReg) (v : Word) : (c.setGr r v).chip = c.chip := by unfold Context.setGr; split <;> rfl
@[simp] theorem Context.setGr_team (c : Context) (r : GReg) (v : Word) : (c.setGr r v).team = c.team := by unfold Context.setGr; split <;> rfl
@[simp] theorem Context.setGr_rank (c : Context) (r : GReg) (v : Word) : (c.setGr r v).rank = c.rank := by unfold Context.setGr; split <;> rfl
@[simp] theorem Context.setGr_recA (c : Context) (r : GReg) (v : Word) : (c.setGr r v).recA = c.recA := by unfold Context.setGr; split <;> rfl
@[simp] theorem Context.setGr_pc (c : Context) (r : GReg) (v : Word) : (c.setGr r v).pc = c.pc := by unfold Context.setGr; split <;> rfl
@[simp] theorem Context.setGr_gGran (c : Context) (r : GReg) (v : Word) : (c.setGr r v).gGran = c.gGran := by unfold Context.setGr; split <;> rfl
@[simp] theorem Context.setGr_vGran (c : Context) (r : GReg) (v : Word) : (c.setGr r v).vGran = c.vGran := by unfold Context.setGr; split <;> rfl
@[simp] theorem Context.setGr_v (c : Context) (r : GReg) (v : Word) : (c.setGr r v).v = c.v := by unfold Context.setGr; split <;> rfl
@[simp] theorem Context.setGr_k (c : Context) (r : GReg) (v : Word) : (c.setGr r v).k = c.k := by unfold Context.setGr; split <;> rfl
@[simp] theorem Context.setGr_p (c : Context) (r : GReg) (v : Word) : (c.setGr r v).p = c.p := by unfold Context.setGr; split <;> rfl
@[simp] theorem Context.setGr_q (c : Context) (r : GReg) (v : Word) : (c.setGr r v).q = c.q := by unfold Context.setGr; split <;> rfl
@[simp] theorem Context.setGr_fflags (c : Context) (r : GReg) (v : Word) : (c.setGr r v).fflags = c.fflags := by unfold Context.setGr; split <;> rfl
@[simp] theorem Context.setGr_rep (c : Context) (r : GReg) (v : Word) : (c.setGr r v).rep = c.rep := by unfold Context.setGr; split <;> rfl
@[simp] theorem Context.setGr_vq (c : Context) (r : GReg) (v : Word) : (c.setGr r v).vq = c.vq := by unfold Context.setGr; split <;> rfl
@[simp] theorem Context.setGr_sig (c : Context) (r : GReg) (v : Word) : (c.setGr r v).sig = c.sig := by unfold Context.setGr; split <;> rfl
@[simp] theorem Context.setGr_sync (c : Context) (r : GReg) (v : Word) : (c.setGr r v).sync = c.sync := by unfold Context.setGr; split <;> rfl
@[simp] theorem Context.setGr_caps (c : Context) (r : GReg) (v : Word) : (c.setGr r v).caps = c.caps := by unfold Context.setGr; split <;> rfl
@[simp] theorem Context.setGr_vAllot (c : Context) (r : GReg) (v : Word) : (c.setGr r v).vAllot = c.vAllot := by unfold Context.setGr; split <;> rfl
@[simp] theorem Context.setGr_capG2 (c : Context) (r : GReg) (v : Word) : (c.setGr r v).capG2 = c.capG2 := by unfold Context.setGr; split <;> rfl
@[simp] theorem Context.setGr_vsrc (c : Context) (r : GReg) (v : Word) : (c.setGr r v).vsrc = c.vsrc := by unfold Context.setGr; split <;> rfl
@[simp] theorem Context.setGr_ipc (c : Context) (r : GReg) (v : Word) : (c.setGr r v).ipc = c.ipc := by unfold Context.setGr; split <;> rfl
@[simp] theorem Context.setGr_pairEnd (c : Context) (r : GReg) (v : Word) : (c.setGr r v).pairEnd = c.pairEnd := by unfold Context.setGr; split <;> rfl
@[simp] theorem Context.setGr_half (c : Context) (r : GReg) (v : Word) : (c.setGr r v).half = c.half := by unfold Context.setGr; split <;> rfl
@[simp] theorem Context.setGr_faulting (c : Context) (r : GReg) (v : Word) : (c.setGr r v).faulting = c.faulting := by unfold Context.setGr; split <;> rfl
@[simp] theorem Context.setGr_ranC (c : Context) (r : GReg) (v : Word) : (c.setGr r v).ranC = c.ranC := by unfold Context.setGr; split <;> rfl
@[simp] theorem Context.setGr_ranV (c : Context) (r : GReg) (v : Word) : (c.setGr r v).ranV = c.ranV := by unfold Context.setGr; split <;> rfl
@[simp] theorem Context.setGr_reissuing (c : Context) (r : GReg) (v : Word) : (c.setGr r v).reissuing = c.reissuing := by unfold Context.setGr; split <;> rfl
@[simp] theorem Context.setGr_iterNo (c : Context) (r : GReg) (v : Word) : (c.setGr r v).iterNo = c.iterNo := by unfold Context.setGr; split <;> rfl
@[simp] theorem Context.setGr_entered (c : Context) (r : GReg) (v : Word) : (c.setGr r v).entered = c.entered := by unfold Context.setGr; split <;> rfl
@[simp] theorem Context.setGr_gang (c : Context) (r : GReg) (v : Word) : (c.setGr r v).gang = c.gang := by unfold Context.setGr; split <;> rfl
@[simp] theorem Context.setGr_line (c : Context) (r : GReg) (v : Word) : (c.setGr r v).line = c.line := by unfold Context.setGr; split <;> rfl
@[simp] theorem Context.setGr_hurt (c : Context) (r : GReg) (v : Word) : (c.setGr r v).hurt = c.hurt := by unfold Context.setGr; split <;> rfl
@[simp] theorem Context.setGr_req (c : Context) (r : GReg) (v : Word) : (c.setGr r v).req = c.req := by unfold Context.setGr; split <;> rfl

/-! ### Context.setVr -/
@[simp] theorem Context.setVr_ep (c : Context) (r : VReg) (v : VWord) : (c.setVr r v).ep = c.ep := rfl
@[simp] theorem Context.setVr_no (c : Context) (r : VReg) (v : VWord) : (c.setVr r v).no = c.no := rfl
@[simp] theorem Context.setVr_mode (c : Context) (r : VReg) (v : VWord) : (c.setVr r v).mode = c.mode := rfl
@[simp] theorem Context.setVr_priv (c : Context) (r : VReg) (v : VWord) : (c.setVr r v).priv = c.priv := rfl
@[simp] theorem Context.setVr_chip (c : Context) (r : VReg) (v : VWord) : (c.setVr r v).chip = c.chip := rfl
@[simp] theorem Context.setVr_team (c : Context) (r : VReg) (v : VWord) : (c.setVr r v).team = c.team := rfl
@[simp] theorem Context.setVr_rank (c : Context) (r : VReg) (v : VWord) : (c.setVr r v).rank = c.rank := rfl
@[simp] theorem Context.setVr_recA (c : Context) (r : VReg) (v : VWord) : (c.setVr r v).recA = c.recA := rfl
@[simp] theorem Context.setVr_pc (c : Context) (r : VReg) (v : VWord) : (c.setVr r v).pc = c.pc := rfl
@[simp] theorem Context.setVr_gGran (c : Context) (r : VReg) (v : VWord) : (c.setVr r v).gGran = c.gGran := rfl
@[simp] theorem Context.setVr_vGran (c : Context) (r : VReg) (v : VWord) : (c.setVr r v).vGran = c.vGran := rfl
@[simp] theorem Context.setVr_g (c : Context) (r : VReg) (v : VWord) : (c.setVr r v).g = c.g := rfl
@[simp] theorem Context.setVr_k (c : Context) (r : VReg) (v : VWord) : (c.setVr r v).k = c.k := rfl
@[simp] theorem Context.setVr_p (c : Context) (r : VReg) (v : VWord) : (c.setVr r v).p = c.p := rfl
@[simp] theorem Context.setVr_q (c : Context) (r : VReg) (v : VWord) : (c.setVr r v).q = c.q := rfl
@[simp] theorem Context.setVr_fflags (c : Context) (r : VReg) (v : VWord) : (c.setVr r v).fflags = c.fflags := rfl
@[simp] theorem Context.setVr_rep (c : Context) (r : VReg) (v : VWord) : (c.setVr r v).rep = c.rep := rfl
@[simp] theorem Context.setVr_vq (c : Context) (r : VReg) (v : VWord) : (c.setVr r v).vq = c.vq := rfl
@[simp] theorem Context.setVr_sig (c : Context) (r : VReg) (v : VWord) : (c.setVr r v).sig = c.sig := rfl
@[simp] theorem Context.setVr_sync (c : Context) (r : VReg) (v : VWord) : (c.setVr r v).sync = c.sync := rfl
@[simp] theorem Context.setVr_caps (c : Context) (r : VReg) (v : VWord) : (c.setVr r v).caps = c.caps := rfl
@[simp] theorem Context.setVr_vAllot (c : Context) (r : VReg) (v : VWord) : (c.setVr r v).vAllot = c.vAllot := rfl
@[simp] theorem Context.setVr_capG2 (c : Context) (r : VReg) (v : VWord) : (c.setVr r v).capG2 = c.capG2 := rfl
@[simp] theorem Context.setVr_vsrc (c : Context) (r : VReg) (v : VWord) : (c.setVr r v).vsrc = c.vsrc := rfl
@[simp] theorem Context.setVr_ipc (c : Context) (r : VReg) (v : VWord) : (c.setVr r v).ipc = c.ipc := rfl
@[simp] theorem Context.setVr_pairEnd (c : Context) (r : VReg) (v : VWord) : (c.setVr r v).pairEnd = c.pairEnd := rfl
@[simp] theorem Context.setVr_half (c : Context) (r : VReg) (v : VWord) : (c.setVr r v).half = c.half := rfl
@[simp] theorem Context.setVr_faulting (c : Context) (r : VReg) (v : VWord) : (c.setVr r v).faulting = c.faulting := rfl
@[simp] theorem Context.setVr_ranC (c : Context) (r : VReg) (v : VWord) : (c.setVr r v).ranC = c.ranC := rfl
@[simp] theorem Context.setVr_ranV (c : Context) (r : VReg) (v : VWord) : (c.setVr r v).ranV = c.ranV := rfl
@[simp] theorem Context.setVr_reissuing (c : Context) (r : VReg) (v : VWord) : (c.setVr r v).reissuing = c.reissuing := rfl
@[simp] theorem Context.setVr_iterNo (c : Context) (r : VReg) (v : VWord) : (c.setVr r v).iterNo = c.iterNo := rfl
@[simp] theorem Context.setVr_entered (c : Context) (r : VReg) (v : VWord) : (c.setVr r v).entered = c.entered := rfl
@[simp] theorem Context.setVr_gang (c : Context) (r : VReg) (v : VWord) : (c.setVr r v).gang = c.gang := rfl
@[simp] theorem Context.setVr_line (c : Context) (r : VReg) (v : VWord) : (c.setVr r v).line = c.line := rfl
@[simp] theorem Context.setVr_hurt (c : Context) (r : VReg) (v : VWord) : (c.setVr r v).hurt = c.hurt := rfl
@[simp] theorem Context.setVr_req (c : Context) (r : VReg) (v : VWord) : (c.setVr r v).req = c.req := rfl

/-! ### Context.setKr -/
@[simp] theorem Context.setKr_ep (c : Context) (r : KReg) (v : Mask) : (c.setKr r v).ep = c.ep := rfl
@[simp] theorem Context.setKr_no (c : Context) (r : KReg) (v : Mask) : (c.setKr r v).no = c.no := rfl
@[simp] theorem Context.setKr_mode (c : Context) (r : KReg) (v : Mask) : (c.setKr r v).mode = c.mode := rfl
@[simp] theorem Context.setKr_priv (c : Context) (r : KReg) (v : Mask) : (c.setKr r v).priv = c.priv := rfl
@[simp] theorem Context.setKr_chip (c : Context) (r : KReg) (v : Mask) : (c.setKr r v).chip = c.chip := rfl
@[simp] theorem Context.setKr_team (c : Context) (r : KReg) (v : Mask) : (c.setKr r v).team = c.team := rfl
@[simp] theorem Context.setKr_rank (c : Context) (r : KReg) (v : Mask) : (c.setKr r v).rank = c.rank := rfl
@[simp] theorem Context.setKr_recA (c : Context) (r : KReg) (v : Mask) : (c.setKr r v).recA = c.recA := rfl
@[simp] theorem Context.setKr_pc (c : Context) (r : KReg) (v : Mask) : (c.setKr r v).pc = c.pc := rfl
@[simp] theorem Context.setKr_gGran (c : Context) (r : KReg) (v : Mask) : (c.setKr r v).gGran = c.gGran := rfl
@[simp] theorem Context.setKr_vGran (c : Context) (r : KReg) (v : Mask) : (c.setKr r v).vGran = c.vGran := rfl
@[simp] theorem Context.setKr_g (c : Context) (r : KReg) (v : Mask) : (c.setKr r v).g = c.g := rfl
@[simp] theorem Context.setKr_v (c : Context) (r : KReg) (v : Mask) : (c.setKr r v).v = c.v := rfl
@[simp] theorem Context.setKr_p (c : Context) (r : KReg) (v : Mask) : (c.setKr r v).p = c.p := rfl
@[simp] theorem Context.setKr_q (c : Context) (r : KReg) (v : Mask) : (c.setKr r v).q = c.q := rfl
@[simp] theorem Context.setKr_fflags (c : Context) (r : KReg) (v : Mask) : (c.setKr r v).fflags = c.fflags := rfl
@[simp] theorem Context.setKr_rep (c : Context) (r : KReg) (v : Mask) : (c.setKr r v).rep = c.rep := rfl
@[simp] theorem Context.setKr_vq (c : Context) (r : KReg) (v : Mask) : (c.setKr r v).vq = c.vq := rfl
@[simp] theorem Context.setKr_sig (c : Context) (r : KReg) (v : Mask) : (c.setKr r v).sig = c.sig := rfl
@[simp] theorem Context.setKr_sync (c : Context) (r : KReg) (v : Mask) : (c.setKr r v).sync = c.sync := rfl
@[simp] theorem Context.setKr_caps (c : Context) (r : KReg) (v : Mask) : (c.setKr r v).caps = c.caps := rfl
@[simp] theorem Context.setKr_vAllot (c : Context) (r : KReg) (v : Mask) : (c.setKr r v).vAllot = c.vAllot := rfl
@[simp] theorem Context.setKr_capG2 (c : Context) (r : KReg) (v : Mask) : (c.setKr r v).capG2 = c.capG2 := rfl
@[simp] theorem Context.setKr_vsrc (c : Context) (r : KReg) (v : Mask) : (c.setKr r v).vsrc = c.vsrc := rfl
@[simp] theorem Context.setKr_ipc (c : Context) (r : KReg) (v : Mask) : (c.setKr r v).ipc = c.ipc := rfl
@[simp] theorem Context.setKr_pairEnd (c : Context) (r : KReg) (v : Mask) : (c.setKr r v).pairEnd = c.pairEnd := rfl
@[simp] theorem Context.setKr_half (c : Context) (r : KReg) (v : Mask) : (c.setKr r v).half = c.half := rfl
@[simp] theorem Context.setKr_faulting (c : Context) (r : KReg) (v : Mask) : (c.setKr r v).faulting = c.faulting := rfl
@[simp] theorem Context.setKr_ranC (c : Context) (r : KReg) (v : Mask) : (c.setKr r v).ranC = c.ranC := rfl
@[simp] theorem Context.setKr_ranV (c : Context) (r : KReg) (v : Mask) : (c.setKr r v).ranV = c.ranV := rfl
@[simp] theorem Context.setKr_reissuing (c : Context) (r : KReg) (v : Mask) : (c.setKr r v).reissuing = c.reissuing := rfl
@[simp] theorem Context.setKr_iterNo (c : Context) (r : KReg) (v : Mask) : (c.setKr r v).iterNo = c.iterNo := rfl
@[simp] theorem Context.setKr_entered (c : Context) (r : KReg) (v : Mask) : (c.setKr r v).entered = c.entered := rfl
@[simp] theorem Context.setKr_gang (c : Context) (r : KReg) (v : Mask) : (c.setKr r v).gang = c.gang := rfl
@[simp] theorem Context.setKr_line (c : Context) (r : KReg) (v : Mask) : (c.setKr r v).line = c.line := rfl
@[simp] theorem Context.setKr_hurt (c : Context) (r : KReg) (v : Mask) : (c.setKr r v).hurt = c.hurt := rfl
@[simp] theorem Context.setKr_req (c : Context) (r : KReg) (v : Mask) : (c.setKr r v).req = c.req := rfl

/-! ### Context.setPr -/
@[simp] theorem Context.setPr_ep (c : Context) (r : PReg) (v : Bool) : (c.setPr r v).ep = c.ep := by unfold Context.setPr; split <;> rfl
@[simp] theorem Context.setPr_no (c : Context) (r : PReg) (v : Bool) : (c.setPr r v).no = c.no := by unfold Context.setPr; split <;> rfl
@[simp] theorem Context.setPr_mode (c : Context) (r : PReg) (v : Bool) : (c.setPr r v).mode = c.mode := by unfold Context.setPr; split <;> rfl
@[simp] theorem Context.setPr_priv (c : Context) (r : PReg) (v : Bool) : (c.setPr r v).priv = c.priv := by unfold Context.setPr; split <;> rfl
@[simp] theorem Context.setPr_chip (c : Context) (r : PReg) (v : Bool) : (c.setPr r v).chip = c.chip := by unfold Context.setPr; split <;> rfl
@[simp] theorem Context.setPr_team (c : Context) (r : PReg) (v : Bool) : (c.setPr r v).team = c.team := by unfold Context.setPr; split <;> rfl
@[simp] theorem Context.setPr_rank (c : Context) (r : PReg) (v : Bool) : (c.setPr r v).rank = c.rank := by unfold Context.setPr; split <;> rfl
@[simp] theorem Context.setPr_recA (c : Context) (r : PReg) (v : Bool) : (c.setPr r v).recA = c.recA := by unfold Context.setPr; split <;> rfl
@[simp] theorem Context.setPr_pc (c : Context) (r : PReg) (v : Bool) : (c.setPr r v).pc = c.pc := by unfold Context.setPr; split <;> rfl
@[simp] theorem Context.setPr_gGran (c : Context) (r : PReg) (v : Bool) : (c.setPr r v).gGran = c.gGran := by unfold Context.setPr; split <;> rfl
@[simp] theorem Context.setPr_vGran (c : Context) (r : PReg) (v : Bool) : (c.setPr r v).vGran = c.vGran := by unfold Context.setPr; split <;> rfl
@[simp] theorem Context.setPr_g (c : Context) (r : PReg) (v : Bool) : (c.setPr r v).g = c.g := by unfold Context.setPr; split <;> rfl
@[simp] theorem Context.setPr_v (c : Context) (r : PReg) (v : Bool) : (c.setPr r v).v = c.v := by unfold Context.setPr; split <;> rfl
@[simp] theorem Context.setPr_k (c : Context) (r : PReg) (v : Bool) : (c.setPr r v).k = c.k := by unfold Context.setPr; split <;> rfl
@[simp] theorem Context.setPr_q (c : Context) (r : PReg) (v : Bool) : (c.setPr r v).q = c.q := by unfold Context.setPr; split <;> rfl
@[simp] theorem Context.setPr_fflags (c : Context) (r : PReg) (v : Bool) : (c.setPr r v).fflags = c.fflags := by unfold Context.setPr; split <;> rfl
@[simp] theorem Context.setPr_rep (c : Context) (r : PReg) (v : Bool) : (c.setPr r v).rep = c.rep := by unfold Context.setPr; split <;> rfl
@[simp] theorem Context.setPr_vq (c : Context) (r : PReg) (v : Bool) : (c.setPr r v).vq = c.vq := by unfold Context.setPr; split <;> rfl
@[simp] theorem Context.setPr_sig (c : Context) (r : PReg) (v : Bool) : (c.setPr r v).sig = c.sig := by unfold Context.setPr; split <;> rfl
@[simp] theorem Context.setPr_sync (c : Context) (r : PReg) (v : Bool) : (c.setPr r v).sync = c.sync := by unfold Context.setPr; split <;> rfl
@[simp] theorem Context.setPr_caps (c : Context) (r : PReg) (v : Bool) : (c.setPr r v).caps = c.caps := by unfold Context.setPr; split <;> rfl
@[simp] theorem Context.setPr_vAllot (c : Context) (r : PReg) (v : Bool) : (c.setPr r v).vAllot = c.vAllot := by unfold Context.setPr; split <;> rfl
@[simp] theorem Context.setPr_capG2 (c : Context) (r : PReg) (v : Bool) : (c.setPr r v).capG2 = c.capG2 := by unfold Context.setPr; split <;> rfl
@[simp] theorem Context.setPr_vsrc (c : Context) (r : PReg) (v : Bool) : (c.setPr r v).vsrc = c.vsrc := by unfold Context.setPr; split <;> rfl
@[simp] theorem Context.setPr_ipc (c : Context) (r : PReg) (v : Bool) : (c.setPr r v).ipc = c.ipc := by unfold Context.setPr; split <;> rfl
@[simp] theorem Context.setPr_pairEnd (c : Context) (r : PReg) (v : Bool) : (c.setPr r v).pairEnd = c.pairEnd := by unfold Context.setPr; split <;> rfl
@[simp] theorem Context.setPr_half (c : Context) (r : PReg) (v : Bool) : (c.setPr r v).half = c.half := by unfold Context.setPr; split <;> rfl
@[simp] theorem Context.setPr_faulting (c : Context) (r : PReg) (v : Bool) : (c.setPr r v).faulting = c.faulting := by unfold Context.setPr; split <;> rfl
@[simp] theorem Context.setPr_ranC (c : Context) (r : PReg) (v : Bool) : (c.setPr r v).ranC = c.ranC := by unfold Context.setPr; split <;> rfl
@[simp] theorem Context.setPr_ranV (c : Context) (r : PReg) (v : Bool) : (c.setPr r v).ranV = c.ranV := by unfold Context.setPr; split <;> rfl
@[simp] theorem Context.setPr_reissuing (c : Context) (r : PReg) (v : Bool) : (c.setPr r v).reissuing = c.reissuing := by unfold Context.setPr; split <;> rfl
@[simp] theorem Context.setPr_iterNo (c : Context) (r : PReg) (v : Bool) : (c.setPr r v).iterNo = c.iterNo := by unfold Context.setPr; split <;> rfl
@[simp] theorem Context.setPr_entered (c : Context) (r : PReg) (v : Bool) : (c.setPr r v).entered = c.entered := by unfold Context.setPr; split <;> rfl
@[simp] theorem Context.setPr_gang (c : Context) (r : PReg) (v : Bool) : (c.setPr r v).gang = c.gang := by unfold Context.setPr; split <;> rfl
@[simp] theorem Context.setPr_line (c : Context) (r : PReg) (v : Bool) : (c.setPr r v).line = c.line := by unfold Context.setPr; split <;> rfl
@[simp] theorem Context.setPr_hurt (c : Context) (r : PReg) (v : Bool) : (c.setPr r v).hurt = c.hurt := by unfold Context.setPr; split <;> rfl
@[simp] theorem Context.setPr_req (c : Context) (r : PReg) (v : Bool) : (c.setPr r v).req = c.req := by unfold Context.setPr; split <;> rfl

/-! ### Context.setQr -/
@[simp] theorem Context.setQr_ep (c : Context) (r : QReg) (v : List Word) : (c.setQr r v).ep = c.ep := rfl
@[simp] theorem Context.setQr_no (c : Context) (r : QReg) (v : List Word) : (c.setQr r v).no = c.no := rfl
@[simp] theorem Context.setQr_mode (c : Context) (r : QReg) (v : List Word) : (c.setQr r v).mode = c.mode := rfl
@[simp] theorem Context.setQr_priv (c : Context) (r : QReg) (v : List Word) : (c.setQr r v).priv = c.priv := rfl
@[simp] theorem Context.setQr_chip (c : Context) (r : QReg) (v : List Word) : (c.setQr r v).chip = c.chip := rfl
@[simp] theorem Context.setQr_team (c : Context) (r : QReg) (v : List Word) : (c.setQr r v).team = c.team := rfl
@[simp] theorem Context.setQr_rank (c : Context) (r : QReg) (v : List Word) : (c.setQr r v).rank = c.rank := rfl
@[simp] theorem Context.setQr_recA (c : Context) (r : QReg) (v : List Word) : (c.setQr r v).recA = c.recA := rfl
@[simp] theorem Context.setQr_pc (c : Context) (r : QReg) (v : List Word) : (c.setQr r v).pc = c.pc := rfl
@[simp] theorem Context.setQr_gGran (c : Context) (r : QReg) (v : List Word) : (c.setQr r v).gGran = c.gGran := rfl
@[simp] theorem Context.setQr_vGran (c : Context) (r : QReg) (v : List Word) : (c.setQr r v).vGran = c.vGran := rfl
@[simp] theorem Context.setQr_g (c : Context) (r : QReg) (v : List Word) : (c.setQr r v).g = c.g := rfl
@[simp] theorem Context.setQr_v (c : Context) (r : QReg) (v : List Word) : (c.setQr r v).v = c.v := rfl
@[simp] theorem Context.setQr_k (c : Context) (r : QReg) (v : List Word) : (c.setQr r v).k = c.k := rfl
@[simp] theorem Context.setQr_p (c : Context) (r : QReg) (v : List Word) : (c.setQr r v).p = c.p := rfl
@[simp] theorem Context.setQr_fflags (c : Context) (r : QReg) (v : List Word) : (c.setQr r v).fflags = c.fflags := rfl
@[simp] theorem Context.setQr_rep (c : Context) (r : QReg) (v : List Word) : (c.setQr r v).rep = c.rep := rfl
@[simp] theorem Context.setQr_vq (c : Context) (r : QReg) (v : List Word) : (c.setQr r v).vq = c.vq := rfl
@[simp] theorem Context.setQr_sig (c : Context) (r : QReg) (v : List Word) : (c.setQr r v).sig = c.sig := rfl
@[simp] theorem Context.setQr_sync (c : Context) (r : QReg) (v : List Word) : (c.setQr r v).sync = c.sync := rfl
@[simp] theorem Context.setQr_caps (c : Context) (r : QReg) (v : List Word) : (c.setQr r v).caps = c.caps := rfl
@[simp] theorem Context.setQr_vAllot (c : Context) (r : QReg) (v : List Word) : (c.setQr r v).vAllot = c.vAllot := rfl
@[simp] theorem Context.setQr_capG2 (c : Context) (r : QReg) (v : List Word) : (c.setQr r v).capG2 = c.capG2 := rfl
@[simp] theorem Context.setQr_vsrc (c : Context) (r : QReg) (v : List Word) : (c.setQr r v).vsrc = c.vsrc := rfl
@[simp] theorem Context.setQr_ipc (c : Context) (r : QReg) (v : List Word) : (c.setQr r v).ipc = c.ipc := rfl
@[simp] theorem Context.setQr_pairEnd (c : Context) (r : QReg) (v : List Word) : (c.setQr r v).pairEnd = c.pairEnd := rfl
@[simp] theorem Context.setQr_half (c : Context) (r : QReg) (v : List Word) : (c.setQr r v).half = c.half := rfl
@[simp] theorem Context.setQr_faulting (c : Context) (r : QReg) (v : List Word) : (c.setQr r v).faulting = c.faulting := rfl
@[simp] theorem Context.setQr_ranC (c : Context) (r : QReg) (v : List Word) : (c.setQr r v).ranC = c.ranC := rfl
@[simp] theorem Context.setQr_ranV (c : Context) (r : QReg) (v : List Word) : (c.setQr r v).ranV = c.ranV := rfl
@[simp] theorem Context.setQr_reissuing (c : Context) (r : QReg) (v : List Word) : (c.setQr r v).reissuing = c.reissuing := rfl
@[simp] theorem Context.setQr_iterNo (c : Context) (r : QReg) (v : List Word) : (c.setQr r v).iterNo = c.iterNo := rfl
@[simp] theorem Context.setQr_entered (c : Context) (r : QReg) (v : List Word) : (c.setQr r v).entered = c.entered := rfl
@[simp] theorem Context.setQr_gang (c : Context) (r : QReg) (v : List Word) : (c.setQr r v).gang = c.gang := rfl
@[simp] theorem Context.setQr_line (c : Context) (r : QReg) (v : List Word) : (c.setQr r v).line = c.line := rfl
@[simp] theorem Context.setQr_hurt (c : Context) (r : QReg) (v : List Word) : (c.setQr r v).hurt = c.hurt := rfl
@[simp] theorem Context.setQr_req (c : Context) (r : QReg) (v : List Word) : (c.setQr r v).req = c.req := rfl

/-! ### Where the executing context goes -/
@[simp] theorem State.setG_cx (s : State) (r : GReg) (v : Word) : (s.setG r v).cx = s.cx.setGr r v := rfl
@[simp] theorem State.setV_cx (s : State) (r : VReg) (v : VWord) : (s.setV r v).cx = s.cx.setVr r v := rfl
@[simp] theorem State.setK_cx (s : State) (r : KReg) (v : Mask) : (s.setK r v).cx = s.cx.setKr r v := rfl
@[simp] theorem State.setP_cx (s : State) (r : PReg) (v : Bool) : (s.setP r v).cx = s.cx.setPr r v := rfl
@[simp] theorem State.setQ_cx (s : State) (r : QReg) (v : List Word) : (s.setQ r v).cx = s.cx.setQr r v := rfl

/-! ### Reading a register after a write (R23) -/

/-- g0 reads as zero. -/
@[simp] theorem State.g_zero (s : State) : s.g 0 = 0 := rfl
/-- A write to g0 is discarded. -/
@[simp] theorem State.setG_zero (s : State) (v : Word) : s.setG 0 v = s := rfl
/-- p0 reads as 1. -/
@[simp] theorem State.p_zero (s : State) : s.p 0 = true := rfl
@[simp] theorem State.setP_zero (s : State) (v : Bool) : s.setP 0 v = s := rfl

theorem toNat_ne {n : Nat} {a b : BitVec n} (h : a ≠ b) : a.toNat ≠ b.toNat := fun e => h (BitVec.eq_of_toNat_eq e)

theorem State.g_setG_same (s : State) (r : GReg) (v : Word) (h : r ≠ 0) (hc : s.cx.vsrc = .control) : (s.setG r v).g r = v := by
  simp only [State.g, State.setG, Context.gr, Context.setGr, if_neg h, hc, Vector.getElem_set_self]

theorem State.g_setG_ne (s : State) (r x : GReg) (v : Word) (h : x ≠ r) : (s.setG r v).g x = s.g x := by
  unfold State.g State.setG Context.setGr
  split
  · rfl
  · simp only [Context.gr, Vector.getElem_set, if_neg (toNat_ne h).symm]

theorem State.p_setP_same (s : State) (r : PReg) (v : Bool) (h : r ≠ 0) : (s.setP r v).p r = v := by
  simp only [State.p, State.setP, Context.pr, Context.setPr, if_neg h, Vector.getElem_set_self]

theorem State.p_setP_ne (s : State) (r x : PReg) (v : Bool) (h : x ≠ r) : (s.setP r v).p x = s.p x := by
  unfold State.p State.setP Context.setPr
  split
  · rfl
  · simp only [Context.pr, Vector.getElem_set, if_neg (toNat_ne h).symm]

@[simp] theorem State.v_setV_same (s : State) (r : VReg) (v : VWord) : (s.setV r v).v r = v := by
  simp [State.v, State.setV, Context.vr, Context.setVr]

theorem State.v_setV_ne (s : State) (r x : VReg) (v : VWord) (h : x ≠ r) : (s.setV r v).v x = s.v x := by
  simp only [State.v, State.setV, Context.vr, Context.setVr, Vector.getElem_set, if_neg (toNat_ne h).symm]

@[simp] theorem State.k_setK_same (s : State) (r : KReg) (v : Mask) : (s.setK r v).k r = v := by
  simp [State.k, State.setK, Context.kr, Context.setKr]

theorem State.k_setK_ne (s : State) (r x : KReg) (v : Mask) (h : x ≠ r) : (s.setK r v).k x = s.k x := by
  simp only [State.k, State.setK, Context.kr, Context.setKr, Vector.getElem_set, if_neg (toNat_ne h).symm]

@[simp] theorem State.q_setQ_same (s : State) (r : QReg) (v : List Word) : (s.setQ r v).q r = v := by
  simp [State.q, State.setQ, Context.qr, Context.setQr]

theorem State.q_setQ_ne (s : State) (r x : QReg) (v : List Word) (h : x ≠ r) : (s.setQ r v).q x = s.q x := by
  simp only [State.q, State.setQ, Context.qr, Context.setQr, Vector.getElem_set, if_neg (toNat_ne h).symm]

/-- A g write leaves the other files of the context. -/
@[simp] theorem State.v_setG (s : State) (r : GReg) (v : Word) (x : VReg) : (s.setG r v).v x = s.v x := by
  simp [State.v, Context.vr]
@[simp] theorem State.k_setG (s : State) (r : GReg) (v : Word) (x : KReg) : (s.setG r v).k x = s.k x := by
  simp [State.k, Context.kr]
@[simp] theorem State.p_setG (s : State) (r : GReg) (v : Word) (x : PReg) : (s.setG r v).p x = s.p x := by
  simp [State.p, Context.pr]
@[simp] theorem State.q_setG (s : State) (r : GReg) (v : Word) (x : QReg) : (s.setG r v).q x = s.q x := by
  simp [State.q, Context.qr]
@[simp] theorem State.g_setP (s : State) (r : PReg) (v : Bool) (x : GReg) : (s.setP r v).g x = s.g x := by
  simp [State.g, Context.gr]
@[simp] theorem State.g_setV (s : State) (r : VReg) (v : VWord) (x : GReg) : (s.setV r v).g x = s.g x := by
  simp [State.g, Context.gr]
@[simp] theorem State.g_setK (s : State) (r : KReg) (v : Mask) (x : GReg) : (s.setK r v).g x = s.g x := by
  simp [State.g, Context.gr]
@[simp] theorem State.g_setQ (s : State) (r : QReg) (v : List Word) (x : GReg) : (s.setQ r v).g x = s.g x := by
  simp [State.g, Context.gr]

/-! ### Association lists, cores and packages -/

theorem alGet_alPut_same {α β : Type} [BEq α] [LawfulBEq α] (l : List (α × β)) (k : α) (v d : β) : alGet (alPut l k v) k d = v := by
  unfold alGet alPut
  by_cases h : l.any (fun p => p.1 == k) = true
  · rw [if_pos h]
    induction l with
    | nil => simp at h
    | cons p l ih =>
      by_cases hp : p.1 == k
      · simp [hp]
      · have hk : (k == p.1) = false := by
          rw [Bool.eq_false_iff]; intro e; exact hp (beq_iff_eq.mpr (eq_of_beq e).symm)
        simp only [List.any_cons, hp, Bool.false_or] at h
        simp only [List.map_cons, hp, Bool.false_eq_true, if_false]
        obtain ⟨a, b⟩ := p
        simp only [List.lookup_cons, hk]
        exact ih h
  · rw [if_neg h]
    induction l with
    | nil => simp
    | cons p l ih =>
      obtain ⟨a, b⟩ := p
      simp only [List.any_cons, Bool.or_eq_true, not_or] at h
      have hk : (k == a) = false := by
        rw [Bool.eq_false_iff]; intro e; exact h.1 (beq_iff_eq.mpr (eq_of_beq e).symm)
      simp only [List.cons_append, List.lookup_cons, hk]
      exact ih h.2

theorem lookup_map_put {α β : Type} [BEq α] [LawfulBEq α] (l : List (α × β)) (k j : α) (v : β) (h : j ≠ k) :
    (l.map (fun p => if p.1 == k then (k, v) else p)).lookup j = l.lookup j := by
  induction l with
  | nil => rfl
  | cons p l ih =>
    obtain ⟨a, b⟩ := p
    by_cases ha : a == k
    · have : a = k := by simpa using ha
      subst this
      have hj : (j == a) = false := by simpa using h
      simp only [List.map_cons, ha, if_true, List.lookup_cons, hj, ih]
    · simp only [List.map_cons, ha, Bool.false_eq_true, if_false, List.lookup_cons, ih]

theorem lookup_append_ne {α β : Type} [BEq α] [LawfulBEq α] (l : List (α × β)) (k j : α) (v : β) (h : j ≠ k) :
    (l ++ [(k, v)]).lookup j = l.lookup j := by
  induction l with
  | nil => simp only [List.nil_append, List.lookup_cons, beq_eq_false_iff_ne.mpr h, List.lookup_nil]
  | cons p l ih => obtain ⟨a, b⟩ := p; simp only [List.cons_append, List.lookup_cons, ih]

theorem alGet_alPut_ne {α β : Type} [BEq α] [LawfulBEq α] (l : List (α × β)) (k j : α) (v d : β) (h : j ≠ k) :
    alGet (alPut l k v) j d = alGet l j d := by
  unfold alGet alPut
  split
  · rw [lookup_map_put l k j v h]
  · rw [lookup_append_ne l k j v h]

@[simp] theorem State.core_setCore_same (s : State) (e : EP) (c : Core) : (s.setCore e c).core e = c :=
  alGet_alPut_same _ _ _ _

theorem State.core_setCore_ne (s : State) (e x : EP) (c : Core) (h : x ≠ e) : (s.setCore e c).core x = s.core x :=
  alGet_alPut_ne _ _ _ _ _ (toNat_ne h)

@[simp] theorem State.core_modCore_same (s : State) (e : EP) (f : Core → Core) : (s.modCore e f).core e = f (s.core e) :=
  alGet_alPut_same _ _ _ _

theorem State.core_modCore_ne (s : State) (e x : EP) (f : Core → Core) (h : x ≠ e) : (s.modCore e f).core x = s.core x :=
  alGet_alPut_ne _ _ _ _ _ (toNat_ne h)

@[simp] theorem State.chip_setChip_same (s : State) (c : ChipNo) (x : Chip) : (s.setChip c x).chip c = x :=
  alGet_alPut_same _ _ _ _

theorem State.chip_setChip_ne (s : State) (c d : ChipNo) (x : Chip) (h : d ≠ c) : (s.setChip c x).chip d = s.chip d :=
  alGet_alPut_ne _ _ _ _ _ (toNat_ne h)

@[simp] theorem State.chip_modChip_same (s : State) (c : ChipNo) (f : Chip → Chip) : (s.modChip c f).chip c = f (s.chip c) :=
  alGet_alPut_same _ _ _ _

theorem State.chip_modChip_ne (s : State) (c d : ChipNo) (f : Chip → Chip) (h : d ≠ c) : (s.modChip c f).chip d = s.chip d :=
  alGet_alPut_ne _ _ _ _ _ (toNat_ne h)

@[simp] theorem State.core_setChip (s : State) (c : ChipNo) (x : Chip) (e : EP) : (s.setChip c x).core e = s.core e := rfl
@[simp] theorem State.core_modChip (s : State) (c : ChipNo) (f : Chip → Chip) (e : EP) : (s.modChip c f).core e = s.core e := rfl
@[simp] theorem State.chip_setCore (s : State) (e : EP) (c : Core) (d : ChipNo) : (s.setCore e c).chip d = s.chip d := rfl
@[simp] theorem State.chip_modCore (s : State) (e : EP) (f : Core → Core) (d : ChipNo) : (s.modCore e f).chip d = s.chip d := rfl

end Sys2Proof.Machine
end

