-- ==== Sys2Proof/Laws/Wrappers.lean ====
section
/-! SUPPORT. What the wrappers of every meaning can do: `scalar`, `vector` and `event`, said once. -/
namespace Sys2Proof.Machine

@[simp] theorem State.done_cx (s : State) : s.done.cx = s.cx := rfl
@[simp] theorem State.done_mem (s : State) : s.done.mem = s.mem := rfl
@[simp] theorem State.done_note (s : State) : s.done.note = .done := rfl
@[simp] theorem State.done_g (s : State) (r : GReg) : s.done.g r = s.g r := rfl
@[simp] theorem State.done_p (s : State) (r : PReg) : s.done.p r = s.p r := rfl
@[simp] theorem State.done_v (s : State) (r : VReg) : s.done.v r = s.v r := rfl
@[simp] theorem State.done_k (s : State) (r : KReg) : s.done.k r = s.k r := rfl
@[simp] theorem State.done_q (s : State) (r : QReg) : s.done.q r = s.q r := rfl
@[simp] theorem State.done_core (s : State) (e : EP) : s.done.core e = s.core e := rfl
@[simp] theorem State.done_chip (s : State) (c : ChipNo) : s.done.chip c = s.chip c := rfl
@[simp] theorem State.done_team? (s : State) (c : ChipNo) (t : Word32) : s.done.team? c t = s.team? c t := rfl
@[simp] theorem State.done_myTeam (s : State) : s.done.myTeam = s.myTeam := rfl
@[simp] theorem State.done_cwSlot (s : State) (c : BitVec 8) : s.done.cwSlot c = s.cwSlot c := rfl
@[simp] theorem State.done_bop (s : State) (b : BOp) : b.val s.done = b.val s := by cases b <;> rfl
@[simp] theorem State.done_breg (s : State) (b : BReg) : b.val s.done = b.val s := by cases b <;> rfl
@[simp] theorem State.done_on (s : State) (m : Ms) : m.on s.done = m.on s := rfl
theorem State.done_eq (s : State) : { s with note := .done } = s.done := rfl

theorem class6_ok (s : State) (i : Instr) (h : s.canRun i = true) : class6 s i = .ok () := by
  simp only [State.canRun, Bool.and_eq_true] at h
  simp only [class6, h.1.1.1.1, h.1.1.1.2, need, if_true]
  rfl

theorem no_hazard (s : State) (i : Instr) (h : s.canRun i = true) : scalarHazard s.cx i.uses = false := by
  simp only [State.canRun, Bool.and_eq_true, Bool.not_eq_true'] at h
  exact h.1.1.2

/-- Constant-window slots without an error are read (R200). -/
theorem windowSound_ok (s : State) (cs : List (BitVec 8)) (h : windowClean s cs = true) : windowSound s cs = .ok () := by
  simp only [windowSound, h, if_true]

theorem window_ok (s : State) (i : Instr) (h : s.canRun i = true) : orderWindow s (i.cws s) = .ok () := by
  simp only [State.canRun, Bool.and_eq_true, Bool.or_eq_true, Bool.not_eq_true', List.isEmpty_iff] at h
  rcases h.1.2 with hn | hn
  · rw [hn]; rfl
  · have hc := h.2
    revert hc
    cases i.cws s with
    | nil => exact fun _ => rfl
    | cons c cs =>
      intro hc
      have ho : orderStreams s false ((c :: cs).flatMap (cwKeys s.cx.ep)) = .ok () := by
        simp only [orderStreams, hn]
        split <;> rfl
      simp only [orderWindow, ho, bind, Except.bind, windowSound_ok s _ hc]

theorem canRun_done (s : State) (i : Instr) : s.done.canRun i = s.canRun i := rfl

/-- A control-stream instruction that may run and whose predicate is on ends as its body does. -/
theorem scalar_on (i : Instr) (ms : Ms) (s : State) (body : State → Res State) (h : s.canRun i = true) (hp : ms.on s = true) :
    scalar i ms s body = finish s.done (body s.done) := by
  have h6 := class6_ok s.done i h
  have hw : orderWindow s.done (i.cws s.done) = .ok () := window_ok s.done i h
  simp only [scalar, State.done_eq, h6, State.done_on, no_hazard s i h, hp, hw, bind, Except.bind]
  rfl

/-- The body answers a state: that is the next state. -/
theorem scalar_next (i : Instr) (ms : Ms) (s t : State) (body : State → Res State) (h : s.canRun i = true) (hp : ms.on s = true)
    (hb : body s.done = .ok t) : scalar i ms s body = .next t := by
  rw [scalar_on i ms s body h hp, hb]
  rfl

/-- A predicate that is off leaves everything but the PC (R18). -/
theorem scalar_off (i : Instr) (ms : Ms) (s : State) (body : State → Res State) (h : s.canRun i = true) (hp : ms.on s = false) :
    scalar i ms s body = .next s.done := by
  have h6 := class6_ok s.done i h
  simp only [scalar, State.done_eq, h6, State.done_on, no_hazard s i h, hp, bind, Except.bind]
  rfl

/-- Too low a privilege faults PRIV before anything else (R32 class 6). -/
theorem scalar_priv (i : Instr) (ms : Ms) (s : State) (body : State → Res State) (h : s.cx.priv.level < i.privNeed) :
    scalar i ms s body = raise s.done (Trap.of Code.priv) := by
  have : decide (i.privNeed ≤ s.cx.priv.level) = false := decide_eq_false (Nat.not_le_of_lt h)
  simp only [scalar, State.done_eq, class6, need, this, bind, Except.bind]
  rfl

/-- A register outside the allotment faults ALLOT (R24, R32 class 6). -/
theorem scalar_allot (i : Instr) (ms : Ms) (s : State) (body : State → Res State) (h : i.privNeed ≤ s.cx.priv.level)
    (ha : allotOk s.cx i.uses = false) : scalar i ms s body = raise s.done (Trap.of Code.allot) := by
  have hp : decide (i.privNeed ≤ s.cx.priv.level) = true := decide_eq_true h
  simp only [scalar, State.done_eq, class6, need, hp, ha, bind, Except.bind]
  rfl

/-- An event that has its effect. -/
theorem event_next (s t : State) (r : Res State) (h : r = .ok t) : event s r = .next t.done := by rw [h]; rfl

/-! ### The vector wrapper -/

/-- What a context that stands at its control stream has: no vector instruction waits, and no operands of a hand-off. -/
theorem atControl_parts (s : State) (h : s.atControl = true) :
    s.cx.vsrc = .control ∧ s.cx.vq = [] ∧ s.cx.rep.active = false ∧ s.cx.rep.loaded = false ∧ s.cx.rep.capturing = false := by
  simp only [State.atControl, Bool.and_eq_true, Bool.not_eq_true', beq_iff_eq, List.isEmpty_iff] at h
  exact ⟨h.1.1.1.1.1.1.1.1, h.1.1.1.1.1.1.2, h.1.1.1.1.1.2, h.1.1.1.1.2, h.1.1.1.2⟩

theorem atControl_waiting (s : State) (h : s.atControl = true) : vecWaiting s.cx = [] := by
  obtain ⟨-, hq, ha, hl, hc⟩ := atControl_parts s h
  simp [vecWaiting, hq, ha, hl]

theorem atControl_idle (s : State) (h : s.atControl = true) : vecBusy s.cx = false := by
  obtain ⟨-, hq, ha, hl, hc⟩ := atControl_parts s h
  simp [vecBusy, hq, ha, hl]

theorem hazard_nil (c : Context) (u : Uses) (h : vecWaiting c = []) : scalarHazard c u = false := by
  simp [scalarHazard, h]

/-- With no vector instruction waiting nothing orders a control-stream access after it (R77). -/
theorem orderStreams_ok (s : State) (wr : Bool) (ks : List Nat) (h : s.atControl = true) : orderStreams s wr ks = .ok () := by
  have hw := atControl_waiting s h
  unfold orderStreams
  simp only [hw, List.any_nil]
  split <;> rfl

/-- With no vector instruction waiting there is no hazard and nothing to wait for. -/
theorem atControl_canRun (s : State) (i : Instr) (h : s.atControl = true) :
    s.canRun i = (decide (i.privNeed ≤ s.cx.priv.level) && allotOk s.cx i.uses && windowClean s (i.cws s)) := by
  simp [State.canRun, hazard_nil _ _ (atControl_waiting s h), atControl_waiting s h]

/-- The state in which the body of a vector instruction that issues at once runs. -/
def State.issuing (s : State) (i : Instr) : State :=
  { s.done with cx := { s.cx with
      vsrc := .queue, caps := capture s.done i, vAllot := some (s.cx.gGran, s.cx.vGran), capG2 := some (s.g 2), ranV := s.time + 1 } }

/-- A vector instruction that issues at once: its body on the captured operands, the stream then idle again. -/
theorem vector_next (i : Instr) (s t : State) (body : State → Res State) (h : s.canIssueVec i = true)
    (hb : body (s.issuing i) = .ok t) : vector i s body = .next { t with cx := t.cx.toControl } := by
  simp only [State.canIssueVec, Bool.and_eq_true] at h
  obtain ⟨⟨⟨⟨hc, hu⟩, hk⟩, hp⟩, ha⟩ := h
  have hw : vecWaiting s.done.cx = [] := atControl_waiting s hc
  have hi : vecBusy s.done.cx = false := atControl_idle s hc
  have h6 : class6 s.done i = .ok () := by
    have hp' : decide (i.privNeed ≤ s.done.cx.priv.level) = true := hp
    have ha' : allotOk s.done.cx i.uses = true := ha
    simp only [class6, need, hp', ha', if_true]
    rfl
  obtain ⟨hv, -, -, -, hr⟩ := atControl_parts s hc
  unfold vector
  extract_lets x c e
  have hvc : c.vsrc = .control := hv
  have hrc : c.rep.capturing = false := hr
  have hwc : scalarHazard c i.uses.readsOnly = false := hazard_nil _ _ hw
  have hic : vecBusy c = false := hi
  have h6x : class6 x i = .ok () := h6
  have hux : unitFree x = true := hu
  have hkx : windowClean x i.vcws = true := hk
  have hbx : body { x with cx := { c with vsrc := .queue, caps := e.caps, vAllot := some (e.gGran, e.vGran), capG2 := some e.g2, ranV := x.time + 1 } } = .ok t := hb
  split
  · rw [if_neg (by rw [hwc]; decide), if_neg (by rw [hrc]; decide), if_neg (by rw [hic, hux, hkx, h6x]; decide), hbx]
  · rename_i hn
    exact absurd hvc hn

/-- The g operands of an instruction read the same from the capture as from the registers. -/
theorem issuing_g (s : State) (i : Instr) (r : GReg) (h : s.cx.vsrc = .control) : (s.issuing i).g r = s.g r := by
  have key : ∀ l : List GReg, (l.map fun (r : GReg) => (r.toNat, s.g r)).lookup r.toNat = some (s.g r) ∨
      (l.map fun (r : GReg) => (r.toNat, s.g r)).lookup r.toNat = none := by
    intro l
    induction l with
    | nil => exact .inr rfl
    | cons a l ih =>
      by_cases ha : r = a
      · subst ha; exact .inl (by simp)
      · have : (r.toNat == a.toNat) = false := beq_eq_false_iff_ne.mpr (toNat_ne ha)
        simp only [List.map_cons, List.lookup_cons, this]
        exact ih
  by_cases h0 : r = 0
  · subst h0; rfl
  · have hs : s.g r = s.cx.g[r.toNat]'(r.isLt) := by simp only [State.g, Context.gr, if_neg h0, h]
    have : (s.issuing i).g r = ((capture s.done i).lookup r.toNat).getD (s.cx.g[r.toNat]'(r.isLt)) := by
      simp only [State.g, State.issuing, Context.gr, if_neg h0]
    rw [this]
    rcases key i.caps with k | k
    · have k' : (capture s.done i).lookup r.toNat = some (s.g r) := k
      rw [k']; rfl
    · have k' : (capture s.done i).lookup r.toNat = none := k
      rw [k', hs]; rfl

@[simp] theorem issuing_v (s : State) (i : Instr) (r : VReg) : (s.issuing i).v r = s.v r := rfl
@[simp] theorem issuing_k (s : State) (i : Instr) (r : KReg) : (s.issuing i).k r = s.k r := rfl
@[simp] theorem issuing_q (s : State) (i : Instr) (r : QReg) : (s.issuing i).q r = s.q r := rfl
@[simp] theorem issuing_p (s : State) (i : Instr) (r : PReg) : (s.issuing i).p r = s.p r := rfl
@[simp] theorem issuing_mem (s : State) (i : Instr) : (s.issuing i).mem = s.mem := rfl

/-- A vector B operand reads the same. -/
theorem issuing_elem (s : State) (i : Instr) (b : VB) (t : Ty) (e : Nat) (h : s.cx.vsrc = .control) :
    b.elem (s.issuing i) t e = b.elem s t e := by
  cases b <;> simp only [VB.elem, issuing_v, issuing_g s i _ h] <;> rfl

end Sys2Proof.Machine
end

