-- ==== Sys2Proof/Laws/Access.lean ====
section
/-! SUPPORT. What the shared memory operations can do: ordering checks, loads, plain stores, releases, writes of committed bytes,
turns at a far agent, requests to a function. -/
namespace Sys2Proof.Machine

theorem ctl_vsrc (s : State) (h : s.atControl = true) : s.cx.vsrc = .control := (atControl_parts s h).1

/-- No rick and no cord for the destinations: the access goes on (R333). -/
theorem orderRicks_ok (s : State) (ds : List EP) (h : NoRick s ds) : orderRicks s s.cx.ep ds = .ok s := by
  obtain ⟨h1, h2⟩ := h
  unfold orderRicks
  rw [h1]
  have : (s.cords.any fun c => c.src == s.cx.ep && ds.contains c.dest) = false := by
    rw [List.any_eq_false]
    intro c hc
    simp only [Bool.and_eq_true, beq_iff_eq, List.contains_iff_mem, not_and]
    exact h2 c hc
  simp only [this]
  rfl

/-- A load whose access goes through reads its bytes, and its translation is in use. -/
theorem loadAt_ok (s : State) (am : Am) (al : Nat) (p : Word) (n : Nat) (pls : List Place) (h : Reaches s .read am al p n pls) :
    loadAt s.done am al p n = .ok (touch s.done (ctxWho s.done false) pls, readPlaces s.done (ctxWho s.done false) pls) := by
  obtain ⟨hc, hp, hr⟩ := h
  have hd : s.done.atControl = true := hc
  have hv : (s.done.cx.vsrc != VSrc.control) = false := by rw [ctl_vsrc s.done hd]; rfl
  have hr' : orderRicks s.done s.done.cx.ep (pls.map (·.dest)).eraseDups = .ok s.done := orderRicks_ok s.done _ hr
  simp only [loadAt, hv, hp, orderStreams_ok s.done _ _ hd, hr', bind, Except.bind]

/-- No rick and no cord for the destinations: no element of the record is ahead of the access (R77). -/
theorem awaitRicks_ok (s : State) (ds : List EP) (h : NoRick s ds) : awaitRicks s s.cx.ep s.cx.recA ds = .ok s := by
  obtain ⟨h1, h2⟩ := h
  have hr : ((s.core s.cx.ep).ricks.toList.any fun r => r.dest.any ds.contains && r.elems.any fun x => x.recA == s.cx.recA) = false := by
    rw [List.any_eq_false]
    intro r hm hb
    simp only [Bool.and_eq_true] at hb
    obtain ⟨hd, he⟩ := hb
    obtain ⟨d, hd'⟩ : ∃ d, r.dest = some d := by
      cases hx : r.dest with
      | none => rw [hx] at hd; simp at hd
      | some d => exact ⟨d, rfl⟩
    rw [hd'] at hd
    obtain ⟨i, hi⟩ := List.getElem_of_mem hm
    obtain ⟨hlt, hi⟩ := hi
    have hmem : i ∈ rickFor s s.cx.ep ds := by
      simp only [rickFor, openRicks, List.mem_map, List.mem_filter, List.mem_filterMap]
      refine ⟨(i, d), ⟨⟨(r, i), ?_, ?_⟩, by simpa using hd⟩, rfl⟩
      · rw [List.mem_zipIdx_iff_getElem?]
        simp [List.getElem?_eq_getElem hlt, hi]
      · simp only [hd']
        cases hx : r.elems with
        | nil => rw [hx] at he; simp at he
        | cons => rfl
    rw [h1] at hmem
    cases hmem
  have hc : (s.cords.any fun c => c.src == s.cx.ep && ds.contains c.dest && c.elems.any fun x => x.recA == s.cx.recA) = false := by
    rw [List.any_eq_false]
    intro c hm hb
    simp only [Bool.and_eq_true, beq_iff_eq, List.contains_iff_mem] at hb
    exact h2 c hm hb.1.1 hb.1.2
  simp only [awaitRicks, hr, hc, Bool.or_self]
  rfl

/-- A store whose access goes through writes its bytes, whether or not it flushes the ricks of its destinations. -/
theorem storeAt_ok (s : State) (flush : Bool) (am : Am) (al : Nat) (p : Word) (bs : List Byte) (pls : List Place)
    (h : Reaches s .write am al p bs.length pls) :
    storeAt s.done flush am al false p bs = .ok (storePlaces s.done (ctxWho s.done false) s.cx.no s.cx.ipc pls bs) := by
  obtain ⟨hc, hp, hr⟩ := h
  have hd : s.done.atControl = true := hc
  have hv : (s.done.cx.vsrc != VSrc.control) = false := by rw [ctl_vsrc s.done hd]; rfl
  have h1 : orderRicks s.done s.done.cx.ep (pls.map (·.dest)).eraseDups = .ok s.done := orderRicks_ok s.done _ hr
  have h2 : awaitRicks s.done s.done.cx.ep s.done.cx.recA (pls.map (·.dest)).eraseDups = .ok s.done := awaitRicks_ok s.done _ hr
  simp only [storeAt, hv, hp, orderStreams_ok s.done _ _ hd, h1, h2, bind, Except.bind]
  cases flush <;> rfl

/-- A plain store whose access goes through writes its bytes. -/
theorem storePlain_ok (s : State) (am : Am) (al : Nat) (p : Word) (bs : List Byte) (pls : List Place)
    (h : Reaches s .write am al p bs.length pls) :
    storePlain s.done am al false p bs = .ok (storePlaces s.done (ctxWho s.done false) s.cx.no s.cx.ipc pls bs) :=
  storeAt_ok s _ am al p bs pls h

/-- A release that finds everything drained passes. -/
theorem release_ok (s : State) (hc : s.atControl = true) (h : Released s) : release s = .ok s := by
  obtain ⟨h1, h2, h3⟩ := h
  have hw := atControl_waiting s hc
  have hcs : (s.cords.any fun c => c.src == s.cx.ep) = false := by
    rw [List.any_eq_false]; intro c hm; simpa using h2 c hm
  have hst : (s.statuses.any fun c => c.src == s.cx.ep) = false := by
    rw [List.any_eq_false]; intro c hm; simpa using h3 c hm
  simp only [release, hw, List.any_nil, drainRicks, h1, List.isEmpty_nil, hcs, hst, Bool.or_self, Bool.not_true]
  split <;> rfl

theorem releaseScope_ok (s : State) (sc : Scope) (hc : s.atControl = true) (h : ReleaseOk s true sc) : releaseScope s sc = .ok s := by
  have hw := atControl_waiting s hc
  have hr : Released s → release s = .ok s := release_ok s hc
  rcases h rfl with h' | h' | h'
  · subst h'; simp only [releaseScope, hw, List.any_nil]; split <;> rfl
  · subst h'; simp only [releaseScope, hw, List.any_nil]; split <;> rfl
  · have he := hr h'
    cases sc <;> simp only [releaseScope, hw, List.any_nil, he] <;> split <;> rfl

/-! ### Committed bytes: every write keeps the canonical form -/

/-- A fold of updates that keep memory canonical keeps it canonical. -/
theorem foldl_memOk {α : Type} (f : State → α → State) (hf : ∀ s a, s.MemOk → (f s a).MemOk) :
    ∀ (l : List α) (s : State), s.MemOk → (l.foldl f s).MemOk
  | [], _, h => h
  | a :: l, s, h => foldl_memOk f hf l (f s a) (hf s a h)

/-- A fold of writes of single bytes keeps memory canonical. -/
theorem foldl_set_wf {α : Type} (k : α → Nat) (v : α → Byte) :
    ∀ (l : List α) (m : Memory), Memory.wf m = true → Memory.wf (l.foldl (fun m a => Memory.set m (k a) (v a)) m) = true
  | [], _, h => h
  | a :: l, m, h => foldl_set_wf k v l (Memory.set m (k a) (v a)) (Memory.wf_set m _ _ h)

@[simp] theorem breakIface_mem (s : State) (x : ChipNo × Nat) : (breakIface s x).mem = s.mem := rfl

/-- Interfaces that move to ERROR change no byte (R434). -/
theorem foldl_breakIface_mem : ∀ (l : List (ChipNo × Nat)) (s : State), (l.foldl breakIface s).mem = s.mem
  | [], _ => rfl
  | x :: l, s => (foldl_breakIface_mem l (breakIface s x)).trans (breakIface_mem s x)

theorem putMem_memOk (s : State) (key : Nat) (bs : List Byte) (h : s.MemOk) : (putMem s key bs).MemOk := by
  unfold State.MemOk at h ⊢
  unfold putMem
  split
  · exact Memory.wf_setBytes _ _ _ h
  · rw [foldl_breakIface_mem]
    exact foldl_set_wf _ _ _ _ h

theorem restoreMem_memOk (s : State) (key : Nat) (bs : List Byte) (h : s.MemOk) : (restoreMem s key bs).MemOk := by
  unfold State.MemOk at h ⊢
  unfold restoreMem
  split
  · exact Memory.wf_setBytes _ _ _ h
  · rw [foldl_breakIface_mem]
    exact foldl_set_wf _ _ _ _ h

@[simp] theorem logLine_mem (s : State) (w : Who) (key : Nat) : (logLine s w key).mem = s.mem := by
  unfold logLine
  dsimp only
  split <;> rfl

theorem writeKey_memOk (s : State) (w : Who) (key cls : Nat) (b : Byte) (h : s.MemOk) : (writeKey s w key cls b).MemOk := by
  unfold State.MemOk at h ⊢
  unfold writeKey
  split
  · exact Memory.wf_set _ _ _ h
  · split
    · exact Memory.wf_set _ _ _ (by rwa [logLine_mem])
    · exact h

theorem writeBytes_memOk (s : State) (w : Who) (pls : List Place) (bs : List Byte) (h : s.MemOk) : (writeBytes s w pls bs).MemOk := by
  unfold writeBytes
  dsimp only
  unfold State.MemOk
  rw [foldl_breakIface_mem]
  exact foldl_memOk _ (fun s k hs => writeKey_memOk s w k.1.1 k.1.2 k.2 hs) _ _ h

/-! ### Turns at a far agent, and what a function hears -/

/-- An operation whose earlier accesses ask nothing more, and before which nothing stands at its home agent, goes on (R334). -/
theorem farTurn_ok (s : State) (pls : List Place) (order : Res Unit) (ho : order = .ok ()) (h : FarHead s pls) :
    farTurn s pls order = .ok () := by
  subst ho
  unfold farTurn
  cases pls with
  | nil => rfl
  | cons pl pls =>
    dsimp only
    split
    · rfl
    · rename_i hc
      simp only [Bool.or_eq_true, not_or, Bool.not_eq_true] at hc
      have hq : farQueues s = true := by simpa using hc.2
      have hf := h hq pl rfl hc.1
      split
      · rename_i r hr
        rw [hr] at hf
        obtain ⟨h1, h2⟩ := hf
        rw [h1] at h2
        simp [h1, h2]
      · rename_i hr
        rw [hr] at hf
        simp only [hf]
        rfl

/-- A request on an insecure stream, or to a package that has stopped, has no effect (R424, R429). -/
theorem heard_not (s x : State) (chip : ChipNo) (fn : Fn) (h : cutOff s chip fn = true ∨ (s.chip chip).stopped = true) :
    heard s chip fn x = s := by
  rcases h with h | h <;> simp [heard, unlessStopped, h]

theorem heard_yes (s x : State) (chip : ChipNo) (fn : Fn) (hc : cutOff s chip fn = false) (hs : (s.chip chip).stopped = false) :
    heard s chip fn x = x := by simp [heard, unlessStopped, hc, hs]

/-- A message for a DOE that takes none has no effect. -/
theorem viaDoe_not (s x : State) (chip : ChipNo) (fn : Fn)
    (h : (s.chip chip).stopped = true ∨ fnExists s chip fn = false ∨ cutOff s chip fn = true) : viaDoe s chip fn x = s := by
  rcases h with h | h | h <;> simp [viaDoe, h]

theorem viaDoe_yes (s x : State) (chip : ChipNo) (fn : Fn) (hs : (s.chip chip).stopped = false) (he : fnExists s chip fn = true)
    (hc : cutOff s chip fn = false) : viaDoe s chip fn x = x := by simp [viaDoe, hs, he, hc]

end Sys2Proof.Machine
end

