-- ==== Sys2Proof/Laws/Dispatch.lean ====
section
/-! SUPPORT. The dispatch, one equation per constructor: what `exec` is on each instruction and event. -/
namespace Sys2Proof.Machine

@[simp] theorem exec_add (ty : IntTy) (d : GReg) (a : GReg) (b : BOp) (ms : Ms) (s : State) :
     exec (.add ty d a b ms) s = execAdd ty d a b ms s := rfl
@[simp] theorem exec_sub (ty : IntTy) (d : GReg) (a : GReg) (b : BOp) (ms : Ms) (s : State) :
     exec (.sub ty d a b ms) s = execSub ty d a b ms s := rfl
@[simp] theorem exec_mul (ty : IntTy) (d : GReg) (a : GReg) (b : BOp) (ms : Ms) (s : State) :
     exec (.mul ty d a b ms) s = execMul ty d a b ms s := rfl
@[simp] theorem exec_mulh (w : Width) (d : GReg) (a : GReg) (b : BOp) (ms : Ms) (s : State) :
     exec (.mulh w d a b ms) s = execMulh w d a b ms s := rfl
@[simp] theorem exec_mulhn (w : Width) (d : GReg) (a : GReg) (b : BOp) (ms : Ms) (s : State) :
     exec (.mulhn w d a b ms) s = execMulhn w d a b ms s := rfl
@[simp] theorem exec_div (w : Width) (d : GReg) (a : GReg) (b : BOp) (ms : Ms) (s : State) :
     exec (.div w d a b ms) s = execDiv w d a b ms s := rfl
@[simp] theorem exec_divn (w : Width) (d : GReg) (a : GReg) (b : BOp) (ms : Ms) (s : State) :
     exec (.divn w d a b ms) s = execDivn w d a b ms s := rfl
@[simp] theorem exec_remS (w : Width) (d : GReg) (a : GReg) (b : BOp) (ms : Ms) (s : State) :
     exec (.remS w d a b ms) s = execRemS w d a b ms s := rfl
@[simp] theorem exec_remn (w : Width) (d : GReg) (a : GReg) (b : BOp) (ms : Ms) (s : State) :
     exec (.remn w d a b ms) s = execRemn w d a b ms s := rfl
@[simp] theorem exec_andI (ty : IntTy) (d : GReg) (a : GReg) (b : BOp) (ms : Ms) (s : State) :
     exec (.andI ty d a b ms) s = execAndI ty d a b ms s := rfl
@[simp] theorem exec_orI (ty : IntTy) (d : GReg) (a : GReg) (b : BOp) (ms : Ms) (s : State) :
     exec (.orI ty d a b ms) s = execOrI ty d a b ms s := rfl
@[simp] theorem exec_xorI (ty : IntTy) (d : GReg) (a : GReg) (b : BOp) (ms : Ms) (s : State) :
     exec (.xorI ty d a b ms) s = execXorI ty d a b ms s := rfl
@[simp] theorem exec_andn (ty : IntTy) (d : GReg) (a : GReg) (b : BOp) (ms : Ms) (s : State) :
     exec (.andn ty d a b ms) s = execAndn ty d a b ms s := rfl
@[simp] theorem exec_orn (ty : IntTy) (d : GReg) (a : GReg) (b : BOp) (ms : Ms) (s : State) :
     exec (.orn ty d a b ms) s = execOrn ty d a b ms s := rfl
@[simp] theorem exec_shl (ty : IntTy) (d : GReg) (a : GReg) (b : BOp) (ms : Ms) (s : State) :
     exec (.shl ty d a b ms) s = execShl ty d a b ms s := rfl
@[simp] theorem exec_shr (ty : IntTy) (d : GReg) (a : GReg) (b : BOp) (ms : Ms) (s : State) :
     exec (.shr ty d a b ms) s = execShr ty d a b ms s := rfl
@[simp] theorem exec_sar (ty : IntTy) (d : GReg) (a : GReg) (b : BOp) (ms : Ms) (s : State) :
     exec (.sar ty d a b ms) s = execSar ty d a b ms s := rfl
@[simp] theorem exec_rol (ty : IntTy) (d : GReg) (a : GReg) (b : BOp) (ms : Ms) (s : State) :
     exec (.rol ty d a b ms) s = execRol ty d a b ms s := rfl
@[simp] theorem exec_clz (ty : IntTy) (d : GReg) (a : GReg) (ms : Ms) (s : State) :
     exec (.clz ty d a ms) s = execClz ty d a ms s := rfl
@[simp] theorem exec_ctz (ty : IntTy) (d : GReg) (a : GReg) (ms : Ms) (s : State) :
     exec (.ctz ty d a ms) s = execCtz ty d a ms s := rfl
@[simp] theorem exec_popc (ty : IntTy) (d : GReg) (a : GReg) (ms : Ms) (s : State) :
     exec (.popc ty d a ms) s = execPopc ty d a ms s := rfl
@[simp] theorem exec_brev (ty : IntTy) (d : GReg) (a : GReg) (ms : Ms) (s : State) :
     exec (.brev ty d a ms) s = execBrev ty d a ms s := rfl
@[simp] theorem exec_minS (w : Width) (d : GReg) (a : GReg) (b : BOp) (ms : Ms) (s : State) :
     exec (.minS w d a b ms) s = execMinS w d a b ms s := rfl
@[simp] theorem exec_maxS (w : Width) (d : GReg) (a : GReg) (b : BOp) (ms : Ms) (s : State) :
     exec (.maxS w d a b ms) s = execMaxS w d a b ms s := rfl
@[simp] theorem exec_minn (w : Width) (d : GReg) (a : GReg) (b : BOp) (ms : Ms) (s : State) :
     exec (.minn w d a b ms) s = execMinn w d a b ms s := rfl
@[simp] theorem exec_maxn (w : Width) (d : GReg) (a : GReg) (b : BOp) (ms : Ms) (s : State) :
     exec (.maxn w d a b ms) s = execMaxn w d a b ms s := rfl
@[simp] theorem exec_sext (d : GReg) (a : GReg) (n : BitVec 7) (ms : Ms) (s : State) :
     exec (.sext d a n ms) s = execSext d a n ms s := rfl
@[simp] theorem exec_zext (d : GReg) (a : GReg) (n : BitVec 7) (ms : Ms) (s : State) :
     exec (.zext d a n ms) s = execZext d a n ms s := rfl
@[simp] theorem exec_bfx (d : GReg) (a : GReg) (pos : BitVec 6) (len : BitVec 7) (ms : Ms) (s : State) :
     exec (.bfx d a pos len ms) s = execBfx d a pos len ms s := rfl
@[simp] theorem exec_bfxn (d : GReg) (a : GReg) (pos : BitVec 6) (len : BitVec 7) (ms : Ms) (s : State) :
     exec (.bfxn d a pos len ms) s = execBfxn d a pos len ms s := rfl
@[simp] theorem exec_bfi (d : GReg) (a : GReg) (pos : BitVec 6) (len : BitVec 7) (ms : Ms) (s : State) :
     exec (.bfi d a pos len ms) s = execBfi d a pos len ms s := rfl
@[simp] theorem exec_cmp (c : ICond) (ty : IntTy) (d : PReg) (a : GReg) (b : BOp) (ms : Ms) (s : State) :
     exec (.cmp c ty d a b ms) s = execCmp c ty d a b ms s := rfl
@[simp] theorem exec_sel (d : GReg) (a : GReg) (b : BReg) (p : PReg) (inv : Bool) (ms : Ms) (s : State) :
     exec (.sel d a b p inv ms) s = execSel d a b p inv ms s := rfl
@[simp] theorem exec_plog (op : LogOp) (d : PReg) (a : PReg) (b : PReg) (ms : Ms) (s : State) :
     exec (.plog op d a b ms) s = execPlog op d a b ms s := rfl
@[simp] theorem exec_mov (f : MovForm) (ms : Ms) (s : State) :
     exec (.mov f ms) s = execMov f ms s := rfl
@[simp] theorem exec_li (d : GReg) (imm : Word) (s : State) :
     exec (.li d imm) s = execLi d imm s := rfl
@[simp] theorem exec_lcw (d : GReg) (f : LcwForm) (ms : Ms) (s : State) :
     exec (.lcw d f ms) s = execLcw d f ms s := rfl
@[simp] theorem exec_lea (d : GReg) (a : GReg) (b : BReg) (sh : BitVec 2) (off : Word32) (ms : Ms) (s : State) :
     exec (.lea d a b sh off ms) s = execLea d a b sh off ms s := rfl
@[simp] theorem exec_mkptr (d : GReg) (a : GReg) (f : MkForm) (sp : BitVec 4) (ms : Ms) (s : State) :
     exec (.mkptr d a f sp ms) s = execMkptr d a f sp ms s := rfl
@[simp] theorem exec_ptrx (sel : PtrxSel) (d : GReg) (a : GReg) (ms : Ms) (s : State) :
     exec (.ptrx sel d a ms) s = execPtrx sel d a ms s := rfl
@[simp] theorem exec_br (off : Word32) (ms : Ms) (s : State) :
     exec (.br off ms) s = execBr off ms s := rfl
@[simp] theorem exec_jmp (target : Word) (s : State) :
     exec (.jmp target) s = execJmp target s := rfl
@[simp] theorem exec_jmpi (a : GReg) (ms : Ms) (s : State) :
     exec (.jmpi a ms) s = execJmpi a ms s := rfl
@[simp] theorem exec_call (d : GReg) (off : Word32) (ms : Ms) (s : State) :
     exec (.call d off ms) s = execCall d off ms s := rfl
@[simp] theorem exec_calli (d : GReg) (a : GReg) (ms : Ms) (s : State) :
     exec (.calli d a ms) s = execCalli d a ms s := rfl
@[simp] theorem exec_ret (a : GReg) (ms : Ms) (s : State) :
     exec (.ret a ms) s = execRet a ms s := rfl
@[simp] theorem exec_loop (d : GReg) (off : Word32) (ms : Ms) (s : State) :
     exec (.loop d off ms) s = execLoop d off ms s := rfl
@[simp] theorem exec_bsig (crc : BitVec 16) (s : State) :
     exec (.bsig crc) s = execBsig crc s := rfl
@[simp] theorem exec_endC (ms : Ms) (s : State) :
     exec (.endC ms) s = execEndC ms s := rfl
@[simp] theorem exec_nop (ms : Ms) (s : State) :
     exec (.nop ms) s = execNop ms s := rfl
@[simp] theorem exec_grow (d : PReg) (g : BitVec 5) (v : BitVec 3) (ms : Ms) (s : State) :
     exec (.grow d g v ms) s = execGrow d g v ms s := rfl
@[simp] theorem exec_shrink (g : BitVec 5) (v : BitVec 3) (ms : Ms) (s : State) :
     exec (.shrink g v ms) s = execShrink g v ms s := rfl
@[simp] theorem exec_fadd (ty : FloatTy) (d : GReg) (a : GReg) (b : BReg) (rnd : Rnd) (ms : Ms) (s : State) :
     exec (.fadd ty d a b rnd ms) s = execFadd ty d a b rnd ms s := rfl
@[simp] theorem exec_fsub (ty : FloatTy) (d : GReg) (a : GReg) (b : BReg) (rnd : Rnd) (ms : Ms) (s : State) :
     exec (.fsub ty d a b rnd ms) s = execFsub ty d a b rnd ms s := rfl
@[simp] theorem exec_fmul (ty : FloatTy) (d : GReg) (a : GReg) (b : BReg) (rnd : Rnd) (ms : Ms) (s : State) :
     exec (.fmul ty d a b rnd ms) s = execFmul ty d a b rnd ms s := rfl
@[simp] theorem exec_ffma (ty : FloatTy) (d : GReg) (a : GReg) (b : BReg) (rnd : Rnd) (ms : Ms) (s : State) :
     exec (.ffma ty d a b rnd ms) s = execFfma ty d a b rnd ms s := rfl
@[simp] theorem exec_fdiv (ty : FloatTy) (d : GReg) (a : GReg) (b : BReg) (rnd : Rnd) (ms : Ms) (s : State) :
     exec (.fdiv ty d a b rnd ms) s = execFdiv ty d a b rnd ms s := rfl
@[simp] theorem exec_fsqrt (ty : FloatTy) (d : GReg) (a : GReg) (rnd : Rnd) (ms : Ms) (s : State) :
     exec (.fsqrt ty d a rnd ms) s = execFsqrt ty d a rnd ms s := rfl
@[simp] theorem exec_fmin (ty : FloatTy) (d : GReg) (a : GReg) (b : BReg) (ms : Ms) (s : State) :
     exec (.fmin ty d a b ms) s = execFmin ty d a b ms s := rfl
@[simp] theorem exec_fmax (ty : FloatTy) (d : GReg) (a : GReg) (b : BReg) (ms : Ms) (s : State) :
     exec (.fmax ty d a b ms) s = execFmax ty d a b ms s := rfl
@[simp] theorem exec_fcmp (c : FCond) (ty : FloatTy) (d : PReg) (a : GReg) (b : BReg) (ms : Ms) (s : State) :
     exec (.fcmp c ty d a b ms) s = execFcmp c ty d a b ms s := rfl
@[simp] theorem exec_fcvt (d : GReg) (a : GReg) (f : FcvtForm) (ms : Ms) (s : State) :
     exec (.fcvt d a f ms) s = execFcvt d a f ms s := rfl
@[simp] theorem exec_fclass (ty : FloatTy) (d : GReg) (a : GReg) (ms : Ms) (s : State) :
     exec (.fclass ty d a ms) s = execFclass ty d a ms s := rfl
@[simp] theorem exec_fsgn (op : SgnOp) (ty : FloatTy) (d : GReg) (a : GReg) (b : BReg) (ms : Ms) (s : State) :
     exec (.fsgn op ty d a b ms) s = execFsgn op ty d a b ms s := rfl
@[simp] theorem exec_ld (sz : Size) (am : Am) (d : GReg) (a : GReg) (b : BReg) (off : Word32) (ms : Ms) (s : State) :
     exec (.ld sz am d a b off ms) s = execLd sz am d a b off ms s := rfl
@[simp] theorem exec_st (sz : Size) (am : Am) (d : GReg) (a : GReg) (b : BReg) (off : Word32) (ms : Ms) (s : State) :
     exec (.st sz am d a b off ms) s = execSt sz am d a b off ms s := rfl
@[simp] theorem exec_ldl (am : Am) (d : GReg) (a : GReg) (b : BReg) (off : Word32) (ms : Ms) (s : State) :
     exec (.ldl am d a b off ms) s = execLdl am d a b off ms s := rfl
@[simp] theorem exec_stl (am : Am) (d : GReg) (a : GReg) (b : BReg) (off : Word32) (ms : Ms) (s : State) :
     exec (.stl am d a b off ms) s = execStl am d a b off ms s := rfl
@[simp] theorem exec_pref (wr : Bool) (am : Am) (a : GReg) (b : BReg) (off : Word32) (ms : Ms) (s : State) :
     exec (.pref wr am a b off ms) s = execPref wr am a b off ms s := rfl
@[simp] theorem exec_vadd (ty : Ty) (d : VReg) (a : VReg) (b : VB) (rnd : Rnd) (ms : Ms) (s : State) :
     exec (.vadd ty d a b rnd ms) s = execVadd ty d a b rnd ms s := rfl
@[simp] theorem exec_vsub (ty : Ty) (d : VReg) (a : VReg) (b : VB) (rnd : Rnd) (ms : Ms) (s : State) :
     exec (.vsub ty d a b rnd ms) s = execVsub ty d a b rnd ms s := rfl
@[simp] theorem exec_vmul (ty : Ty) (d : VReg) (a : VReg) (b : VB) (rnd : Rnd) (ms : Ms) (s : State) :
     exec (.vmul ty d a b rnd ms) s = execVmul ty d a b rnd ms s := rfl
@[simp] theorem exec_vfma (ty : Ty) (d : VReg) (a : VReg) (b : VB) (rnd : Rnd) (ms : Ms) (s : State) :
     exec (.vfma ty d a b rnd ms) s = execVfma ty d a b rnd ms s := rfl
@[simp] theorem exec_vdiv (ty : Ty) (d : VReg) (a : VReg) (b : VB) (rnd : Rnd) (ms : Ms) (s : State) :
     exec (.vdiv ty d a b rnd ms) s = execVdiv ty d a b rnd ms s := rfl
@[simp] theorem exec_vsqrt (ty : FloatTy) (d : VReg) (a : VReg) (rnd : Rnd) (ms : Ms) (s : State) :
     exec (.vsqrt ty d a rnd ms) s = execVsqrt ty d a rnd ms s := rfl
@[simp] theorem exec_vmin (ty : Ty) (d : VReg) (a : VReg) (b : VB) (ms : Ms) (s : State) :
     exec (.vmin ty d a b ms) s = execVmin ty d a b ms s := rfl
@[simp] theorem exec_vmax (ty : Ty) (d : VReg) (a : VReg) (b : VB) (ms : Ms) (s : State) :
     exec (.vmax ty d a b ms) s = execVmax ty d a b ms s := rfl
@[simp] theorem exec_vabs (ty : Ty) (d : VReg) (a : VReg) (ms : Ms) (s : State) :
     exec (.vabs ty d a ms) s = execVabs ty d a ms s := rfl
@[simp] theorem exec_vneg (ty : Ty) (d : VReg) (a : VReg) (ms : Ms) (s : State) :
     exec (.vneg ty d a ms) s = execVneg ty d a ms s := rfl
@[simp] theorem exec_vand (ty : IntTy) (d : VReg) (a : VReg) (b : VB) (ms : Ms) (s : State) :
     exec (.vand ty d a b ms) s = execVand ty d a b ms s := rfl
@[simp] theorem exec_vor (ty : IntTy) (d : VReg) (a : VReg) (b : VB) (ms : Ms) (s : State) :
     exec (.vor ty d a b ms) s = execVor ty d a b ms s := rfl
@[simp] theorem exec_vxor (ty : IntTy) (d : VReg) (a : VReg) (b : VB) (ms : Ms) (s : State) :
     exec (.vxor ty d a b ms) s = execVxor ty d a b ms s := rfl
@[simp] theorem exec_vshl (ty : IntTy) (d : VReg) (a : VReg) (b : VB) (ms : Ms) (s : State) :
     exec (.vshl ty d a b ms) s = execVshl ty d a b ms s := rfl
@[simp] theorem exec_vshr (ty : IntTy) (d : VReg) (a : VReg) (b : VB) (ms : Ms) (s : State) :
     exec (.vshr ty d a b ms) s = execVshr ty d a b ms s := rfl
@[simp] theorem exec_vsar (ty : IntTy) (d : VReg) (a : VReg) (b : VB) (ms : Ms) (s : State) :
     exec (.vsar ty d a b ms) s = execVsar ty d a b ms s := rfl
@[simp] theorem exec_vcmp (c : VCmp) (d : KReg) (a : VReg) (b : VB) (ms : Ms) (s : State) :
     exec (.vcmp c d a b ms) s = execVcmp c d a b ms s := rfl
@[simp] theorem exec_vsel (ty : IntTy) (d : VReg) (a : VReg) (b : VB) (sk : KReg) (inv : Bool) (ms : Ms) (s : State) :
     exec (.vsel ty d a b sk inv ms) s = execVsel ty d a b sk inv ms s := rfl
@[simp] theorem exec_vbcast (ty : Ty) (d : VReg) (f : BcastForm) (ms : Ms) (s : State) :
     exec (.vbcast ty d f ms) s = execVbcast ty d f ms s := rfl
@[simp] theorem exec_vextr (ty : Ty) (d : VDest) (a : VReg) (i1 : BitVec 4) (ms : Ms) (s : State) :
     exec (.vextr ty d a i1 ms) s = execVextr ty d a i1 ms s := rfl
@[simp] theorem exec_vins (ty : Ty) (d : VReg) (a : GReg) (i1 : BitVec 4) (ms : Ms) (s : State) :
     exec (.vins ty d a i1 ms) s = execVins ty d a i1 ms s := rfl
@[simp] theorem exec_vfirst (ty : Ty) (d : VDest) (a : VReg) (ms : Ms) (s : State) :
     exec (.vfirst ty d a ms) s = execVfirst ty d a ms s := rfl
@[simp] theorem exec_viota (ty : IntTy) (d : VReg) (ms : Ms) (s : State) :
     exec (.viota ty d ms) s = execViota ty d ms s := rfl
@[simp] theorem exec_vperm (ty : Ty) (d : VReg) (a : VReg) (b : VB) (ms : Ms) (s : State) :
     exec (.vperm ty d a b ms) s = execVperm ty d a b ms s := rfl
@[simp] theorem exec_vslide (ty : Ty) (up : Bool) (d : VReg) (a : VReg) (b : VReg) (m : BitVec 5) (ms : Ms) (s : State) :
     exec (.vslide ty up d a b m ms) s = execVslide ty up d a b m ms s := rfl
@[simp] theorem exec_vreds (ty : Ty) (d : VDest) (a : VReg) (b : VB) (rnd : Rnd) (ms : Ms) (s : State) :
     exec (.vreds ty d a b rnd ms) s = execVreds ty d a b rnd ms s := rfl
@[simp] theorem exec_vredm (ty : Ty) (max : Bool) (d : VDest) (a : VReg) (b : VB) (ms : Ms) (s : State) :
     exec (.vredm ty max d a b ms) s = execVredm ty max d a b ms s := rfl
@[simp] theorem exec_vdot2 (ty : Ty) (d : VReg) (a : VReg) (b : VB) (rnd : Rnd) (ms : Ms) (s : State) :
     exec (.vdot2 ty d a b rnd ms) s = execVdot2 ty d a b rnd ms s := rfl
@[simp] theorem exec_vcvt (dst : CvtSide) (src : CvtSide) (part : BitVec 3) (d : VReg) (a : VReg) (rnd : Rnd) (ms : Ms) (s : State) :
     exec (.vcvt dst src part d a rnd ms) s = execVcvt dst src part d a rnd ms s := rfl
@[simp] theorem exec_vsplit3 (d : VReg) (a : VReg) (high : Bool) (ms : Ms) (s : State) :
     exec (.vsplit3 d a high ms) s = execVsplit3 d a high ms s := rfl
@[simp] theorem exec_vld (sz : VSize) (step : Bool) (am : Am) (d : VReg) (a : GReg) (b : BReg) (off : Word32) (ms : Ms) (s : State) :
     exec (.vld sz step am d a b off ms) s = execVld sz step am d a b off ms s := rfl
@[simp] theorem exec_vst (sz : VSize) (step : Bool) (am : Am) (d : VReg) (a : GReg) (b : BReg) (off : Word32) (ms : Ms) (s : State) :
     exec (.vst sz step am d a b off ms) s = execVst sz step am d a b off ms s := rfl
@[simp] theorem exec_vlds (sz : VSize) (am : Am) (d : VReg) (a : GReg) (b : GReg) (off : Word32) (ms : Ms) (s : State) :
     exec (.vlds sz am d a b off ms) s = execVlds sz am d a b off ms s := rfl
@[simp] theorem exec_vgath (sz : VSize) (am : Am) (d : VReg) (a : GReg) (b : VReg) (sh : BitVec 2) (off : Word32) (ms : Ms) (s : State) :
     exec (.vgath sz am d a b sh off ms) s = execVgath sz am d a b sh off ms s := rfl
@[simp] theorem exec_vscat (sz : VSize) (am : Am) (d : VReg) (a : GReg) (b : VReg) (sh : BitVec 2) (off : Word32) (ms : Ms) (s : State) :
     exec (.vscat sz am d a b sh off ms) s = execVscat sz am d a b sh off ms s := rfl
@[simp] theorem exec_klog (op : LogOp) (d : KReg) (a : KReg) (b : KReg) (s : State) :
     exec (.klog op d a b) s = execKlog op d a b s := rfl
@[simp] theorem exec_kpopc (d : GReg) (a : KReg) (s : State) :
     exec (.kpopc d a) s = execKpopc d a s := rfl
@[simp] theorem exec_kfirst (d : GReg) (a : KReg) (s : State) :
     exec (.kfirst d a) s = execKfirst d a s := rfl
@[simp] theorem exec_kmov (f : KmovForm) (s : State) :
     exec (.kmov f) s = execKmov f s := rfl
@[simp] theorem exec_ktest (t : KTest) (d : PReg) (a : KReg) (b : KReg) (s : State) :
     exec (.ktest t d a b) s = execKtest t d a b s := rfl
@[simp] theorem exec_rep (a : GReg) (n : BitVec 4) (wb : BitVec 5) (ws : BitVec 6) (st : BitVec 5) (s : State) :
     exec (.rep a n wb ws st) s = execRep a n wb ws st s := rfl
@[simp] theorem exec_qcnt (vec : Bool) (d : GReg) (q : QReg) (ms : Ms) (s : State) :
     exec (.qcnt vec d q ms) s = execQcnt vec d q ms s := rfl
@[simp] theorem exec_qdrain (vec : Bool) (f : QdForm) (ms : Ms) (s : State) :
     exec (.qdrain vec f ms) s = execQdrain vec f ms s := rfl
@[simp] theorem exec_queueDeadlock (ep : EP) (ctx : BitVec 2) (s : State) :
     exec (.queueDeadlock ep ctx) s = execQueueDeadlock ep ctx s := rfl
@[simp] theorem exec_arm (d : GReg) (a : GReg) (b : BOp) (ms : Ms) (s : State) :
     exec (.arm d a b ms) s = execArm d a b ms s := rfl
@[simp] theorem exec_dec (d : GReg) (a : GReg) (b : BOp) (ms : Ms) (s : State) :
     exec (.dec d a b ms) s = execDec d a b ms s := rfl
@[simp] theorem exec_inc (d : GReg) (a : GReg) (b : BOp) (ms : Ms) (s : State) :
     exec (.inc d a b ms) s = execInc d a b ms s := rfl
@[simp] theorem exec_spawn (a : GReg) (ms : Ms) (s : State) :
     exec (.spawn a ms) s = execSpawn a ms s := rfl
@[simp] theorem exec_tspawn (d : PReg) (a : GReg) (q : BitVec 4) (ms : Ms) (s : State) :
     exec (.tspawn d a q ms) s = execTspawn d a q ms s := rfl
@[simp] theorem exec_tspawnAppend (chip : ChipNo) (q : BitVec 4) (s : State) :
     exec (.tspawnAppend chip q) s = execTspawnAppend chip q s := rfl
@[simp] theorem exec_waita (c : WCond) (d : GReg) (a : GReg) (b : BReg) (ms : Ms) (s : State) :
     exec (.waita c d a b ms) s = execWaita c d a b ms s := rfl
@[simp] theorem exec_waitaWake (chip : ChipNo) (rc : Word) (s : State) :
     exec (.waitaWake chip rc) s = execWaitaWake chip rc s := rfl
@[simp] theorem exec_yield (ms : Ms) (s : State) :
     exec (.yield ms) s = execYield ms s := rfl
@[simp] theorem exec_susp (ms : Ms) (s : State) :
     exec (.susp ms) s = execSusp ms s := rfl
@[simp] theorem exec_arrive (d : GReg) (a : GReg) (b : BReg) (ms : Ms) (s : State) :
     exec (.arrive d a b ms) s = execArrive d a b ms s := rfl
@[simp] theorem exec_await (d : GReg) (a : GReg) (b : GReg) (ms : Ms) (s : State) :
     exec (.await d a b ms) s = execAwait d a b ms s := rfl
@[simp] theorem exec_drop (a : GReg) (b : GReg) (ms : Ms) (s : State) :
     exec (.drop a b ms) s = execDrop a b ms s := rfl
@[simp] theorem exec_ssync (d : GReg) (a : GReg) (b : GReg) (v : Bool) (op : BitVec 4) (ms : Ms) (s : State) :
     exec (.ssync d a b v op ms) s = execSsync d a b v op ms s := rfl
@[simp] theorem exec_ssyncArrivalCount (ep : EP) (ctx : BitVec 2) (s : State) :
     exec (.ssyncArrivalCount ep ctx) s = execSsyncArrivalCount ep ctx s := rfl
@[simp] theorem exec_arrivedSuspend (ep : EP) (ctx : BitVec 2) (s : State) :
     exec (.arrivedSuspend ep ctx) s = execArrivedSuspend ep ctx s := rfl
@[simp] theorem exec_ssnum (d : GReg) (ms : Ms) (s : State) :
     exec (.ssnum d ms) s = execSsnum d ms s := rfl
@[simp] theorem exec_fuse (shape : BitVec 2) (ms : Ms) (s : State) :
     exec (.fuse shape ms) s = execFuse shape ms s := rfl
@[simp] theorem exec_split (ms : Ms) (s : State) :
     exec (.split ms) s = execSplit ms s := rfl
@[simp] theorem exec_tqpush (a : GReg) (b : GReg) (ms : Ms) (s : State) :
     exec (.tqpush a b ms) s = execTqpush a b ms s := rfl
@[simp] theorem exec_tqpop (d : GReg) (a : GReg) (ms : Ms) (s : State) :
     exec (.tqpop d a ms) s = execTqpop d a ms s := rfl
@[simp] theorem exec_gwload (a : GReg) (first : BitVec 5) (count : BitVec 6) (ms : Ms) (s : State) :
     exec (.gwload a first count ms) s = execGwload a first count ms s := rfl
@[simp] theorem exec_gwrun (node : BitVec 5) (ms : Ms) (s : State) :
     exec (.gwrun node ms) s = execGwrun node ms s := rfl
@[simp] theorem exec_gwstat (d : GReg) (ms : Ms) (s : State) :
     exec (.gwstat d ms) s = execGwstat d ms s := rfl
@[simp] theorem exec_walkerNodeStep (ep : EP) (s : State) :
     exec (.walkerNodeStep ep) s = execWalkerNodeStep ep s := rfl
@[simp] theorem exec_cond (a : GReg) (b : BOp) (ms : Ms) (s : State) :
     exec (.cond a b ms) s = execCond a b ms s := rfl
@[simp] theorem exec_cpy (a : GReg) (b : BReg) (ms : Ms) (s : State) :
     exec (.cpy a b ms) s = execCpy a b ms s := rfl
@[simp] theorem exec_copyPiece (ep : EP) (op : Nat) (s : State) :
     exec (.copyPiece ep op) s = execCopyPiece ep op s := rfl
@[simp] theorem exec_pfl (a : GReg) (count : BitVec 7) (ms : Ms) (s : State) :
     exec (.pfl a count ms) s = execPfl a count ms s := rfl
@[simp] theorem exec_pflComplete (ep : EP) (op : Nat) (s : State) :
     exec (.pflComplete ep op) s = execPflComplete ep op s := rfl
@[simp] theorem exec_contextBind (ep : EP) (ctx : BitVec 2) (s : State) :
     exec (.contextBind ep ctx) s = execContextBind ep ctx s := rfl
@[simp] theorem exec_readyAge (chip : ChipNo) (rc : Word) (s : State) :
     exec (.readyAge chip rc) s = execReadyAge chip rc s := rfl
@[simp] theorem exec_lqdb (chip : ChipNo) (q : BitVec 4) (s : State) :
     exec (.lqdb chip q) s = execLqdb chip q s := rfl
@[simp] theorem exec_hostDoorbell (chip : ChipNo) (fn : Fn) (v : Word32) (s : State) :
     exec (.hostDoorbell chip fn v) s = execHostDoorbell chip fn v s := rfl
@[simp] theorem exec_launch (chip : ChipNo) (q : BitVec 4) (s : State) :
     exec (.launch chip q) s = execLaunch chip q s := rfl
@[simp] theorem exec_barrierDecision (chip : ChipNo) (team : Word32) (s : State) :
     exec (.barrierDecision chip team) s = execBarrierDecision chip team s := rfl
@[simp] theorem exec_preqNow (chip : ChipNo) (part : BitVec 3) (s : State) :
     exec (.preqNow chip part) s = execPreqNow chip part s := rfl
@[simp] theorem exec_shadowSwapDone (chip : ChipNo) (slot : BitVec 4) (s : State) :
     exec (.shadowSwapDone chip slot) s = execShadowSwapDone chip slot s := rfl
@[simp] theorem exec_preqAtBarrier (chip : ChipNo) (part : BitVec 3) (s : State) :
     exec (.preqAtBarrier chip part) s = execPreqAtBarrier chip part s := rfl
@[simp] theorem exec_resqResume (chip : ChipNo) (slot : BitVec 4) (die : Bool) (x : BitVec 5) (y : BitVec 5) (s : State) :
     exec (.resqResume chip slot die x y) s = execResqResume chip slot die x y s := rfl
@[simp] theorem exec_resqKill (chip : ChipNo) (slot : BitVec 4) (s : State) :
     exec (.resqKill chip slot) s = execResqKill chip slot s := rfl
@[simp] theorem exec_ldacq (sz : Size) (am : Am) (scope : Scope) (d : GReg) (a : GReg) (b : BReg) (off : Word32) (ms : Ms) (s : State) :
     exec (.ldacq sz am scope d a b off ms) s = execLdacq sz am scope d a b off ms s := rfl
@[simp] theorem exec_strel (sz : Size) (am : Am) (scope : Scope) (d : GReg) (a : GReg) (b : BReg) (off : Word32) (ms : Ms) (s : State) :
     exec (.strel sz am scope d a b off ms) s = execStrel sz am scope d a b off ms s := rfl
@[simp] theorem exec_fence (scope : Scope) (ms : Ms) (s : State) :
     exec (.fence scope ms) s = execFence scope ms s := rfl
@[simp] theorem exec_aadd (sz : ASize) (am : Am) (o : Ord) (d : GReg) (a : GReg) (b : BReg) (ms : Ms) (s : State) :
     exec (.aadd sz am o d a b ms) s = execAadd sz am o d a b ms s := rfl
@[simp] theorem exec_amin (u : Bool) (sz : ASize) (am : Am) (o : Ord) (d : GReg) (a : GReg) (b : BReg) (ms : Ms) (s : State) :
     exec (.amin u sz am o d a b ms) s = execAmin u sz am o d a b ms s := rfl
@[simp] theorem exec_amax (u : Bool) (sz : ASize) (am : Am) (o : Ord) (d : GReg) (a : GReg) (b : BReg) (ms : Ms) (s : State) :
     exec (.amax u sz am o d a b ms) s = execAmax u sz am o d a b ms s := rfl
@[simp] theorem exec_aand (sz : ASize) (am : Am) (o : Ord) (d : GReg) (a : GReg) (b : BReg) (ms : Ms) (s : State) :
     exec (.aand sz am o d a b ms) s = execAand sz am o d a b ms s := rfl
@[simp] theorem exec_aor (sz : ASize) (am : Am) (o : Ord) (d : GReg) (a : GReg) (b : BReg) (ms : Ms) (s : State) :
     exec (.aor sz am o d a b ms) s = execAor sz am o d a b ms s := rfl
@[simp] theorem exec_axor (sz : ASize) (am : Am) (o : Ord) (d : GReg) (a : GReg) (b : BReg) (ms : Ms) (s : State) :
     exec (.axor sz am o d a b ms) s = execAxor sz am o d a b ms s := rfl
@[simp] theorem exec_aswp (sz : ASize) (am : Am) (o : Ord) (d : GReg) (a : GReg) (b : BReg) (ms : Ms) (s : State) :
     exec (.aswp sz am o d a b ms) s = execAswp sz am o d a b ms s := rfl
@[simp] theorem exec_afadd (dbl : Bool) (am : Am) (o : Ord) (rnd : Rnd) (d : GReg) (a : GReg) (b : BReg) (ms : Ms) (s : State) :
     exec (.afadd dbl am o rnd d a b ms) s = execAfadd dbl am o rnd d a b ms s := rfl
@[simp] theorem exec_acas (sz : ASize) (am : Am) (o : Ord) (d : GReg) (a : GReg) (b : BReg) (ms : Ms) (s : State) :
     exec (.acas sz am o d a b ms) s = execAcas sz am o d a b ms s := rfl
@[simp] theorem exec_red (op : RedOp) (dbl : Bool) (am : Am) (rel : Bool) (scope : Scope) (a : GReg) (b : BReg) (ms : Ms) (s : State) :
     exec (.red op dbl am rel scope a b ms) s = execRed op dbl am rel scope a b ms s := rfl
@[simp] theorem exec_pgq (st : Bool) (am : Am) (d : GReg) (a : GReg) (b : BReg) (off : Word32) (ms : Ms) (s : State) :
     exec (.pgq st am d a b off ms) s = execPgq st am d a b off ms s := rfl
@[simp] theorem exec_rred (op : RedOp) (dbl : Bool) (am : Am) (a : GReg) (b : BReg) (ms : Ms) (s : State) :
     exec (.rred op dbl am a b ms) s = execRred op dbl am a b ms s := rfl
@[simp] theorem exec_rflush (one : Bool) (w : Bool) (am : Am) (a : GReg) (ms : Ms) (s : State) :
     exec (.rflush one w am a ms) s = execRflush one w am a ms s := rfl
@[simp] theorem exec_rstat (f : RstatForm) (ms : Ms) (s : State) :
     exec (.rstat f ms) s = execRstat f ms s := rfl
@[simp] theorem exec_fcas (o : Ord) (d : GReg) (a : GReg) (b : GReg) (w : BitVec 2) (p : PReg) (ms : Ms) (s : State) :
     exec (.fcas o d a b w p ms) s = execFcas o d a b w p ms s := rfl
@[simp] theorem exec_fenq (o : Ord) (d : GReg) (a : GReg) (b : GReg) (ms : Ms) (s : State) :
     exec (.fenq o d a b ms) s = execFenq o d a b ms s := rfl
@[simp] theorem exec_fchase (acq : Bool) (scope : Scope) (d : GReg) (a : GReg) (m : BitVec 5) (off : BitVec 16) (ms : Ms) (s : State) :
     exec (.fchase acq scope d a m off ms) s = execFchase acq scope d a m off ms s := rfl
@[simp] theorem exec_tsrd (wrk : Bool) (d : GReg) (b : BReg) (sel : BitVec 6) (ms : Ms) (s : State) :
     exec (.tsrd wrk d b sel ms) s = execTsrd wrk d b sel ms s := rfl
@[simp] theorem exec_tsclr (a : GReg) (b : BReg) (ms : Ms) (s : State) :
     exec (.tsclr a b ms) s = execTsclr a b ms s := rfl
@[simp] theorem exec_tsscale (d : GReg) (b : BReg) (tfmt : BitVec 5) (ms : Ms) (s : State) :
     exec (.tsscale d b tfmt ms) s = execTsscale d b tfmt ms s := rfl
@[simp] theorem exec_qnt (ty : QTy) (d : GReg) (a : GReg) (b : BReg) (rnd : Rnd) (tfmt : BitVec 5) (trap : Bool) (geom : BitVec 2) (ms : Ms) (s : State) :
     exec (.qnt ty d a b rnd tfmt trap geom ms) s = execQnt ty d a b rnd tfmt trap geom ms s := rfl
@[simp] theorem exec_qntl (ty : QTy) (d : GReg) (a : GReg) (rnd : Rnd) (tfmt : BitVec 5) (geom : BitVec 2) (lb : BitVec 2) (ms : Ms) (s : State) :
     exec (.qntl ty d a rnd tfmt geom lb ms) s = execQntl ty d a rnd tfmt geom lb ms s := rfl
@[simp] theorem exec_dqnt (ty : QTy) (blk : Bool) (a : GReg) (b : BReg) (rnd : Rnd) (tfmt : BitVec 5) (geom : BitVec 2) (lb : BitVec 2) (prnd : Bool) (ms : Ms) (s : State) :
     exec (.dqnt ty blk a b rnd tfmt geom lb prnd ms) s = execDqnt ty blk a b rnd tfmt geom lb prnd ms s := rfl
@[simp] theorem exec_kput (a : GReg) (b : BReg) (ms : Ms) (s : State) :
     exec (.kput a b ms) s = execKput a b ms s := rfl
@[simp] theorem exec_kget (a : GReg) (b : BReg) (ms : Ms) (s : State) :
     exec (.kget a b ms) s = execKget a b ms s := rfl
@[simp] theorem exec_peerPacketApply (ep : EP) (op : Nat) (s : State) :
     exec (.peerPacketApply ep op) s = execPeerPacketApply ep op s := rfl
@[simp] theorem exec_kcoll (a : GReg) (b : BReg) (n : BitVec 7) (ms : Ms) (s : State) :
     exec (.kcoll a b n ms) s = execKcoll a b n ms s := rfl
@[simp] theorem exec_collContrib (id : Nat) (s : State) :
     exec (.collContrib id) s = execCollContrib id s := rfl
@[simp] theorem exec_collChain (id : Nat) (s : State) :
     exec (.collChain id) s = execCollChain id s := rfl
@[simp] theorem exec_collForward (id : Nat) (s : State) :
     exec (.collForward id) s = execCollForward id s := rfl
@[simp] theorem exec_collMulticast (id : Nat) (s : State) :
     exec (.collMulticast id) s = execCollMulticast id s := rfl
@[simp] theorem exec_collDeliver (id : Nat) (s : State) :
     exec (.collDeliver id) s = execCollDeliver id s := rfl
@[simp] theorem exec_fedj (a : GReg) (b : BReg) (ms : Ms) (s : State) :
     exec (.fedj a b ms) s = execFedj a b ms s := rfl
@[simp] theorem exec_fedl (ms : Ms) (s : State) :
     exec (.fedl ms) s = execFedl ms s := rfl
@[simp] theorem exec_gqpush (a : GReg) (ms : Ms) (s : State) :
     exec (.gqpush a ms) s = execGqpush a ms s := rfl
@[simp] theorem exec_gqEgressSend (ep : EP) (s : State) :
     exec (.gqEgressSend ep) s = execGqEgressSend ep s := rfl
@[simp] theorem exec_gqDeliver (id : Nat) (s : State) :
     exec (.gqDeliver id) s = execGqDeliver id s := rfl
@[simp] theorem exec_gqpop (d : GReg) (a : GReg) (ms : Ms) (s : State) :
     exec (.gqpop d a ms) s = execGqpop d a ms s := rfl
@[simp] theorem exec_gqwin (rl : Bool) (d : GReg) (a : GReg) (b : BReg) (ms : Ms) (s : State) :
     exec (.gqwin rl d a b ms) s = execGqwin rl d a b ms s := rfl
@[simp] theorem exec_gprio (a : GReg) (lvl : BitVec 4) (ms : Ms) (s : State) :
     exec (.gprio a lvl ms) s = execGprio a lvl ms s := rfl
@[simp] theorem exec_ostep (d : GReg) (b : BReg) (ms : Ms) (s : State) :
     exec (.ostep d b ms) s = execOstep d b ms s := rfl
@[simp] theorem exec_trap (code : BitVec 16) (ms : Ms) (s : State) :
     exec (.trap code ms) s = execTrap code ms s := rfl
@[simp] theorem exec_brk (ms : Ms) (s : State) :
     exec (.brk ms) s = execBrk ms s := rfl
@[simp] theorem exec_fmsg (nb : Bool) (d : GReg) (ms : Ms) (s : State) :
     exec (.fmsg nb d ms) s = execFmsg nb d ms s := rfl
@[simp] theorem exec_freply (a : GReg) (b : BReg) (ms : Ms) (s : State) :
     exec (.freply a b ms) s = execFreply a b ms s := rfl
@[simp] theorem exec_srd (d : GReg) (n : BitVec 12) (ms : Ms) (s : State) :
     exec (.srd d n ms) s = execSrd d n ms s := rfl
@[simp] theorem exec_swr (a : GReg) (n : BitVec 12) (ms : Ms) (s : State) :
     exec (.swr a n ms) s = execSwr a n ms s := rfl
@[simp] theorem exec_tlbi (all : Bool) (part : BitVec 3) (a : GReg) (b : BReg) (ms : Ms) (s : State) :
     exec (.tlbi all part a b ms) s = execTlbi all part a b ms s := rfl
@[simp] theorem exec_shootdownAck (id : Nat) (s : State) :
     exec (.shootdownAck id) s = execShootdownAck id s := rfl
@[simp] theorem exec_coreSleep (ep : EP) (s : State) :
     exec (.coreSleep ep) s = execCoreSleep ep s := rfl
@[simp] theorem exec_coreWake (ep : EP) (s : State) :
     exec (.coreWake ep) s = execCoreWake ep s := rfl
@[simp] theorem exec_ident (d : GReg) (sel : BitVec 4) (ms : Ms) (s : State) :
     exec (.ident d sel ms) s = execIdent d sel ms s := rfl
@[simp] theorem exec_halt (ms : Ms) (s : State) :
     exec (.halt ms) s = execHalt ms s := rfl
@[simp] theorem exec_mxSlotAdmit (ep : EP) (s : State) :
     exec (.mxSlotAdmit ep) s = execMxSlotAdmit ep s := rfl
@[simp] theorem exec_mxClaim (ep : EP) (ctx : BitVec 2) (s : State) :
     exec (.mxClaim ep ctx) s = execMxClaim ep ctx s := rfl
@[simp] theorem exec_mxMma (ep : EP) (s : State) :
     exec (.mxMma ep) s = execMxMma ep s := rfl
@[simp] theorem exec_mxMmat (ep : EP) (s : State) :
     exec (.mxMmat ep) s = execMxMmat ep s := rfl
@[simp] theorem exec_mxZero (ep : EP) (s : State) :
     exec (.mxZero ep) s = execMxZero ep s := rfl
@[simp] theorem exec_mxDrain (ep : EP) (s : State) :
     exec (.mxDrain ep) s = execMxDrain ep s := rfl
@[simp] theorem exec_mxXch (ep : EP) (s : State) :
     exec (.mxXch ep) s = execMxXch ep s := rfl
@[simp] theorem exec_mxCksum (ep : EP) (s : State) :
     exec (.mxCksum ep) s = execMxCksum ep s := rfl
@[simp] theorem exec_mxMark (ep : EP) (s : State) :
     exec (.mxMark ep) s = execMxMark ep s := rfl
@[simp] theorem exec_rickAgeOut (ep : EP) (i1 : BitVec 3) (s : State) :
     exec (.rickAgeOut ep i1) s = execRickAgeOut ep i1 s := rfl
@[simp] theorem exec_cordApply (id : Nat) (s : State) :
     exec (.cordApply id) s = execCordApply id s := rfl
@[simp] theorem exec_cordStatus (id : Nat) (s : State) :
     exec (.cordStatus id) s = execCordStatus id s := rfl
@[simp] theorem exec_statsUpdateMerge (id : Nat) (s : State) :
     exec (.statsUpdateMerge id) s = execStatsUpdateMerge id s := rfl
@[simp] theorem exec_migreqGo (chip : ChipNo) (part : BitVec 3) (va : Word) (s : State) :
     exec (.migreqGo chip part va) s = execMigreqGo chip part va s := rfl
@[simp] theorem exec_migrationLineCopy (chip : ChipNo) (s : State) :
     exec (.migrationLineCopy chip) s = execMigrationLineCopy chip s := rfl
@[simp] theorem exec_hostAtomicop (chip : ChipNo) (part : BitVec 3) (op : HostAtomic) (dbl : Bool) (va : Word) (opnd : Word) (cmp : Word) (s : State) :
     exec (.hostAtomicop chip part op dbl va opnd cmp) s = execHostAtomicop chip part op dbl va opnd cmp s := rfl
@[simp] theorem exec_flitReceive (chip : ChipNo) (port : BitVec 4) (f : Flit) (s : State) :
     exec (.flitReceive chip port f) s = execFlitReceive chip port f s := rfl
@[simp] theorem exec_ackTimer (chip : ChipNo) (port : BitVec 4) (s : State) :
     exec (.ackTimer chip port) s = execAckTimer chip port s := rfl
@[simp] theorem exec_replayTimeout (chip : ChipNo) (port : BitVec 4) (s : State) :
     exec (.replayTimeout chip port) s = execReplayTimeout chip port s := rfl
@[simp] theorem exec_gatewayForward (chip : ChipNo) (id : Nat) (s : State) :
     exec (.gatewayForward chip id) s = execGatewayForward chip id s := rfl
@[simp] theorem exec_laneFail (chip : ChipNo) (port : BitVec 4) (lane : BitVec 4) (s : State) :
     exec (.laneFail chip port lane) s = execLaneFail chip port lane s := rfl
@[simp] theorem exec_portRetrainDone (chip : ChipNo) (port : BitVec 4) (s : State) :
     exec (.portRetrainDone chip port) s = execPortRetrainDone chip port s := rfl
@[simp] theorem exec_linkHeartbeat (chip : ChipNo) (s : State) :
     exec (.linkHeartbeat chip) s = execLinkHeartbeat chip s := rfl
@[simp] theorem exec_chipLost (chip : ChipNo) (lost : ChipNo) (s : State) :
     exec (.chipLost chip lost) s = execChipLost chip lost s := rfl
@[simp] theorem exec_lossReportReceive (chip : ChipNo) (lost : ChipNo) (s : State) :
     exec (.lossReportReceive chip lost) s = execLossReportReceive chip lost s := rfl
@[simp] theorem exec_ptrootWrite (chip : ChipNo) (part : BitVec 3) (v : Word) (s : State) :
     exec (.ptrootWrite chip part v) s = execPtrootWrite chip part v s := rfl
@[simp] theorem exec_optbindWrite (chip : ChipNo) (j : BitVec 5) (v : Word) (s : State) :
     exec (.optbindWrite chip j v) s = execOptbindWrite chip j v s := rfl
@[simp] theorem exec_optrecWrite (chip : ChipNo) (v : Word) (s : State) :
     exec (.optrecWrite chip v) s = execOptrecWrite chip v s := rfl
@[simp] theorem exec_svcbootWrite (chip : ChipNo) (v : Word) (s : State) :
     exec (.svcbootWrite chip v) s = execSvcbootWrite chip v s := rfl
@[simp] theorem exec_portstClear (chip : ChipNo) (port : BitVec 4) (s : State) :
     exec (.portstClear chip port) s = execPortstClear chip port s := rfl
@[simp] theorem exec_registerWrite (ep : EP) (pv : Priv) (n : BitVec 12) (v : Word) (s : State) :
     exec (.registerWrite ep pv n v) s = execRegisterWrite ep pv n v s := rfl
@[simp] theorem exec_feataccWrite (chip : ChipNo) (v : BitVec 128) (s : State) :
     exec (.feataccWrite chip v) s = execFeataccWrite chip v s := rfl
@[simp] theorem exec_partenWrite (chip : ChipNo) (v : BitVec 8) (s : State) :
     exec (.partenWrite chip v) s = execPartenWrite chip v s := rfl
@[simp] theorem exec_lockInterfaceRequest (chip : ChipNo) (vf : BitVec 3) (s : State) :
     exec (.lockInterfaceRequest chip vf) s = execLockInterfaceRequest chip vf s := rfl
@[simp] theorem exec_startInterfaceRequest (chip : ChipNo) (vf : BitVec 3) (s : State) :
     exec (.startInterfaceRequest chip vf) s = execStartInterfaceRequest chip vf s := rfl
@[simp] theorem exec_stopInterfaceRequest (chip : ChipNo) (vf : BitVec 3) (s : State) :
     exec (.stopInterfaceRequest chip vf) s = execStopInterfaceRequest chip vf s := rfl
@[simp] theorem exec_functionLevelReset (chip : ChipNo) (vf : BitVec 3) (s : State) :
     exec (.functionLevelReset chip vf) s = execFunctionLevelReset chip vf s := rfl
@[simp] theorem exec_scrubDone (chip : ChipNo) (vf : BitVec 3) (s : State) :
     exec (.scrubDone chip vf) s = execScrubDone chip vf s := rfl
@[simp] theorem exec_ideKmRequest (chip : ChipNo) (st : IdeStream) (set1 : Bool) (r : IdeKm) (s : State) :
     exec (.ideKmRequest chip st set1 r) s = execIdeKmRequest chip st set1 r s := rfl
@[simp] theorem exec_ideIntegrityFail (chip : ChipNo) (st : IdeStream) (s : State) :
     exec (.ideIntegrityFail chip st) s = execIdeIntegrityFail chip st s := rfl
@[simp] theorem exec_getVersion (chip : ChipNo) (fn : Fn) (s : State) :
     exec (.getVersion chip fn) s = execGetVersion chip fn s := rfl
@[simp] theorem exec_getCapabilities (chip : ChipNo) (fn : Fn) (req : List Byte) (s : State) :
     exec (.getCapabilities chip fn req) s = execGetCapabilities chip fn req s := rfl
@[simp] theorem exec_negotiateAlgorithms (chip : ChipNo) (fn : Fn) (offersSuite : Bool) (req : List Byte) (s : State) :
     exec (.negotiateAlgorithms chip fn offersSuite req) s = execNegotiateAlgorithms chip fn offersSuite req s := rfl
@[simp] theorem exec_getDigests (chip : ChipNo) (fn : Fn) (s : State) :
     exec (.getDigests chip fn) s = execGetDigests chip fn s := rfl
@[simp] theorem exec_getCertificate (chip : ChipNo) (fn : Fn) (slot : BitVec 4) (off : BitVec 16) (len : BitVec 16) (s : State) :
     exec (.getCertificate chip fn slot off len) s = execGetCertificate chip fn slot off len s := rfl
@[simp] theorem exec_challenge (chip : ChipNo) (fn : Fn) (slot : BitVec 4) (nonce : BitVec 256) (s : State) :
     exec (.challenge chip fn slot nonce) s = execChallenge chip fn slot nonce s := rfl
@[simp] theorem exec_getMeasurements (chip : ChipNo) (fn : Fn) (sign : Bool) (idx : BitVec 8) (nonce : BitVec 256) (s : State) :
     exec (.getMeasurements chip fn sign idx nonce) s = execGetMeasurements chip fn sign idx nonce s := rfl
@[simp] theorem exec_keyExchange (chip : ChipNo) (fn : Fn) (req : List Byte) (s : State) :
     exec (.keyExchange chip fn req) s = execKeyExchange chip fn req s := rfl
@[simp] theorem exec_finish (chip : ChipNo) (fn : Fn) (hmacOk : Bool) (s : State) :
     exec (.finish chip fn hmacOk) s = execFinish chip fn hmacOk s := rfl
@[simp] theorem exec_heartbeat (chip : ChipNo) (fn : Fn) (s : State) :
     exec (.heartbeat chip fn) s = execHeartbeat chip fn s := rfl
@[simp] theorem exec_keyUpdate (chip : ChipNo) (fn : Fn) (s : State) :
     exec (.keyUpdate chip fn) s = execKeyUpdate chip fn s := rfl
@[simp] theorem exec_endSession (chip : ChipNo) (fn : Fn) (s : State) :
     exec (.endSession chip fn) s = execEndSession chip fn s := rfl
@[simp] theorem exec_collierReadEvent (chip : ChipNo) (i1 : Word32) (s : State) :
     exec (.collierReadEvent chip i1) s = execCollierReadEvent chip i1 s := rfl
@[simp] theorem exec_collierSvcboot (chip : ChipNo) (addr : Word) (s : State) :
     exec (.collierSvcboot chip addr) s = execCollierSvcboot chip addr s := rfl
@[simp] theorem exec_collierWriteBank (chip : ChipNo) (bankB : Bool) (off : BitVec 23) (bytes : List Byte) (s : State) :
     exec (.collierWriteBank chip bankB off bytes) s = execCollierWriteBank chip bankB off bytes s := rfl
@[simp] theorem exec_collierActivateBank (chip : ChipNo) (sigOk : Bool) (s : State) :
     exec (.collierActivateBank chip sigOk) s = execCollierActivateBank chip sigOk s := rfl
@[simp] theorem exec_collierReadSensor (chip : ChipNo) (n : BitVec 8) (s : State) :
     exec (.collierReadSensor chip n) s = execCollierReadSensor chip n s := rfl
@[simp] theorem exec_collierReplan (chip : ChipNo) (s : State) :
     exec (.collierReplan chip) s = execCollierReplan chip s := rfl
@[simp] theorem exec_collierRetrainPort (chip : ChipNo) (port : BitVec 4) (s : State) :
     exec (.collierRetrainPort chip port) s = execCollierRetrainPort chip port s := rfl
@[simp] theorem exec_sensorSample (chip : ChipNo) (n : BitVec 8) (v : Int) (s : State) :
     exec (.sensorSample chip n v) s = execSensorSample chip n v s := rfl
@[simp] theorem exec_ageingPlan (chip : ChipNo) (failing : List (BitVec 7)) (s : State) :
     exec (.ageingPlan chip failing) s = execAgeingPlan chip failing s := rfl
@[simp] theorem exec_watchdogExpire (chip : ChipNo) (s : State) :
     exec (.watchdogExpire chip) s = execWatchdogExpire chip s := rfl
@[simp] theorem exec_softRepair (chip : ChipNo) (stack : BitVec 3) (channel : BitVec 5) (row : Word32) (s : State) :
     exec (.softRepair chip stack channel row) s = execSoftRepair chip stack channel row s := rfl
@[simp] theorem exec_repairQuiesceEnd (chip : ChipNo) (stack : BitVec 3) (channel : BitVec 5) (s : State) :
     exec (.repairQuiesceEnd chip stack channel) s = execRepairQuiesceEnd chip stack channel s := rfl
@[simp] theorem exec_fundamentalReset (chip : ChipNo) (r : BootReport) (s : State) :
     exec (.fundamentalReset chip r) s = execFundamentalReset chip r s := rfl
@[simp] theorem exec_hotReset (chip : ChipNo) (s : State) :
     exec (.hotReset chip) s = execHotReset chip s := rfl
@[simp] theorem exec_fatalEvent (chip : ChipNo) (c : FatalCause) (s : State) :
     exec (.fatalEvent chip c) s = execFatalEvent chip c s := rfl
@[simp] theorem exec_laneFailureSignal (chip : ChipNo) (port : BitVec 4) (s : State) :
     exec (.laneFailureSignal chip port) s = execLaneFailureSignal chip port s := rfl
@[simp] theorem exec_powerLoss (chip : ChipNo) (s : State) :
     exec (.powerLoss chip) s = execPowerLoss chip s := rfl
@[simp] theorem exec_configurationWrite (chip : ChipNo) (w : CfgWrite) (s : State) :
     exec (.configurationWrite chip w) s = execConfigurationWrite chip w s := rfl

end Sys2Proof.Machine
end

