-- ==== Sys2Proof/Laws/Encoding.lean ====
section
/-! SUPPORT. The encoder's tables read back by the decoder's, one lemma per code table and per operand form, for the round trip
of the encodings. -/
namespace Sys2Proof
set_option maxRecDepth 8000

@[simp] theorem intTy?_code (t : IntTy) : intTy? t.code = some t := by cases t <;> rfl
@[simp] theorem signedWidth?_code (t : Width) : signedWidth? t.signedCode = some t := by cases t <;> rfl
@[simp] theorem unsignedWidth?_code (t : Width) : unsignedWidth? t.unsignedCode = some t := by cases t <;> rfl
@[simp] theorem floatTy?_code (t : FloatTy) : floatTy? t.code = some t := by cases t <;> rfl
@[simp] theorem intTy?_fcode (t : FloatTy) : intTy? t.code = none := by cases t <;> rfl
@[simp] theorem ty?_code (t : Ty) : ty? t.code = some t := by cases t <;> rename_i t <;> cases t <;> rfl
@[simp] theorem size?_code (t : Size) : size? t.code = some t := by cases t <;> rfl
@[simp] theorem vsize?_code (t : VSize) : vsize? t.code = some t := by cases t <;> rfl
@[simp] theorem asize?_code (t : ASize) : asize? t.code = some t := by cases t <;> rfl
@[simp] theorem dbl?_code (t : Bool) : dbl? (dblCode t) = some t := by cases t <;> rfl
@[simp] theorem qty?_code (t : QTy) : qty? t.code = some t := by cases t <;> rfl
@[simp] theorem rnd?_code (t : Rnd) : rnd? t.code = some t := by cases t <;> rfl
@[simp] theorem scope?_code (t : Scope) : scope? t.code = some t := by cases t <;> rfl
@[simp] theorem am?_code (t : Am) : am? t.code = some t := by cases t <;> rfl
@[simp] theorem icond?_code (t : ICond) : icond? t.code = some t := by cases t <;> rfl
@[simp] theorem fcond?_code (t : FCond) : fcond? t.code = some t := by cases t <;> rfl
@[simp] theorem logOp?_code (t : LogOp) : logOp? t.code = some t := by cases t <;> rfl
@[simp] theorem ptrxSel?_code (t : PtrxSel) : ptrxSel? t.code = some t := by cases t <;> rfl
@[simp] theorem splitPart?_code (t : SplitPart) : splitPart? t.code = some t := by cases t <;> rfl
@[simp] theorem sgnOp?_code (t : SgnOp) : sgnOp? t.code = some t := by cases t <;> rfl
@[simp] theorem ktest?_code (t : KTest) : ktest? t.code = some t := by cases t <;> rfl
@[simp] theorem wcond?_code (t : WCond) : wcond? t.code = some t := by cases t <;> rfl
@[simp] theorem fnBit?_bit (t : Bool) : fnBit? (fnBit t) = some t := by cases t <;> rfl
@[simp] theorem bit?_bit (t : Bool) : bit? (bitImm t) = some t := by cases t <;> rfl
@[simp] theorem bit?_zero  : bit? 0#32 = some false := by rfl
@[simp] theorem rnd?_zero  : rnd? 0#3 = some .rne := by rfl
@[simp] theorem scope?_zero  : scope? 0#3 = some .context := by rfl
@[simp] theorem am?_lin : am? 0#2 = some .lin := rfl
@[simp] theorem redOp?_code (o : RedOp) : redOp? o.code.1 o.code.2.1 o.code.2.2 = some o := by
  cases o <;> first | rfl | (rename_i u; cases u <;> rfl)
@[simp] theorem vreg?_val (r : VReg) : vreg? (r.setWidth 7) = some r := by revert r; decide
@[simp] theorem low3?_val (r : BitVec 3) : low3? (r.setWidth 7) = some r := by revert r; decide
@[simp] theorem mask_code (m : Ms) : Ms.ofBits m.code = m := by
  obtain ⟨i, x⟩ := m; revert i x; decide
theorem low?_val {n : Nat} (h : n ≤ 32) (x : BitVec n) : low? n (x.setWidth 32) = some x := by
  have h1 : (2 : Nat) ^ n ≤ 2 ^ 32 := Nat.pow_le_pow_right (by decide) h
  have h2 : x.toNat < 2 ^ 32 := Nat.lt_of_lt_of_le x.isLt h1
  have h3 : (x.setWidth 32).setWidth n = x := by
    apply BitVec.eq_of_toNat_eq
    rw [BitVec.toNat_setWidth, BitVec.toNat_setWidth, Nat.mod_eq_of_lt h2, Nat.mod_eq_of_lt x.isLt]
  simp only [low?, BitVec.toNat_setWidth, Nat.mod_eq_of_lt h2, onlyIf, x.isLt, h3, decide_true, if_true]
@[simp] theorem bop_put (b : BOp) (f : Fields) (h1 : f.b = 0) (h2 : f.c = 0) (h3 : f.ce = 0) (h4 : f.flags = 0) (h5 : f.imm = 0) :
   bop? (b.put f) = some b := by cases b <;> simp [bop?, BOp.put, onlyIf, *]
@[simp] theorem breg_put (b : BReg) (f : Fields) (h1 : f.b = 0) (h2 : f.c = 0) (h3 : f.ce = 0) :
   breg? (b.put f) = some b := by cases b <;> simp [breg?, BReg.put, onlyIf, *]

/-- The round trip of one instruction at the level of fields. -/
def RoundTrip (i : Instr) : Prop := ∀ v f, i.wf = true → fieldsOf i = some (v, f) → ofFields v f = .ok i

theorem rt_of (vec : Bool) (f : Fields) (i : Instr) (r : Row) (h1 : streamOk vec f.opc = true) (h2 : opcodeRows.lookup f.opc = some r)
   (h3 : r vec f = some i) (h4 : i.wf = true) : ofFields vec f = .ok i := by
  simp [ofFields, h1, h2, h3, h4]

@[simp] theorem bput_opc (b : BOp) (f : Fields) : (b.put f).opc = f.opc := by cases b <;> rfl
@[simp] theorem bput_fn (b : BOp) (f : Fields) : (b.put f).fn = f.fn := by cases b <;> rfl
@[simp] theorem bput_d (b : BOp) (f : Fields) : (b.put f).d = f.d := by cases b <;> rfl
@[simp] theorem bput_a (b : BOp) (f : Fields) : (b.put f).a = f.a := by cases b <;> rfl
@[simp] theorem bput_ms (b : BOp) (f : Fields) : (b.put f).ms = f.ms := by cases b <;> rfl
@[simp] theorem bput_ty (b : BOp) (f : Fields) : (b.put f).ty = f.ty := by cases b <;> rfl
@[simp] theorem bput_am (b : BOp) (f : Fields) : (b.put f).am = f.am := by cases b <;> rfl
@[simp] theorem bput_rnd (b : BOp) (f : Fields) : (b.put f).rnd = f.rnd := by cases b <;> rfl
@[simp] theorem bput_scope (b : BOp) (f : Fields) : (b.put f).scope = f.scope := by cases b <;> rfl

@[simp] theorem brput_opc (b : BReg) (f : Fields) : (b.put f).opc = f.opc := by cases b <;> rfl
@[simp] theorem vbput_opc (b : VB) (f : Fields) : (b.put f).opc = f.opc := by cases b <;> rfl
@[simp] theorem base_opc (o n : BitVec 8) : (Fields.base o n).opc = o := rfl
@[simp] theorem encBin_opc (o t d a b ms) : (encBin o t d a b ms).opc = o := by simp [encBin]
@[simp] theorem encUn_opc (o n t d a i ms) : (encUn o n t d a i ms).opc = o := by simp [encUn]
@[simp] theorem encFlt_opc (o n t d a b r ms) : (encFlt o n t d a b r ms).opc = o := by simp [encFlt]
@[simp] theorem encMem_opc (o n t m d a b c i ms) : (encMem o n t m d a b c i ms).opc = o := by simp [encMem]
@[simp] theorem encVec_opc (o n t d a b r ms) : (encVec o n t d a b r ms).opc = o := by simp [encVec]
@[simp] theorem encAtomic_opc (o n t m q r d a b i ms) : (encAtomic o n t m q r d a b i ms).opc = o := by simp [encAtomic]

end Sys2Proof
end

