-- ==== Sys2Proof/Laws/PerInstr.lean ====
section
/-! SUPPORT. Statements made once per instruction. Streams: the fields that the encoder gives an instruction name a stream that
may hold its major opcode, so that no encoding is refused for the template of its line. -/
namespace Sys2Proof.Laws.Streams

/-- The stream and the opcode of the instruction's fields agree. -/
def Statement (i : Instr) : Prop := ∀ v f, fieldsOf i = some (v, f) → streamOk v f.opc = true

theorem add (ty : IntTy) (d a : GReg) (b : BOp) (ms : Ms) : Statement (.add ty d a b ms) := by
  intro v f h; cases h <;> simp [streamOk]
theorem sub (ty : IntTy) (d a : GReg) (b : BOp) (ms : Ms) : Statement (.sub ty d a b ms) := by
  intro v f h; cases h <;> simp [streamOk]
theorem mul (ty : IntTy) (d a : GReg) (b : BOp) (ms : Ms) : Statement (.mul ty d a b ms) := by
  intro v f h; cases h <;> simp [streamOk]
theorem mulh (w : Width) (d a : GReg) (b : BOp) (ms : Ms) : Statement (.mulh w d a b ms) := by
  intro v f h; cases h <;> simp [streamOk]
theorem mulhn (w : Width) (d a : GReg) (b : BOp) (ms : Ms) : Statement (.mulhn w d a b ms) := by
  intro v f h; cases h <;> simp [streamOk]
theorem div (w : Width) (d a : GReg) (b : BOp) (ms : Ms) : Statement (.div w d a b ms) := by
  intro v f h; cases h <;> simp [streamOk]
theorem divn (w : Width) (d a : GReg) (b : BOp) (ms : Ms) : Statement (.divn w d a b ms) := by
  intro v f h; cases h <;> simp [streamOk]
theorem remS (w : Width) (d a : GReg) (b : BOp) (ms : Ms) : Statement (.remS w d a b ms) := by
  intro v f h; cases h <;> simp [streamOk]
theorem remn (w : Width) (d a : GReg) (b : BOp) (ms : Ms) : Statement (.remn w d a b ms) := by
  intro v f h; cases h <;> simp [streamOk]
theorem andI (ty : IntTy) (d a : GReg) (b : BOp) (ms : Ms) : Statement (.andI ty d a b ms) := by
  intro v f h; cases h <;> simp [streamOk]
theorem orI (ty : IntTy) (d a : GReg) (b : BOp) (ms : Ms) : Statement (.orI ty d a b ms) := by
  intro v f h; cases h <;> simp [streamOk]
theorem xorI (ty : IntTy) (d a : GReg) (b : BOp) (ms : Ms) : Statement (.xorI ty d a b ms) := by
  intro v f h; cases h <;> simp [streamOk]
theorem andn (ty : IntTy) (d a : GReg) (b : BOp) (ms : Ms) : Statement (.andn ty d a b ms) := by
  intro v f h; cases h <;> simp [streamOk]
theorem orn (ty : IntTy) (d a : GReg) (b : BOp) (ms : Ms) : Statement (.orn ty d a b ms) := by
  intro v f h; cases h <;> simp [streamOk]
theorem shl (ty : IntTy) (d a : GReg) (b : BOp) (ms : Ms) : Statement (.shl ty d a b ms) := by
  intro v f h; cases h <;> simp [streamOk]
theorem shr (ty : IntTy) (d a : GReg) (b : BOp) (ms : Ms) : Statement (.shr ty d a b ms) := by
  intro v f h; cases h <;> simp [streamOk]
theorem sar (ty : IntTy) (d a : GReg) (b : BOp) (ms : Ms) : Statement (.sar ty d a b ms) := by
  intro v f h; cases h <;> simp [streamOk]
theorem rol (ty : IntTy) (d a : GReg) (b : BOp) (ms : Ms) : Statement (.rol ty d a b ms) := by
  intro v f h; cases h <;> simp [streamOk]
theorem clz (ty : IntTy) (d a : GReg) (ms : Ms) : Statement (.clz ty d a ms) := by
  intro v f h; cases h <;> simp [streamOk]
theorem ctz (ty : IntTy) (d a : GReg) (ms : Ms) : Statement (.ctz ty d a ms) := by
  intro v f h; cases h <;> simp [streamOk]
theorem popc (ty : IntTy) (d a : GReg) (ms : Ms) : Statement (.popc ty d a ms) := by
  intro v f h; cases h <;> simp [streamOk]
theorem brev (ty : IntTy) (d a : GReg) (ms : Ms) : Statement (.brev ty d a ms) := by
  intro v f h; cases h <;> simp [streamOk]
theorem minS (w : Width) (d a : GReg) (b : BOp) (ms : Ms) : Statement (.minS w d a b ms) := by
  intro v f h; cases h <;> simp [streamOk]
theorem maxS (w : Width) (d a : GReg) (b : BOp) (ms : Ms) : Statement (.maxS w d a b ms) := by
  intro v f h; cases h <;> simp [streamOk]
theorem minn (w : Width) (d a : GReg) (b : BOp) (ms : Ms) : Statement (.minn w d a b ms) := by
  intro v f h; cases h <;> simp [streamOk]
theorem maxn (w : Width) (d a : GReg) (b : BOp) (ms : Ms) : Statement (.maxn w d a b ms) := by
  intro v f h; cases h <;> simp [streamOk]
theorem sext (d a : GReg) (n : BitVec 7) (ms : Ms) : Statement (.sext d a n ms) := by
  intro v f h; cases h <;> simp [streamOk]
theorem zext (d a : GReg) (n : BitVec 7) (ms : Ms) : Statement (.zext d a n ms) := by
  intro v f h; cases h <;> simp [streamOk]
theorem bfx (d a : GReg) (pos : BitVec 6) (len : BitVec 7) (ms : Ms) : Statement (.bfx d a pos len ms) := by
  intro v f h; cases h <;> simp [streamOk]
theorem bfxn (d a : GReg) (pos : BitVec 6) (len : BitVec 7) (ms : Ms) : Statement (.bfxn d a pos len ms) := by
  intro v f h; cases h <;> simp [streamOk]
theorem bfi (d a : GReg) (pos : BitVec 6) (len : BitVec 7) (ms : Ms) : Statement (.bfi d a pos len ms) := by
  intro v f h; cases h <;> simp [streamOk]
theorem cmp (c : ICond) (ty : IntTy) (d : PReg) (a : GReg) (b : BOp) (ms : Ms) : Statement (.cmp c ty d a b ms) := by
  intro v f h; cases h <;> simp [streamOk]
theorem sel (d a : GReg) (b : BReg) (p : PReg) (inv : Bool) (ms : Ms) : Statement (.sel d a b p inv ms) := by
  intro v f h; cases h <;> simp [streamOk]
theorem plog (op : LogOp) (d a b : PReg) (ms : Ms) : Statement (.plog op d a b ms) := by
  intro v f h; cases h <;> simp [streamOk]
theorem mov (f : MovForm) (ms : Ms) : Statement (.mov f ms) := by
  cases f <;> (intro v f h; cases h; simp [streamOk, MovForm.fields, KmovForm.fields, FcvtForm.fields, BcastForm.fields, QdForm.fields, RstatForm.fields])
theorem li (d : GReg) (imm : Word) : Statement (.li d imm) := by
  intro v f h; cases h; simp [streamOk, Fields.putImm64]
theorem lcw (d : GReg) (f : LcwForm) (ms : Ms) : Statement (.lcw d f ms) := by
  cases f <;> (intro v f h; cases h; simp [streamOk, MovForm.fields, KmovForm.fields, FcvtForm.fields, BcastForm.fields, QdForm.fields, RstatForm.fields])
theorem lea (d a : GReg) (b : BReg) (sh : BitVec 2) (off : Word32) (ms : Ms) : Statement (.lea d a b sh off ms) := by
  intro v f h; cases h <;> simp [streamOk]
theorem mkptr (d a : GReg) (f : MkForm) (sp : BitVec 4) (ms : Ms) : Statement (.mkptr d a f sp ms) := by
  cases f <;> (intro v f h; cases h; simp [streamOk, MovForm.fields, KmovForm.fields, FcvtForm.fields, BcastForm.fields, QdForm.fields, RstatForm.fields])
theorem ptrx (sel : PtrxSel) (d a : GReg) (ms : Ms) : Statement (.ptrx sel d a ms) := by
  intro v f h; cases h <;> simp [streamOk]
theorem br (off : Word32) (ms : Ms) : Statement (.br off ms) := by
  intro v f h; cases h <;> simp [streamOk]
theorem jmp (target : Word) : Statement (.jmp target) := by
  intro v f h; cases h; simp [streamOk, Fields.putImm64]
theorem jmpi (a : GReg) (ms : Ms) : Statement (.jmpi a ms) := by
  intro v f h; cases h <;> simp [streamOk]
theorem call (d : GReg) (off : Word32) (ms : Ms) : Statement (.call d off ms) := by
  intro v f h; cases h <;> simp [streamOk]
theorem calli (d a : GReg) (ms : Ms) : Statement (.calli d a ms) := by
  intro v f h; cases h <;> simp [streamOk]
theorem ret (a : GReg) (ms : Ms) : Statement (.ret a ms) := by
  intro v f h; cases h <;> simp [streamOk]
theorem loop (d : GReg) (off : Word32) (ms : Ms) : Statement (.loop d off ms) := by
  intro v f h; cases h <;> simp [streamOk]
theorem bsig (crc : BitVec 16) : Statement (.bsig crc) := by
  intro v f h; cases h <;> simp [streamOk]
theorem endC (ms : Ms) : Statement (.endC ms) := by
  intro v f h; cases h <;> simp [streamOk]
theorem nop (ms : Ms) : Statement (.nop ms) := by
  intro v f h; cases h <;> simp [streamOk]
theorem grow (d : PReg) (g : BitVec 5) (v : BitVec 3) (ms : Ms) : Statement (.grow d g v ms) := by
  intro v f h; cases h <;> simp [streamOk]
theorem shrink (g : BitVec 5) (v : BitVec 3) (ms : Ms) : Statement (.shrink g v ms) := by
  intro v f h; cases h <;> simp [streamOk]
theorem fadd (ty : FloatTy) (d a : GReg) (b : BReg) (rnd : Rnd) (ms : Ms) : Statement (.fadd ty d a b rnd ms) := by
  intro v f h; cases h <;> simp [streamOk]
theorem fsub (ty : FloatTy) (d a : GReg) (b : BReg) (rnd : Rnd) (ms : Ms) : Statement (.fsub ty d a b rnd ms) := by
  intro v f h; cases h <;> simp [streamOk]
theorem fmul (ty : FloatTy) (d a : GReg) (b : BReg) (rnd : Rnd) (ms : Ms) : Statement (.fmul ty d a b rnd ms) := by
  intro v f h; cases h <;> simp [streamOk]
theorem ffma (ty : FloatTy) (d a : GReg) (b : BReg) (rnd : Rnd) (ms : Ms) : Statement (.ffma ty d a b rnd ms) := by
  intro v f h; cases h <;> simp [streamOk]
theorem fdiv (ty : FloatTy) (d a : GReg) (b : BReg) (rnd : Rnd) (ms : Ms) : Statement (.fdiv ty d a b rnd ms) := by
  intro v f h; cases h <;> simp [streamOk]
theorem fsqrt (ty : FloatTy) (d a : GReg) (rnd : Rnd) (ms : Ms) : Statement (.fsqrt ty d a rnd ms) := by
  intro v f h; cases h <;> simp [streamOk]
theorem fmin (ty : FloatTy) (d a : GReg) (b : BReg) (ms : Ms) : Statement (.fmin ty d a b ms) := by
  intro v f h; cases h <;> simp [streamOk]
theorem fmax (ty : FloatTy) (d a : GReg) (b : BReg) (ms : Ms) : Statement (.fmax ty d a b ms) := by
  intro v f h; cases h <;> simp [streamOk]
theorem fcmp (c : FCond) (ty : FloatTy) (d : PReg) (a : GReg) (b : BReg) (ms : Ms) : Statement (.fcmp c ty d a b ms) := by
  intro v f h; cases h <;> simp [streamOk]
theorem fcvt (d a : GReg) (f : FcvtForm) (ms : Ms) : Statement (.fcvt d a f ms) := by
  cases f <;> (intro v f h; cases h; simp [streamOk, MovForm.fields, KmovForm.fields, FcvtForm.fields, BcastForm.fields, QdForm.fields, RstatForm.fields])
theorem fclass (ty : FloatTy) (d a : GReg) (ms : Ms) : Statement (.fclass ty d a ms) := by
  intro v f h; cases h <;> simp [streamOk]
theorem fsgn (op : SgnOp) (ty : FloatTy) (d a : GReg) (b : BReg) (ms : Ms) : Statement (.fsgn op ty d a b ms) := by
  intro v f h; cases h <;> simp [streamOk]
theorem ld (sz : Size) (am : Am) (d a : GReg) (b : BReg) (off : Word32) (ms : Ms) : Statement (.ld sz am d a b off ms) := by
  intro v f h; cases h <;> simp [streamOk]
theorem st (sz : Size) (am : Am) (d a : GReg) (b : BReg) (off : Word32) (ms : Ms) : Statement (.st sz am d a b off ms) := by
  intro v f h; cases h <;> simp [streamOk]
theorem ldl (am : Am) (d a : GReg) (b : BReg) (off : Word32) (ms : Ms) : Statement (.ldl am d a b off ms) := by
  intro v f h; cases h <;> simp [streamOk]
theorem stl (am : Am) (d a : GReg) (b : BReg) (off : Word32) (ms : Ms) : Statement (.stl am d a b off ms) := by
  intro v f h; cases h <;> simp [streamOk]
theorem pref (wr : Bool) (am : Am) (a : GReg) (b : BReg) (off : Word32) (ms : Ms) : Statement (.pref wr am a b off ms) := by
  intro v f h; cases h <;> simp [streamOk]
theorem vadd (ty : Ty) (d a : VReg) (b : VB) (rnd : Rnd) (ms : Ms) : Statement (.vadd ty d a b rnd ms) := by
  intro v f h; cases h <;> simp [streamOk]
theorem vsub (ty : Ty) (d a : VReg) (b : VB) (rnd : Rnd) (ms : Ms) : Statement (.vsub ty d a b rnd ms) := by
  intro v f h; cases h <;> simp [streamOk]
theorem vmul (ty : Ty) (d a : VReg) (b : VB) (rnd : Rnd) (ms : Ms) : Statement (.vmul ty d a b rnd ms) := by
  intro v f h; cases h <;> simp [streamOk]
theorem vfma (ty : Ty) (d a : VReg) (b : VB) (rnd : Rnd) (ms : Ms) : Statement (.vfma ty d a b rnd ms) := by
  intro v f h; cases h <;> simp [streamOk]
theorem vdiv (ty : Ty) (d a : VReg) (b : VB) (rnd : Rnd) (ms : Ms) : Statement (.vdiv ty d a b rnd ms) := by
  intro v f h; cases h <;> simp [streamOk]
theorem vsqrt (ty : FloatTy) (d a : VReg) (rnd : Rnd) (ms : Ms) : Statement (.vsqrt ty d a rnd ms) := by
  intro v f h; cases h <;> simp [streamOk]
theorem vmin (ty : Ty) (d a : VReg) (b : VB) (ms : Ms) : Statement (.vmin ty d a b ms) := by
  intro v f h; cases h <;> simp [streamOk]
theorem vmax (ty : Ty) (d a : VReg) (b : VB) (ms : Ms) : Statement (.vmax ty d a b ms) := by
  intro v f h; cases h <;> simp [streamOk]
theorem vabs (ty : Ty) (d a : VReg) (ms : Ms) : Statement (.vabs ty d a ms) := by
  intro v f h; cases h <;> simp [streamOk]
theorem vneg (ty : Ty) (d a : VReg) (ms : Ms) : Statement (.vneg ty d a ms) := by
  intro v f h; cases h <;> simp [streamOk]
theorem vand (ty : IntTy) (d a : VReg) (b : VB) (ms : Ms) : Statement (.vand ty d a b ms) := by
  intro v f h; cases h <;> simp [streamOk]
theorem vor (ty : IntTy) (d a : VReg) (b : VB) (ms : Ms) : Statement (.vor ty d a b ms) := by
  intro v f h; cases h <;> simp [streamOk]
theorem vxor (ty : IntTy) (d a : VReg) (b : VB) (ms : Ms) : Statement (.vxor ty d a b ms) := by
  intro v f h; cases h <;> simp [streamOk]
theorem vshl (ty : IntTy) (d a : VReg) (b : VB) (ms : Ms) : Statement (.vshl ty d a b ms) := by
  intro v f h; cases h <;> simp [streamOk]
theorem vshr (ty : IntTy) (d a : VReg) (b : VB) (ms : Ms) : Statement (.vshr ty d a b ms) := by
  intro v f h; cases h <;> simp [streamOk]
theorem vsar (ty : IntTy) (d a : VReg) (b : VB) (ms : Ms) : Statement (.vsar ty d a b ms) := by
  intro v f h; cases h <;> simp [streamOk]
theorem vcmp (c : VCmp) (d : KReg) (a : VReg) (b : VB) (ms : Ms) : Statement (.vcmp c d a b ms) := by
  intro v f h; cases h <;> simp [streamOk]
theorem vsel (ty : IntTy) (d a : VReg) (b : VB) (sk : KReg) (inv : Bool) (ms : Ms) : Statement (.vsel ty d a b sk inv ms) := by
  intro v f h; cases h <;> simp [streamOk]
theorem vbcast (ty : Ty) (d : VReg) (f : BcastForm) (ms : Ms) : Statement (.vbcast ty d f ms) := by
  cases f <;> (intro v f h; cases h; simp [streamOk, MovForm.fields, KmovForm.fields, FcvtForm.fields, BcastForm.fields, QdForm.fields, RstatForm.fields])
theorem vextr (ty : Ty) (d : VDest) (a : VReg) (i : BitVec 4) (ms : Ms) : Statement (.vextr ty d a i ms) := by
  intro v f h; cases h <;> simp [streamOk]
theorem vins (ty : Ty) (d : VReg) (a : GReg) (i : BitVec 4) (ms : Ms) : Statement (.vins ty d a i ms) := by
  intro v f h; cases h <;> simp [streamOk]
theorem vfirst (ty : Ty) (d : VDest) (a : VReg) (ms : Ms) : Statement (.vfirst ty d a ms) := by
  intro v f h; cases h <;> simp [streamOk]
theorem viota (ty : IntTy) (d : VReg) (ms : Ms) : Statement (.viota ty d ms) := by
  intro v f h; cases h <;> simp [streamOk]
theorem vperm (ty : Ty) (d a : VReg) (b : VB) (ms : Ms) : Statement (.vperm ty d a b ms) := by
  intro v f h; cases h <;> simp [streamOk]
theorem vslide (ty : Ty) (up : Bool) (d a b : VReg) (m : BitVec 5) (ms : Ms) : Statement (.vslide ty up d a b m ms) := by
  intro v f h; cases h <;> simp [streamOk]
theorem vreds (ty : Ty) (d : VDest) (a : VReg) (b : VB) (rnd : Rnd) (ms : Ms) : Statement (.vreds ty d a b rnd ms) := by
  intro v f h; cases h <;> simp [streamOk]
theorem vredm (ty : Ty) (max : Bool) (d : VDest) (a : VReg) (b : VB) (ms : Ms) : Statement (.vredm ty max d a b ms) := by
  intro v f h; cases h <;> simp [streamOk]
theorem vdot2 (ty : Ty) (d a : VReg) (b : VB) (rnd : Rnd) (ms : Ms) : Statement (.vdot2 ty d a b rnd ms) := by
  intro v f h; cases h <;> simp [streamOk]
theorem vcvt (dst src : CvtSide) (part : BitVec 3) (d a : VReg) (rnd : Rnd) (ms : Ms) : Statement (.vcvt dst src part d a rnd ms) := by
  intro v f h; cases h <;> simp [streamOk]
theorem vsplit3 (d a : VReg) (high : Bool) (ms : Ms) : Statement (.vsplit3 d a high ms) := by
  intro v f h; cases h <;> simp [streamOk]
theorem vld (sz : VSize) (step : Bool) (am : Am) (d : VReg) (a : GReg) (b : BReg) (off : Word32) (ms : Ms) : Statement (.vld sz step am d a b off ms) := by
  intro v f h; cases h <;> simp [streamOk]
theorem vst (sz : VSize) (step : Bool) (am : Am) (d : VReg) (a : GReg) (b : BReg) (off : Word32) (ms : Ms) : Statement (.vst sz step am d a b off ms) := by
  intro v f h; cases h <;> simp [streamOk]
theorem vlds (sz : VSize) (am : Am) (d : VReg) (a b : GReg) (off : Word32) (ms : Ms) : Statement (.vlds sz am d a b off ms) := by
  intro v f h; cases h <;> simp [streamOk]
theorem vgath (sz : VSize) (am : Am) (d : VReg) (a : GReg) (b : VReg) (sh : BitVec 2) (off : Word32) (ms : Ms) : Statement (.vgath sz am d a b sh off ms) := by
  intro v f h; cases h <;> simp [streamOk]
theorem vscat (sz : VSize) (am : Am) (d : VReg) (a : GReg) (b : VReg) (sh : BitVec 2) (off : Word32) (ms : Ms) : Statement (.vscat sz am d a b sh off ms) := by
  intro v f h; cases h <;> simp [streamOk]
theorem klog (op : LogOp) (d a b : KReg) : Statement (.klog op d a b) := by
  intro v f h; cases h <;> simp [streamOk]
theorem kpopc (d : GReg) (a : KReg) : Statement (.kpopc d a) := by
  intro v f h; cases h <;> simp [streamOk]
theorem kfirst (d : GReg) (a : KReg) : Statement (.kfirst d a) := by
  intro v f h; cases h <;> simp [streamOk]
theorem kmov (f : KmovForm) : Statement (.kmov f) := by
  cases f <;> (intro v f h; cases h; simp [streamOk, MovForm.fields, KmovForm.fields, FcvtForm.fields, BcastForm.fields, QdForm.fields, RstatForm.fields])
theorem ktest (t : KTest) (d : PReg) (a b : KReg) : Statement (.ktest t d a b) := by
  intro v f h; cases h <;> simp [streamOk]
theorem rep (a : GReg) (n : BitVec 4) (wb : BitVec 5) (ws : BitVec 6) (st : BitVec 5) : Statement (.rep a n wb ws st) := by
  intro v f h; cases h <;> simp [streamOk]
theorem qcnt (vec : Bool) (d : GReg) (q : QReg) (ms : Ms) : Statement (.qcnt vec d q ms) := by
  intro v f h; cases h <;> simp [streamOk]
theorem qdrain (vec : Bool) (f : QdForm) (ms : Ms) : Statement (.qdrain vec f ms) := by
  cases f <;> (intro v f h; cases h; simp [streamOk, MovForm.fields, KmovForm.fields, FcvtForm.fields, BcastForm.fields, QdForm.fields, RstatForm.fields])
theorem queueDeadlock (ep : EP) (ctx : BitVec 2) : Statement (.queueDeadlock ep ctx) := by
  intro v f h; cases h <;> simp [streamOk]
theorem arm (d a : GReg) (b : BOp) (ms : Ms) : Statement (.arm d a b ms) := by
  intro v f h; cases h <;> simp [streamOk]
theorem dec (d a : GReg) (b : BOp) (ms : Ms) : Statement (.dec d a b ms) := by
  intro v f h; cases h <;> simp [streamOk]
theorem inc (d a : GReg) (b : BOp) (ms : Ms) : Statement (.inc d a b ms) := by
  intro v f h; cases h <;> simp [streamOk]
theorem spawn (a : GReg) (ms : Ms) : Statement (.spawn a ms) := by
  intro v f h; cases h <;> simp [streamOk]
theorem tspawn (d : PReg) (a : GReg) (q : BitVec 4) (ms : Ms) : Statement (.tspawn d a q ms) := by
  intro v f h; cases h <;> simp [streamOk]
theorem tspawnAppend (chip : ChipNo) (q : BitVec 4) : Statement (.tspawnAppend chip q) := by
  intro v f h; cases h <;> simp [streamOk]
theorem waita (c : WCond) (d a : GReg) (b : BReg) (ms : Ms) : Statement (.waita c d a b ms) := by
  intro v f h; cases h <;> simp [streamOk]
theorem waitaWake (chip : ChipNo) (rc : Word) : Statement (.waitaWake chip rc) := by
  intro v f h; cases h <;> simp [streamOk]
theorem yield (ms : Ms) : Statement (.yield ms) := by
  intro v f h; cases h <;> simp [streamOk]
theorem susp (ms : Ms) : Statement (.susp ms) := by
  intro v f h; cases h <;> simp [streamOk]
theorem arrive (d a : GReg) (b : BReg) (ms : Ms) : Statement (.arrive d a b ms) := by
  intro v f h; cases h <;> simp [streamOk]
theorem await (d a b : GReg) (ms : Ms) : Statement (.await d a b ms) := by
  intro v f h; cases h <;> simp [streamOk]
theorem drop (a b : GReg) (ms : Ms) : Statement (.drop a b ms) := by
  intro v f h; cases h <;> simp [streamOk]
theorem ssync (d a b : GReg) (v : Bool) (op : BitVec 4) (ms : Ms) : Statement (.ssync d a b v op ms) := by
  intro v f h; cases h <;> simp [streamOk]
theorem ssyncArrivalCount (ep : EP) (ctx : BitVec 2) : Statement (.ssyncArrivalCount ep ctx) := by
  intro v f h; cases h <;> simp [streamOk]
theorem arrivedSuspend (ep : EP) (ctx : BitVec 2) : Statement (.arrivedSuspend ep ctx) := by
  intro v f h; cases h <;> simp [streamOk]
theorem ssnum (d : GReg) (ms : Ms) : Statement (.ssnum d ms) := by
  intro v f h; cases h <;> simp [streamOk]
theorem fuse (shape : BitVec 2) (ms : Ms) : Statement (.fuse shape ms) := by
  intro v f h; cases h <;> simp [streamOk]
theorem split (ms : Ms) : Statement (.split ms) := by
  intro v f h; cases h <;> simp [streamOk]
theorem tqpush (a b : GReg) (ms : Ms) : Statement (.tqpush a b ms) := by
  intro v f h; cases h <;> simp [streamOk]
theorem tqpop (d a : GReg) (ms : Ms) : Statement (.tqpop d a ms) := by
  intro v f h; cases h <;> simp [streamOk]
theorem gwload (a : GReg) (first : BitVec 5) (count : BitVec 6) (ms : Ms) : Statement (.gwload a first count ms) := by
  intro v f h; cases h <;> simp [streamOk]
theorem gwrun (node : BitVec 5) (ms : Ms) : Statement (.gwrun node ms) := by
  intro v f h; cases h <;> simp [streamOk]
theorem gwstat (d : GReg) (ms : Ms) : Statement (.gwstat d ms) := by
  intro v f h; cases h <;> simp [streamOk]
theorem walkerNodeStep (ep : EP) : Statement (.walkerNodeStep ep) := by
  intro v f h; cases h <;> simp [streamOk]
theorem cond (a : GReg) (b : BOp) (ms : Ms) : Statement (.cond a b ms) := by
  intro v f h; cases h <;> simp [streamOk]
theorem cpy (a : GReg) (b : BReg) (ms : Ms) : Statement (.cpy a b ms) := by
  intro v f h; cases h <;> simp [streamOk]
theorem copyPiece (ep : EP) (op : Nat) : Statement (.copyPiece ep op) := by
  intro v f h; cases h <;> simp [streamOk]
theorem pfl (a : GReg) (count : BitVec 7) (ms : Ms) : Statement (.pfl a count ms) := by
  intro v f h; cases h <;> simp [streamOk]
theorem pflComplete (ep : EP) (op : Nat) : Statement (.pflComplete ep op) := by
  intro v f h; cases h <;> simp [streamOk]
theorem contextBind (ep : EP) (ctx : BitVec 2) : Statement (.contextBind ep ctx) := by
  intro v f h; cases h <;> simp [streamOk]
theorem readyAge (chip : ChipNo) (rc : Word) : Statement (.readyAge chip rc) := by
  intro v f h; cases h <;> simp [streamOk]
theorem lqdb (chip : ChipNo) (q : BitVec 4) : Statement (.lqdb chip q) := by
  intro v f h; cases h <;> simp [streamOk]
theorem hostDoorbell (chip : ChipNo) (fn : Fn) (v : Word32) : Statement (.hostDoorbell chip fn v) := by
  intro v f h; cases h <;> simp [streamOk]
theorem launch (chip : ChipNo) (q : BitVec 4) : Statement (.launch chip q) := by
  intro v f h; cases h <;> simp [streamOk]
theorem barrierDecision (chip : ChipNo) (team : Word32) : Statement (.barrierDecision chip team) := by
  intro v f h; cases h <;> simp [streamOk]
theorem preqNow (chip : ChipNo) (part : BitVec 3) : Statement (.preqNow chip part) := by
  intro v f h; cases h <;> simp [streamOk]
theorem shadowSwapDone (chip : ChipNo) (slot : BitVec 4) : Statement (.shadowSwapDone chip slot) := by
  intro v f h; cases h <;> simp [streamOk]
theorem preqAtBarrier (chip : ChipNo) (part : BitVec 3) : Statement (.preqAtBarrier chip part) := by
  intro v f h; cases h <;> simp [streamOk]
theorem resqResume (chip : ChipNo) (slot : BitVec 4) (die : Bool) (x y : BitVec 5) : Statement (.resqResume chip slot die x y) := by
  intro v f h; cases h <;> simp [streamOk]
theorem resqKill (chip : ChipNo) (slot : BitVec 4) : Statement (.resqKill chip slot) := by
  intro v f h; cases h <;> simp [streamOk]
theorem ldacq (sz : Size) (am : Am) (scope : Scope) (d a : GReg) (b : BReg) (off : Word32) (ms : Ms) : Statement (.ldacq sz am scope d a b off ms) := by
  intro v f h; cases h <;> simp [streamOk]
theorem strel (sz : Size) (am : Am) (scope : Scope) (d a : GReg) (b : BReg) (off : Word32) (ms : Ms) : Statement (.strel sz am scope d a b off ms) := by
  intro v f h; cases h <;> simp [streamOk]
theorem fence (scope : Scope) (ms : Ms) : Statement (.fence scope ms) := by
  intro v f h; cases h <;> simp [streamOk]
theorem aadd (sz : ASize) (am : Am) (o : Ord) (d a : GReg) (b : BReg) (ms : Ms) : Statement (.aadd sz am o d a b ms) := by
  intro v f h; cases h <;> simp [streamOk]
theorem amin (u : Bool) (sz : ASize) (am : Am) (o : Ord) (d a : GReg) (b : BReg) (ms : Ms) : Statement (.amin u sz am o d a b ms) := by
  intro v f h; cases h <;> simp [streamOk]
theorem amax (u : Bool) (sz : ASize) (am : Am) (o : Ord) (d a : GReg) (b : BReg) (ms : Ms) : Statement (.amax u sz am o d a b ms) := by
  intro v f h; cases h <;> simp [streamOk]
theorem aand (sz : ASize) (am : Am) (o : Ord) (d a : GReg) (b : BReg) (ms : Ms) : Statement (.aand sz am o d a b ms) := by
  intro v f h; cases h <;> simp [streamOk]
theorem aor (sz : ASize) (am : Am) (o : Ord) (d a : GReg) (b : BReg) (ms : Ms) : Statement (.aor sz am o d a b ms) := by
  intro v f h; cases h <;> simp [streamOk]
theorem axor (sz : ASize) (am : Am) (o : Ord) (d a : GReg) (b : BReg) (ms : Ms) : Statement (.axor sz am o d a b ms) := by
  intro v f h; cases h <;> simp [streamOk]
theorem aswp (sz : ASize) (am : Am) (o : Ord) (d a : GReg) (b : BReg) (ms : Ms) : Statement (.aswp sz am o d a b ms) := by
  intro v f h; cases h <;> simp [streamOk]
theorem afadd (dbl : Bool) (am : Am) (o : Ord) (rnd : Rnd) (d a : GReg) (b : BReg) (ms : Ms) : Statement (.afadd dbl am o rnd d a b ms) := by
  intro v f h; cases h <;> simp [streamOk]
theorem acas (sz : ASize) (am : Am) (o : Ord) (d a : GReg) (b : BReg) (ms : Ms) : Statement (.acas sz am o d a b ms) := by
  intro v f h; cases h <;> simp [streamOk]
theorem red (op : RedOp) (dbl : Bool) (am : Am) (rel : Bool) (scope : Scope) (a : GReg) (b : BReg) (ms : Ms) : Statement (.red op dbl am rel scope a b ms) := by
  intro v f h; cases h <;> simp [streamOk]
theorem pgq (st : Bool) (am : Am) (d a : GReg) (b : BReg) (off : Word32) (ms : Ms) : Statement (.pgq st am d a b off ms) := by
  intro v f h; cases h <;> simp [streamOk]
theorem rred (op : RedOp) (dbl : Bool) (am : Am) (a : GReg) (b : BReg) (ms : Ms) : Statement (.rred op dbl am a b ms) := by
  intro v f h; cases h <;> simp [streamOk]
theorem rflush (one : Bool) (w : Bool) (am : Am) (a : GReg) (ms : Ms) : Statement (.rflush one w am a ms) := by
  intro v f h; cases h <;> simp [streamOk]
theorem rstat (f : RstatForm) (ms : Ms) : Statement (.rstat f ms) := by
  cases f <;> (intro v f h; cases h; simp [streamOk, MovForm.fields, KmovForm.fields, FcvtForm.fields, BcastForm.fields, QdForm.fields, RstatForm.fields])
theorem fcas (o : Ord) (d a b : GReg) (w : BitVec 2) (p : PReg) (ms : Ms) : Statement (.fcas o d a b w p ms) := by
  intro v f h; cases h <;> simp [streamOk]
theorem fenq (o : Ord) (d a b : GReg) (ms : Ms) : Statement (.fenq o d a b ms) := by
  intro v f h; cases h <;> simp [streamOk]
theorem fchase (acq : Bool) (scope : Scope) (d a : GReg) (m : BitVec 5) (off : BitVec 16) (ms : Ms) : Statement (.fchase acq scope d a m off ms) := by
  intro v f h; cases h <;> simp [streamOk]
theorem tsrd (wrk : Bool) (d : GReg) (b : BReg) (sel : BitVec 6) (ms : Ms) : Statement (.tsrd wrk d b sel ms) := by
  intro v f h; cases h <;> simp [streamOk]
theorem tsclr (a : GReg) (b : BReg) (ms : Ms) : Statement (.tsclr a b ms) := by
  intro v f h; cases h <;> simp [streamOk]
theorem tsscale (d : GReg) (b : BReg) (tfmt : BitVec 5) (ms : Ms) : Statement (.tsscale d b tfmt ms) := by
  intro v f h; cases h <;> simp [streamOk]
theorem qnt (ty : QTy) (d a : GReg) (b : BReg) (rnd : Rnd) (tfmt : BitVec 5) (trap : Bool) (geom : BitVec 2) (ms : Ms) : Statement (.qnt ty d a b rnd tfmt trap geom ms) := by
  intro v f h; cases h <;> simp [streamOk]
theorem qntl (ty : QTy) (d a : GReg) (rnd : Rnd) (tfmt : BitVec 5) (geom : BitVec 2) (lb : BitVec 2) (ms : Ms) : Statement (.qntl ty d a rnd tfmt geom lb ms) := by
  intro v f h; cases h <;> simp [streamOk]
theorem dqnt (ty : QTy) (blk : Bool) (a : GReg) (b : BReg) (rnd : Rnd) (tfmt : BitVec 5) (geom : BitVec 2) (lb : BitVec 2) (prnd : Bool) (ms : Ms) : Statement (.dqnt ty blk a b rnd tfmt geom lb prnd ms) := by
  intro v f h; cases h <;> simp [streamOk]
theorem kput (a : GReg) (b : BReg) (ms : Ms) : Statement (.kput a b ms) := by
  intro v f h; cases h <;> simp [streamOk]
theorem kget (a : GReg) (b : BReg) (ms : Ms) : Statement (.kget a b ms) := by
  intro v f h; cases h <;> simp [streamOk]
theorem peerPacketApply (ep : EP) (op : Nat) : Statement (.peerPacketApply ep op) := by
  intro v f h; cases h <;> simp [streamOk]
theorem kcoll (a : GReg) (b : BReg) (n : BitVec 7) (ms : Ms) : Statement (.kcoll a b n ms) := by
  intro v f h; cases h <;> simp [streamOk]
theorem collContrib (id : Nat) : Statement (.collContrib id) := by
  intro v f h; cases h <;> simp [streamOk]
theorem collChain (id : Nat) : Statement (.collChain id) := by
  intro v f h; cases h <;> simp [streamOk]
theorem collForward (id : Nat) : Statement (.collForward id) := by
  intro v f h; cases h <;> simp [streamOk]
theorem collMulticast (id : Nat) : Statement (.collMulticast id) := by
  intro v f h; cases h <;> simp [streamOk]
theorem collDeliver (id : Nat) : Statement (.collDeliver id) := by
  intro v f h; cases h <;> simp [streamOk]
theorem fedj (a : GReg) (b : BReg) (ms : Ms) : Statement (.fedj a b ms) := by
  intro v f h; cases h <;> simp [streamOk]
theorem fedl (ms : Ms) : Statement (.fedl ms) := by
  intro v f h; cases h <;> simp [streamOk]
theorem gqpush (a : GReg) (ms : Ms) : Statement (.gqpush a ms) := by
  intro v f h; cases h <;> simp [streamOk]
theorem gqEgressSend (ep : EP) : Statement (.gqEgressSend ep) := by
  intro v f h; cases h <;> simp [streamOk]
theorem gqDeliver (id : Nat) : Statement (.gqDeliver id) := by
  intro v f h; cases h <;> simp [streamOk]
theorem gqpop (d a : GReg) (ms : Ms) : Statement (.gqpop d a ms) := by
  intro v f h; cases h <;> simp [streamOk]
theorem gqwin (rl : Bool) (d a : GReg) (b : BReg) (ms : Ms) : Statement (.gqwin rl d a b ms) := by
  intro v f h; cases h <;> simp [streamOk]
theorem gprio (a : GReg) (lvl : BitVec 4) (ms : Ms) : Statement (.gprio a lvl ms) := by
  intro v f h; cases h <;> simp [streamOk]
theorem ostep (d : GReg) (b : BReg) (ms : Ms) : Statement (.ostep d b ms) := by
  intro v f h; cases h <;> simp [streamOk]
theorem trap (code : BitVec 16) (ms : Ms) : Statement (.trap code ms) := by
  intro v f h; cases h <;> simp [streamOk]
theorem brk (ms : Ms) : Statement (.brk ms) := by
  intro v f h; cases h <;> simp [streamOk]
theorem fmsg (nb : Bool) (d : GReg) (ms : Ms) : Statement (.fmsg nb d ms) := by
  intro v f h; cases h <;> simp [streamOk]
theorem freply (a : GReg) (b : BReg) (ms : Ms) : Statement (.freply a b ms) := by
  intro v f h; cases h <;> simp [streamOk]
theorem srd (d : GReg) (n : BitVec 12) (ms : Ms) : Statement (.srd d n ms) := by
  intro v f h; cases h <;> simp [streamOk]
theorem swr (a : GReg) (n : BitVec 12) (ms : Ms) : Statement (.swr a n ms) := by
  intro v f h; cases h <;> simp [streamOk]
theorem tlbi (all : Bool) (part : BitVec 3) (a : GReg) (b : BReg) (ms : Ms) : Statement (.tlbi all part a b ms) := by
  intro v f h; cases h <;> simp [streamOk]
theorem shootdownAck (id : Nat) : Statement (.shootdownAck id) := by
  intro v f h; cases h <;> simp [streamOk]
theorem coreSleep (ep : EP) : Statement (.coreSleep ep) := by
  intro v f h; cases h <;> simp [streamOk]
theorem coreWake (ep : EP) : Statement (.coreWake ep) := by
  intro v f h; cases h <;> simp [streamOk]
theorem ident (d : GReg) (sel : BitVec 4) (ms : Ms) : Statement (.ident d sel ms) := by
  intro v f h; cases h <;> simp [streamOk]
theorem halt (ms : Ms) : Statement (.halt ms) := by
  intro v f h; cases h <;> simp [streamOk]
theorem mxSlotAdmit (ep : EP) : Statement (.mxSlotAdmit ep) := by
  intro v f h; cases h <;> simp [streamOk]
theorem mxClaim (ep : EP) (ctx : BitVec 2) : Statement (.mxClaim ep ctx) := by
  intro v f h; cases h <;> simp [streamOk]
theorem mxMma (ep : EP) : Statement (.mxMma ep) := by
  intro v f h; cases h <;> simp [streamOk]
theorem mxMmat (ep : EP) : Statement (.mxMmat ep) := by
  intro v f h; cases h <;> simp [streamOk]
theorem mxZero (ep : EP) : Statement (.mxZero ep) := by
  intro v f h; cases h <;> simp [streamOk]
theorem mxDrain (ep : EP) : Statement (.mxDrain ep) := by
  intro v f h; cases h <;> simp [streamOk]
theorem mxXch (ep : EP) : Statement (.mxXch ep) := by
  intro v f h; cases h <;> simp [streamOk]
theorem mxCksum (ep : EP) : Statement (.mxCksum ep) := by
  intro v f h; cases h <;> simp [streamOk]
theorem mxMark (ep : EP) : Statement (.mxMark ep) := by
  intro v f h; cases h <;> simp [streamOk]
theorem rickAgeOut (ep : EP) (i : BitVec 3) : Statement (.rickAgeOut ep i) := by
  intro v f h; cases h <;> simp [streamOk]
theorem cordApply (id : Nat) : Statement (.cordApply id) := by
  intro v f h; cases h <;> simp [streamOk]
theorem cordStatus (id : Nat) : Statement (.cordStatus id) := by
  intro v f h; cases h <;> simp [streamOk]
theorem statsUpdateMerge (id : Nat) : Statement (.statsUpdateMerge id) := by
  intro v f h; cases h <;> simp [streamOk]
theorem migreqGo (chip : ChipNo) (part : BitVec 3) (va : Word) : Statement (.migreqGo chip part va) := by
  intro v f h; cases h <;> simp [streamOk]
theorem migrationLineCopy (chip : ChipNo) : Statement (.migrationLineCopy chip) := by
  intro v f h; cases h <;> simp [streamOk]
theorem hostAtomicop (chip : ChipNo) (part : BitVec 3) (op : HostAtomic) (dbl : Bool) (va opnd cmp : Word) : Statement (.hostAtomicop chip part op dbl va opnd cmp) := by
  intro v f h; cases h <;> simp [streamOk]
theorem flitReceive (chip : ChipNo) (port : BitVec 4) (f : Flit) : Statement (.flitReceive chip port f) := by
  intro v f h; cases h <;> simp [streamOk]
theorem ackTimer (chip : ChipNo) (port : BitVec 4) : Statement (.ackTimer chip port) := by
  intro v f h; cases h <;> simp [streamOk]
theorem replayTimeout (chip : ChipNo) (port : BitVec 4) : Statement (.replayTimeout chip port) := by
  intro v f h; cases h <;> simp [streamOk]
theorem gatewayForward (chip : ChipNo) (id : Nat) : Statement (.gatewayForward chip id) := by
  intro v f h; cases h <;> simp [streamOk]
theorem laneFail (chip : ChipNo) (port lane : BitVec 4) : Statement (.laneFail chip port lane) := by
  intro v f h; cases h <;> simp [streamOk]
theorem portRetrainDone (chip : ChipNo) (port : BitVec 4) : Statement (.portRetrainDone chip port) := by
  intro v f h; cases h <;> simp [streamOk]
theorem linkHeartbeat (chip : ChipNo) : Statement (.linkHeartbeat chip) := by
  intro v f h; cases h <;> simp [streamOk]
theorem chipLost (chip lost : ChipNo) : Statement (.chipLost chip lost) := by
  intro v f h; cases h <;> simp [streamOk]
theorem lossReportReceive (chip lost : ChipNo) : Statement (.lossReportReceive chip lost) := by
  intro v f h; cases h <;> simp [streamOk]
theorem ptrootWrite (chip : ChipNo) (part : BitVec 3) (v : Word) : Statement (.ptrootWrite chip part v) := by
  intro v f h; cases h <;> simp [streamOk]
theorem optbindWrite (chip : ChipNo) (j : BitVec 5) (v : Word) : Statement (.optbindWrite chip j v) := by
  intro v f h; cases h <;> simp [streamOk]
theorem optrecWrite (chip : ChipNo) (v : Word) : Statement (.optrecWrite chip v) := by
  intro v f h; cases h <;> simp [streamOk]
theorem svcbootWrite (chip : ChipNo) (v : Word) : Statement (.svcbootWrite chip v) := by
  intro v f h; cases h <;> simp [streamOk]
theorem portstClear (chip : ChipNo) (port : BitVec 4) : Statement (.portstClear chip port) := by
  intro v f h; cases h <;> simp [streamOk]
theorem registerWrite (ep : EP) (pv : Priv) (n : BitVec 12) (v : Word) : Statement (.registerWrite ep pv n v) := by
  intro v f h; cases h <;> simp [streamOk]
theorem feataccWrite (chip : ChipNo) (v : BitVec 128) : Statement (.feataccWrite chip v) := by
  intro v f h; cases h <;> simp [streamOk]
theorem partenWrite (chip : ChipNo) (v : BitVec 8) : Statement (.partenWrite chip v) := by
  intro v f h; cases h <;> simp [streamOk]
theorem lockInterfaceRequest (chip : ChipNo) (vf : BitVec 3) : Statement (.lockInterfaceRequest chip vf) := by
  intro v f h; cases h <;> simp [streamOk]
theorem startInterfaceRequest (chip : ChipNo) (vf : BitVec 3) : Statement (.startInterfaceRequest chip vf) := by
  intro v f h; cases h <;> simp [streamOk]
theorem stopInterfaceRequest (chip : ChipNo) (vf : BitVec 3) : Statement (.stopInterfaceRequest chip vf) := by
  intro v f h; cases h <;> simp [streamOk]
theorem functionLevelReset (chip : ChipNo) (vf : BitVec 3) : Statement (.functionLevelReset chip vf) := by
  intro v f h; cases h <;> simp [streamOk]
theorem scrubDone (chip : ChipNo) (vf : BitVec 3) : Statement (.scrubDone chip vf) := by
  intro v f h; cases h <;> simp [streamOk]
theorem ideKmRequest (chip : ChipNo) (st : IdeStream) (set1 : Bool) (r : IdeKm) : Statement (.ideKmRequest chip st set1 r) := by
  intro v f h; cases h <;> simp [streamOk]
theorem ideIntegrityFail (chip : ChipNo) (st : IdeStream) : Statement (.ideIntegrityFail chip st) := by
  intro v f h; cases h <;> simp [streamOk]
theorem getVersion (chip : ChipNo) (fn : Fn) : Statement (.getVersion chip fn) := by
  intro v f h; cases h <;> simp [streamOk]
theorem getCapabilities (chip : ChipNo) (fn : Fn) (req : List Byte) : Statement (.getCapabilities chip fn req) := by
  intro v f h; cases h <;> simp [streamOk]
theorem negotiateAlgorithms (chip : ChipNo) (fn : Fn) (offersSuite : Bool) (req : List Byte) : Statement (.negotiateAlgorithms chip fn offersSuite req) := by
  intro v f h; cases h <;> simp [streamOk]
theorem getDigests (chip : ChipNo) (fn : Fn) : Statement (.getDigests chip fn) := by
  intro v f h; cases h <;> simp [streamOk]
theorem getCertificate (chip : ChipNo) (fn : Fn) (slot : BitVec 4) (off len : BitVec 16) : Statement (.getCertificate chip fn slot off len) := by
  intro v f h; cases h <;> simp [streamOk]
theorem challenge (chip : ChipNo) (fn : Fn) (slot : BitVec 4) (nonce : BitVec 256) : Statement (.challenge chip fn slot nonce) := by
  intro v f h; cases h <;> simp [streamOk]
theorem getMeasurements (chip : ChipNo) (fn : Fn) (sign : Bool) (idx : BitVec 8) (nonce : BitVec 256) : Statement (.getMeasurements chip fn sign idx nonce) := by
  intro v f h; cases h <;> simp [streamOk]
theorem keyExchange (chip : ChipNo) (fn : Fn) (req : List Byte) : Statement (.keyExchange chip fn req) := by
  intro v f h; cases h <;> simp [streamOk]
theorem finish (chip : ChipNo) (fn : Fn) (hmacOk : Bool) : Statement (.finish chip fn hmacOk) := by
  intro v f h; cases h <;> simp [streamOk]
theorem heartbeat (chip : ChipNo) (fn : Fn) : Statement (.heartbeat chip fn) := by
  intro v f h; cases h <;> simp [streamOk]
theorem keyUpdate (chip : ChipNo) (fn : Fn) : Statement (.keyUpdate chip fn) := by
  intro v f h; cases h <;> simp [streamOk]
theorem endSession (chip : ChipNo) (fn : Fn) : Statement (.endSession chip fn) := by
  intro v f h; cases h <;> simp [streamOk]
theorem collierReadEvent (chip : ChipNo) (i : Word32) : Statement (.collierReadEvent chip i) := by
  intro v f h; cases h <;> simp [streamOk]
theorem collierSvcboot (chip : ChipNo) (addr : Word) : Statement (.collierSvcboot chip addr) := by
  intro v f h; cases h <;> simp [streamOk]
theorem collierWriteBank (chip : ChipNo) (bankB : Bool) (off : BitVec 23) (bytes : List Byte) : Statement (.collierWriteBank chip bankB off bytes) := by
  intro v f h; cases h <;> simp [streamOk]
theorem collierActivateBank (chip : ChipNo) (sigOk : Bool) : Statement (.collierActivateBank chip sigOk) := by
  intro v f h; cases h <;> simp [streamOk]
theorem collierReadSensor (chip : ChipNo) (n : BitVec 8) : Statement (.collierReadSensor chip n) := by
  intro v f h; cases h <;> simp [streamOk]
theorem collierReplan (chip : ChipNo) : Statement (.collierReplan chip) := by
  intro v f h; cases h <;> simp [streamOk]
theorem collierRetrainPort (chip : ChipNo) (port : BitVec 4) : Statement (.collierRetrainPort chip port) := by
  intro v f h; cases h <;> simp [streamOk]
theorem sensorSample (chip : ChipNo) (n : BitVec 8) (v : Int) : Statement (.sensorSample chip n v) := by
  intro v f h; cases h <;> simp [streamOk]
theorem ageingPlan (chip : ChipNo) (failing : List (BitVec 7)) : Statement (.ageingPlan chip failing) := by
  intro v f h; cases h <;> simp [streamOk]
theorem watchdogExpire (chip : ChipNo) : Statement (.watchdogExpire chip) := by
  intro v f h; cases h <;> simp [streamOk]
theorem softRepair (chip : ChipNo) (stack : BitVec 3) (channel : BitVec 5) (row : Word32) : Statement (.softRepair chip stack channel row) := by
  intro v f h; cases h <;> simp [streamOk]
theorem repairQuiesceEnd (chip : ChipNo) (stack : BitVec 3) (channel : BitVec 5) : Statement (.repairQuiesceEnd chip stack channel) := by
  intro v f h; cases h <;> simp [streamOk]
theorem fundamentalReset (chip : ChipNo) (r : BootReport) : Statement (.fundamentalReset chip r) := by
  intro v f h; cases h <;> simp [streamOk]
theorem hotReset (chip : ChipNo) : Statement (.hotReset chip) := by
  intro v f h; cases h <;> simp [streamOk]
theorem fatalEvent (chip : ChipNo) (c : FatalCause) : Statement (.fatalEvent chip c) := by
  intro v f h; cases h <;> simp [streamOk]
theorem laneFailureSignal (chip : ChipNo) (port : BitVec 4) : Statement (.laneFailureSignal chip port) := by
  intro v f h; cases h <;> simp [streamOk]
theorem powerLoss (chip : ChipNo) : Statement (.powerLoss chip) := by
  intro v f h; cases h <;> simp [streamOk]
theorem configurationWrite (chip : ChipNo) (w : CfgWrite) : Statement (.configurationWrite chip w) := by
  intro v f h; cases h <;> simp [streamOk]

end Sys2Proof.Laws.Streams
end

