-- ==== Sys2Proof/Tests/Slice0.lean ====
section
/-! SUPPORT. Tests. Words written out from the spec's encoding tables and what they decode to; ill-formed terms that
WellFormed refuses; the spec's worked examples; and for the statements of Obligations.lean, states and operands that meet
their hypotheses, case by case (witness_<what>). A Boolean `runs`, `reaches`, `released` or `objReady` stands for the `Runs`,
`Reaches`, `Released` or `ObjReady` of a statement, as the lemmas after them show. -/
namespace Sys2Proof.Tests
open Sys2Proof Sys2Proof.Machine

set_option maxRecDepth 100000
set_option Elab.async false

/-! ### Small states -/

/-- No predicate. -/
abbrev no : Ms := Ms.always

/-- A team of one core, running in the user's mode at an empty line, one 2 MiB page of live memory mapped. -/
def t0 : State := { placeWord State.reset 0 with sel := none }

/-- The same with every privilege. -/
def tc : State := { t0 with cx := { t0.cx with priv := .collier } }

/-- Bytes of physical memory of chip 0. -/
def poke (s : State) (a v n : Nat) : State := { s with mem := s.mem.setBytes (physKey 0 a) (bytesOf v n) }

/-- Bytes of a buffer of the executing core. -/
def lay (s : State) (sp off v n : Nat) : State := { s with mem := s.mem.setBytes (bufKey s.cx.ep sp off) (bytesOf v n) }

/-- A second 2 MiB page, at virtual address 2 MiB, of a class: 0 versioned, 1 live, 2 standing; of a format and a record. -/
def page2 (s : State) (cls fmt ridx : Nat) : State :=
  poke (poke s (placeRoot + 0x6008) (0x400000 + 2 * 2 ^ 7 + 0x3F) 8) (placeRoot + 0x7008)
    (ridx * 2 ^ 46 + cls * 2 ^ 40 + fmt * 2 ^ 32 + 0xFFFFFFFF) 8

/-- The running team changed. -/
def team (s : State) (f : Team → Team) : State := s.modTeam 0 1 f

def isOk {ε α : Type} (r : Except ε α) : Bool :=
  match r with
  | .ok _ => true
  | .error _ => false

/-- An answer and what holds of it. -/
def okAnd {ε α : Type} (r : Except ε α) (p : α → Bool) : Bool :=
  match r with
  | .ok x => p x
  | .error _ => false

/-- A fault and what holds of it. -/
def trapAnd {α : Type} (r : Res α) (p : Trap → Bool) : Bool :=
  match r with
  | .error (.trap t) => p t
  | _ => false

def optAnd {α : Type} (r : Option α) (p : α → Bool) : Bool :=
  match r with
  | some x => p x
  | none => false

/-- What `Runs` says. -/
def runs (i : Instr) (ms : Ms) (s : State) : Bool := s.canRun i && ms.on s

/-- What `NoRick` says, of a state without ricks or cords in flight for the endpoints. -/
def noRick (s : State) (ds : List EP) : Bool := rickFor s s.cx.ep ds == [] && s.cords.isEmpty

/-- What `Reaches` says. -/
def reaches (s : State) (nd : Need) (am : Am) (al : Nat) (p : Word) (n : Nat) (f : List Place → Bool) : Bool :=
  s.atControl && okAnd (places s.done (ctxWho s.done false) nd am al false p n) fun pls =>
    noRick s (pls.map (·.dest)).eraseDups && f pls

/-- What `Released` says, of a state without ricks, cords and statuses. -/
def released (s : State) : Bool := openRicks (s.core s.cx.ep) == [] && s.cords.isEmpty && s.statuses.isEmpty

/-- What `ObjReady` says. -/
def objReady (s : State) (p : Word) (f : Obj → Bool) : Bool :=
  s.atControl && okAnd (object s.done p) fun o => clampRoom s o.w o.pls && f o

theorem runs_iff {i : Instr} {ms : Ms} {s : State} (h : runs i ms s = true) : Runs i ms s := by
  simpa [runs, Runs] using h

theorem reaches_exists {s : State} {nd am al p n f} (h : reaches s nd am al p n f = true) :
    ∃ pls, Reaches s nd am al p n pls ∧ f pls = true := by
  simp only [reaches, Bool.and_eq_true] at h
  obtain ⟨h1, h2⟩ := h
  revert h2
  cases hp : places s.done (ctxWho s.done false) nd am al false p n with
  | error e => simp [okAnd]
  | ok pls =>
    simp only [okAnd, Bool.and_eq_true, noRick, List.isEmpty_iff, beq_iff_eq]
    rintro ⟨⟨h3, h4⟩, h5⟩
    exact ⟨pls, ⟨h1, hp, h3, by simp [h4]⟩, h5⟩

theorem released_of {s : State} (h : released s = true) : Released s := by
  simp only [released, Bool.and_eq_true, List.isEmpty_iff, beq_iff_eq] at h
  obtain ⟨⟨h1, h2⟩, h3⟩ := h
  exact ⟨h1, by simp [h2], by simp [h3]⟩

theorem objReady_exists {s : State} {p f} (h : objReady s p f = true) : ∃ o, ObjReady s p o ∧ f o = true := by
  simp only [objReady, Bool.and_eq_true] at h
  obtain ⟨h1, h2⟩ := h
  revert h2
  cases ho : object s.done p with
  | error e => simp [okAnd]
  | ok o =>
    simp only [okAnd, Bool.and_eq_true]
    rintro ⟨h3, h4⟩
    exact ⟨o, ⟨h1, ho, Or.inr h3⟩, h4⟩

/-- What `Lands` says, of a state whose ricks are all empty and which has no cord in flight, for a store that flushes and one that
does not. -/
def lands (s : State) (am : Am) (al : Nat) (p : Word) (n : Nat) (f : List Place → Bool) : Bool :=
  s.atControl && okAnd (places s.done (ctxWho s.done false) .write am al false p n) fun pls =>
    noRick s (pls.map (·.dest)).eraseDups && ((s.core s.cx.ep).ricks.toList.all fun r => r.dest.isNone) && f pls

/-- What `FarHead` says. -/
def farHead (s : State) (pls : List Place) : Bool :=
  match pls.head? with
  | none => true
  | some pl => isBufKey pl.key || match s.myReq with
    | none => !farAhead s (farAgentOf pl.key) s.nextId
    | some r => decide (r.agent = farAgentOf pl.key) && !farAhead s r.agent r.seq

theorem noOwnRick_of {s : State} (h : ((s.core s.cx.ep).ricks.toList.all fun r => r.dest.isNone) = true) (hc : s.cords = []) (ds : List EP) :
    NoOwnRick s ds := by
  refine ⟨fun r hr d hd => ?_, by simp [hc]⟩
  have := List.all_eq_true.mp h r hr
  simp [hd] at this

theorem lands_exists {s : State} {am al p n f} (h : lands s am al p n f = true) (flush : Bool) :
    ∃ pls, Lands s flush am al p n pls ∧ f pls = true := by
  simp only [lands, Bool.and_eq_true] at h
  obtain ⟨h1, h2⟩ := h
  revert h2
  cases hp : places s.done (ctxWho s.done false) .write am al false p n with
  | error e => simp [okAnd]
  | ok pls =>
    simp only [okAnd, Bool.and_eq_true, noRick, List.isEmpty_iff, beq_iff_eq]
    rintro ⟨⟨⟨h3, h4⟩, h6⟩, h5⟩
    refine ⟨pls, ⟨h1, hp, ?_⟩, h5⟩
    split
    · exact ⟨h3, by simp [h4]⟩
    · exact noOwnRick_of h6 h4 _

theorem farHead_of {s : State} {pls : List Place} (h : farHead s pls = true) : FarHead s pls := by
  intro _ pl hpl hb
  simp only [farHead, hpl, hb, Bool.false_or] at h
  cases hr : s.myReq with
  | none => simpa [hr] using h
  | some r => simpa [hr] using h

/-- Every channel of the first controller of chip 0 is quiesced (R447). -/
def heldAll (s : State) : State := s.modChip 0 fun c => { c with col := { c.col with quiesced := (List.range 32).map fun n => (0, n, 0) } }

theorem held_of {s : State} {key : Nat}
    (h : (!isBufKey key && !testBit (physPa key) 51 && 4 * bits (physPa key) 38 1 + bits (physPa key) 13 2 == 0 &&
      (s.chip (physChip key)).col.quiesced == (List.range 32).map fun n => (0, n, 0)) = true) : channelHeld s key = true := by
  simp only [Bool.and_eq_true, Bool.not_eq_true', beq_iff_eq] at h
  obtain ⟨⟨⟨h1, h2⟩, h3⟩, h4⟩ := h
  unfold channelHeld
  simp only [h1, h2, h3, h4, List.any_eq_true, List.mem_map, List.mem_range]
  exact ⟨_, ⟨_, Nat.mod_lt (Config.hbmChannel (physPa key / 4096)) (by decide : 0 < 32), rfl⟩, by simp⟩

/-! ### Words -/

/-- The word decodes to the instruction and the instruction encodes to the word. -/
def readsAs (x : Bool × Slot × Instr) : Bool :=
  (match decode x.1 x.2.1 with
   | .ok j => decide (j = x.2.2)
   | .error _ => false) && decide (encode x.2.2 = some (x.1, x.2.1))

/-- A context of full privilege may issue the instruction in its stream. -/
def mayIssue (x : Bool × Slot × Instr) : Bool := if x.1 then tc.canIssueVec x.2.2 else tc.canRun x.2.2

def wordsInteger : List (Bool × Slot × Instr) :=
  [ (false, 0x01000A180104000000000000, .add .i64 5 6 (.cw 0x20) no),
    (false, 0x02000A183800040000000000, .sub .i32 5 6 (.reg 7) no),
    (false, 0x03000A1800001801FFFFFFFE, .mul .n16 5 6 (.imm 0xFFFFFFFE) no),
    (false, 0x04000A183800000000000000, .mulh .w64 5 6 (.reg 7) no),
    (false, 0x05000A183800140000000000, .mulhn .w32 5 6 (.reg 7) no),
    (false, 0x06000A1838000C0000000000, .div .w8 5 6 (.reg 7) no),
    (false, 0x07000A183800100000000000, .divn .w64 5 6 (.reg 7) no),
    (false, 0x08000A183800080000000000, .remS .w16 5 6 (.reg 7) no),
    (false, 0x09000A1838001C0000000000, .remn .w8 5 6 (.reg 7) no),
    (false, 0x0A000A183802C00000000000, .andI .i64 5 6 (.reg 7) { inv := true, idx := 3 }),
    (false, 0x0B00FFFBE800000000000000, .orI .i64 127 126 (.reg 125) no),
    (false, 0x0C000A183800000000000000, .xorI .i64 5 6 (.reg 7) no),
    (false, 0x0D000A183800000000000000, .andn .i64 5 6 (.reg 7) no),
    (false, 0x0E000A183800000000000000, .orn .i64 5 6 (.reg 7) no),
    (false, 0x10000A180000000100000003, .shl .i64 5 6 (.imm 3) no),
    (false, 0x11000A183800040000000000, .shr .i32 5 6 (.reg 7) no),
    (false, 0x12000A183800040000000000, .sar .i32 5 6 (.reg 7) no),
    (false, 0x13000A183800140000000000, .rol .n32 5 6 (.reg 7) no),
    (false, 0x14000A180000000000000000, .clz .i64 5 6 no),
    (false, 0x15000A180000080000000000, .ctz .i16 5 6 no),
    (false, 0x16000A1800001C0000000000, .popc .n8 5 6 no),
    (false, 0x17000A1800000C0000000000, .brev .i8 5 6 no),
    (false, 0x18000A183800040000000000, .minS .w32 5 6 (.reg 7) no),
    (false, 0x19000A183800040000000000, .maxS .w32 5 6 (.reg 7) no),
    (false, 0x1A000A183800100000000000, .minn .w64 5 6 (.reg 7) no),
    (false, 0x1B000A183800100000000000, .maxn .w64 5 6 (.reg 7) no) ]

theorem test_decode_integer : wordsInteger.all readsAs = true := by decide +kernel

theorem witness_runs_integer : wordsInteger.all mayIssue = true := by decide +kernel

def wordsFieldsAndPointers : List (Bool × Slot × Instr) :=
  [ (false, 0x1C001E340000000000000040, .sext 15 13 64 no),
    (false, 0x1D001E340000000000000020, .zext 15 13 32 no),
    (false, 0x1E001E340000000000000838, .bfx 15 13 56 8 no),
    (false, 0x1F001E340000000000004000, .bfxn 15 13 0 64 no),
    (false, 0x20001E34000000000000013F, .bfi 15 13 63 1 no),
    (false, 0x210304183800140000000000, .cmp .le .n32 2 6 (.reg 7) no),
    (false, 0x22000A18380000000000000D, .sel 5 6 (.reg 7) 5 true no),
    (false, 0x230502081800000000000000, .plog .nor 1 2 3 no),
    (false, 0x24000A0000000001FFFFFFFF, .mov (.gFromImm 5 0xFFFFFFFF) no),
    (false, 0x24000A180000000000000000, .mov (.gFromG 5 6) no),
    (false, 0x24010A180000000000000000, .mov (.gFromP 5 6) no),
    (false, 0x24020A180000000000000000, .mov (.pFromG 5 6) no),
    (false, 0x25000A000123456789ABCDEF, .li 5 0x0123456789ABCDEF),
    (false, 0x26000A000780000000000000, .lcw 5 (.slot 0xF0) no),
    (false, 0x26010A180000000000000000, .lcw 5 (.reg 6) no),
    (false, 0x27000A183800000300000040, .lea 5 6 (.reg 7) 3 0x40 no),
    (false, 0x28000A18000000000000FFF2, .mkptr 5 6 (.imm 0xFFF) 2 no),
    (false, 0x28010A183800000000000006, .mkptr 5 6 (.reg 7) 6 no),
    (false, 0x29030A180000000000000000, .ptrx .owner 5 6 no) ]

theorem test_decode_fieldsAndPointers : wordsFieldsAndPointers.all readsAs = true := by decide +kernel

theorem witness_runs_fieldsAndPointers : wordsFieldsAndPointers.all mayIssue = true := by decide +kernel

def wordsControl : List (Bool × Slot × Instr) :=
  [ (false, 0x4000000000000000FFFFFFEA, .br 0xFFFFFFEA no),
    (false, 0x410000000000000000001000, .jmp 0x1000),
    (false, 0x420000180000000000000000, .jmpi 6 no),
    (false, 0x430002000000000000000008, .call 1 8 no),
    (false, 0x440002180000000000000000, .calli 1 6 no),
    (false, 0x450000040000000000000000, .ret 1 no),
    (false, 0x4600120000000000FFFFFFF8, .loop 9 0xFFFFFFF8 no),
    (false, 0x470000000000000000001D0F, .bsig 0x1D0F),
    (false, 0x480000000000400000000000, .endC { inv := false, idx := 1 }),
    (false, 0x490000000000000000000000, .nop no),
    (false, 0x4A000600000000000000060E, .grow 3 14 6 no),
    (false, 0x4B0000000000000000000204, .shrink 4 2 no) ]

theorem test_decode_control : wordsControl.all readsAs = true := by decide +kernel

theorem witness_runs_control : wordsControl.all mayIssue = true := by decide +kernel

def wordsFloat : List (Bool × Slot × Instr) :=
  [ (false, 0x50000A183800242000000000, .fadd .f32 5 6 (.reg 7) .rz no),
    (false, 0x51000A183800204000000000, .fsub .f64 5 6 (.reg 7) .ru no),
    (false, 0x52000A180084286000000000, .fmul .f19 5 6 (.cw 0x10) .rd no),
    (false, 0x53000A1838002C8000000000, .ffma .bf16 5 6 (.reg 7) .rna no),
    (false, 0x54000A183800300000000000, .fdiv .f16 5 6 (.reg 7) .rne no),
    (false, 0x55000A180000240000000000, .fsqrt .f32 5 6 .rne no),
    (false, 0x56000A183800240000000000, .fmin .f32 5 6 (.reg 7) no),
    (false, 0x57000A183800200000000000, .fmax .f64 5 6 (.reg 7) no),
    (false, 0x580604183800240000000000, .fcmp .un .f32 2 6 (.reg 7) no),
    (false, 0x59000A180000042000000009, .fcvt 5 6 (.conv (.int .i32) (.flt .f32) .rz) no),
    (false, 0x59020A1800002C0000000009, .fcvt 5 6 (.split .mid) no),
    (false, 0x5A000A180000240000000000, .fclass .f32 5 6 no),
    (false, 0x5B020A183800240000000000, .fsgn .xor .f32 5 6 (.reg 7) no) ]

theorem test_decode_float : wordsFloat.all readsAs = true := by decide +kernel

theorem witness_runs_float : wordsFloat.all mayIssue = true := by decide +kernel

def wordsMemory : List (Bool × Slot × Instr) :=
  [ (false, 0x60000E200000040000000040, .ld .w .lin 7 8 (.reg 0) 0x40 no),
    (false, 0x6000202048003E0000000000, .ld .l .ilv64 16 8 (.reg 9) 0 no),
    (false, 0x610002080000000000000000, .st .d .lin 1 2 (.reg 0) 0 no),
    (false, 0x6200202000003C0000000000, .ldl .lin 16 8 (.reg 0) 0 no),
    (false, 0x6300202000003E0000000000, .stl .ilv64 16 8 (.reg 0) 0 no),
    (false, 0x640100200084000000000000, .pref true .lin 8 (.cw 0x10) 0 no) ]

theorem test_decode_memory : wordsMemory.all readsAs = true := by decide +kernel

theorem witness_runs_memory : wordsMemory.all mayIssue = true := by decide +kernel

def wordsVectorArithmetic : List (Bool × Slot × Instr) :=
  [ (true, 0x800006041000A40000000000, .vadd (.flt .f32) 3 1 (.v 2) .rne { inv := false, idx := 2 }),
    (true, 0x810006043800040200000000, .vsub (.int .i32) 3 1 (.g 7) .rne no),
    (true, 0x820006040000080100000009, .vmul (.int .i16) 3 1 (.imm 9) .rne no),
    (true, 0x83000604002C2C4000000000, .vfma (.flt .bf16) 3 1 (.cw 5) .ru no),
    (true, 0x840006041000200000000000, .vdiv (.flt .f64) 3 1 (.v 2) .rne no),
    (true, 0x850006040000300000000000, .vsqrt .f16 3 1 .rne no),
    (true, 0x860006041000100000000000, .vmin (.int .n64) 3 1 (.v 2) no),
    (true, 0x870006041000240000000000, .vmax (.flt .f32) 3 1 (.v 2) no),
    (true, 0x8800060400000C0000000000, .vabs (.int .i8) 3 1 no),
    (true, 0x890006040000280000000000, .vneg (.flt .f19) 3 1 no),
    (true, 0x8A0006041000140000000000, .vand .n32 3 1 (.v 2) no),
    (true, 0x8B0006041000140000000000, .vor .n32 3 1 (.v 2) no),
    (true, 0x8C0006041000140000000000, .vxor .n32 3 1 (.v 2) no),
    (true, 0x8D0006040000040100000004, .vshl .i32 3 1 (.imm 4) no),
    (true, 0x8E0006041000040000000000, .vshr .i32 3 1 (.v 2) no),
    (true, 0x8F003E78E800000000000000, .vsar .i64 31 30 (.v 29) no) ]

theorem test_decode_vectorArithmetic : wordsVectorArithmetic.all readsAs = true := by decide +kernel

theorem witness_runs_vectorArithmetic : wordsVectorArithmetic.all mayIssue = true := by decide +kernel

def wordsVectorMoves : List (Bool × Slot × Instr) :=
  [ (true, 0x900508041000040000000000, .vcmp (.int .ge .i32) 4 1 (.v 2) no),
    (true, 0x900600041000240000000000, .vcmp (.flt .un .f32) 0 1 (.v 2) no),
    (true, 0x91000604100014000000000C, .vsel .n32 3 1 (.v 2) 4 true no),
    (true, 0x920006180000240000000000, .vbcast (.flt .f32) 3 (.g 6) no),
    (true, 0x920106080000000000000000, .vbcast (.int .i64) 3 (.q 2) no),
    (true, 0x92020604000024000000000F, .vbcast (.flt .f32) 3 (.lane 1 15) no),
    (true, 0x93000C040000000000000007, .vextr (.int .i64) (.g 6) 1 7 no),
    (true, 0x93010A040000040000000002, .vextr (.int .i32) (.q 5) 1 2 no),
    (true, 0x940006180000040000000009, .vins (.int .i32) 3 6 9 no),
    (true, 0x950006040000040000000000, .vfirst (.int .i32) (.v 3) 1 no),
    (true, 0x95010C040000040000000000, .vfirst (.int .i32) (.g 6) 1 no),
    (true, 0x960006000002840000000000, .viota .i32 3 { inv := true, idx := 2 }),
    (true, 0x970006041000040000000000, .vperm (.int .i32) 3 1 (.v 2) no),
    (true, 0x980106041000040000000010, .vslide (.int .i32) true 3 1 2 16 no),
    (true, 0x99010A0C0000240100000000, .vreds (.flt .f32) (.g 5) 3 (.imm 0) .rne no),
    (true, 0x9A05080C1000040000000000, .vredm (.int .i32) true (.q 4) 3 (.v 2) no),
    (true, 0x9B00020818002C0000000000, .vdot2 (.flt .bf16) 1 2 (.v 3) .rne no),
    (true, 0x9C00020800002400000061A6, .vcvt (.wide (.flt .f32)) (.narrow 6) 3 1 2 .rne no),
    (true, 0x9C000208000034200000E129, .vcvt (.narrow 9) (.wide (.flt .f32)) 7 1 2 .rz no),
    (true, 0x9D00182400002C0000000001, .vsplit3 12 9 true no) ]

theorem test_decode_vectorMoves : wordsVectorMoves.all readsAs = true := by decide +kernel

theorem witness_runs_vectorMoves : wordsVectorMoves.all mayIssue = true := by decide +kernel

def wordsVectorMemory : List (Bool × Slot × Instr) :=
  [ (true, 0xA00004180000040100000040, .vld .w true .lin 2 6 (.reg 0) 0x40 no),
    (true, 0xA10004180000040000000000, .vst .w false .lin 2 6 (.reg 0) 0 no),
    (true, 0xA20004183800180000000000, .vlds .hn .lin 2 6 7 0 no),
    (true, 0xA30004181800000300000000, .vgath .d .lin 2 6 3 3 0 no),
    (true, 0xA40004181800050200000000, .vscat .w .ilv8 2 6 3 2 0 no) ]

theorem test_decode_vectorMemory : wordsVectorMemory.all readsAs = true := by decide +kernel

theorem witness_runs_vectorMemory : wordsVectorMemory.all mayIssue = true := by decide +kernel

def wordsMasksAndQueues : List (Bool × Slot × Instr) :=
  [ (true, 0xB00302081800000000000000, .klog .andn 1 2 3),
    (true, 0xB1000C080000000000000000, .kpopc 6 2),
    (true, 0xB2000C080000000000000000, .kfirst 6 2),
    (true, 0xB30002080000000000000000, .kmov (.kk 1 2)),
    (true, 0xB30102180000000000000000, .kmov (.kg 1 6)),
    (true, 0xB3020C040000000000000000, .kmov (.gk 6 1)),
    (true, 0xB3030200000000000000FFFF, .kmov (.ki 1 0xFFFF)),
    (true, 0xB40202081800000000000000, .ktest .all 1 2 3),
    (true, 0xB80000180000000000008882, .rep 6 2 8 4 1),
    (true, 0xB9000C0C0000000000000000, .qcnt true 6 3 no),
    (false, 0xB9000C0C0000400000000000, .qcnt false 6 3 { inv := false, idx := 1 }),
    (false, 0xBA0000140000000000000000, .qdrain false (.drain 5) no),
    (false, 0xBA010A140000000000000000, .qdrain false (.get 5 5) no),
    (false, 0xBA0202140000000000000000, .qdrain false (.put 1 5) no),
    (true, 0xBA0000040000000000000000, .qdrain true (.drain 1) no) ]

theorem test_decode_masksAndQueues : wordsMasksAndQueues.all readsAs = true := by decide +kernel

theorem witness_runs_masksAndQueues : wordsMasksAndQueues.all mayIssue = true := by decide +kernel

def wordsTasks : List (Bool × Slot × Instr) :=
  [ (false, 0xC00012500000000100000005, .arm 9 20 (.imm 5) no),
    (false, 0xC10012503000000000000000, .dec 9 20 (.reg 6) no),
    (false, 0xC20012500000000100000001, .inc 9 20 (.imm 1) no),
    (false, 0xC30000500000000000000000, .spawn 20 no),
    (false, 0xC40002500000000000000003, .tspawn 1 20 3 no),
    (false, 0xC50012503000000000000002, .waita .gen 9 20 (.reg 6) no),
    (false, 0xC50100000000000000000000, .yield no),
    (false, 0xC50200000000000000000000, .susp no),
    (false, 0xC60012503000000000000000, .arrive 9 20 (.reg 6) no),
    (false, 0xC60114504800000000000000, .await 10 20 9 no),
    (false, 0xC60200504800000000000000, .drop 20 9 no),
    (false, 0xC70012183800000000000051, .ssync 9 6 7 true 5 no),
    (false, 0xC80012000000000000000000, .ssnum 9 no),
    (false, 0xC90000000000000000000002, .fuse 2 no),
    (false, 0xC90100000000000000000000, .split no),
    (false, 0xCA0000503000000000000000, .tqpush 20 6 no),
    (false, 0xCA0112500000000000000000, .tqpop 9 20 no),
    (false, 0xCB00005000000000000000A2, .gwload 20 2 5 no),
    (false, 0xCB010000000000000000001F, .gwrun 31 no),
    (false, 0xCB0212000000000000000000, .gwstat 9 no),
    (false, 0xCC0000500000000100000001, .cond 20 (.imm 1) no),
    (false, 0xCD0000403000000000000000, .cpy 16 (.reg 6) no),
    (false, 0xCE0000500000000000000008, .pfl 20 8 no) ]

theorem test_decode_tasks : wordsTasks.all readsAs = true := by decide +kernel

theorem witness_runs_tasks : wordsTasks.all mayIssue = true := by decide +kernel

def wordsOrderingAndAtomics : List (Bool × Slot × Instr) :=
  [ (false, 0xD00012500000001400000000, .ldacq .d .lin .team 9 20 (.reg 0) 0 no),
    (false, 0xD10012500000041800000008, .strel .w .lin .system 9 20 (.reg 0) 8 no),
    (false, 0xD20000000000000800000000, .fence .cluster no),
    (false, 0xD30012503000001600000000, .aadd .d .lin { acq := false, rel := true, scope := .team } 9 20 (.reg 6) no),
    (false, 0xD30112503000040000000001, .amin true .w .lin { acq := false, rel := false, scope := .context } 9 20 (.reg 6) no),
    (false, 0xD30212503000140000000000, .amax false .wn .lin { acq := false, rel := false, scope := .context } 9 20 (.reg 6) no),
    (false, 0xD30312503000000000000000, .aand .d .lin { acq := false, rel := false, scope := .context } 9 20 (.reg 6) no),
    (false, 0xD30412503000000000000000, .aor .d .lin { acq := false, rel := false, scope := .context } 9 20 (.reg 6) no),
    (false, 0xD30512503000000000000000, .axor .d .lin { acq := false, rel := false, scope := .context } 9 20 (.reg 6) no),
    (false, 0xD30612503000000700000000, .aswp .d .lin { acq := true, rel := true, scope := .core } 9 20 (.reg 6) no),
    (false, 0xD30712503000042000000000, .afadd false .lin { acq := false, rel := false, scope := .context } .rz 9 20 (.reg 6) no),
    (false, 0xD40012503000000000000000, .acas .d .lin { acq := false, rel := false, scope := .context } 9 20 (.reg 6) no),
    (false, 0xD50100503000040000000001, .red (.min true) false .lin false .context 20 (.reg 6) no),
    (false, 0xD50600503000004000000000, .red (.fadd .ru) true .lin false .context 20 (.reg 6) no),
    (false, 0xD60112500000000000000000, .pgq true .lin 9 20 (.reg 0) 0 no) ]

theorem test_decode_orderingAndAtomics : wordsOrderingAndAtomics.all readsAs = true := by decide +kernel

theorem witness_runs_orderingAndAtomics : wordsOrderingAndAtomics.all mayIssue = true := by decide +kernel

def wordsFarAgents : List (Bool × Slot × Instr) :=
  [ (false, 0xD700003CA800010000000000, .rred .add true .ilv8 15 (.reg 21) no),
    (false, 0xD80000000000000100000000, .rflush false true .lin 0 no),
    (false, 0xD80100500000010000000000, .rflush true false .ilv8 20 no),
    (false, 0xD90020000000000000000002, .rstat (.entry 16 2) no),
    (false, 0xD90112000000000000000000, .rstat (.count 9) no),
    (false, 0xD90200000000000000000000, .rstat .clear no),
    (false, 0xDA0010506000000000000022, .fcas { acq := false, rel := false, scope := .context } 8 20 12 2 2 no),
    (false, 0xDB0012503000001600000000, .fenq { acq := false, rel := true, scope := .team } 9 20 6 no),
    (false, 0xDC0014500000000000100008, .fchase false .context 10 20 16 8 no) ]

theorem test_decode_farAgents : wordsFarAgents.all readsAs = true := by decide +kernel

theorem witness_runs_farAgents : wordsFarAgents.all mayIssue = true := by decide +kernel

def wordsStatisticsAndQuantising : List (Bool × Slot × Instr) :=
  [ (false, 0xE00012000084000000000020, .tsrd false 9 (.cw 0x10) 0x20 no),
    (false, 0xE10000180084000000000000, .tsclr 6 (.cw 0x10) no),
    (false, 0xE20012000084000000000006, .tsscale 9 (.cw 0x10) 6 no),
    (false, 0xE30012400084240000000026, .qnt .f32 9 16 (.cw 0x10) .rne 6 true 0 no),
    (false, 0xE4003E200000240000000006, .qntl .f32 31 8 .rne 6 0 0 no),
    (false, 0xE501002000002C0000000206, .dqnt .bf16 true 8 (.reg 0) .rne 6 0 2 false no) ]

theorem test_decode_statisticsAndQuantising : wordsStatisticsAndQuantising.all readsAs = true := by decide +kernel

theorem witness_runs_statisticsAndQuantising : wordsStatisticsAndQuantising.all mayIssue = true := by decide +kernel

def wordsFabric : List (Bool × Slot × Instr) :=
  [ (false, 0xE80000403000000000000000, .kput 16 (.reg 6) no),
    (false, 0xE90000403000000000000000, .kget 16 (.reg 6) no),
    (false, 0xEA0000403000000000000010, .kcoll 16 (.reg 6) 16 no),
    (false, 0xEB0000183800000000000000, .fedj 6 (.reg 7) no),
    (false, 0xEB0100000000000000000000, .fedl no),
    (false, 0xEC0000400000000000000000, .gqpush 16 no),
    (false, 0xEC0112500000000000000000, .gqpop 9 20 no),
    (false, 0xEC0212503000000000000000, .gqwin false 9 20 (.reg 6) no),
    (false, 0xEC0200503000000000000001, .gqwin true 0 20 (.reg 6) no),
    (false, 0xED000018000000000000000C, .gprio 6 12 no),
    (false, 0xEE0012003000000000000000, .ostep 9 (.reg 6) no) ]

theorem test_decode_fabric : wordsFabric.all readsAs = true := by decide +kernel

theorem witness_runs_fabric : wordsFabric.all mayIssue = true := by decide +kernel

def wordsSystem : List (Bool × Slot × Instr) :=
  [ (false, 0xF00000000000000000000012, .trap 0x12 no),
    (false, 0xF10000000000000000000000, .brk no),
    (false, 0xF20020000000000000000001, .fmsg true 16 no),
    (false, 0xF30000402800000000000000, .freply 16 (.reg 5) no),
    (false, 0xF40012000000000000000121, .srd 9 0x121 no),
    (false, 0xF50000240000000000000208, .swr 9 0x208 no),
    (false, 0xF60000183800000000000002, .tlbi false 2 6 (.reg 7) no),
    (false, 0xF6000000000000000000000A, .tlbi true 2 0 (.reg 0) no),
    (false, 0xF70012000000000000000003, .ident 9 3 no),
    (false, 0xF80000000000000000000000, .halt no) ]

theorem test_decode_system : wordsSystem.all readsAs = true := by decide +kernel

theorem witness_runs_system : wordsSystem.all mayIssue = true := by decide +kernel

/-! ### Well-formed terms and words that are refused -/

theorem test_wellFormed_refuses :
    (([.add .i64 5 6 (.reg 7) { inv := true, idx := 0 }, .sext 5 6 0 no, .zext 5 6 65 no, .bfx 5 6 0 0 no, .bfxn 5 6 0 65 no, .bfi 5 6 1 64 no,
      .mkptr 5 6 (.imm 0) 7 no, .mkptr 5 6 (.imm 1) 0 no, .loop 0 8 no, .grow 3 15 0 no, .shrink 0 7 no, .fcvt 5 6 (.conv (.int .i32) (.int .i64) .rne) no,
      .ld .l .lin 12 8 (.reg 0) 0 no, .ld .f .lin 0 8 (.reg 0) 0 no, .st .wn .lin 1 2 (.reg 0) 0 no, .st .f .lin 2 2 (.reg 0) 0 no,
      .ldl .ilv8 16 8 (.reg 0) 0 no, .stl .lin 12 8 (.reg 0) 0 no] : List Instr).all fun i => !i.wf) = true := by decide +kernel

theorem test_wellFormed_refuses_vector :
    (([.vadd (.int .i32) 3 1 (.v 2) .ru no, .vsel .n32 3 1 (.imm 0) 4 true no, .vbcast (.int .i64) 3 (.lane 1 8) no, .vextr (.int .i32) (.v 6) 1 0 no,
      .vextr (.int .i64) (.g 6) 1 8 no, .vins (.int .i64) 3 6 8 no, .vfirst (.int .i32) (.q 3) 1 no, .viota .i16 3 no, .vslide (.int .i64) true 3 1 2 9 no,
      .vdot2 (.flt .f32) 1 2 (.v 3) .rne no, .vcvt (.narrow 5) (.narrow 6) 0 1 2 .rne no, .vcvt (.wide (.flt .f64)) (.narrow 6) 0 1 2 .rne no,
      .vsplit3 30 9 true no, .vst .hn false .lin 2 6 (.reg 0) 0 no, .rep 6 0 8 4 1, .rep 6 2 30 4 1, .qcnt true 6 3 { inv := false, idx := 1 }] :
      List Instr).all fun i => !i.wf) = true := by decide +kernel

theorem test_wellFormed_refuses_system :
    (([.ssync 9 6 7 false 5 no, .gwload 20 30 3 no, .cpy 0 (.reg 6) no, .pfl 20 65 no, .ldacq .f .lin .team 8 20 (.reg 0) 0 no,
      .strel .wn .lin .team 9 20 (.reg 0) 0 no, .aadd .d .lin { acq := false, rel := false, scope := .team } 9 20 (.reg 6) no,
      .red .add true .lin false .team 20 (.reg 6) no, .rflush false false .ilv8 0 no, .rstat (.entry 2 0) no,
      .fcas { acq := false, rel := false, scope := .context } 8 20 13 0 0 no, .fchase false .context 11 20 1 8 no, .fchase false .context 10 20 17 8 no,
      .tsrd false 9 (.reg 3) 0x28 no, .tsscale 9 (.reg 3) 3 no, .qnt .f32 9 18 (.reg 3) .rne 6 false 0 no, .dqnt .f32 true 8 (.reg 1) .rne 6 0 0 false no,
      .kcoll 16 (.reg 6) 65 no, .gqwin true 9 20 (.reg 6) no, .fmsg true 12 no, .tlbi true 0 1 (.reg 0) no, .ident 9 4 no] : List Instr).all fun i => !i.wf) = true := by decide +kernel

/-- A slot that its stream refuses. -/
def rejected (x : Bool × Slot) : Bool :=
  match decode x.1 x.2 with
  | .ok _ => false
  | .error _ => true

theorem test_decode_rejects :
    (([(false, 0), (true, 0x01000A180104000000000000), (false, 0x800006041000A40000000000), (false, 0xFF0000000000000000000000),
      -- add with FN 1, with TY .f32, with AM 1, with B beside CE
      (false, 0x01010A180104000000000000), (false, 0x01000A180104240000000000), (false, 0x01000A180104010000000000), (false, 0x01000A180904000000000000),
      -- MS 8, li with a non-zero FN, an unassigned major opcode
      (false, 0x01000A180106000000000000), (false, 0x25010A000000000000000007), (false, 0x0F0000000000000000000000)] : List (Bool × Slot)).all rejected) = true := by decide +kernel

/-! ### The statements, in their order -/

theorem witness_division :
    (runs (.div .w64 5 6 (.reg 7) no) no t0 && runs (.remn .w8 5 6 (.cw 3) no) no t0) = true := by decide +kernel

theorem witness_bitFields :
    ((Instr.sext 15 13 64 no).wf && (Instr.bfx 15 13 63 1 no).wf && (Instr.bfi 15 13 0 64 no).wf && runs (.bfi 15 13 0 64 no) no t0 &&
    runs (.zext 15 13 1 no) no t0 && runs (.bfxn 15 13 63 1 no) no t0) = true := by decide +kernel

theorem witness_mkptr :
    ((Instr.mkptr 5 6 (.imm 0xFFF) 6 no).wf && (Instr.mkptr 5 6 (.imm 0) 0 no).wf && (Instr.mkptr 5 6 (.reg 7) 1 no).wf &&
    runs (.mkptr 5 6 (.reg 7) 1 no) no t0) = true := by decide +kernel

theorem witness_ptrAdd_spaces :
    (ptrSpace 0x1000000000000000 == 1 && ptrSpace 0x5000000000000000 == 5 && ptrSpace 0 == 0 && ptrSpace 0x6000000000000000 == 6 &&
    ptrSpace 0x7000000000000000 == 7) = true := by decide +kernel

theorem witness_ptrx_owner :
    (ptrRank 0x1FFF000000000000 == 0xFFF && ptrSpace 0x6FFF000000000000 == 6) = true := by decide +kernel

theorem witness_float_nan :
    (((fspec .f32).decode 0x7FC00000).isNan && ((fspec .f64).decode 0x7FF0000000000001).isNan && ((fspec .f16).decode 0x7C01).isNan) = true := by decide +kernel

theorem witness_float_infinities :
    ((fspec .f32).decode 0x7F800000 == .inf false && (fspec .f32).decode 0xFF800000 == .inf true) = true := by decide +kernel

theorem witness_float_zero_divisor :
    ((match (fspec .f32).decode 0x3F800000, (fspec .f32).decode 0x80000000 with
      | .fin false m _, .fin true 0 _ => m != 0
      | _, _ => false) &&
    (match (fspec .bf16).decode 0 with | .fin _ 0 _ => true | _ => false)) = true := by decide +kernel

theorem witness_float_fma_addend :
    (((fspec .f32).decode 0x7F800001).isNan && badMul ((fspec .f32).decode 0) ((fspec .f32).decode 0x7F800000) &&
    !badMul ((fspec .f32).decode 0x3F800000) ((fspec .f32).decode 0x7F800000) &&
    mulFV ((fspec .f32).decode 0x3F800000) ((fspec .f32).decode 0x7F800000) == .inf false && (fspec .f32).decode 0xFF800000 == .inf true) = true := by decide +kernel

theorem witness_float_conversions :
    ((fp32.decode 0x7FC00000).isNan && fp32.decode 0xFF800000 == .inf true && (match fp32.decode 0x80000000 with | .fin _ 0 _ => true | _ => false) &&
    (match tyVal (.int .i8) 0x80 with | .fin true 128 _ => true | _ => false) && decide ((0x80 : Nat) < 2 ^ (IntTy.bits .i8)) &&
    decide ((fspec .f16).fbits ≤ (fspec .f32).fbits) && decide ((fspec .f16).ebits ≤ (fspec .f32).ebits)) = true := by decide +kernel

theorem witness_float_root_of_negative :
    (match (fspec .f32).decode 0xBF800000 with | .fin true m _ => m != 0 | _ => false) = true := by decide +kernel

theorem witness_float_minmax :
    (((fspec .f32).decode 0x7F800001).isNan && !((fspec .f32).decode 0x3F800000).isNan &&
    cmpFV ((fspec .f32).decode 0x3F800000) ((fspec .f32).decode 0x40000000) == .lt &&
    cmpFV ((fspec .f32).decode 0x40000000) ((fspec .f32).decode 0x3F800000) == .gt &&
    cmpFV ((fspec .f32).decode 0x80000000) ((fspec .f32).decode 0) == .eq && ((fspec .f32).decode 0x80000000).isNeg) = true := by decide +kernel

theorem witness_float_instructions :
    (runs (.fmin .f19 5 6 (.reg 7) no) no t0 && runs (.fcmp .un .f64 2 6 (.reg 7) no) no t0 &&
    runs (.fcvt 5 6 (.conv (.int .n8) (.flt .f16) .rd) no) no t0 && runs (.ffma .bf16 5 6 (.cw 1) .rna no) no t0) = true := by decide +kernel

theorem witness_transfers :
    (okAnd (fetchLine t0.done 0) (fun r => pcShape 0 && lineTgt r.2 (pcSlot 0) && lineTmpl r.2 (pcSlot 0) != 3) &&
    branchInRange t0.cx.ipc 0 && branchTarget t0.cx.ipc 0 == 0 && t0.g 6 == 0 && t0.g 9 != 1 && runs (.br 0 no) no t0 &&
    t0.canRun (.jmp 0) && runs (.ret 6 no) no t0 && runs (.call 1 0 no) no t0 && runs (.calli 1 6 no) no t0 && runs (.loop 9 0 no) no t0) = true := by decide +kernel

theorem witness_loop_ends :
    ((t0.setG 9 1).g 9 == 1 && runs (.loop 9 0 no) no (t0.setG 9 1)) = true := by decide +kernel

theorem witness_branch_ranges :
    (branchInRange 0x01FFFFFFFFFFFFC0 7 && !branchInRange 0x01FFFFFFFFFFFFC0 8 && branchInRange 0xC0 0xFFFFFFEA && !branchInRange 0 0xFFFFFFFA) = true := by decide +kernel

theorem witness_transfer_refused :
    ((0x0200000000000000 : Word).extractLsb' 57 7 != 0 &&
    okAnd (fetchLine t0.done 1) (fun r => pcShape 1 && !lineTgt r.2 (pcSlot 1)) && okAnd (fetchLine t0.done 5) (fun _ => !pcShape 5) &&
    runs (.jmpi 6 no) no (t0.setG 6 1) && (t0.setG 6 1).g 6 == 1 && branchInRange t0.cx.ipc 1 && branchTarget t0.cx.ipc 1 == 1 &&
    runs (.br 1 no) no t0 && runs (.call 3 1 no) no t0 && runs (.loop 9 1 no) no t0 && t0.g 9 != 1 && t0.canRun (.jmp 0x10000000) && !isOk (fetchLine t0.done 0x10000000)) = true := by decide +kernel

theorem witness_transfer_out_of_range :
    (let sum (off : Word32) : Int := (t0.cx.ipc.extractLsb' 6 51).toNat + (off.extractLsb' 3 29).toInt
    decide (sum 0xFFFFFFFA < 0) && runs (.br 0xFFFFFFFA no) no t0 && runs (.call 3 0xFFFFFFFA no) no t0 && runs (.loop 9 0xFFFFFFFA no) no t0 &&
    t0.g 9 != 1) = true := by decide +kernel

theorem witness_signature :
    (t0.canRun (.bsig 0x1D0F) && !sigBad t0.cx.sig && runs (.nop no) no t0) = true := by decide +kernel

/-- The allotment at its least. -/
def tsmall : State := { t0 with cx := { t0.cx with gGran := 2, vGran := 2 } }

theorem witness_grow :
    (runs (.grow 1 14 6 no) no tsmall && tsmall.cx.gGran + 14 == 16 && tsmall.cx.vGran + 6 == 8 && (tsmall.core 0).freeG == 16 &&
    (tsmall.core 0).freeV == 8) = true := by decide +kernel

theorem witness_grow_refused :
    (let s := tsmall.modCore 0 fun k => { k with freeG := 13 }
    runs (.grow 1 14 6 no) no s && decide ((s.core 0).freeG < 14)) = true := by decide +kernel

theorem witness_shrink :
    (runs (.shrink 14 6 no) no t0 && t0.atControl && t0.cx.gGran == 16 && t0.cx.vGran == 8 && !isService t0 0 && isService tc (collierEp 0)) = true := by decide +kernel

theorem witness_endC :
    (runs (.endC no) no t0 && t0.atControl && queuesEmpty t0.cx && !sigBad t0.cx.sig && ricksOfCtx (t0.core 0) 0 == [] && !cordsOfCtx t0 0 0 &&
    okAnd (putState t0.done (devWho t0.done 0 0 1) t0.cx.recA stDone) (fun u => optAnd (u.team? 0 1) fun t => !t.service &&
      gangOf t t0.cx.recA == [] && isOk (leaveGang u 0 1 t0.cx.recA))) = true := by decide +kernel

theorem witness_endC_of_a_service_program :
    (let s := team t0 fun t => { t with service := true }
    runs (.endC no) no s && s.atControl && queuesEmpty s.cx && !sigBad s.cx.sig && ricksOfCtx (s.core 0) 0 == [] && !cordsOfCtx s 0 0 &&
    okAnd (putState s.done (devWho s.done 0 0 1) s.cx.recA stDone) (fun u => optAnd ((releaseCx u).team? 0 1) fun t =>
      t.service && okAnd (allDone { releaseCx u with note := .transfer } t) fun b => b)) = true := by decide +kernel

theorem witness_endC_with_a_queue :
    (let s := t0.setQ 2 [7]
    runs (.endC no) no s && s.atControl && !queuesEmpty s.cx && ricksOfCtx (s.core 0) 0 == [] && !cordsOfCtx s 0 0) = true := by decide +kernel

theorem witness_allotment_refused :
    (runs (.grow 1 1 0 no) no t0 && decide (16 < t0.cx.gGran + 1) && runs (.shrink 1 0 no) no tsmall && decide (tsmall.cx.gGran < 3)) = true := by decide +kernel

theorem witness_loads :
    (let s := t0.setG 8 0x8000
    runs (.ld .d .lin 7 8 (.reg 0) 5 no) no s && reaches s .read .lin 1 (eaOf s 8 (.reg 0) 5) 8 (fun _ => true) &&
    runs (.ldl .lin 16 8 (.reg 0) 5 no) no s && reaches s .read .lin 1 (eaOf s 8 (.reg 0) 5 &&& ~~~63#64) 64 (fun _ => true) &&
    runs (.ldacq .w .lin .team 7 8 (.reg 0) 4 no) no s && reaches s .read .lin 4 (eaOf s 8 (.reg 0) 4) 4 (fun _ => true)) = true := by decide +kernel

theorem witness_loads_top_of_lm :
    (let s := t0.setG 8 (0x2FFF000000000000 + BitVec.ofNat 64 (bufSize 0 2 - 8))
    reaches s .read .lin 1 (eaOf s 8 (.reg 0) 0) 8 (fun _ => true)) = true := by decide +kernel

theorem witness_pref_pgq :
    (isOk (places t0.done (ctxWho t0.done false) .read .lin 1 false (eaOf t0 8 (.reg 0) 0) 1) &&
    trapAnd (places t0.done (ctxWho t0.done false) .read .lin 1 false (eaOf (t0.setG 8 0x40000000) 8 (.reg 0) 0) 1) (fun _ => true) &&
    runs (.pref true .lin 8 (.reg 0) 0 no) no t0 && runs (.pgq true .lin 9 8 (.reg 0) 0 no) no t0 && ptrSpace (eaOf t0 8 (.reg 0) 0) == 0 &&
    (eaOf t0 8 (.reg 0) 0).extractLsb' 57 3 == 0) = true := by decide +kernel

theorem witness_stores :
    (let s := t0.setG 8 0x8000
    runs (.st .d .lin 7 8 (.reg 0) 5 no) no s && !goesByRick s .lin (eaOf s 8 (.reg 0) 5) 8 &&
    lands s .lin 1 (eaOf s 8 (.reg 0) 5) 8 (fun pls => decide (touched pls).Nodup && clampRoom s (ctxWho s false) pls &&
      pls.all fun pl => (frozenBy s pl.key).isNone && !pl.zero) &&
    runs (.strel .d .lin .team 7 8 (.reg 0) 8 no) no s && released s && lands s .lin 8 (eaOf s 8 (.reg 0) 8) 8 (fun _ => true) &&
    runs (.stl .lin 16 8 (.reg 0) 9 no) no s && !inWindow s .lin (eaOf s 8 (.reg 0) 9 &&& ~~~63#64) &&
    lands s .lin 1 (eaOf s 8 (.reg 0) 9 &&& ~~~63#64) 64 (fun _ => true) && runs (.fence .system no) no s) = true := by decide +kernel

/-- A team of two cores side by side. -/
def tpair : State := team t0 fun t => { t with w := 2 }

theorem witness_storeByRick :
    (let s := tpair.setG 8 0x1001000000001004
    runs (.st .w .lin 7 8 (.reg 0) 0 no) no s && s.atControl && isCompute s.cx.ep &&
    (let p := eaOf s 8 (.reg 0) 0
     ptrSpace p == 1 && p.extractLsb' 20 28 == 0 && (route s (ctxWho s false) .lin p).1 == some 1 && (p.extractLsb' 0 20).toNat % 8 + 4 == 8)) = true := by decide +kernel

/-- A rick of core 0 for core 1 that holds n elements. -/
def withRick (s : State) (n : Nat) : State :=
  let x : RickElem := storeElem s 0x1001000000001000 1 0x1000 (bytesOf 7 8)
  s.modCore 0 fun k => { k with ricks := k.ricks.set 3 { dest := some 1, elems := List.replicate n x } }

theorem witness_rick_empty :
    (rickFor tpair 0 [1] == [] && ((tpair.core 0).ricks.toList[0]?).map Rick.elems == some [] &&
    rickFor (withRick tpair 1) 0 [2] == [] && ((withRick tpair 1).core 0).ricks.toList[0]?.map Rick.elems == some []) = true := by decide +kernel

theorem witness_rick_of_a_destination :
    ((openRicks ((withRick tpair 15).core 0)).find? (fun q => q.2 == 1) == some (3, 1) &&
    (((withRick tpair 15).core 0).ricks.toList[3]?).map (fun r => r.elems.length) == some 15 &&
    (openRicks ((withRick tpair 1).core 0)).find? (fun q => q.2 == 1) == some (3, 1)) = true := by decide +kernel

theorem witness_atomics :
    (let s := t0.setG 20 0x8000
    runs (.aadd .d .lin { acq := true, rel := true, scope := .team } 9 20 (.reg 6) no) no s && released s &&
    reaches s { r := true, w := true, x := false, atomic := true } .lin 8 (s.g 20) 8 (fun pls => farHead s pls && pls.all fun pl => pl.cls == 1) &&
    runs (.afadd false .lin { acq := false, rel := false, scope := .context } .rne 9 20 (.reg 6) no) no s &&
    reaches s { r := true, w := true, x := false, atomic := false } .lin 4 (s.g 20) 4 (fun pls => pls.all fun pl => pl.cls == 1) &&
    runs (.acas .wn .lin { acq := false, rel := false, scope := .context } 9 20 (.reg 6) no) no s) = true := by decide +kernel

theorem witness_red_versioned :
    (let s := (page2 t0 0 0x1F 0xFFFF).setG 20 0x208000
    runs (.red .add true .lin false .context 20 (.reg 6) no) no s &&
    reaches s { r := true, w := true, x := false, atomic := false } .lin 8 (s.g 20) 8
      (fun pls => !pls.isEmpty && farHead s pls && pls.all (fun pl => pl.cls == 0 && !isBufKey pl.key) && !redoFull s pls && !isService s 0)) = true := by decide +kernel

theorem witness_red_live :
    (let s := t0.setG 20 0x8000
    runs (.red (.max true) false .lin true .team 20 (.reg 6) no) no s && released s &&
    reaches s { r := true, w := true, x := false, atomic := false } .lin 4 (s.g 20) 4 (fun pls => !pls.isEmpty && farHead s pls && pls.all fun pl => pl.cls == 1)) = true := by decide +kernel

theorem witness_rred :
    (let s := tpair.setG 15 0x1001000000001000
    runs (.rred .add true .lin 15 (.reg 21) no) no s && s.atControl &&
    okAnd (rredRoute s.done .lin (s.g 15) 8 8) (fun d => d.ep == 1 && !d.own)) = true := by decide +kernel

theorem witness_rred_own :
    (let s := (tpair.setG 15 0x1FFF000000001000).modCore 0 fun k => { k with bufcls := #v[0x55555555, 0, 0, 0] }
    runs (.rred .add true .lin 15 (.reg 21) no) no s && s.atControl &&
    okAnd (rredRoute s.done .lin (s.g 15) 8 8) (fun d => d.own && isOk (applyElem s.done (ctxWho s false) (rredElem s .add true 15 (.reg 21) d)))) = true := by decide +kernel

theorem witness_rflush :
    (runs (.rflush false true .lin 0 no) no t0 && released t0 && runs (.rflush false false .lin 0 no) no (withRick tpair 2) &&
    runs (.rflush true false .lin 20 no) no (tpair.setG 20 0x1001000000001000) &&
    okAnd (rredRoute (tpair.setG 20 0x1001000000001000).done .lin 0x1001000000001000 1 1) (fun d => !d.own) && released tpair) = true := by decide +kernel

theorem witness_rstat :
    (runs (.rstat (.entry 16 7) no) no t0 && runs (.rstat (.count 9) no) no t0 && runs (.rstat .clear no) no t0) = true := by decide +kernel

theorem witness_fcas :
    (let s := t0.setG 20 0x8020
    runs (.fcas { acq := false, rel := true, scope := .team } 8 20 12 3 1 no) no s && released s && (s.g 20).toNat % 64 + 32 == 64 &&
    ptrSpace (s.g 20) == 0 && reaches s .farRw .lin 8 (s.g 20) 32 (fun pls => farHead s pls && pls.all fun pl => pl.cls == 1)) = true := by decide +kernel

theorem witness_fenq_empty :
    (let s := (t0.setG 20 0x8000).setG 6 0x9000
    runs (.fenq { acq := false, rel := false, scope := .context } 9 20 6 no) no s &&
    reaches s .farRw .lin 16 (s.g 20) 16 (fun pls => farHead s pls && pls.all (fun pl => pl.cls == 1) && leNat ((seenBytes s pls).drop 8) == 0) &&
    okAnd (places s.done (ctxWho s.done false) .farRw .lin 16 false (s.g 20) 16) fun pls =>
      okAnd (farSpace s.done (s.g 20) true) (fun f => isOk (farPlaces (s.touchedBy pls) f (s.g 6) 8 .write))) = true := by decide +kernel

theorem witness_fenq_tail :
    (let s := (poke (t0.setG 20 0x8000) 0x8008 0x9040 8).setG 6 0x9000
    reaches s .farRw .lin 16 (s.g 20) 16 (fun pls => leNat ((seenBytes s pls).drop 8) == 0x9040) &&
    okAnd (places s.done (ctxWho s.done false) .farRw .lin 16 false (s.g 20) 16) fun pls =>
      okAnd (farSpace s.done (s.g 20) true) (fun f => isOk (farPlaces (s.touchedBy pls) f (s.g 6) 8 .write) &&
        isOk (farPlaces (s.touchedBy pls) f 0x9040 8 .write))) = true := by decide +kernel

theorem witness_fchase :
    (let s := poke (t0.setG 20 0x8000) 0x8008 0x9000 8
    runs (.fchase false .context 10 20 1 8 no) no s && (chaseAt s (s.g 20)).isNone &&
    reaches s .read .lin 8 (ptrAdd (s.g 20) 8) 8 (fun pls => farHead s pls && pls.all (fun pl => pl.cls == 1) &&
      okAnd (farSpace s.done (ptrAdd (s.g 20) 8) false) fun f =>
        okAnd (chase f 8 1 0 (s.g 20) pls (useXlat s.done (ctxWho s false) f.via)) fun r => r.1 == 0x9000 && r.2.1 == 1)) = true := by decide +kernel

theorem witness_fchase_waits :
    (let s := poke (t0.setG 20 0x8000) 0x8008 0x9000 8
    runs (.fchase false .context 10 20 2 8 no) no s && farQueues s && (chaseAt s (s.g 20)).isNone &&
    reaches s .read .lin 8 (ptrAdd (s.g 20) 8) 8 (fun pls => farHead s pls && leNat (seenBytes s pls) == 0x9000 && isOk (soundRead s.done pls (s.g 20)) &&
      isOk (farSpace s.done (ptrAdd (s.g 20) 8) false))) = true := by decide +kernel

theorem witness_fchase_goes_on :
    (let s0 := poke (t0.setG 20 0x8000) 0x8008 0x9000 8
    let a := farAgentOf (physKey 0 0x9008)
    let s := { s0 with cx := { s0.cx with req := some { seq := 0, agent := a, pc := s0.cx.pc, chase := some { node := 0x9000, links := 1, entry := 0 } } } }
    runs (.fchase false .context 10 20 2 8 no) no s && chaseAt s (s.g 20) == some { node := 0x9000, links := 1, entry := 0 } &&
    okAnd (farSide s.done (ptrAdd (s.g 20) 8) false 0 []) fun f => okAnd (farPlaces s.done f 0x9008 8 .read) fun pls =>
      farHead s pls && leNat (seenBytes s pls) == 0 && okAnd (chase f 8 1 1 0x9000 pls s.done) fun r => r.1 == 0x9000 && r.2.1 == 1) = true := by decide +kernel

/-- The vector stream issues the next instruction of its queue. -/
def tq (s : State) : State := { s with cx := { s.cx with vsrc := .queue } }

theorem witness_vector_issue :
    (let i : Instr := .vadd (.flt .f64) 31 30 (.v 29) .ru { inv := true, idx := 2 }
    t0.canIssueVec i && decide (i.privNeed ≤ (tq t0).cx.priv.level) && allotOk (tq t0).cx i.uses && (tq t0).cx.vsrc != .control) = true := by decide +kernel

theorem witness_vector_queue_operands :
    (let s := (t0.setQ 2 [7]).setQ 5 [1, 2, 3, 4, 5, 6, 7]
    s.q 2 == [7] && decide ((s.q 5).length < 8) && t0.canIssueVec (.vextr (.int .i32) (.q 5) 1 2 no)) = true := by decide +kernel

theorem witness_vins_vslide_bounds :
    (decide ((7 : BitVec 4).toNat < (Ty.int .i64).count) && decide ((15 : BitVec 4).toNat < (Ty.int .i32).count) &&
    decide ((16 : BitVec 5).toNat ≤ (Ty.int .i8).count) && decide ((8 : BitVec 5).toNat ≤ (Ty.flt .f64).count)) = true := by decide +kernel

theorem witness_vcvt_forms :
    (!narrowGood 1 && Ms.mask { inv := false, idx := 1 } t0.cx == 0 && narrowGood 5 && narrowGood 9 && narrowGood 0x17 && (Ty.flt .f64).width == 64 && (Ty.flt .f32).width != 64) = true := by decide +kernel

theorem witness_vector_loads :
    (let s := ((t0.setG 6 0x8000).setK 0 0x0003).setG 7 0x40
    (List.range 2).all (fun e => okAnd (places s.done (ctxWho s.done true) .read .lin 1 false (laneAddr s (.vld .w true .lin 2 6 (.reg 0) 4 no) e) 4) fun pls =>
      noRick s (pls.map (·.dest)).eraseDups) &&
    (List.range 2).all (fun e => okAnd (places s.done (ctxWho s.done true) .read .lin 1 false (laneAddr s (.vlds .d .lin 2 6 7 0 no) e) 8) fun pls =>
      noRick s (pls.map (·.dest)).eraseDups) &&
    s.canIssueVec (.vgath .b .lin 2 6 3 0 0 no) && elemOn (no.mask s.cx) 16 1 && !elemOn (no.mask s.cx) 16 2) = true := by decide +kernel

theorem witness_vector_stores :
    (let s := (page2 (t0.setG 6 0x200000) 2 0x1F 0xFFFF).setK 0 0x8001
    s.canIssueVec (.vst .d false .lin 2 6 (.reg 0) 0 no) && elemOn (no.mask s.cx) 8 0 && !goesByRick s .lin (s.g 6) 8 &&
    okAnd (places s.done (ctxWho s.done true) .write .lin 1 false (laneAddr s (.vst .d false .lin 2 6 (.reg 0) 0 no) 0) 8) (fun pls =>
      decide (touched pls).Nodup && pls.all fun pl => pl.cls == 2 && !pl.zero && (frozenBy s pl.key).isNone)) = true := by decide +kernel

theorem witness_masks_and_queues :
    (t0.canIssueVec (.klog .nor 7 1 2) && t0.canIssueVec (.qcnt true 6 7 no) && runs (.qcnt false 6 0 no) no t0 &&
    t0.canIssueVec (.qdrain true (.drain 3) no) && runs (.qdrain false (.drain 4) no) no t0 && runs (.qdrain false (.get 5 7) no) no (t0.setQ 7 [9]) &&
    runs (.qdrain false (.put 3 5) no) no t0 && decide ((t0.q 3).length < 8)) = true := by decide +kernel

theorem witness_wrong_stream :
    (runs (.qdrain false (.drain 3) no) no t0 && runs (.qdrain false (.get 5 3) no) no t0 && runs (.qdrain false (.put 4 5) no) no t0 &&
    (tq t0).cx.vsrc != .control && ([.qdrain true (.drain 4) no, .vbcast (.int .i32) 1 (.q 7) no, .qdrain true (.get 5 6) no, .qdrain true (.put 1 5) no,
      .vextr (.int .i32) (.q 3) 1 0 no, .vfirst (.int .i32) (.q 0) 1 no] : List Instr).all fun i =>
        decide (i.privNeed ≤ (tq t0).cx.priv.level) && allotOk (tq t0).cx i.uses && windowClean (tq t0) i.vcws) = true := by decide +kernel

theorem witness_rep_issue :
    (t0.canIssueVec (.rep 6 15 0 32 31) && (tq t0).cx.vsrc == .queue && allotOk (tq t0).cx (Instr.rep 6 15 0 32 31).uses && (t0.g 6).setWidth 32 == 0#32 && ((t0.setG 6 3).g 6).setWidth 32 != 0#32) = true := by decide +kernel

theorem witness_rep_capture :
    (let s := { t0 with cx := { t0.cx with rep := { RepState.reset with capturing := true, n := 1 } } }
    inBody (.vadd (.int .i32) 1 2 (.v 3) .rne no) && s.cx.vsrc == .control &&
    !scalarHazard s.cx (Instr.vadd (.int .i32) 1 2 (.v 3) .rne no).uses.readsOnly) = true := by decide +kernel

theorem witness_rep_advance :
    (let s (i r : Nat) : State := { t0 with cx := { t0.cx with vsrc := .repetition, rep := { RepState.reset with active := true, n := 2, idx := i, remain := r } } }
    decide ((s 0 1).cx.rep.idx + 1 < (s 0 1).cx.rep.n) && decide (1 < (s 1 2).cx.rep.remain) && decide ((s 1 1).cx.rep.remain ≤ 1)) = true := by decide +kernel

/-- A context whose control stream waits for its vector stream, which waits for an element of an empty queue that only the control
stream fills. -/
def starved : State :=
  let e : VEntry := { op := .legal (.vbcast (.int .i32) 3 (.q 0) no), pc := 0x8000, caps := [], gGran := 2, vGran := 2, g2 := 0 }
  { tsmall with cx := { tsmall.cx with mode := .syncing, vq := [e] } }

theorem witness_queue_deadlock :
    ((deadlock (starved.switchTo 0 0)) == some false && okAnd (faultContext (starved.switchTo 0 0) (Trap.of Code.qmisuse) false) (fun u => u.cx.mode == .idle) &&
    (deadlock (t0.switchTo 0 0)) == none) = true := by decide +kernel

/-! ### Objects, waits and supersteps -/

/-- A record at an address of memory: its STATE, its count, of team 1, with a save area of its own. -/
def recAt (s : State) (a st count : Nat) : State :=
  poke (poke (poke (poke (poke s (a + 8) st 4) (a + 12) (8 * 2 ^ 8 + 16) 4) (a + 16) (a + 0x1000) 8) (a + 24) count 4) (a + 44) 1 4

/-- g1 names the object at 0x5000, and g2 and g3 hold two values. -/
def g123 (s : State) (x y : Word) : State := ((s.setG 1 0x5000).setG 2 x).setG 3 y

theorem witness_object_fields :
    (objReady (g123 t0 0 0) 0x5000 fun o => (g123 t0 0 0).mem.wf && o.pls.length == 64 && decide (o.pls.map (·.key)).Nodup && o.pls.all (fun pl => pl.cls == 1 && (frozenBy (g123 t0 0 0) pl.key).isNone)) = true := by decide +kernel

theorem witness_dec :
    (let s := g123 (recAt t0 0x5000 1 3) 0 3
    runs (.dec 4 1 (.reg 3) no) no s && released s && objReady s 0x5000 (fun o => o.get s 44 4 == s.cx.team.toNat &&
      o.get s 24 4 == ((BOp.reg 3).val s).toNat && o.get s 8 4 % 16 != stWaitCounter)) = true := by decide +kernel

theorem witness_dec_wakes :
    (let s := g123 (recAt t0 0x5000 stWaitCounter 3) 0 3
    runs (.dec 4 1 (.reg 3) no) no s && released s && objReady s 0x5000 (fun o => o.get s 8 4 % 16 == stWaitCounter && o.get s 24 4 == 3 &&
      optAnd s.myTeam fun t =>
        let u := objStart s o 4 3
        isOk (recsCheck u t 0x5000) &&
          okAnd (readyParked (o.put u 24 4 0) s.cx.chip s.cx.team 0x5000) (fun _ => true))) = true := by decide +kernel

theorem witness_dec_underflow :
    (let s := g123 (recAt t0 0x5000 1 3) 0 4
    runs (.dec 4 1 (.reg 3) no) no s && released s && objReady s 0x5000 (fun o => o.get s 44 4 == 1 && o.get s 24 4 == 3 &&
      isOk (postUnderflow (o.put (objStart s o 4 3) 24 4 0) o 0x5000) && o.get s 8 4 % 16 != stWaitCounter)) = true := by decide +kernel

theorem witness_inc_overflow :
    (let s := g123 (recAt t0 0x5000 1 0xFFFFFFFE) 0 2
    runs (.inc 4 1 (.reg 3) no) no s && released s && objReady s 0x5000 (fun o => o.get s 44 4 == 1 && o.get s 24 4 + 2 == 2 ^ 32 &&
      isOk (postUnderflow (o.put (objStart s o 4 0xFFFFFFFE) 24 4 (2 ^ 32 - 1)) o 0x5000))) = true := by decide +kernel

theorem witness_inc_at_the_limit :
    (let s := g123 (recAt t0 0x5000 1 0xFFFFFFFE) 0 1
    runs (.inc 4 1 (.reg 3) no) no s && released s && objReady s 0x5000 (fun o => o.get s 44 4 == 1 && decide (o.get s 24 4 + 1 < 2 ^ 32))) = true := by decide +kernel

theorem witness_arm :
    (let s := g123 (recAt t0 0x5000 stDone 5) 0 0
    runs (.arm 4 1 (.reg 3) no) no s && released s && objReady s 0x5000 (fun o => o.get s 44 4 == 1 && o.get s 8 4 % 16 != stWaitCounter) &&
    (let s := g123 (recAt t0 0x5000 stWaitCounter 5) 0 0
     runs (.arm 4 1 (.reg 3) no) no s && objReady s 0x5000 (fun o => o.get s 44 4 == 1 && o.get s 8 4 % 16 == stWaitCounter && optAnd s.myTeam fun t =>
       let u := objStart s o 4 5
       isOk (recsCheck u t 0x5000) && isOk (readyParked (o.put (o.put u 24 4 0) 28 4 0) 0 1 0x5000)))) = true := by decide +kernel

theorem witness_spawn_ready :
    (let s := g123 (recAt t0 0x5000 stDone 0) 0 0
    runs (.spawn 1 no) no s && released s && objReady s 0x5000 (fun o => optAnd s.myTeam fun t =>
      isOk (recCheck s.done o.w t 0x5000 (t.optRecs.lookup (0x5000 : Word)).isSome) && o.get s 8 4 % 16 == stDone && bits (o.get s 8 4) 6 2 == 0 &&
      isOk (spawnRec (objOn s o) o t 0x5000))) = true := by decide +kernel

theorem witness_spawn_waits :
    (let s := g123 (recAt t0 0x5000 stDone 2) 0 0
    objReady s 0x5000 (fun o => optAnd s.myTeam fun t => okAnd (spawnRec s o t 0x5000) fun u => o.get (o.put s 40 4 0) 24 4 == 2 && u.waiters.length == 1)) = true := by decide +kernel

theorem witness_suspend :
    (okAnd (suspendCx tsmall stReady 0 0) fun u => u.cx.mode == .idle) = true := by decide +kernel

theorem witness_waita :
    (let s := g123 (poke tsmall 0x5000 7 8) 7 8
    runs (.waita .eq 4 1 (.reg 2) no) no s && s.atControl && okAnd (waitWord s.done (s.g 1)) (fun r => r.2 == 7 && r.2 == s.g 2 && r.2 != s.g 3 &&
      decide ((s.g 2).toNat ≤ r.2.toNat) && !decide ((s.g 3).toNat ≤ r.2.toNat) &&
      isOk (suspendFor r.1 stWaitAddress (s.g 1) (.addr .gen 8 4 (s.g 1) none))) && runs (.waita .gen 4 1 (.reg 3) no) no s &&
    runs (.waita .ne 4 1 (.reg 2) no) no s) = true := by decide +kernel

theorem witness_yield :
    (runs (.yield no) no tsmall && tsmall.atControl && isOk (checkOwn tsmall.done) && okAnd (suspendCx tsmall.done stReady 0 (slotAfter tsmall.cx)) (fun u =>
      okAnd (makeReady u tsmall.cx.chip tsmall.cx.team tsmall.cx.recA) fun v => v.cx.mode == .idle)) = true := by decide +kernel

theorem witness_susp :
    (let s := poke tsmall (0x1000 + 24) 1 4
    runs (.susp no) no tsmall && okAnd (readRec tsmall.done (devWho tsmall.done 0 0 1) tsmall.cx.recA) (fun r => r.count == 0 &&
      isOk (putSave tsmall.done (devWho tsmall.done 0 0 1) r.save (saveList tsmall.cx))) &&
    okAnd (readRec s.done (devWho s.done 0 0 1) s.cx.recA) (fun r => r.count == 1) && isOk (suspendFor s.done stWaitCounter 0 .counter) && runs (.susp no) no s) = true := by decide +kernel

/-- A waiter of team 1. -/
def waits (s : State) (a : Word) (k : WaitKind) : State :=
  { s with waiters := s.waiters ++ [{ chip := 0, team := 1, recA := a, ep := 0, kind := k }] }

theorem witness_waita_wake :
    (t0.waiters.isEmpty && okAnd (wakeAddr t0 0 0x5000) (fun _ => true) &&
    (let s := waits (recAt (poke t0 0x7000 7 8) 0x5000 stWaitAddress 0) 0x5000 (.addr .eq 7 4 0x7000 (some 7))
     okAnd (wakeAddr s 0 0x5000) fun u => u.waiters.isEmpty)) = true := by decide +kernel

/-- A barrier at 0x5000 that expects n arrivals and has had m, in phase 5, adding payloads to 10. -/
def bar (s : State) (n m : Nat) : State :=
  poke (poke (poke (poke (poke s 0x5000 n 4) 0x5004 m 4) 0x500C 5 4) 0x5014 1 1) 0x5018 10 8

theorem witness_arrive :
    (let f (s : State) : Bool := runs (.arrive 2 1 (.reg 3) no) no s && released s && objReady s 0x5000 (fun o =>
      let r := readBar o s
      decide (r.op ≤ 8) && r.expect != 0 &&
      (if s.g 2 == 5 then r.phase == 5 && isOk (settle (objStart s o 2 6) o { r with arrc := (r.arrc + 1) % 2 ^ 32, payc := payOp r.op r.payc 32 })
       else r.phase + 1 == 6 && isOk (settle (objStart s o 2 7) o { r with arrn := (r.arrn + 1) % 2 ^ 32, payn := payOp r.op r.payn 32 })))
    let late := g123 (bar tsmall 2 1) 7 32
    runs (.arrive 2 1 (.reg 3) no) no late && released late && objReady late 0x5000 (fun o => (readBar o late).phase + 2 == 7 &&
      okAnd (suspendFor (countFarAt late.done o.pls) stWaitBarrier (0x5000 ||| 2 ||| 1) (.arrive 7 32 2 0x5000 0 0)) fun v => isOk (putBar v o (readBar o late))) &&
    f (g123 (bar t0 2 1) 5 32) && f (g123 (bar t0 2 0) 5 32) && f (g123 (bar t0 1 0) 6 32)) = true := by decide +kernel

theorem witness_await :
    (let s := g123 (bar tsmall 2 1) 4 5
    runs (.await 4 1 2 no) no s && s.atControl && okAnd (object s.done 0x5000) (fun o =>
      let r := readBar o s
      decide (r.op ≤ 8) && r.phase == 5 && (s.g 2).toNat + 1 == 5 && (s.g 3).toNat == 5 &&
      okAnd (suspendFor (countFarAt s.done o.pls) stWaitBarrier (0x5000 ||| 1) (.await 5 4 0x5000)) fun u => isOk (putBar u o r))) = true := by decide +kernel

theorem witness_drop :
    (let s := g123 (bar t0 2 1) 5 6
    runs (.drop 1 2 no) no s && released s && objReady s 0x5000 fun o =>
      let r := readBar o s
      r.op == 1 && r.expect == 2 && r.phase == 5 && isOk (settle (objOn s o) o { r with expect := r.expect - 1 }) &&
      (s.g 3).toNat == 5 + 1 && runs (.drop 1 3 no) no s && isOk (settle (objOn s o) o { r with dropn := (r.dropn + 1) % 2 ^ 32 })) = true := by decide +kernel

theorem witness_barrier_settles :
    (let b : Bar := { expect := 2, arrc := 2, arrn := 1, phase := 5, dropn := 0, op := 1, payc := 3, payn := 4, result := 0 }
    objReady t0 0x5000 fun o => (waitersAt t0 o atBarrier).isEmpty && decide (b.dropn ≤ b.expect) && decide (0 < b.expect) &&
      decide (b.expect ≤ b.arrc) && decide (b.complete.arrc < b.complete.expect) &&
      (match settleBar o 3 false t0 b, settleBar o 3 false t0 { b with arrc := 1 } with
       | .ok x, .ok y => x.2 == b.complete && y.2 == { b with arrc := 1 }
       | _, _ => false)) = true := by decide +kernel

/-- A task queue at 0x5000 with a ring of two entries at 0x6000 that holds n of them. -/
def tqAt (s : State) (n : Nat) : State :=
  poke (poke (poke (poke (poke (poke s 0x5000 0x6000 8) 0x5008 2 4) 0x500C (2 - n) 4) 0x5010 n 4) 0x5018 n 4) 0x6000 77 8

theorem witness_tqpush :
    (let s := g123 (tqAt tsmall 1) 99 0
    let z := g123 (tqAt tsmall 2) 99 0
    runs (.tqpush 1 2 no) no s && released s && s.cx.gang.isNone && objReady s 0x5000 (fun o => isOk (queueCheck s.done o 0x5000) && o.get s 12 4 == 1 &&
      (waitersAt (objOn s o) o atPop).isEmpty && isOk (ringPut (objOn s o) o 99)) &&
    (let w := waits (recAt s 0x7000 stWaitQueue 0) 0x7000 (.tqPop 4 0x5000)
     runs (.tqpush 1 2 no) no w && objReady w 0x5000 fun o => isOk (queueCheck w.done o 0x5000) && o.get w 12 4 == 1 &&
       (waitersAt (objOn w o) o atPop).any (fun x => x.kind == .tqPop 4 0x5000) &&
       okAnd (wakeWrite (objOn w o) 0 1 0x7000 4 99) fun u => okAnd (wakeRec u 0 1 0x7000) fun v => isOk (putQueueLists v o)) &&
    objReady z 0x5000 (fun o => isOk (queueCheck z.done o 0x5000) && o.get z 12 4 == 0 &&
      okAnd (suspendFor (countFarAt z.done o.pls) stWaitQueue 0x5000 (.tqPush 99 0x5000)) fun u => isOk (putQueueLists u o))) = true := by decide +kernel

theorem witness_tqpop :
    (let s := g123 (tqAt tsmall 1) 0 0
    let z := g123 (tqAt tsmall 0) 0 0
    runs (.tqpop 4 1 no) no s && objReady s 0x5000 (fun o => isOk (queueCheck s.done o 0x5000) && o.get s 16 4 == 1 &&
      okAnd (ringPlaces (objOn s o) o (o.get s 20 4)) (fun pls => leNat (pls.map (readByte (objOn s o) o.w)) == 77 &&
        (waitersAt (o.put ((objOn s o).setG 4 77) 20 4 1) o atPush).isEmpty)) &&
    (let y := waits (recAt s 0x7000 stWaitQueue 0) 0x7000 (.tqPush 99 0x5000)
     runs (.tqpop 4 1 no) no y && objReady y 0x5000 fun o => isOk (queueCheck y.done o 0x5000) && o.get y 16 4 == 1 &&
       (let u := o.put ((objOn y o).setG 4 77) 20 4 1
        (waitersAt u o atPush).any (fun x => x.kind == .tqPush 99 0x5000) &&
        okAnd (ringPut u o 99) fun v => okAnd (wakeRec v 0 1 0x7000) fun w => isOk (putQueueLists w o))) &&
    objReady z 0x5000 (fun o => isOk (queueCheck z.done o 0x5000) && o.get z 16 4 == 0 &&
      okAnd (suspendFor (countFarAt z.done o.pls) stWaitQueue 0x5000 (.tqPop 4 0x5000)) fun u => isOk (putQueueLists u o))) = true := by decide +kernel

theorem witness_fuse :
    (let s : State := { tpair with cx := tsmall.cx }
    let z := waits (recAt { tpair with cx := tsmall.cx } 0x5000 stWaitBarrier 0) 0x5000 (.fuse 1 0 0)
    let z : State := { z with waiters := z.waiters.map fun x => { x with ep := coreAt 0 false 1 0 } }
    runs (.fuse 1 no) no s && s.atControl && s.cx.gang.isNone && isCompute s.cx.ep && optAnd s.myTeam (fun t => optAnd (subgroup t s.cx.ep 1) fun es =>
      es.length == 2 && okAnd (suspendFor s.done stWaitBarrier 0 (.fuse 1 s.cx.ipc s.cx.no)) (fun u => (fuseDone u t s.cx.ep).isNone) &&
      okAnd (suspendFor z.done stWaitBarrier 0 (.fuse 1 z.cx.ipc z.cx.no)) (fun u => optAnd (fuseDone u t z.cx.ep) fun xs =>
        xs == fusing u t es && xs.length == 2 && isOk (formGang u t xs)))) = true := by decide +kernel

theorem witness_split :
    (let s := { t0 with cx := { t0.cx with gang := some 0x1000 } }
    runs (.split no) no s && s.cx.gang != none && okAnd (putStatus s.done (devWho s.done 0 0 1) s.cx.recA 6 2 0) fun u =>
      okAnd (leaveGang u 0 1 s.cx.recA) fun v => (v.team? 0 1).isSome) = true := by decide +kernel

/-- Launch queue 0 of chip 0 with two records at 0xB000, and a descriptor at 0xA000 whose TAIL and HEAD are given. -/
def lqAt (s : State) (head tail : Nat) : State :=
  (poke (poke (poke (poke s 0xA000 0xB000 8) 0xA008 2 4) 0xA010 head 4) 0xA014 tail 4).modChip 0 fun c => c.setReg 0x110 0xA000

theorem witness_tspawn :
    (let s := g123 (lqAt t0 0 1) 0 0
    let z := g123 (lqAt t0 0xFFFFFFFF 1) 0 0
    runs (.tspawn 3 1 0 no) no s && released s && ptrSpace (s.g 1) == 0 && reaches s .read .lin 1 (s.g 1) 128 (fun pls =>
      let u := s.touchedBy pls
      lqAddr u 0 0 == 0xA000 && okAnd (physRead u 0 0xA008 4) (fun x => x == 2) && okAnd (physRead u 0 0xA010 4) (fun x => x == 0) &&
      okAnd (physRead u 0 0xA014 4) (fun x => x == 1) && heldFor u 0 0 == 0) &&
    runs (.tspawn 3 1 0 no) no z && reaches z .read .lin 1 (z.g 1) 128 (fun pls => okAnd (physRead (z.touchedBy pls) 0 0xA010 4) fun x => x == 2 ^ 32 - 1)) = true := by decide +kernel

theorem witness_ssync :
    (runs (.ssync 4 1 2 true 8 no) no t0 && !isService t0 t0.cx.ep && t0.myTeam.isSome && runs (.ssnum 4 no) no t0 &&
    runs (.ssnum 4 no) no { t0 with teams := [] } && ({ t0 with teams := [] } : State).myTeam.isNone) = true := by decide +kernel

/-- A context that waits at its SSYNC with a vote. -/
def syncing : State :=
  { t0 with cx := { tsmall.cx with mode := .syncing, sync := some { d := 4, payload := 9, op := 1, vote := true, pc := 0 } } }
/-- One that has arrived. -/
def arrived : State := { syncing with cx := { syncing.cx with mode := .arrived, pc := 1 } }

theorem witness_ssync_with_a_queue :
    (let u : State := { syncing with cx := { syncing.cx with mode := .syncing } }.setQ 2 [7]
    let v := u.switchTo 0 0
    v.cx.mode == .syncing && v.cx.sync.isSome && !vecBusy v.cx && !queuesClear v.cx &&
    isOk (faultContext { v with cx := { v.cx with mode := .running, sync := none } } (Trap.of Code.qmisuse) true)) = true := by decide +kernel

theorem witness_ssync_arrival :
    (let u := syncing.switchTo 0 0
    u.cx.mode == .syncing && u.cx.sync.isSome && !vecBusy u.cx && queuesClear u.cx && openRicks (u.core u.cx.ep) == [] && drained u u.cx && u.myTeam.isSome &&
    (t0.switchTo 0 0).cx.mode != .syncing) = true := by decide +kernel

/-- A ready record wants the place of the arrived context: the other contexts of the core run. -/
def crowded : State :=
  let s := recAt arrived 0x5000 stReady 0
  let busy (i : BitVec 2) : Context := { Context.idle 0 i with mode := .running, chip := 0, team := 1, recA := 0x8000 }
  let s : State := { s with others := s.others ++ [busy 1, busy 2, busy 3] }
  s.setReadyQ (queueKey 0) ((s.readyQ (queueKey 0)).setLevel 0 [{ chip := 0, team := 1, recA := 0x5000, since := 0 }])

theorem witness_arrived_suspends :
    (let v := crowded.switchTo 0 0
    v.cx.mode == .arrived && v.cx.gang.isNone && wantsContext v v.cx.ep && isOk (suspendCx (v.switchTo v.cx.ep v.cx.no) stWaitBarrier 0 v.cx.pc) &&
    !wantsContext (arrived.switchTo 0 0) 0 && (arrived.switchTo 0 0).cx.mode == .arrived) = true := by decide +kernel

/-! ### Engines, the scheduler, launches -/

/-- Node n of core 0's task graph: TYPE, NEXT, ALT, ENGINE, COUNT, PTR. -/
def nodeAt (s : State) (n ty next alt eng cnt ptr : Nat) : State :=
  lay s 1 (Config.winHi + 64 * n) (ty + next * 2 ^ 8 + alt * 2 ^ 16 + eng * 2 ^ 24 + cnt * 2 ^ 32 + ptr * 2 ^ 64) 16

/-- The walker of core 0 runs at node 0. -/
def walking (s : State) : State :=
  s.modCore 0 fun k => { k with walker := { state := .running, node := 0, ctx := 0, recA := 0x1000, pc := 0, rank := 0, sub := 0, stuck := false, at_ := 0, g2 := none, behind := 0, forked := 0 } }

theorem witness_gwload :
    (let s := t0.setG 1 0x8000
    runs (.gwload 1 28 4 no) no s && isCompute s.cx.ep && (s.core s.cx.ep).walker.state != .running && reaches s .read .lin 1 (s.g 1) 256 (fun _ => true)) = true := by decide +kernel

theorem witness_gwrun_gwstat :
    (runs (.gwrun 31 no) no t0 && t0.atControl && isCompute t0.cx.ep && (t0.core t0.cx.ep).walker.state != .running && runs (.gwstat 4 no) no t0) = true := by decide +kernel

theorem witness_cond :
    (let s := t0.setG 1 0x8000
    let z := t0.setG 1 0x1FFF000000001000
    runs (.cond 1 (.reg 2) no) no s && released s && ptrSpace (s.g 1) == 0 && lands s .lin 8 (s.g 1) 8 (fun _ => true) &&
    ptrSpace (z.g 1) == 1 && ptrRank (z.g 1) == 0xFFF && lands z .lin 8 (z.g 1) 8 (fun _ => true)) = true := by decide +kernel

theorem witness_walker_nodes :
    (let f (ty cnt : Nat) : Bool :=
      let s := nodeAt (walking t0) 0 ty 31 2 0 cnt 0x8000
      (readNode s 0 0).ok 0 && (readNode s 0 0).type == ty && okAnd (walkerRead s 0 0x8000 8) (fun r => leNat r.2 == 0) && isOk (walkerRead s 0 0x8000 4) && forkReady s 0 0x1000 0 0 && !s.poison.contains (nodeKey 0 0 / 64)
    let e := nodeAt (walking t0) 0 1 31 2 0 1 0x1FFF000000001000
    f 2 0 && f 3 0 && f 4 0 && f 5 0 && (readNode e 0 0).ok 0 && blockOk e 0 (readNode e 0 0) && (readNode e 0 0).count == 1 && forkReady e 0 0x1000 0 0 &&
    (let z := nodeAt (walking t0) 0 1 31 2 0 1 0x1FFF000000000400
     !blockOk z 0 (readNode z 0 0)) && !forkReady t0 0 0x1000 1 0 &&
    !(readNode (nodeAt (walking t0) 0 6 0 0 0 0 0x8000) 0 0).ok 0 && !(readNode (nodeAt (walking t0) 0 5 32 0 0 0 0) 0 0).ok 0 &&
    (t0.core 0).walker.state != .running) = true := by decide +kernel

/-- g4 to g7: destination, source, length, completion word. -/
def quad (s : State) (a b c d : Word) : State := (((s.setG 4 a).setG 5 b).setG 6 c).setG 7 d

/-- An operation of core 0's engine, numbered 9, with completion word 0x9000 and value 5. -/
def opAt (s : State) (k : EngKind) : State :=
  let o : EngineOp := { id := 9, ctx := 0, recA := 0x1000, pc := 0, rank := 0, cw := 0x9000, val := 5, kind := k, stuck := false, at_ := 0, g2 := none, behind := 0, forked := 0 }
  s.modCore 0 fun c => { c with engine := [o] }

/-- What `CoreNoRick` says, of a state without cords. -/
def coreNoRick (s : State) (e : EP) (pls : List Place) : Bool := rickFor s e (pls.map (·.dest)).eraseDups == [] && s.cords.isEmpty

theorem witness_cpy :
    (let s := quad t0 0x8030 0x6001 100 0x9000
    runs (.cpy 4 (.reg 2) no) no s && s.atControl && engineRoom s s.cx.ep &&
    isOk (checkCopy s.done { engineWho s.done s.cx.ep .copy s.cx.chip s.cx.team s.cx.rank with priv := s.cx.priv } (s.g 4) (s.g (grpReg 4 1)) (s.g (grpReg 4 2)) (s.g (grpReg 4 3)))) = true := by decide +kernel

/-- The operation can copy its piece at byte k. -/
def pieceReady (k : Nat) : Bool :=
  let s := opAt t0 (.cpy 0x8030 0x6001 100 k)
  optAnd (findOp s 0 9) fun o =>
    let w := opWho s 0 o
    let len := min (100 - k) (64 - (ptrAdd 0x8030 (BitVec.ofNat 64 k)).toNat % 64)
    !o.stuck && forkReady s 0 o.recA o.behind o.forked && okAnd (places s w .read .lin 1 false (ptrAdd 0x6001 (BitVec.ofNat 64 k)) len) fun sp =>
      okAnd (places s w .write .lin 1 false (ptrAdd 0x8030 (BitVec.ofNat 64 k)) len) fun dp => coreNoRick s 0 (sp ++ dp)

theorem witness_copy_piece :
    (pieceReady 0 && pieceReady 16 && pieceReady 99 && (findOp t0 0 9).isNone) = true := by decide +kernel

theorem witness_copy_completes :
    (let s := opAt t0 (.cpy 0x8030 0x6001 100 100)
    optAnd (findOp s 0 9) fun o => !o.stuck && forkReady s 0 o.recA o.behind o.forked && isOk (places s (opWho s 0 o) .write .lin 8 false o.cw 8)) = true := by decide +kernel

/-- A page-fetch list of two entries at 0x8000: each fetches a line of zeros or of address 0x6000 into the next version of LM. -/
def listAt (s : State) : State :=
  let bs := (List.range 2).flatMap fun i => bytesOf (0x6000 + i % 2) 8 ++ bytesOf (0x1FFF000000101000 + 64 * i) 8
  { s with mem := s.mem.setBytes (physKey 0 0x8000) bs }

/-- PFL's conditions on the list at g1. -/
def pflReady (s : State) : Bool :=
  runs (.pfl 1 2 no) no s && isCompute s.cx.ep && engineRoom s s.cx.ep && reaches s .read .lin 1 (s.g 1) 32 fun pls =>
    let bs := seenBytes s pls
    let entries := (List.range 2).map fun j => (word8 bs (2 * j), word8 bs (2 * j + 1))
    let u := s.touchedBy pls
    let who := engineWho u s.cx.ep .landing s.cx.chip s.cx.team s.cx.rank
    let r : Res Unit := entries.zipIdx.forM fun q => checkEntry u who (ptrOff (s.g 1) (16 * q.2)) q.1.1 q.1.2
    isOk r

theorem witness_pfl :
    (pflReady ((listAt t0).setG 1 0x8000)) = true := by decide +kernel

theorem witness_pfl_completes :
    (let s := opAt t0 (.pfl [] 0)
    optAnd (findOp s 0 9) fun o => !o.stuck && forkReady s 0 o.recA o.behind o.forked && (listLines []).length == 0 && okAnd (landLines 0 o [] 0 [] s) (fun _ => true)) = true := by decide +kernel

/-- A ready record at the head of a level of core 0's queue, and its context idle. -/
def readyAt (s : State) (l : Nat) : State :=
  let s := recAt s 0x5000 stReady 0
  let s := s.setReadyQ (queueKey 0) ((s.readyQ (queueKey 0)).setLevel l [{ chip := 0, team := 1, recA := 0x5000, since := 0 }])
  { s with time := Config.ageLimit }

theorem witness_context_bind :
    (let s := readyAt t0 2
    seek t0 0 1 == none && (seek s 0 1).isSome && okAnd (bindNext s 0 1) (fun t => (t.ctx 0 1).mode == .running && (t.ctx 0 1).recA == 0x5000) &&
    okAnd (readRec s (devWho s 0 0 1) 0x5000) (fun r => r.ggran == 16 && isOk (bindRec s 0 1 0 1 0x5000))) = true := by decide +kernel

theorem witness_ageing :
    (agedHead t0 0 0x5000 == none && optAnd (agedHead (readyAt t0 2) 0 0x5000) (fun x => x.2.1 == 2) && isOk (ageRecord (readyAt t0 2) 0 0x5000) &&
    isOk (appendLevel t0 0 3 { chip := 0, team := 1, recA := 0x5000, since := 0 } 0)) = true := by decide +kernel

/-- A launch record at 0xB000: one core at (8, 0), team 7, its continuation records at 0x10000, served by core (9, 0). -/
def lrecAt (s : State) (w : Nat) : State :=
  let s := poke (poke s 0xB008 (w + 2 ^ 8 + 8 * 2 ^ 16) 4) 0xB00C (2 * 2 ^ 8 + 2 * 2 ^ 16) 4
  let s := poke (poke (poke s 0xB014 7 4) 0xB01C (coreAt 0 false 9 0).toNat 4) (0xB000 + 104) 0x10000 8
  let s := poke (poke s (0xB000 + 56) 0x20000 8) (0xB000 + 64) 0x1000 4
  let s := poke s 0xA00C 0xFF 4
  let s := s.modChip 0 fun c => { c.setReg 0x210 (BitVec.ofNat 64 placeRoot) with tails := [(0, 1)] }
  s.modCore (coreAt 0 false 9 0) fun k => { k with service := true }

/-- The link stream of chip 0 is insecure. -/
def cutLink (s : State) : State :=
  s.modChip 0 fun c => { c with host := { c.host with ides := [{ stream := .link, key0 := none, key1 := none, active := false, secure := false, insecure := true }] } }

theorem witness_doorbell :
    (queueOff t0 0 0 && !queueOff (lqAt t0 0 1) 0 0 && decide (((lqAt t0 0 1).chip 0).host.numVfs ≤ 0) && okAnd (readQueue (lqAt t0 0 1) 0 0) (fun x =>
      x.ok && x.head != x.tail) && okAnd (ringQueue (lqAt t0 1 1) 0 0) (fun _ => true) && decide ((t0.chip 0).host.numVfs ≤ 0) &&
    ((t0.modChip 0 fun c => { c with stopped := true }).chip 0).stopped && okAnd (hostRing t0 0 .pf 0) (fun _ => true) &&
    cutOff (cutLink t0) 0 .pf && !cutOff t0 0 .pf) = true := by decide +kernel

theorem witness_launch_starts :
    (let s := lrecAt (lqAt t0 0 1) 1
    okAnd (headTaking s 0 0) fun h => match h with
      | some (_, tail, some r, .starts p) => tail == 1 && r.id == 7 && p.x == 8 && (match startTeam s 0 0 r p false with
        | .ok (.ok u) => optAnd (u.team? 0 7) fun t => t.ssn == 1
        | _ => false)
      | _ => false) = true := by decide +kernel

theorem witness_launch_fails_or_waits :
    (okAnd (headTaking (lrecAt (lqAt t0 0 1) 0) 0 0) (fun h => match h with
      | some (_, _, some r, .fails code _ _) => code == 0xFF01 && r.w == 0
      | _ => false) &&
    (let s := (lrecAt (lqAt t0 0 1) 1).modCore (coreAt 0 false 8 0) fun k => { k with team := 3 }
     okAnd (headTaking s 0 0) (fun h => match h with
       | some (x, _, _, .passes) => x.head == 0
       | _ => false) &&
     okAnd (headTaking (s.modChip 0 fun c => { c with passed := [(0, 0)] }) 0 0) (fun h => match h with
       | some (_, _, _, .waits) => true
       | _ => false)) &&
    okAnd (headTaking t0 0 0) (fun h => h.isNone)) = true := by decide +kernel

theorem witness_held_records :
    (let s := (lqAt t0 0 1).modChip 0 fun c => { c with lheld := [(0, 1, List.replicate 128 0)] }
    heldHead t0 0 0 == none && (heldHead s 0 0).isSome && okAnd (appendHeld s 0 0) (fun u => (heldHead u 0 0).isNone)) = true := by decide +kernel

/-- A team whose only record has arrived; its arrival voted when v. -/
def closed (v : Bool) : State :=
  let s := { syncing with cx := { syncing.cx with sync := some { d := 4, payload := 9, op := 1, vote := v, pc := 0 } } }
  match countArrival (s.switchTo 0 0) with
  | .ok u => u
  | .error _ => s

/-- The same team once it has gone to CLOSING. -/
def closingTeam (v : Bool) : State := team (closed v) fun t => { t with state := .closing }

theorem witness_barrier_closes :
    (let s := closed false
    (t0.team? 0 2).isNone && optAnd (t0.team? 0 1) (fun t => okAnd (teamArrived t0 t) fun b => !b) &&
    optAnd (s.team? 0 1) (fun t => okAnd (teamArrived s t) (fun b => b) && t.state == .opened)) = true := by decide +kernel

theorem witness_barrier_waits :
    (let s := team (closingTeam false) fun t => { t with ask := some { join := true, id := 9, m := 2, recs := [] } }
    optAnd (s.team? 0 1) fun t => okAnd (teamArrived s t) (fun b => b) && t.state == .closing && (s.fedOf t).isNone && okAnd (closing s t) fun g => g.isNone) = true := by decide +kernel

theorem witness_barrier_commits :
    (let s := closingTeam false
    optAnd (s.team? 0 1) (fun t => okAnd (teamArrived s t) (fun b => b) && t.state == .closing && (s.fedOf t).isNone &&
      okAnd (closing s t) fun x => optAnd x fun xs => xs.length == 1 && xs.all (fun x => x.state == .closing) && isOk (decideGroup s t xs) &&
      okAnd (decideOn s xs) fun d => d.causes.isEmpty &&
      (let top := (xs.map fun t => t.ssn).foldl (fun a b => if a.toNat < b.toNat then b else a) 0
       okAnd (commitTeams top (nextSsn top) (xs.any fun t => t.stepMark) d.payload s xs) fun u => isOk (xs.foldlM afterCommit (xs.foldl commitAsk u))))) = true := by decide +kernel

theorem witness_barrier_aborts :
    (let s := closingTeam true
    optAnd (s.team? 0 1) fun t => okAnd (closing s t) fun x => optAnd x fun xs => xs.length == 1 && okAnd (decideOn s xs) fun d => d.causes == [11]) = true := by decide +kernel

/-- Federation 7 of these members. -/
def fedOfMembers (ms : List (ChipNo × Word32)) : Fed := { id := 7, m := ms.length, members := ms, lost := [], gone := [], rose := [], sent := [] }
/-- The team that closes belongs to the federation, and so does a team on chip 1 that has arrived. -/
def fedClosing (ms : List (ChipNo × Word32)) : State :=
  let s := team (closingTeam false) fun t => { t with fed := 7 }
  { s with feds := [fedOfMembers ms], teams := s.teams ++ [{ placeTeam (mkEp 1 false 0) with id := 5, fed := 7, recs := [], state := .closing }] }

theorem witness_barrier_of_a_federation :
    (let one := fedClosing [(0, 1)]
    let two := fedClosing [(0, 1), (1, 5)]
    optAnd (one.team? 0 1) (fun t => okAnd (teamArrived one t) (fun b => b) && one.fedOf t == some (fedOfMembers [(0, 1)]) &&
      treeParent (fedOfMembers [(0, 1)]) 0 == none && (treeChildren (fedOfMembers [(0, 1)]) 0).isEmpty &&
      okAnd (closing one t) fun g => optAnd g fun xs => xs.all (fun x => x.state == .closing) && isOk (decideAll one t xs)) &&
    optAnd (two.team? 0 1) (fun t => okAnd (teamArrived two t) (fun b => b) && two.fedOf t == some (fedOfMembers [(0, 1), (1, 5)]) &&
      isOk (closing two t) && treeChildren (fedOfMembers [(0, 1), (1, 5)]) 0 == [1]) &&
    optAnd (two.team? 1 5) (fun t => okAnd (teamArrived two t) (fun b => b) && t.state == .closing && two.fedOf t == some (fedOfMembers [(0, 1), (1, 5)]) &&
      isOk (closing two t) && treeChildren (fedOfMembers [(0, 1), (1, 5)]) 1 == [] && treeParent (fedOfMembers [(0, 1), (1, 5)]) 1 == some 0)) = true := by decide +kernel

theorem witness_barrier_after_a_loss :
    (let s := fedClosing [(0, 1), (1, 5)]
    let s : State := { s with feds := [{ fedOfMembers [(0, 1), (1, 5)] with lost := [(0, 1)], gone := [(0, 1)] }] }
    optAnd (s.team? 0 1) fun t => okAnd (teamArrived s t) (fun b => b) && optAnd (s.fedOf t) (fun f => f.lost == [(0, 1)]) &&
      okAnd (closing s t) fun g => optAnd g fun xs => xs.length == 1 && xs.all (fun x => x.state == .closing) && isOk (decideGroup s t xs)) = true := by decide +kernel

/-- Two delta bytes of team 1, and one of team 2; an undo line of team 1. -/
def changed : State :=
  { t0 with deltas := [(physKey 0 0x8000, { val := 1, tag := Tag.eng, chip := 0, team := 1, conf := false }),
                       (physKey 0 0x8001, { val := 2, tag := Tag.eng, chip := 0, team := 1, conf := false }),
                       (physKey 0 0x8000, { val := 3, tag := Tag.eng, chip := 0, team := 2, conf := false })],
            undo := [{ key := physKey 0 0x8040, chip := 0, team := 1, logger := 0, old := [1, 2, 3] }] }

theorem witness_commit_and_undo :
    (changed.mem.wf && changed.deltas.all (fun d => (frozenBy changed d.1).isNone) &&
    (List.range 3).all (fun i => (frozenBy changed (physKey 0 0x8040 + i)).isNone) && changed.deltas.all (fun d => changed.deltas.all fun e => d.1 != e.1 || d.2.chip != e.2.chip || d.2.team != e.2.team || d == e) &&
    optAnd (changed.team? 0 1) fun t => (changed.undo.filter fun u => ofTeam t u.chip u.team).length == 1) = true := by decide +kernel

theorem witness_preempt :
    (teamsIn t0 0 1 == [] && teamsIn t0 0 0 != [] && (slotsFor t0 (haltSet t0 0 0)).isSome && (t0.chip 0).shadow.isEmpty && (t0.chip 0).resq != 1 &&
    ((t0.modChip 0 fun c => { c with resq := 1 }).chip 0).resq == 1) = true := by decide +kernel

/-- Every slot of die 0 is taken. -/
def fullStore : State :=
  let im : Image := { team := placeTeam 0, buffers := [], swapping := false, size := 384 }
  t0.modChip 0 fun c => { c with shadow := (List.range 8).map fun i => (i, im) }
/-- The team of t0 saved in slot 0, its cores free. -/
def savedTeam (swapping : Bool) : State :=
  let s := saveTeam t0 (placeTeam 0) 0
  let s := s.modCore 0 fun k => { k with team := 0 }
  s.modChip 0 fun c => { c with shadow := c.shadow.map fun p => (p.1, { p.2 with swapping := swapping }) }

theorem witness_preempt_no_room :
    (teamsIn fullStore 0 0 != [] && (slotsFor fullStore (haltSet fullStore 0 0)).isNone) = true := by decide +kernel

theorem witness_saved_team :
    (let s := savedTeam false
    optAnd ((s.chip 0).shadow.lookup 0) (fun im => !im.swapping && optAnd (s.team? 0 im.team.id) (fun t => isOk (queueMask s 0 t.queue))) &&
    optAnd (((savedTeam true).chip 0).shadow.lookup 0) (fun im => im.swapping && optAnd ((savedTeam true).team? 0 im.team.id) fun t => t.state == .halting) &&
    (s.chip 0).resq != 1) = true := by decide +kernel

/-! ### Peers, collectives, federations, gradient queues -/

/-- The team has one peer: chip 1, which a port that is up reaches and which maps the same page. -/
def peered : State :=
  let mem := (placeCells false 0).foldl (fun m c => m.setBytes (physKey 1 c.1) c.2) t0.mem
  let s : State := { t0 with mem := mem }
  let s := (s.modChip 1 fun c => c.setReg 0x210 (BitVec.ofNat 64 placeRoot)).modChip 0 fun c =>
    { c.setReg 0x620 0xE000 with ports := c.ports.setIfInBounds 0 { (c.ports.toList[0]?).getD Port.reset with state := 2 } }
  poke (poke (team s fun t => { t with npeer := 1, peert := 0xC000 }) 0xC000 1 8) 0xE002 1 2

theorem witness_kput :
    (let s := quad peered 0x6000000000008000 0x8000 0xFFFFFFFF 0x9000
    let s := s.setG 6 600
    runs (.kput 4 (.reg 3) no) no s && s.atControl && engineRoom s s.cx.ep && optAnd s.myTeam (fun t => decide (ptrRank (s.g 4) < t.npeer)) &&
    ptrSpace (s.g 4) == 6 && ptrSpace (s.g (grpReg 4 1)) == 0 && decide ((s.g (grpReg 4 2)).toNat < 2 ^ 32) &&
    isOk (localEnds s.done (issueWho s.done) .read (s.g (grpReg 4 1)) 600) && isOk (cwCheck s.done (issueWho s.done) (s.g (grpReg 4 3))) &&
    okAnd (peerEntry s.done (issueWho s.done) (s.g 4)) (fun e => e.1 == 1)) = true := by decide +kernel

theorem witness_kget :
    (let s := quad peered 0x8000 0x6000000000008000 0xFFFF 0x9000
    runs (.kget 4 (.reg 3) no) no s && engineRoom s s.cx.ep && optAnd s.myTeam (fun t => decide (ptrRank (s.g (grpReg 4 1)) < t.npeer)) &&
    ptrSpace (s.g 4) == 0 && ptrSpace (s.g (grpReg 4 1)) == 6 && isOk (localEnds s.done (issueWho s.done) .write (s.g 4) 0xFFFF) &&
    isOk (cwCheck s.done (issueWho s.done) (s.g (grpReg 4 3))) && isOk (peerEntry s.done (issueWho s.done) (s.g (grpReg 4 1)))) = true := by decide +kernel

/-- A peer copy of 600 bytes that has come to byte k, at a leg of its packet. -/
def copyOf (put : Bool) (dst src : Word) (k leg : Nat) : PeerOp :=
  { put := put, dst := dst, src := src, n := 600, done := k, entry := 1, port := some (1, 0), back := some (0, 0), leg := leg, data := [] }
/-- The same with a route back. -/
def answered : State :=
  (poke peered 0 0 0).modChip 1 fun c => { c.setReg 0x620 0xE000 with ports := c.ports.setIfInBounds 0 { (c.ports.toList[0]?).getD Port.reset with state := 2 } }
/-- A packet of a peer copy can take its leg. -/
def packetReady (put : Bool) (dst src : Word) (k leg : Nat) : Bool :=
  let x := copyOf put dst src k leg
  let s := opAt answered (.peer x)
  optAnd (findOp s 0 9) fun o =>
    let w := opWho s 0 o
    let far := { w with writeTag := Tag.eng }
    let len := min (600 - k) (512 - (ptrOff dst k).toNat % 512)
    peerServer s 0 1 x == some 1 && x.from 1 == x && !moving s 9 && !o.stuck &&
      (match put, leg with
       | true, 0 => okAnd (places s w .read .lin 1 false (ptrOff src k) len) fun _ => (peerSend s 0 o x 0 1 0 []).isSome
       | true, 1 => okAnd (packetFar s far x 1 (ptrOff dst k) len) fun _ => (portUp s 1 0)
       | false, 0 => (peerSend s 0 o x 0 1 0 []).isSome
       | false, 1 => isOk (packetFar s w x 1 (ptrOff src k) len)
       | false, 2 => isOk (places s w .write .lin 1 false (ptrOff dst k) len)
       | _, _ => true)

theorem witness_peer_packets :
    (packetReady true 0x60000000000081F8 0x4000 0 0 && packetReady true 0x60000000000081F8 0x4000 599 1 && packetReady true 0x60000000000081F8 0x4000 8 2 &&
    packetReady false 0x81F8 0x6000000000004000 8 0 && packetReady false 0x81F8 0x6000000000004000 8 1 && packetReady false 0x81F8 0x6000000000004000 599 2 &&
    (let s := opAt answered (.peer (copyOf true 0x6000000000008000 0x4000 0 1))
     moving { s with transit := [(9, 0)] } 9)) = true := by decide +kernel

theorem witness_peer_packet_without_a_route_back :
    (let x := copyOf true 0x6000000000008000 0x4000 0 1
    let s := opAt peered (.peer { x with back := none })
    optAnd (findOp s 0 9) fun o => peerServer s 0 1 x == some 1 && okAnd (packetFar s { opWho s 0 o with writeTag := Tag.eng } x 1 0x6000000000008000 512) fun dp =>
      (peerSend (writePlaces s { opWho s 0 o with writeTag := Tag.eng } o.ctx o.pc dp x.data) 0 o { x with back := none, leg := 2 } 1 0 1 []).isNone &&
      isOk (peerAbsent s 0 o { x with back := none }) && ({ x with port := some (2, 0) } : PeerOp).from 1 == { x with port := some (2, 0), leg := 0 }) = true := by decide +kernel

theorem witness_peer_completes :
    (let s := opAt peered (.peer (copyOf true 0x6000000000008000 0x4000 600 0))
    optAnd (findOp s 0 9) fun o => !o.stuck && isOk (places s (opWho s 0 o) .write .lin 8 false o.cw 8)) = true := by decide +kernel

theorem witness_peer_absent :
    (let x := copyOf true 0x6000000000008000 0x4000 0 0
    let s := opAt (peered.modChip 0 fun c => { c with ports := Vector.replicate 12 Port.reset }) (.peer x)
    optAnd (findOp s 0 9) fun o => (peerServer s 0 1 x).isNone &&
      (let o' : EngineOp := { o with val := failWord 0x61, kind := .peer { x with done := x.n, leg := 0 } }
       isOk (completeOp (voteLink (setOp s 0 o') (s.core 0).chip (s.core 0).team) 0 o'))) = true := by decide +kernel

/-- A header of one CONTRIB for stack adder 0 of chip 0, at 0x8000. -/
def headerAt (s : State) : State := poke s 0x8000 (1 + (mkEp 0 false 1048).toNat * 2 ^ 32) 9
/-- A packet numbered 4 with the given entries and its pairs. -/
def packetOf (es : List (EP × Nat × Nat)) : CollPacket :=
  { id := 4, src := 0, opId := 9, chip := 0, team := 1, fed := 0, node := 0, inBf16 := false, outBf16 := false, tag := 5, entries := es,
    pairs := [(0x3F800000, 0)], dst := 0x8000, cw := 0x9000, val := 5, waiting := false }
def adder0 : EP := mkEp 0 false 1048
def withPacket (es : List (EP × Nat × Nat)) : State := { opAt t0 (.coll 1) with packets := [packetOf es] }
/-- The adder holds a CONTRIB of the packet's key. -/
def withHeld (es : List (EP × Nat × Nat)) : State :=
  modAdder (withPacket es) adder0 fun a => { a with held := [{ key := collKey (packetOf es), pairs := [(0x40000000, 0)], src := 0, opId := 9 }] }

theorem witness_kcoll :
    (let s := quad (headerAt t0) 0x8000 0x4000 0x6000 0x9000
    runs (.kcoll 4 (.reg 3) 64 no) no s && s.atControl && engineRoom s s.cx.ep && okAnd (places s.done (issueWho s.done) .read .lin 64 false 0x8000 64) fun hpl =>
      let hb := readPlaces s.done (issueWho s.done) hpl
      okAnd (headerCheck 0x8000 hb) (fun _ => (headerEntries hb).head? == some (adder0, 0, 0)) && nodeReaches s (packetOf []) 0 (epChip adder0) &&
      okAnd (places s.done (issueWho s.done) .read .lin 1 false 0x4000 (4 * 64)) fun _ => forkReady s s.cx.ep s.cx.recA 0 (s.time + 1)) = true := by decide +kernel

theorem witness_contrib :
    (let s := withPacket [(adder0, 0, 0)]
    (packetAt s 4 0).isSome && !lossPending s (packetOf [(adder0, 0, 0)]) (epChip adder0) && (adderOf s adder0).held.isEmpty && !waitsBehind s (packetOf [(adder0, 0, 0)]) adder0 0 &&
    (adderOf (withHeld [(adder0, 0, 0)]) adder0).held.any (fun h => h.key == collKey (packetOf [])) && (packetAt t0 4 0).isNone) = true := by decide +kernel

theorem witness_chain :
    (let s := withHeld [(adder0, 0, 1), (adder0, 2, 0)]
    optAnd (packetAt s 4 0) (fun x => x.2.2.1 == 1) && ((adderOf s adder0).held.find? fun h => h.key == collKey (packetOf [])).isSome &&
    !waitsBehind s (packetOf [(adder0, 0, 1), (adder0, 2, 0)]) adder0 1 && (adderOf (withPacket [(adder0, 0, 1), (adder0, 2, 0)]) adder0).held.isEmpty) = true := by decide +kernel

theorem witness_forward_multicast_deliver :
    (let es := [(mkEp 0 false 1040, 2, 0)]
    (packetAt (withPacket [(mkEp 0 false 1056, 1, 0), (adder0, 2, 0)]) 4 1).isSome && optAnd (packetAt (withPacket ((adder0, 3, 1) :: es)) 4 3) (fun x =>
      x.2.2.2.all fun y => nodeReaches t0 (packetOf es) 0 (epChip y.1)) &&
    optAnd (packetAt (withPacket es) 4 2) (fun x => (collWrite (withPacket es) x.1 (epChip x.2.1) x.1.dst (deliverBytes false x.1.pairs) true).isSome) &&
    (collWrite (withPacket es) { packetOf es with dst := 0x400000 } 0 0x400000 (deliverBytes false [(0, 0)]) true).isNone) = true := by decide +kernel

theorem witness_fedj_fedl :
    (let s := (t0.modChip 0 fun c => { c with host := { c.host with featacc := 0xFFFF } }).setG 4 7
    let s := s.setG 5 262144
    runs (.fedj 4 (.reg 5) no) no s && s.cx.gang.isNone && !isService s s.cx.ep && feature s (epChip s.cx.ep) 3 && optAnd s.myTeam (fun t => t.fed == 0 &&
      t.ask.isNone) && s.g 4 == 7 && s.g 5 == 262144 && runs (.fedl no) no s && optAnd (team s fun t => { t with fed := 7 }).myTeam (fun t => t.fed != 0 && t.ask.isNone)) = true := by decide +kernel

theorem witness_fedj_fedl_asked :
    (let s := (t0.modChip 0 fun c => { c with host := { c.host with featacc := 0xFFFF } }).setG 4 7
    let s := s.setG 5 2
    let asked (q : FedAsk) (fed : Word32) : State := team s fun t => { t with fed := fed, ask := some q }
    let q : FedAsk := { join := true, id := 7, m := 2, recs := [0x5000] }
    runs (.fedj 4 (.reg 5) no) no (asked q 0) && runs (.fedl no) no (asked { q with join := false, m := 0 } 7) && !q.recs.contains s.cx.recA &&
    optAnd (asked q 0).myTeam (fun t => t.ask == some q && t.fed == 0) && optAnd (asked { q with id := 8 } 0).myTeam (fun t => t.fed == 0) &&
    optAnd (asked { q with join := false, m := 0 } 7).myTeam (fun t => t.fed == 7 && t.ask == some { q with join := false, m := 0 })) = true := by decide +kernel

def opt0 : EP := mkEp 0 false 1024
/-- Optimiser core 0 of die 0 is bound to team 1; a gradient queue at 0x5000 has a ring of two slots there. -/
def gq (s : State) (filled : Nat) : State :=
  let s := s.modChip 0 fun c => c.setReg 0x730 (2 ^ 32)
  poke (poke (poke (poke s 0x5000 opt0.toNat 4) 0x5004 (3 + 1 * 2 ^ 16 + 2 * 2 ^ 24) 4) 0x500C 2 2) 0x5014 filled 4
/-- A context of optimiser core 0 runs with all privilege. -/
def topt (s : State) : State :=
  let s := (s.switchTo opt0 0).modCore opt0 fun k => { k with chip := 0, team := 1 }
  { s with cx := { s.cx with mode := .running, chip := 0, team := 1, rank := 0xFFF, recA := 0x6000, gGran := 16, vGran := 8 } }
/-- A slot of the queue, popped or not. -/
def slotAt (s : State) (popped : Bool) : State :=
  s.modCore opt0 fun k => { k with gqSlots := [{ desc := 0x5000, chip := 0, slot := 1, src := 0, len := 4, popped := popped }] }

theorem witness_gqpush :
    (let s := quad (gq t0 0) 0x5000 0x1FFF000000001000 512 0
    runs (.gqpush 4 no) no s && s.atControl && okAnd (gqueue s.done (s.g 4)) (fun x => x.2.cons == opt0 && x.2.win == 2 && 512 % (fmtBits x.2.fmt / 8) == 0 &&
      okAnd (places s.done (issueWho s.done) .read .lin 1 false (s.g (grpReg 4 1)) 512) fun pls =>
        pls.all (gqFmtOk s x.2.fmt) && forkReady s s.cx.ep s.cx.recA 0 (s.time + 1)) &&
    (optCores s s.cx.chip s.cx.team).contains opt0 && engineRoom s s.cx.ep && decide ((s.core s.cx.ep).egress.length < 32) && inflightOf s (s.core s.cx.ep) 0x5000 == 0) = true := by decide +kernel

def frag0 : Fragment := { id := 3, src := 0, opId := 9, chip := 0, team := 1, desc := 0x5000, bucket := 3, bytes := [1, 2, 3, 4], started := true }

theorem witness_gq_egress :
    (let s := t0.modCore 0 fun k => { k with egress := [frag0, { frag0 with id := 4 }] }
    optAnd (nextFragment (s.core 0)) (fun f => f.id == 3) && (nextFragment (t0.core 0)).isNone) = true := by decide +kernel

theorem witness_gq_deliver :
    (let s : State := { gq t0 0 with frags := [frag0] }
    okAnd (devRead s (engineWho s 0 .copy 0 1 0) 0x5000 64) fun bs => fragFirst s frag0 && (gqOf bs).ok && (s.core (gqOf bs).cons).gqSlots.isEmpty &&
      (gqWaiter s 0 1 0x5000).isNone && !(gqOf (List.replicate 64 0)).ok) = true := by decide +kernel

theorem witness_gqpop :
    (let s := (slotAt (topt (gq t0 1)) false).setG 4 0x5000
    let z := (topt (gq t0 0)).setG 4 0x5000
    runs (.gqpop 6 4 no) no s && s.atControl && s.cx.gang.isNone && okAnd (gqueue s.done 0x5000) (fun x => x.2.cons == s.cx.ep && x.2.filled == 1 &&
      clampRoom (countFarAt s.done x.1.pls) x.1.w x.1.pls) &&
    optAnd ((s.core s.cx.ep).gqSlots.find? fun g => g.chip == s.cx.chip && !g.popped && sameQueue s s.cx.chip s.cx.team g.desc 0x5000) (fun g => g.slot == 1) &&
    okAnd (gqueue z.done 0x5000) (fun x => x.2.filled == 0)) = true := by decide +kernel

theorem witness_gqwin :
    (let s := (slotAt (topt (gq t0 0)) true).setG 4 0x5000
    let z := (gq t0 0).setG 4 0x5000
    runs (.gqwin true 6 4 (.cw 1) no) no s && okAnd (gqueue s.done 0x5000) (fun _ => true) &&
    optAnd ((s.core s.cx.ep).gqSlots.find? fun g => g.chip == s.cx.chip && g.popped && g.slot == 1 && sameQueue s s.cx.chip s.cx.team g.desc 0x5000) (fun g => g.src == 0) &&
    runs (.gqwin false 6 4 (.reg 7) no) no z && isOk (gqueue z.done 0x5000) && inflightOf z (z.core 0) 0x5000 == 0) = true := by decide +kernel

theorem witness_gprio_ostep :
    (runs (.gprio 4 15 no) no (t0.setG 4 63) && ((t0.setG 4 63).g 4).extractLsb' 16 48 == 0 && runs (.ostep 4 (.reg 5) no) no t0) = true := by decide +kernel

/-! ### Statistics, quantising, the matrix unit -/

/-- A table of two records at 0xF000. -/
def stats (s : State) : State := team s fun t => { t with nrec := 2, rectab := 0xF000, recPages := [physKey 0 0xF000] }

theorem witness_statistics :
    (let s := stats t0
    optAnd s.myTeam (fun t => decide (1 < t.nrec)) && runs (.tsrd false 4 (.reg 5) 0x27 no) no s && runs (.tsrd true 4 (.reg 5) 0x1F no) no s &&
    !vecBusy s.cx && !statsInFlight s s.cx.ep && runs (.tsclr 6 (.reg 5) no) no (s.setG 6 0x1FFFFF) && ((0x1FFFFF : Word)).extractLsb' 21 43 == 0 &&
    runs (.tsscale 4 (.reg 5) 0x17 no) no s && optAnd s.myTeam fun t => frozenIn s (t.recordKey 0 85) 1 == [] && (ownMirrors s t (t.rectab.toNat + 85) 1).all (·.isNone)) = true := by decide +kernel

theorem witness_statistics_update :
    (let s : State := { stats t0 with updates := [{ id := 3, chip := 0, team := 1, idx := 1, src := 0, pc := 0, half := halfEmpty }] }
    (s.updates.find? fun u => u.id == 3).isSome && optAnd (s.team? 0 1) (fun t => halfRoom s t 1 && (let full : State := { s with reds := [{ key := t.recordKey 1 0, bytes := 0x4000000, op := .add, opnd := 0, rank := 0, seq := 0, chip := 0, team := 1, mirror := none }] }
      !halfRoom full t 1 && (full.team? 0 1).isSome)) && (t0.updates.find? fun u => u.id == 3).isNone) = true := by decide +kernel

theorem witness_scale_rule :
    (ratioLog2 1 0 1 0 == 0 && decide (0 < (2 : Nat) ^ 2047)) = true := by decide +kernel

/-- n elements of LM from 0x2000 to 0x1000, the code array at 0x3000; the first is infinite when v. -/
def quant (n : Nat) (v : Bool) : State :=
  let s := quad (stats t0) 0x1FFF000000001000 0x1FFF000000002000 (BitVec.ofNat 64 n) 0x1FFF000000003000
  lay (poke s 0xF040 (0x3F800000 + 2 ^ 32) 8) 1 0x2000 (if v then 0x7F800000 else 0x3F800000) 4

theorem witness_qnt :
    (let s := quant 3 true
    runs (.qnt .f32 8 4 (.reg 9) .rne 5 true 0 no) no s && !vecBusy s.cx && okAnd (quantCheck s.done 4 (QTy.fmt .f32) 5 0 0 none none) (fun x =>
      let out := (readElems s.done x.src).map fun q => quantElem 5 .rne (127 - (scaleCode 5 (fp32.decode 0x3F800000) : Int)) false (fmtVal (QTy.fmt .f32) false q)
      let u := (quantised (x.seen s.done false) x.dst out).setG 8 0
      (out.filter fun e => e.s).length == 1 && optAnd s.myTeam (fun t => statField u t 0 halfEmpty 0x26 == 0) &&
      isOk (takeFault u { Trap.of Code.rescale with cause := some 6, extra0 := 1 })) &&
    isOk (quantCheck (quant 0 false).done 4 (QTy.fmt .f32) 5 0 0 none none)) = true := by decide +kernel

theorem witness_qntl_dqnt :
    (let s := quant 3 false
    runs (.qntl .f32 8 4 .rne 5 0 0 no) no s && isOk (quantCheck s.done 4 (QTy.fmt .f32) 5 0 0 none (some true)) &&
    runs (.dqnt .f32 true 4 (.reg 9) .rne 5 0 0 false no) no s && okAnd (quantCheck s.done 4 5 (QTy.fmt .f32) 0 0 (some false) (some false)) (fun x =>
      (readPlaces s.done (ctxWho s.done true) x.codes).all fun c => c != 255) &&
    runs (.dqnt .f32 false 4 (.cw 127) .rne 5 0 0 false no) no s && isOk (quantCheck s.done 4 5 (QTy.fmt .f32) 0 0 (some false) none)) = true := by decide +kernel

/-- A matrix command of a code with its lower fields and a sum of others. -/
def cmdOf (code rest : Nat) : Line := BitVec.ofNat 512 (code + rest)
/-- The command at the head of core 0's queue. -/
def headed (s : State) (l : Line) : State :=
  modMx s 0 fun m => { m with queue := [{ cmd := l, ctx := 0, recA := 0x1000, pc := 0, rank := 0, stuck := false, cwOnly := false, at_ := 0, g2 := none, behind := 0, forked := 0 }] }
def headE (l : Line) : MxEntry := { cmd := l, ctx := 0, recA := 0x1000, pc := 0, rank := 0, stuck := false, cwOnly := false, at_ := 0, g2 := none, behind := 0, forked := 0 }
/-- A multiplication of 1 by 2 by 1 elements of FP32 from WB and AB, with a completion word. -/
def mmaCmd : Line :=
  cmdOf 1 (2 ^ 8 + 2 ^ 16 + 2 ^ 25 + 2 ^ 32 + 2 * 2 ^ 38 + 2 ^ 44 + 0x2FFF000000000000 * 2 ^ 64 + 0x3FFF000000000000 * 2 ^ 128 + 0x9000 * 2 ^ 320)

theorem witness_matrix_admission :
    (let wait (c : BitVec 2) (walker granted : Bool) : MxWait := { ctx := c, since := 0, walker := walker, granted := granted }
    let s := modMx t0 0 fun m => { m with waiting := [wait 2 false false, wait 3 false false] }
    let full := modMx t0 0 fun m => { m with queue := List.replicate 16 (headE mmaCmd) }
    mxTaken (s.core 0).mx == 0 && slotFree s 0 && !slotFree (slotTaken s 0) 0 && admits (slotTaken s 0) 0 == none && admits s 0 != none && admits t0 0 == none && mxTaken (full.core 0).mx == 16 && !claimDue s 0 2 &&
    claimDue { s with time := 128 } 0 2 && optAnd (admits s 0) (fun c => (s.core 0).mx.waiting.any (fun w => w.ctx == c && !w.walker && !w.granted)) &&
    (let g := modMx t0 0 fun m => { m with waiting := [wait 0 false false] }
     admits g 0 == some 0 && (g.ctx 0 0).mode == .running && (g.ctx 0 0).gang.isNone) &&
    (let z := modMx s 0 fun m => { m with claims := [3] }
     (slotOwner z 0 == 4 || slotOwner z 0 == 3 || slotOwner z 0 == 0) && decide (slotOwner s 0 ≤ 4) && okAnd (writeReg s 0 0x300 0x3210) (fun u => slotTable u 0 == 0x4444444444444444 &&
       decide (roundTime s 0 / 128 < roundTime { u with time := 1280 } 0 / 128) && slotTable { u with time := 1280 } 0 == 0x3210))) = true := by decide +kernel

theorem witness_matrix_walker_admission :
    (let s := nodeAt (walking t0) 0 1 31 2 0 2 0x1FFF000000001000
    let s := lay (modMx s 0 fun m => { m with waiting := [{ ctx := 0, since := 0, walker := true, granted := false }] }) 1 0x1000 3 64
    admits s 0 == some 0 && !((s.core 0).mx.waiting.any fun w => w.ctx == 0 && !w.walker && !w.granted) && (readNode s 0 0).engine == 0 &&
    (readNode s 0 0).type == 1 && (s.core 0).walker.state == .running &&
    (let u := modMx (slotTaken s 0) 0 fun m => { m with waiting := m.waiting.filter fun x => !x.walker, claims := m.claims.filter fun c => c != (s.core 0).walker.ctx }
     okAnd (walkerRead u 0 (ptrOff (readNode s 0 0).ptr 0) 64) fun r => isOk (checkCmd r.1 0 0 (BitVec.ofNat 512 (leNat r.2))))) = true := by decide +kernel

theorem witness_matrix_multiply :
    (let s := headed t0 mmaCmd
    optAnd (headCmd s 0 1) (fun x => !cmdShare x.cmd && !x.cwOnly && okAnd (mmaEffect s 0 x) fun u => okAnd (places u ((engineWho u 0 .copy 0 1 0).onStack u x.recA x.g2) .write .lin 8 false
      (cmdCwptr x.cmd) 8) fun _ => true) &&
    (let oa := operandA s 0 0 mmaCmd
     let ob := operandB s 0 0 mmaCmd 0
     mxClass oa.fmt == 101 && mxClass ob.fmt == 101 && isOk (readMatrix s 0 0 oa) && isOk (readMatrix s 0 0 ob)) && (headCmd t0 0 1).isNone) = true := by decide +kernel

theorem witness_matrix_commands :
    (let f (code rest : Nat) : Bool := optAnd (headCmd (headed t0 (cmdOf code rest)) 0 code) fun x => !x.cwOnly && cmdCwptr x.cmd == 0
    f 2 0 && f 3 (2 ^ 29) && f 6 (2 ^ 44) && f 7 0 &&
    optAnd (headCmd (headed t0 (cmdOf 4 (2 ^ 8 + 2 ^ 32 + 2 ^ 38 + 4 * 2 ^ 316))) 0 4) (fun x =>
      isOk (drainEffect (headed t0 x.cmd) 0 x) && !cmdCksum x.cmd)) = true := by decide +kernel

theorem witness_matrix_unit_hurt :
    (let s := modMx (headed t0 (cmdOf 7 0)) 0 fun u => { u with hurt := true }
    (s.core 0).mx.hurt && optAnd (headCmd s 0 7) fun x => !x.cwOnly && isOk (headFault (modMx s 0 fun u => { u with hurt := false }) 0 x hurtTrap)) = true := by decide +kernel

theorem witness_matrix_command_faults :
    (let l := cmdOf 4 (2 ^ 8 + 2 ^ 32 + 2 ^ 38 + 5 * 2 ^ 316)
    let s := headed t0 l
    trapAnd ((drainEffect s 0 (headE l)).map fun _ => ()) (fun c => isOk (headFault s 0 (headE l) c))) = true := by decide +kernel

/-- Sixteen units of a cluster of one team of 4 by 4 cores. -/
def cluster (l : Line) : State :=
  (shareUnits 0 0xFFFF).foldl (fun (s : State) u => s.modCore u fun k => { k with chip := 0, team := 1, rank := coreX u + 4 * coreY u, mx := { k.mx with
    queue := [{ headE l with rank := coreX u + 4 * coreY u }] } }) (team t0 fun t => { t with w := 4, h := 4 })

theorem witness_matrix_shared :
    (let l := BitVec.ofNat 512 (mmaCmd.toNat % 2 ^ 320 + 2 ^ 26 + 3 * 2 ^ 256)
    let s := cluster l
    let us := shareUnits 0 (cmdGmask l)
    let heads := us.filterMap fun u => (sharedHead s u).map fun h => (u, h)
    us.length == 2 && heads.length == 2 && shareAgree s heads && cmdShare l &&
    isOk (heads.foldlM (fun (s : State) q => runHead s q.1 q.2 fun s => mmaEffect s q.1 q.2) s) &&
    ((shareUnits 0 (cmdGmask l)).filterMap fun u => sharedHead (headed t0 l) u).length == 1) = true := by decide +kernel

theorem witness_matrix_exchange :
    (let l := cmdOf 5 (2 ^ 48 + 0x2FFF000000000000 * 2 ^ 64 + 0x3FFF000000000000 * 2 ^ 128)
    let s := cluster l
    let es := shareUnits 0 0xFFFF
    let heads := (es.filterMap fun u => (headCmd s u 5).map fun h => (u, h)).filter fun q => !q.2.cwOnly
    heads.length == 16 && es.all (fun u => (s.core u).team == 1 && (s.core u).chip == 0) &&
    heads.all (fun q => cmdStep q.2.cmd == cmdStep l && cmdLines q.2.cmd == cmdLines l) &&
    (List.range 16).all (fun i => (heads.zipIdx.map fun q => schedDest (s.core q.1.1) (cmdStep l) q.2).contains i) &&
    isOk (exchangeStep s heads (cmdStep l) (cmdLines l))) = true := by decide +kernel

theorem witness_matrix_cells :
    (decide ((1 : Nat) < 2) && decide ((1023 : Nat) < 1024) && !cmdCksum mmaCmd) = true := by decide +kernel

/-! ### Ricks, migration, exceptions, messages, system registers -/

/-- A cord from core 0 to core 1 with one element. -/
def withCord : State :=
  { tpair with cords := [{ id := 3, src := 0, chip := 0, team := 1, rank := 0, dest := 1,
                           elems := [storeElem tpair 0x1001000000001000 1 0x1000 (bytesOf 7 8)], done := 0, failed := [], came := false, seq := 0 }] }

theorem witness_rick_leaves :
    (let s := withRick tpair 2
    optAnd ((s.core 0).ricks.toList[3]?) (fun r => optAnd r.elems.head? fun x => decide (s.time ≤ x.time + rickAge (s.core 0)) &&
      decide (x.time + rickAge (s.core 0) < 1000) && r.dest == some 1 && !r.elems.isEmpty)) = true := by decide +kernel

theorem witness_cord_applies :
    (optAnd (withCord.cords.find? fun c => c.id == 3) (fun c => cordFirst withCord c && !moving withCord 3 && !isFarAgent c.dest && isCompute c.dest &&
      optAnd c.elems[c.done]? (fun x => okAnd (applyElem withCord (cordWho withCord c.src c.chip x.team x.rank) x) (fun _ => true) &&
        !isOk (applyElem withCord (cordWho withCord c.src c.chip x.team x.rank) { x with dst := 0x4000000, addr := 0x4000000, global := true }))) &&
    isFarAgent (farAgentOf (physKey 0 0x3000)) && (let z : State := { withCord with cords := withCord.cords.map fun c => { c with dest := farAgentOf (physKey 0 0x3000) } }
      z.cords.all fun c => cordFirst z c && !c.came && !moving z c.id) &&
    (let z : State := { withCord with cords := withCord.cords ++ withCord.cords.map fun c => { c with id := 4 } }
     z.cords.any fun c => c.id == 4 && !cordFirst z c)) = true := by decide +kernel

def failed1 : Nat × BitVec 16 × RickElem := (0, Code.cls, storeElem tpair 0x1001000000001000 1 0x1000 (bytesOf 7 8))
def withStatus : State :=
  { tpair with statuses := [{ id := 3, src := 0, chip := 0, team := 1, rank := 0, ctxs := [0], failed := [failed1] }] }

theorem witness_cord_status :
    (let s := withStatus
    optAnd (s.statuses.find? fun c => c.id == 3) (fun c => isOk (c.failed.foldlM (fun (s : State) f => failElem s c.src c.chip f.2.2.team f.2.2.rank f.1 f.2.1 f.2.2)
      { s with statuses := s.statuses.filter fun x => x.id != 3 })) && !moving s 3 && decide ((tpair.core 0).rickLog.length < 8) && tpair.statuses.isEmpty) = true := by decide +kernel

/-- Migration is on, with a frame for the unit's next page. -/
def migratable (dst : Word) : State :=
  t0.modChip 0 fun c => { c with host := { c.host with featacc := 0xFFFF }, mig := { c.mig with dst := dst } }

theorem witness_migration_request :
    (let s := migratable 0x600000
    feature s 0 2 && (s.chip 0).mig.state == 0 && okAnd (walk s 0 0 0x8000) (fun l => l.ps == 2 && !cwOwner l.cw && 0x600000 % 2 ^ pageShift l.ps == 0 &&
      frameBacked (s.chip 0) 0x600000 (2 ^ pageShift l.ps) && bits (s.chip 0).mig.dst.toNat 12 40 * 4096 == 0x600000) &&
    !isOk (walk s 0 0 0x4000000) && !feature t0 0 2 && bits (0x601000 : Nat) 12 40 * 4096 % 2 ^ 21 != 0) = true := by decide +kernel

theorem witness_migration_copies :
    (let f (st line : Nat) (sh : Option Nat) : State := t0.modChip 0 fun c =>
      { c with mig := { c.mig with state := st, line := line, lines := 4, oldPa := 0x10000, shoot := sh },
               shoots := [{ id := 7, ep := 0, ctx := 0, part := 0, lo := 0, hi := 64, nodes := [3] }] }
    ((f 2 2 none).chip 0).mig.state == 2 && decide (((f 2 2 none).chip 0).mig.line < ((f 2 2 none).chip 0).mig.lines) &&
    ((f 1 0 none).chip 0).mig.state == 1 && !pageHeld (f 1 0 none) 0 ((f 1 0 none).chip 0).mig &&
    (let z : State := { f 1 0 none with deltas := [(physKey 0 0x10008, { val := 5, tag := Tag.eng, chip := 0, team := 1, conf := false })] }
     pageHeld z 0 (z.chip 0).mig) && !channelHeld (f 2 2 none) (physKey 0 0x10080) && !channelHeld (f 2 2 none) (physKey 0 0x80) &&
    decide (((f 2 4 none).chip 0).mig.lines ≤ ((f 2 4 none).chip 0).mig.line) && !shootDone ((f 2 4 (some 7)).chip 0) 7 && t0.mem.wf) = true := by decide +kernel

/-- A repair holds a channel of each of a migrating line's two places, or of neither. -/
theorem witness_migration_waits :
    let s := (migratable 0x600000).modChip 0 fun c => { c with mig := { c.mig with state := 2, line := 0, lines := 4, oldPa := 0x10000, shoot := none } }
    channelHeld (heldAll s) (physKey 0 0x10000) = true ∧ ((heldAll s).chip 0).mig.state = 2 ∧ ((heldAll s).chip 0).mig.line < ((heldAll s).chip 0).mig.lines := by
  refine ⟨held_of ?_, ?_, ?_⟩ <;> decide +kernel

/-- The shadow swap of a save waits: a line of its undo log is in a held channel. -/
def heldSwap : State :=
  heldAll { savedTeam true with undo := [{ key := physKey 0 0x8040, chip := 0, team := 1, logger := 0, old := [] }] }

theorem witness_swap_waits :
    channelHeld heldSwap (physKey 0 0x8040) = true ∧
      optAnd ((heldSwap.chip 0).shadow.lookup 0) (fun im => im.swapping && heldSwap.undo.any fun u => u.chip == im.team.chip && u.team == im.team.id) = true := by
  refine ⟨held_of ?_, ?_⟩ <;> decide +kernel

theorem witness_host_atomic :
    (let s := (page2 t0 1 0x1F 0xFFFF).modChip 0 fun c => { c with host := { c.host with featacc := 0xFFFF } }
    let z := poke s (placeRoot + 0x7008) (0xFFFF * 2 ^ 46 + 2 ^ 44 + 2 ^ 40 + 0x1F * 2 ^ 32 + 0xFFFFFFFF) 8
    !(s.chip 0).stopped && feature s 0 1 && !cutOff s 0 (reporter s 0 0) && frozenIn s (physKey 0 0x400008) 8 == [] &&
    cutOff (cutLink t0) 0 .pf && okAnd (walk s 0 0 0x200008) (fun l => !cwOwner l.cw && !cwSysat l.cw) && okAnd (walk z 0 0 0x200008) (fun l =>
      cwSysat l.cw && cwClass l.cw == 1) && !isOk (walk s 0 0 0x4000000)) = true := by decide +kernel

/-- What `Takes` computes for a trap in `s`, if nothing fails. -/
def taken (s : State) (t : Trap) : Option State :=
  match suspendCx s stParked 0 (t.resume.getD (t.pc.getD s.cx.ipc)) with
  | .ok v =>
    let x : State := { v with waiters := v.waiters ++ [parkedOf s t] }
    let y := match t.cause with
      | some k => addVote x s.cx.chip s.cx.team { cause := k, pc := t.pc.getD s.cx.ipc, rank := s.cx.rank, ctx := s.cx.no }
      | none => x
    let z := applyMeets y t
    match postMsg z (svcOf z s.cx.chip s.cx.team) (faultMsg s t) with
    | .ok w => some { w with note := .trapped t }
    | .error _ => none
  | .error _ => none

theorem takes_of_taken {s : State} {t : Trap} {u : State} (h : taken s t = some u) : Takes s t u := by
  unfold taken at h
  split at h
  · rename_i v hv
    dsimp only at h
    split at h
    · rename_i w hw
      exact ⟨v, w, hv, hw, by simpa using h.symm⟩
    · simp at h
  · simp at h

theorem witness_takes_a_fault :
    (tsmall.atControl && epUnit tsmall.cx.ep != 1088 && (taken tsmall (Trap.on Code.prot 0x8000)).isSome && (taken tsmall { Trap.of Code.qmisuse with cause := some 3 }).isSome &&
    (taken tsmall.done { Trap.of Code.trapi with resume := some (nextSlot tsmall.cx.ipc), extra0 := 0xFFFF }).isSome && (taken tsmall.done { Trap.of Code.brk with resume := some (nextSlot tsmall.cx.ipc), extra0 := 0 }).isSome &&
    runs (.trap 0xFFFF no) no tsmall && runs (.brk no) no tsmall && (mailWaiter tsmall (svcOf tsmall 0 1)).isNone && decide ((tsmall.core (svcOf tsmall 0 1)).mbox.length < 256)) = true := by decide +kernel

/-- A context of the collier runs. -/
def tcol : State :=
  let s := t0.switchTo (collierEp 0) 0
  { s with cx := { s.cx with mode := .running, chip := 0, team := 1, recA := 0x6000, gGran := 16, vGran := 8, priv := .collier } }
def msg0 : Msg := faultMsg t0 (Trap.on Code.prot 0x8000)

theorem witness_collier_fault :
    (epUnit tcol.cx.ep == 1088) = true := by decide +kernel

theorem witness_fmsg :
    (let s := tc.modCore 0 fun k => { k with mbox := [msg0] }
    let z : State := { s with fabricMsgs := [(0, msg0)] }
    runs (.fmsg true 8 no) no s && s.cx.gang.isNone && (takeMail s.done 0).isSome && (takeMail z.done 0).isSome && runs (.fmsg true 8 no) no tc &&
    (tc.core tc.cx.ep).mbox.isEmpty && runs (.fmsg false 8 no) no tc && isOk (suspendFor tc.done stWaitQueue 0 (.mailbox 8)) && epUnit tc.cx.ep != 1088) = true := by decide +kernel

/-- g8 to g15 hold a message; its record stands parked when v. -/
def replying (m : Msg) (v : Bool) : State :=
  let s := (recAt tc 0x5000 stParked 0).setGroup 8 m.words
  if v then waits s 0x5000 (.parked 1 0 0 0x8000 false false) else s

theorem witness_freply :
    (let m : Msg := { msg0 with recA := 0x5000, sstep := 1, aborts := 0 }
    let s := replying m true
    let r := replyOf (s.group 8 8) (s.g 3)
    runs (.freply 8 (.reg 3) no) no s && s.atControl && released s && r.code == 0 && r.flags &&& 7 == 0 && (s.liveTeam? (epChip r.src) r.team).isSome &&
    optAnd (parkedFor s r) (fun x => !x.2.2.2.1 && !x.2.2.2.2 && isOk (readyParked s.done x.1.chip x.1.team x.1.recA) &&
      isOk (readyParked (retryPage s.done r.src x.1.team x.2.2.1) x.1.chip x.1.team x.1.recA)) && (parkedFor (replying m false) r).isNone &&
    (replyOf (s.group 8 8) 0x0B03).code == 3 && ((0x0B03 : Word) &&& ~~~(0xFF03 : Word)) == 0 && (tc.liveTeam? 0 2).isNone) = true := by decide +kernel

theorem witness_freply_engine :
    (let s := replying { msg0 with recA := 0x5000, sstep := 1, aborts := 0, flags := 2 } false
    let r := replyOf (s.group 8 8) 0
    r.flags &&& 7 != 0 && r.flags.getLsbD 1 && !r.flags.getLsbD 0 && optAnd (s.liveTeam? (epChip r.src) r.team) fun t => t.ssn == r.ssn && t.attempts % 2 ^ 16 == r.aborts) = true := by decide +kernel

theorem witness_srd_swr :
    (runs (.srd 4 0x001 no) no t0 && (srAccess 0x001).isSome && runs (.swr 4 0x010 no) no t0 && !flagsDue t0.cx && runs (.swr 4 0x300 no) no tc && (coreRegTakes 0x300 0x3210).isSome &&
    (coreRegTakes 0x323 0xFF).isSome && (coreRegTakes 0x500 64).isSome && (coreRegTakes 0x500 63).isNone && (coreRegTakes 0x713 1).isSome &&
    (tc.core tc.cx.ep).mx.queue.isEmpty && runs (.swr 4 0x860 no) no tc && (chipRegMask 0x860).isSome && okAnd (writeReg tc.done tc.cx.ep 0x620 1) fun _ => true) = true := by decide +kernel

theorem witness_register_write :
    (optAnd (srAccess 0x620) (fun x => decide (Priv.user.level < x.2)) && optAnd (srAccess 0x620) (fun x => decide (x.2 ≤ Priv.collier.level)) &&
    isOk (writeReg t0 0 0x620 7)) = true := by decide +kernel

theorem witness_optbind :
    (let z := gq t0 0
    optTeam t0 0 31 == 0 && (t0.liveTeam? 0 (((2 ^ 32 : Word) >>> 32).setWidth 32)).isSome && decide (optStateOf t0 0 31 < 2) && optTeam z 0 0 == 1 &&
    (z.liveTeam? 0 1).isSome) = true := by decide +kernel

theorem witness_optrec :
    (let s := recAt (gq t0 0) 0x7000 stDone 0
    optTeam s 0 0 == 1 && optAnd (s.liveTeam? 0 1) fun t => isOk (walk s 0 t.part 0x7000) &&
      okAnd (readRec s (devWho s (optEp 0 0) 0 t.id) 0x7000) (fun r => r.team == 1 && r.st == stDone) &&
      isOk (recCheck s (devWho s (optEp 0 0) 0 t.id) t 0x7000 true) && okAnd (putRec s (devWho s (optEp 0 0) 0 t.id) 0x7000 40 4 0) fun u =>
        isOk (makeReady (u.modTeam 0 1 fun t => { t with optRecs := [(0x7000, optEp 0 0)], recs := t.recs ++ [0x7000] }) 0 1 0x7000) &&
        t.optRecs.isEmpty && !t.recs.contains 0x7000) = true := by decide +kernel

theorem witness_svcboot :
    (let s := poke (lrecAt (lqAt t0 0 1) 1) 0xB01C (collierEp 0).toNat 4
    let r := lrecOf (s.mem.getBytes (physKey 0 0xB000) 128)
    let p : Rect := { die := r.die, x := r.x, y := r.y, w := 1, h := 1 }
    !paValid (s.chip 0) (2 ^ 51 - 128) && paValid (s.chip 0) 0xB000 && r.ok && r.w == 1 && r.h == 1 && !r.any && r.svc == collierEp 0 && p.valid s 0 none 255 &&
    p.free s 0 && !idInUse s 0 r.id && (match startTeam s 0 0 r p true with | .ok (.ok _) => true | _ => false)) = true := by decide +kernel

/-- A shoot-down of the whole of partition 0 that core 0's context waits for, with some nodes left. -/
def shooting (nodes : List Nat) : State :=
  tc.modChip 0 fun c => { c with shoots := [{ id := 3, ep := 0, ctx := 0, part := 0, lo := 0, hi := 2 ^ 57, nodes := nodes }] }

theorem witness_tlbi :
    (runs (.tlbi false 0 4 (.reg 5) no) no tc && tc.g 4 == 0 && runs (.tlbi true 0 4 (.reg 5) no) no (shooting []) &&
    tlbiRange (shooting []) 0 0 true 0 0 == (0, 2 ^ 57) && (((shooting []).chip 0).shoots.find? fun x => (x.ep == 0 && x.ctx == 0) && x.part == 0 && x.lo == 0 && x.hi == 2 ^ 57).isSome &&
    optAnd ((shooting [7]).chips.find? fun c => c.2.shoots.any fun x => x.id == 3) (fun c => (c.2.shoots.find? fun x => x.id == 3).isSome) &&
    optAnd ((shooting [7]).chips.find? fun c => c.2.shoots.any fun x => x.id == 3) (fun c => optAnd (c.2.shoots.find? fun x => x.id == 3) fun x =>
      x.nodes.find? (mayAck c.2 x) == some 7) && optAnd (((shooting [128, 7]).chip 0).shoots.head?) (fun x => !mayAck ((shooting [128, 7]).chip 0) { x with nodes := [128, 7] } 128) &&
    ((shooting []).chips.find? fun c => c.2.shoots.any fun x => x.id == 3).isSome && (tc.chips.all fun c => c.2.shoots.all fun x => x.id != 3) && isOk (.ok tc : Res State)) = true := by decide +kernel

theorem witness_sleep_and_wake :
    (let far : EP := coreAt 0 false 20 20
    let s : State := { t0 with time := 4096 }
    sleepDue s far && !sleepDue t0 far && !(s.core far).asleep && ((s.modCore far fun k => { k with asleep := true }).core far).asleep) = true := by decide +kernel

theorem witness_ident_halt :
    (runs (.ident 4 3 no) no t0 && runs (.halt no) no tcol && decide (largestRect (t0.chip 0) ∈ freeRects (t0.chip 0))) = true := by decide +kernel

/-! ### Links, the host port, the collier -/

/-- A flit as sent holds its CRC. -/
theorem flitOk_sealFlit (a n : Bool) (q : BitVec 12) (x : Option (BitVec 12 × LinkPacket)) : flitOk (sealFlit a n q x) = true := by
  simp [flitOk, sealFlit, flitCrc, flitBytes, flitBody, flitHeader]

/-- A packet for a chip, on a virtual channel. -/
def pkt (dest : ChipNo) (vc : BitVec 2) : LinkPacket := { src := 0, dest := dest, vc := vc, load := .beat, payload := [1, 2] }
def flit0 : Flit := { ackValid := true, nak := false, ackSeq := 0, packet := some (0, pkt 0 1), crc := 7 }
/-- Port 0 of chip 0 is up, with what a test gives it. -/
def linked (f : Port → Port) : State := setPort t0 0 0 (f { Port.reset with state := 4 })

theorem witness_flits_that_hold_their_crc :
    let u := takeWire (linked id) 0 0 (sealFlit true false 0 (some (0, pkt 0 1)))
    (portOf u 0 0).state ≠ 0 ∧ (portOf u 0 0).broken = false ∧ flitOk (sealFlit true false 0 (some (0, pkt 0 1))) = true ∧
      flitOk (sealFlit false true 5 none) = true := by
  refine ⟨?_, ?_, flitOk_sealFlit .., flitOk_sealFlit ..⟩ <;> decide +kernel

theorem witness_flits :
    (let s := linked id
    let x := portOf (takeWire s 0 0 flit0) 0 0
    let z := setPort (linked fun x => { x with peer := some (0, 1) }) 0 1 { Port.reset with out := [{ flit0 with crc := 9 }, flit0] }
    x.state == 4 && x.rxNext == 0 && (portOf (takeWire t0 0 0 flit0) 0 0).state == 0 && (portOf z 0 0).peer == some (0, 1) &&
    (portOf (takeWire z 0 0 flit0) 0 1).out == [flit0] && (portOf (takeWire (linked fun x => { x with broken := true }) 0 0 flit0) 0 0).broken) = true := by decide +kernel

theorem witness_accepted_packets :
    (let s := setPort peered 0 0 { Port.reset with state := 4 }
    (pkt 0 3).dest == 0 && routePort s 0 (pkt 1 3).dest == some 0 && routePort t0 0 (pkt 1 0).dest == none && (pkt 0 3).vc == 3) = true := by decide +kernel

theorem witness_timers :
    (let s := linked fun x => { x with rxUnacked := 1, buf := [(0, pkt 1 0)] }
    let late : State := { s with time := Config.ackDelay + Config.replayLimit }
    ackDue late 0 0 && replayDue late 0 0 && !ackDue (linked id) 0 0 && !replayDue (linked id) 0 0 && !(portOf s 0 0).buf.isEmpty) = true := by decide +kernel

/-- Two packets at chip 0's gateway, on virtual channels v and w, for chip 1, which port 0 reaches when up. -/
def gated (v w : BitVec 2) (port : Nat) (up : Bool) : State :=
  let s := setPort peered 0 0 { Port.reset with state := if up then 4 else 0 }
  s.modChip 0 fun c => { c with gw := [{ id := 1, pkt := pkt 1 v, port := port }, { id := 2, pkt := pkt 1 w, port := port }] }

theorem witness_gateway :
    (let g (s : State) (id : Nat) : Option GwPacket := (s.chip 0).gw.find? fun g => g.id == id
    let may (s : State) : Bool := optAnd (g s 1) fun x => mayForward s 0 x
    routePort (gated 0 0 0 true) 0 1 == some 0 && routePort (gated 0 0 0 false) 0 1 == none && (portOf (gated 0 0 0 false) 0 0).state == 0 &&
    (portOf (gated 0 0 1 true) 0 1).state == 0 && (portOf (gated 0 0 0 true) 0 0).state == 4 && (g (gated 0 0 0 true) 1).isSome && (g (gated 0 0 0 true) 3).isNone &&
    may (gated 0 0 0 true) && !may (gated 0 3 0 true) && may (gated 3 0 0 true) &&
    ((gated 0 0 0 true).chip 0).gw.all (fun x => (routePort (gated 0 0 0 true) 0 x.pkt.dest).isSome) &&
    ((gated 0 0 0 true).chip 0).gw.any (fun x => x.port == 0) &&
    (let z := (gated 0 0 0 false).modChip 0 fun c => { c with gw := [{ id := 1, pkt := pkt 1 0, port := 0 }] }
     (z.chip 0).gw.length == 1 && (routePort z 0 1).isNone && (portOf z 0 0).state == 0)) = true := by decide +kernel

theorem witness_lanes :
    (let f (m : BitVec 16) : State := linked fun x => { x with state := 1, stopped := true, failed := m, buf := [(0, pkt 1 0)], peer := some (1, 2) }
    let x := portOf (f 0xFFFF) 0 0
    x.state == 1 && wiresEmpty (f 0xFFFF) 0 0 && widthOf x.failed == 0 && x.peer == some (1, 2) && (portOf t0 0 0).peer == none &&
    answering (f 1) (partnerOf (f 1) 0 0) == some (1, 2) && ((1, 2) : ChipNo × BitVec 4) != (0, 0) &&
    answering ((f 1).modChip 1 fun c => { c with stopped := true }) (partnerOf (f 1) 0 0) == none && ((f 1).chip 1).no == 1 && wiresEmpty (f 1) 0 0 && (portOf (f 1) 0 0).state == 1 && widthOf 0x0001 == 3 && widthOf 0 == 4 &&
    (let z := linked fun x => { x with state := 1, failed := 1 }
     (portOf z 0 0).state == 1 && wiresEmpty z 0 0 && partnerOf z 0 0 == none && !wiresEmpty (setPort z 0 0 { portOf z 0 0 with out := [flit0] }) 0 0) &&
    (0x8000 : BitVec 16) != 0 && (0x8000 : BitVec 16).extractLsb' 0 8 == 0 &&
    ([(0, pkt 1 0)] : List (BitVec 12 × LinkPacket)).all (fun b => (routePort (gated 0 0 0 true) 0 b.2.dest).isSome)) = true := by decide +kernel

/-- Chips 0, 1 and 2 share a federation; a port leads to both. -/
def federated : State :=
  let s := team (poke (setPort peered 0 0 { Port.reset with state := 4 }) 0xE004 1 2) fun t => { t with fed := 7 }
  { s with feds := [{ id := 7, m := 3, members := [(0, 1), (1, 5), (2, 6)], lost := [], gone := [], rose := [], sent := [] }] }

theorem witness_heartbeats_and_losses :
    (let s := federated
    !(s.chip 0).stopped && s.feds.all (fun f => s.teams.any (fun x => x.chip == 0 && x.fed == f.id && x.live) && (treeNeighbours f 0).any (fun n => n == 1 &&
      (routePort s 0 n).isSome) && sharesFed 0 1 f) &&
    (routePort (recordLoss s 0 1) 0 2).isSome && t0.feds.isEmpty) = true := by decide +kernel

/-- Chip 0 with every feature, one interface in a state, no team. -/
def hosted (st : BitVec 3) : State :=
  let s := { t0 with teams := [] }.modChip 0 fun c => { c with host := { c.host with featacc := 0x7F, numVfs := 1 } }
  modIface s 0 0 fun f => { f with state := st }

theorem witness_interfaces :
    (!frozenSet (hosted 0) 0 0 && frozenSet (hosted 1) 0 0 && frozenSet (hosted 2) 0 0 && !partHeld (hosted 0) 0 0 && partHeld t0 0 0 &&
    fnExists (hosted 0) 0 (.vf 0) && !(hosted 0).chips.any (fun c => c.2.dark) && !cutOff (hosted 0) 0 (.vf 0) && !cutOff (hosted 0) 0 .pf &&
    !fnExists t0 0 (.vf 0) && cutOff (cutLink (hosted 0)) 0 (.vf 0) && cutOff (cutLink (hosted 0)) 0 .pf &&
    ((t0.modChip 0 fun c => { c with dark := true }).chip 0).dark && !(t0.chip 0).dark && !feature t0 0 6 && (ifaceOf (hosted 2) 0 0).state == 2 &&
    !(decide (1 ≤ (0 : BitVec 8).toNat)) && decide (1 ≤ (3 : BitVec 8).toNat ∧ (3 : BitVec 8).toNat ≤ 7) && !decide ((8 : BitVec 8).toNat ≤ 7) &&
    !frozenSet t0 0 0 && (ifaceOf t0 0 0).state == 4 && (ifaceOf (hosted 3) 0 0).state == 3 && feature (hosted 0) 0 6 && !feature t0 0 6 &&
    !(ifaceOf (hosted 0) 0 0).scrubbing && !((hosted 0).chip 0).stopped && (ifaceOf (modIface (hosted 0) 0 0 fun f => { f with scrubbing := true }) 0 0).scrubbing) = true := by decide +kernel

theorem witness_features_and_partitions :
    (((0x7F : BitVec 128) >>> 7 == 0) && ((0x80 : BitVec 128) >>> 7 != 0) && (t0.chip 0).host.parten == 0 && feature (hosted 0) 0 0 && !feature t0 0 0 &&
    decide (8 ≤ (8 : BitVec 4).toNat) && decide (8 < (9 : BitVec 4).toNat)) = true := by decide +kernel

/-- The stream of VF 0 has a key in set 1 and is secure when v. -/
def keyed (v : Bool) : State := putIde (hosted 2) 0 { stream := .sel (.vf 0), key0 := none, key1 := some 5, active := true, secure := v, insecure := !v }

theorem witness_link_keys :
    (let st : IdeStream := .sel (.vf 0)
    feature (keyed true) 0 5 && fnExists (keyed true) 0 (streamFn st) && (ideOf (keyed true) 0 st).secure && !(ideOf (keyed false) 0 st).secure &&
    (ideOf (keyed true) 0 st).key1 == some 5 && (ideOf (keyed true) 0 st).key0 == none && frozenSet (keyed true) 0 0 && !fnExists t0 0 (.vf 0) &&
    !feature t0 0 5 && !cutOff (keyed true) 0 (.vf 0) && cutOff (keyed false) 0 (.vf 0) && (ideOf (hosted 2) 0 st).key0 == none && !((keyed true).chip 0).stopped) = true := by decide +kernel

/-- A connection in a phase and a session state. -/
def talk (phase session : Nat) : Spdm := { Spdm.fresh .pf with phase := phase, session := session }

theorem witness_attestation :
    (fnExists t0 0 .pf && !(t0.chip 0).stopped && !cutOff t0 0 .pf && cutOff (cutLink t0) 0 .pf && !fnExists t0 0 (.vf 0) && (talk 0 0).phase == 0 && decide ((talk 2 0).phase < 3) && decide (3 ≤ (talk 3 0).phase) &&
    (talk 3 1).session == 1 && (talk 3 2).session == 2 && decide ((1 : BitVec 4).toNat < 2) && decide (1 ≤ (5 : BitVec 8).toNat ∧ (5 : BitVec 8).toNat ≤ 5)) = true := by decide +kernel

theorem witness_collier_commands :
    (let s := tcol
    let z := lrecAt (lqAt t0 0 1) 1
    !(s.chip 0).stopped && !cutOff s 0 .pf && cutOff (cutLink s) 0 .pf && okAnd (bootService (colEvent z 0) 0 0xB000) (fun _ => true) &&
    decide (0x7FFFFF + 1 ≤ 0x800000) && (s.chip 0).col.quiesced.isEmpty && decide ((135 : BitVec 8).toNat < 136) && decide ((159 : BitVec 8).toNat < 160)) = true := by decide +kernel

theorem witness_resets :
    (t0.transit.isEmpty && t0.mem.wf && t0.cords.all (fun c => c.chip == 0 || epChip c.dest != 0) &&
    ({ fabid := 5, rtbase := 0xFFF80000, activeOk := false, pendingOk := true, laneMask := [], partners := [], retired := [],
       failing := [] } : BootReport).fabid == 5 && (let c := t0.modChip 0 fun c => { c with col := { c.col with pending := true } }; (c.chip 0).col.pending) &&
    !(t0.chip 0).stopped && ((t0.modChip 0 fun c => { c with stopped := true }).chip 0).stopped && decide ((ifaceOf (hosted 2) 0 0).state != 4)) = true := by decide +kernel

/-! ### The whole machine -/

/-- A context that may issue, but with its predicate off, at the user's privilege, or with a pending vector instruction. -/
def offMs : Ms := { inv := true, idx := 0 }
/-- A vector instruction waits: it writes v1 and g4. -/
def queued (n : Nat) : State :=
  let e : VEntry := { op := .legal (.vextr (.int .i32) (.g 4) 1 2 no), pc := 0, caps := [], gGran := 16, vGran := 8, g2 := 0 }
  { t0 with cx := { t0.cx with vq := List.replicate n e } }

theorem witness_issue_checks :
    (t0.canRun (.add .i64 5 6 (.reg 7) offMs) && !offMs.on t0 && (fieldsOf (.add .i64 5 6 (.reg 7) offMs)).any (fun x => !x.1) &&
    decide (t0.cx.priv.level < (Instr.fmsg true 8 no).privNeed) && !allotOk tsmall.cx (Instr.add .i64 5 200 (.reg 7) no).uses &&
    allotOk (queued 1).cx (Instr.add .i64 5 4 (.reg 7) no).uses && scalarHazard (queued 1).cx (Instr.add .i64 5 4 (.reg 7) no).uses) = true := by decide +kernel

theorem witness_vector_hand_off :
    (let i : Instr := .vadd (.int .i32) 7 8 (.v 9) .rne no
    (fieldsOf i).any (fun x => x.1) && (queued 31).cx.vsrc == .control && !(queued 31).cx.rep.capturing && vecBusy (queued 31).cx &&
    !scalarHazard (queued 31).cx i.uses.readsOnly && (queued 31).cx.vq.length == 31 && (queued 32).cx.vq.length == 32) = true := by decide +kernel

/-- The first step of a word placed after reset. -/
def placed (w : Slot) : State := placeWord State.reset w
/-- A line of two slots that issue together, as the context's line. -/
def pairLine : Line :=
  let w1 := 0x01000A180104000000000000#96
  let w2 := 0x01001A180104000000000000#96
  let low := 1 + 1 * 2 ^ 5 + 0 * 2 ^ 7 + 63 * 2 ^ 9 + (popCount w1.toNat 96 % 2) * 2 ^ 15 + (popCount w2.toNat 96 % 2) * 2 ^ 16
  BitVec.ofNat 512 (low + popCount low 20 % 2 * 2 ^ 20 + w1.toNat * 2 ^ 32 + w2.toNat * 2 ^ 128)

theorem witness_step_runs :
    (let s := placed 0x01000A180104000000000000#96
    let u := State.switchTo { s with sel := none } 0 0
    s.upsets.isEmpty && s.sel == some (.control 0 0) && u.cx.gang.isNone && !u.cx.hurt && okAnd (fetchSlot u) (fun r => match r with
      | (v, .one w _) => v.cx.half.isNone && w == 0x01000A180104000000000000#96
      | _ => false)) = true := by decide +kernel

theorem witness_step_pairs :
    (let s := placed 0x01000A180104000000000000#96
    let z := { s with cx := { s.cx with line := some (0, pairLine) } }
    let u := State.switchTo { z with sel := none } 0 0
    z.upsets.isEmpty && z.sel == some (.control 0 0) && u.cx.gang.isNone && !u.cx.hurt && okAnd (fetchSlot u) (fun r => match r with
      | (_, .pair _ _ _ _) => true
      | _ => false)) = true := by decide +kernel

theorem witness_step_line :
    (let s := placed 0x01000A180104000000000000#96
    let l := soloLine false 0x01000A180104000000000000#96
    s.cx.line == none && pcShape s.cx.pc && okAnd (globalPlaces s s.cx.chip (ctxWho s false) .fetch false ((pcLine s.cx.pc).extractLsb' 0 57).toNat 64 s.cx.pc false)
      (fun pls => pls.all (fun pl => pl.cls != 3 && !s.poison.contains (pl.key / 64)) && lparOk (BitVec.ofNat 512 (leNat (readPlaces s (ctxWho s false) pls))) &&
        lineOk (BitVec.ofNat 512 (leNat (readPlaces s (ctxWho s false) pls)))) && ((s.core 0).icache.lookup (pcLine s.cx.pc)).isNone &&
    lineTmpl l 0 == 0 && sparOk l 0 && okAnd (decode false (lineSlot l 0)) (fun _ => true) && !s.cx.entered && !s.cx.rep.capturing) = true := by decide +kernel

theorem witness_well_formed_words :
    ((Instr.add .i64 5 6 (.cw 0x20) no).wf && optAnd (encode (.add .i64 5 6 (.cw 0x20) no)) fun x => !x.1 && x.2 == 0x01000A180104000000000000#96) = true := by decide +kernel

theorem witness_step_keeps_halts : (placed 0x01000A180104000000000000#96).HaltOk := by
  unfold State.HaltOk
  decide +kernel

theorem witness_step_keeps_memory : (placed 0x01000A180104000000000000#96).MemOk := by
  unfold State.MemOk
  decide +kernel

/-- The values of 1.0, -2.0 and +0 in .f32: operands of the statements on rounded results. -/
theorem witness_float_values :
    ((fspec .f32).decode 0x3F800000).Is 1 ∧ ((fspec .f32).decode 0xC0000000).Is (-2) ∧ ((fspec .f32).decode 0).Is 0 := by
  have h1 : (fspec .f32).decode 0x3F800000 = .fin false 8388608 (-23) := by decide +kernel
  have h2 : (fspec .f32).decode 0xC0000000 = .fin true 8388608 (-22) := by decide +kernel
  have h3 : (fspec .f32).decode 0 = .fin false 0 (-149) := by decide +kernel
  rw [h1, h2, h3]
  norm_num [FV.Is]

/-! ### Effects, from the spec's examples and by hand from its rules -/

/-- The next state of an instruction, and what holds of it. -/
def gives (o : Out) (p : State → Bool) : Bool :=
  match o with
  | .next s => p s
  | _ => false

/-- Bytes of the core's LM at 0x1000, as the executing context reads them. -/
def lm (s : State) (n : Nat) : List Byte :=
  match places s (ctxWho s false) .read .lin 1 false 0x1FFF000000001000 n with
  | .ok pls => readPlaces s (ctxWho s false) pls
  | .error _ => []

/-- Registers g6 and g7 set. -/
def t67 (x y : Word) : State := (t0.setG 6 x).setG 7 y
/-- g5 after a scalar instruction on g6 and g7. -/
def g5is (i : Instr) (x y v : Word) : Bool := gives (exec i (t67 x y)) fun s => s.g 5 == v

theorem test_add_wraps_and_extends :
    (g5is (.add .i32 5 6 (.imm 1) no) 0x7FFFFFFF 0 0xFFFFFFFF80000000 && g5is (.add .n16 5 6 (.reg 7) no) 0xFFFF 2 1) = true := by decide +kernel

theorem test_sub_of_its_own_source :
    (gives (exec (.sub .i64 6 6 (.reg 6) no) (t67 9 0)) fun s => s.g 6 == 0) = true := by decide +kernel

theorem test_mul_high :
    (g5is (.mulh .w64 5 6 (.reg 7) no) 0xFFFFFFFFFFFFFFFF 0xFFFFFFFFFFFFFFFF 0 &&
    g5is (.mulhn .w64 5 6 (.reg 7) no) 0xFFFFFFFFFFFFFFFF 0xFFFFFFFFFFFFFFFF 0xFFFFFFFFFFFFFFFE) = true := by decide +kernel

theorem test_div_by_zero :
    (g5is (.div .w32 5 6 (.imm 0) no) 7 0 0xFFFFFFFFFFFFFFFF && g5is (.divn .w32 5 6 (.imm 0) no) 7 0 0xFFFFFFFF) = true := by decide +kernel

theorem test_rem_takes_the_dividends_sign :
    (g5is (.remS .w8 5 6 (.reg 7) no) 0xF9 2 0xFFFFFFFFFFFFFFFF && g5is (.remn .w8 5 6 (.reg 7) no) 0xF9 2 1) = true := by decide +kernel

theorem test_rotate_and_arithmetic_shift :
    (g5is (.rol .n32 5 6 (.reg 7) no) 0x80000001 4 0x18 && g5is (.sar .i16 5 6 (.imm 15) no) 0x8000 0 0xFFFFFFFFFFFFFFFF) = true := by decide +kernel

theorem test_bit_counts :
    (g5is (.clz .i16 5 6 no) 0 0 16 && g5is (.popc .n8 5 6 no) 0xF0F 0 4 && g5is (.brev .n8 5 6 no) 1 0 0x80) = true := by decide +kernel

theorem test_bit_fields :
    (gives (exec (.bfi 5 6 60 4 no) ((t67 5 0).setG 5 0x0FFFFFFFFFFFFFFF)) (fun s => s.g 5 == 0x5FFFFFFFFFFFFFFF) &&
    g5is (.bfx 5 6 56 8 no) 0x8000000000000000 0 0xFFFFFFFFFFFFFF80) = true := by decide +kernel

theorem test_compare_by_sign :
    (gives (exec (.cmp .lt .i32 2 6 (.reg 7) no) (t67 0x80000000 1)) (fun s => s.p 2) &&
    gives (exec (.cmp .lt .n32 2 6 (.reg 7) no) (t67 0x80000000 1)) fun s => !s.p 2) = true := by decide +kernel

theorem test_fadd_ties_to_even :
    (gives (exec (.fadd .f32 5 6 (.reg 7) .rne no) (t67 0x3F800000 0x33800000)) (fun s => s.g 5 == 0x3F800000 && s.cx.fflags == 1) &&
    g5is (.fadd .f32 5 6 (.reg 7) .ru no) 0x3F800000 0x33800000 0x3F800001) = true := by decide +kernel

theorem test_fcvt_split :
    (g5is (.fcvt 5 6 (.split .hi) no) 0x3F802008 0 0x3F80 && g5is (.fcvt 5 6 (.split .mid) no) 0x3F802008 0 0x3A80 &&
    g5is (.fcvt 5 6 (.split .lo) no) 0x3F802008 0 0x3580) = true := by decide +kernel

theorem test_branch_three_lines_back :
    (branchTarget 0x1C0 0xFFFFFFEA == 0x102) = true := by decide +kernel

theorem test_add_predicated_off :
    (gives (exec (.add .i64 5 6 (.reg 7) { inv := false, idx := 1 }) (t67 1 2)) (fun s => s.g 5 == 0)) = true := by decide +kernel

theorem test_ld_at_an_odd_offset :
    (let s := (lay t0 1 0x103C 0x1122334455667788 8).setG 6 0x1FFF000000001000
    gives (exec (.ld .d .lin 5 6 (.reg 0) 0x3C no) s) fun s => s.g 5 == 0x1122334455667788) = true := by decide +kernel

theorem test_st_little_endian :
    (gives (exec (.st .w .lin 7 6 (.reg 0) 0 no) (t67 0x8000 0xAABBCCDD)) fun s =>
      s.mem.getBytes (physKey 0 0x8000) 5 == [0xDD, 0xCC, 0xBB, 0xAA, 0]) = true := by decide +kernel

theorem test_aadd_gives_the_old_word :
    (gives (exec (.aadd .w .lin { acq := false, rel := false, scope := .context } 5 6 (.reg 7) no) (poke (t67 0x8000 3) 0x8000 0xFFFFFFFE 4)) fun s =>
      s.g 5 == 0xFFFFFFFFFFFFFFFE && s.mem.getBytes (physKey 0 0x8000) 5 == [1, 0, 0, 0, 0]) = true := by decide +kernel

theorem test_ilv8_example :
    (let s : State := team (t0.switchTo (coreAt 0 false 5 2) 0) fun t => { t with w := 8, h := 8 }
    let s : State := { s with cx := { s.cx with team := 1, mode := .running } }
    route s (ctxWho s false) .ilv8 0x1FFF000000010048 == (some (coreAt 0 false 5 2), 0x1000)) = true := by decide +kernel

theorem test_vreds_example :
    (let s := (t0.setK 0 0xFFFF).setV 3 (0x3F800000 + 0x33800000 * 2 ^ 32 + 0x33800000 * 2 ^ 64)
    gives (exec (.vreds (.flt .f32) (.g 5) 3 (.imm 0) .rne no) s) fun s => s.g 5 == 0x3F800000 && s.cx.fflags == 1) = true := by decide +kernel

theorem test_viota_example :
    (gives (exec (.viota .i32 4 no) (t0.setK 0 0x00F0)) fun s => s.v 4 == (1 * 2 ^ (5 * 32) + 2 * 2 ^ (6 * 32) + 3 * 2 ^ (7 * 32) : BitVec 512)) = true := by decide +kernel

theorem test_format_conversions :
    (let q (c : Nat) (x : FV) : Nat × Nat := let r := fmtOf c .rne x; (r.1, r.2.toNat)
    let forty := fp32.decode 0x42200000
    let half := fp32.decode 0x40200000
    let tenth := fp32.decode 0xBDCCCCCD
    [q 5 forty, q 6 forty, q 7 forty, q 8 forty, q 9 forty] == [(0x51, 0), (0x62, 0), (0x1F, 5), (0x1F, 5), (0x7, 5)] &&
    [q 5 half, q 6 half, q 7 half, q 8 half, q 9 half] == [(0x41, 0), (0x42, 0), (0x11, 0), (0x12, 0), (0x4, 1)] &&
    ([q 5 tenth, q 6 tenth, q 7 tenth, q 8 tenth, q 9 tenth].map fun r => r.1) == [0xAE, 0x9D, 0x22, 0x21, 0x8] &&
    ([q 5 (fp32.decode 0x7F800000), q 6 (fp32.decode 0x7F800000), q 9 (fp32.decode 0x7F800000)].map fun r => r.1) == [0x7C, 0x7E, 0x7] &&
    (fmtOf 9 .rna half).1 == 5) = true := by decide +kernel

theorem test_plane_values :
    (sbpVal 1 false 0xDB == -128 && sbpVal 2 true 0xDB == -32 && sbpVal 4 false 0xDB == -48 && sbpVal 8 true 0xDB == -37 && sbpVal 4 true 0x64 == 104 &&
    elemAt 0x17 512 5 == 0 && elemAt 0x17 512 517 == 512) = true := by decide +kernel

theorem test_qnt_worked :
    (let s := quad (stats t0) 0x1FFF000000001000 0x1FFF000000002000 4 0
    let s := lay (poke s (0xF000 + 68 - 4) (0x40400000 + 4 * 2 ^ 32) 8) 1 0x2000 (0x3FC00000 + 0xC0300000 * 2 ^ 32 + 0x42C80000 * 2 ^ 64 + 0x7FC00000 * 2 ^ 96) 16
    gives (exec (.qnt .f32 9 4 (.reg 0) .rne 6 false 0 no) s) fun s =>
      s.g 9 == 0x0000000100000078 && lm s 5 == [0x74, 0xFB, 0x7E, 0x7F, 0] && s.cx.fflags == 5) = true := by decide +kernel

theorem test_dqnt_scale_codes :
    (let s := quad t0 0x1FFF000000001000 0x1FFF000000002000 1 0
    gives (exec (.dqnt .f32 false 4 (.cw 0x10) .rne 6 0 0 false no) (lay (lay s 1 0x80 0x78 8) 1 0x2000 0x7E 1)) (fun s =>
      lm s 4 == bytesOf 0x40600000 4) &&
    gives (exec (.dqnt .f32 false 4 (.cw 0x10) .rne 6 0 0 false no) (lay (lay s 1 0x80 0x7C 8) 1 0x2000 0x7A 1)) fun s =>
      lm s 4 == bytesOf 0x42200000 4) = true := by decide +kernel

theorem test_names_and_clusters :
    (mkEp 3 true 1045 == 0xE415 && (let t : Team := { placeTeam 0 with x0 := 2, y0 := 3, w := 6, h := 3 }
     t.clusterOf (coreAt 0 false 5 4) == 3 && t.clusterCount == 4)) = true := by decide +kernel

theorem test_dec_underflows_nothing :
    (let s := g123 (recAt t0 0x5000 1 3) 0 3
    gives (exec (.dec 4 1 (.reg 3) no) s) fun u => u.g 4 == 3 && u.mem.getBytes (physKey 0 0x5018) 4 == [0, 0, 0, 0]) = true := by decide +kernel

theorem test_trap_parks_after_its_slot :
    (gives (exec (.trap 0x12 no) tsmall) fun u => u.cx.mode == .idle && u.waiters.length == 1 && u.mem.getBytes (physKey 0 0x1000) 8 == [1, 0, 0, 0, 0, 0, 0, 0] &&
      (u.core (collierEp 0)).mbox.map (fun m => (m.code, m.extra0)) == [(Code.trapi, 0x12)]) = true := by decide +kernel

theorem test_fmsg_at_user_privilege_traps :
    (gives (exec (.fmsg true 16 no) tsmall) fun u => match u.note with
      | .trapped x => x.code == Code.priv
      | _ => false) = true := by decide +kernel

theorem test_step_runs_a_placed_word :
    (gives (step (State.reset.withFetchWord 96 0x01000A180104000000000000)) (fun s => s.cx.pc == 1 && s.time == 1) &&
    gives (step (State.reset.withFetchWord 96 0x25000A000000000000000007)) fun s => s.g 5 == 7) = true := by decide +kernel

theorem test_srd_fflags_waits :
    (let s := { t0 with cx := { t0.cx with vq := [{ op := .legal (.vadd (.flt .f32) 1 2 (.v 3) .rne no), pc := 0, caps := [], gGran := 16, vGran := 8, g2 := 0 }] } }
    flagsDue s.cx && gives (exec (.srd 4 0x010 no) s) (fun u => u.note == .stalled && u.g 4 == 0) && gives (exec (.srd 4 0x001 no) s) (fun u => u.note == .done)) = true := by decide +kernel

end Sys2Proof.Tests
end

/-! The integer helpers of the model, on W-bit words: `sintOf`, `natOfInt` and `extend` as `BitVec` operations, and the
one rule for an instruction of the shape `intBin` (R40). -/
namespace Sys2Proof.Machine

theorem testBit_eq_natTestBit (v i : Nat) : testBit v i = v.testBit i := by
  rw [Nat.testBit_eq_decide_div_mod_eq]
  rfl

theorem width_bits_pos (w : Width) : 0 < w.bits := by cases w <;> decide

/-- The top bit that `sintOf` looks at is the most significant bit of the word. -/
theorem sintOf_eq_toInt (w v : Nat) : sintOf w v = (BitVec.ofNat w v).toInt := by
  have hmsb : testBit (v % 2 ^ w) (w - 1) = (BitVec.ofNat w v).msb := by
    rw [testBit_eq_natTestBit, BitVec.msb_eq_getLsbD_last, BitVec.getLsbD, BitVec.toNat_ofNat]
  rw [sintOf, BitVec.toInt_eq_msb_cond, hmsb, BitVec.toNat_ofNat]
  push_cast
  rfl

theorem sintOf_toNat {w : Nat} (x : BitVec w) : sintOf w x.toNat = x.toInt := by
  rw [sintOf_eq_toInt, BitVec.ofNat_toNat, BitVec.setWidth_eq]

theorem natOfInt_eq_toNat (w : Nat) (i : Int) : natOfInt w i = (BitVec.ofInt w i).toNat := by
  rw [natOfInt, BitVec.toNat_ofInt]
  push_cast
  rfl

theorem ofNat_natOfInt (w : Nat) (i : Int) : BitVec.ofNat w (natOfInt w i) = BitVec.ofInt w i := by
  rw [natOfInt_eq_toNat, BitVec.ofNat_toNat, BitVec.setWidth_eq]

theorem extend_eq_widen (w : Nat) (sg : Bool) (r : Nat) : extend w sg r = widen sg (BitVec.ofNat w r) := by
  cases sg
  case true => rw [extend, widen, if_pos rfl, if_pos rfl, sext64, sintOf_eq_toInt, BitVec.signExtend]
  case false =>
    rw [extend, widen, if_neg Bool.false_ne_true, if_neg Bool.false_ne_true, ← BitVec.ofNat_toNat, BitVec.toNat_ofNat]

/-- R40, said once for every binary integer instruction: what `f` answers on the low W bits, as a W-bit word, is `op` of
them. -/
theorem writesBin_of_intBin {i : Instr} {w : Nat} {sg : Bool} {d a : GReg} {b : BOp} {ms : Ms} {f : Nat → Nat → Nat}
    {op : BitVec w → BitVec w → BitVec w} (hexec : ∀ s, exec i s = intBin i w sg d a b ms s f)
    (hop : ∀ x y : BitVec w, BitVec.ofNat w (f x.toNat y.toNat) = op x y) : WritesBin i w sg d a b ms op := by
  intro s hrun hon
  rw [hexec, intBin]
  apply scalar_next _ _ _ _ _ hrun hon
  rw [State.done_g, State.done_bop, extend_eq_widen, ← BitVec.toNat_setWidth, ← BitVec.toNat_setWidth, hop]
  rfl

end Sys2Proof.Machine

/-! DIV, DIVN, REM and REMN (R42): the model's quotients and remainders are those of `BitVec`. -/
namespace Sys2Proof.Machine

theorem ofNat_two_pow_sub_one (w : Nat) : BitVec.ofNat w (2 ^ w - 1) = BitVec.allOnes w := by
  rw [← BitVec.toNat_allOnes, BitVec.ofNat_toNat, BitVec.setWidth_eq]

theorem ofInt_tdiv_toInt {w : Nat} (x y : BitVec w) : BitVec.ofInt w (x.toInt.tdiv y.toInt) = x.sdiv y := by
  apply BitVec.eq_of_toInt_eq
  rw [BitVec.toInt_ofInt, BitVec.toInt_sdiv]

theorem ofInt_tmod_toInt {w : Nat} (x y : BitVec w) : BitVec.ofInt w (x.toInt.tmod y.toInt) = x.srem y := by
  rw [← BitVec.toInt_srem, BitVec.ofInt_toInt]

theorem toNat_eq_zero_iff {w : Nat} (y : BitVec w) : y.toNat = 0 ↔ y = 0 := by
  rw [← BitVec.toNat_inj, BitVec.ofNat_eq_ofNat, BitVec.toNat_zero]

theorem opDiv_eq_sdiv {w : Nat} (x y : BitVec w) :
    BitVec.ofNat w (opDiv w x.toNat y.toNat) = if y = 0 then BitVec.allOnes w else x.sdiv y := by
  rw [opDiv, apply_ite (BitVec.ofNat w), ofNat_natOfInt, sintOf_toNat, sintOf_toNat, ofInt_tdiv_toInt]
  simp only [toNat_eq_zero_iff, ofNat_two_pow_sub_one]

theorem divn_eq_udiv {w : Nat} (x y : BitVec w) :
    BitVec.ofNat w (if y.toNat = 0 then 2 ^ w - 1 else x.toNat / y.toNat) =
      if y = 0 then BitVec.allOnes w else x.udiv y := by
  rw [apply_ite (BitVec.ofNat w), ← BitVec.toNat_udiv, BitVec.ofNat_toNat, BitVec.setWidth_eq]
  simp only [toNat_eq_zero_iff, ofNat_two_pow_sub_one]
  rfl

theorem opRem_eq_srem {w : Nat} (x y : BitVec w) :
    BitVec.ofNat w (opRem w x.toNat y.toNat) = if y = 0 then x else x.srem y := by
  rw [opRem, apply_ite (BitVec.ofNat w), ofNat_natOfInt, sintOf_toNat, sintOf_toNat, ofInt_tmod_toInt,
    BitVec.ofNat_toNat, BitVec.setWidth_eq]
  simp only [toNat_eq_zero_iff]

theorem remn_eq_umod {w : Nat} (x y : BitVec w) :
    BitVec.ofNat w (if y.toNat = 0 then x.toNat else x.toNat % y.toNat) = if y = 0 then x else x.umod y := by
  rw [apply_ite (BitVec.ofNat w), ← BitVec.toNat_umod, BitVec.ofNat_toNat, BitVec.setWidth_eq, BitVec.ofNat_toNat,
    BitVec.setWidth_eq]
  simp only [toNat_eq_zero_iff]
  rfl

/-- R42's overflow case: the quotient of the most negative number by −1 wraps to itself. -/
theorem intMin_sdiv_allOnes (w : Nat) : (BitVec.intMin w).sdiv (BitVec.allOnes w) = BitVec.intMin w := by
  rw [← BitVec.neg_one_eq_allOnes, BitVec.intMin_sdiv_neg_one]

theorem srem_allOnes {w : Nat} (x : BitVec w) (hw : 0 < w) : x.srem (BitVec.allOnes w) = 0 := by
  apply BitVec.eq_of_toInt_eq
  rw [BitVec.toInt_srem, BitVec.toInt_allOnes, if_pos hw]
  simp

/-- Settles O2: each instruction has the shape `intBin`, and its operation on W bits is `BitVec`'s. -/
theorem division : Obligations.Division := by
  unfold Obligations.Division
  refine ⟨fun w d a b ms => ?_, fun w d a b ms => ?_, fun w d a b ms => ?_, fun w d a b ms => ?_, fun w => ⟨?_, ?_⟩⟩
  · exact writesBin_of_intBin (exec_div w d a b ms) opDiv_eq_sdiv
  · exact writesBin_of_intBin (exec_divn w d a b ms) divn_eq_udiv
  · exact writesBin_of_intBin (exec_remS w d a b ms) opRem_eq_srem
  · exact writesBin_of_intBin (exec_remn w d a b ms) remn_eq_umod
  · exact intMin_sdiv_allOnes w.bits
  · exact srem_allOnes _ (width_bits_pos w)

end Sys2Proof.Machine

/-! FMIN, FMAX (R61) and FCMP (R62), through the values that the operands decode to. -/
namespace Sys2Proof.Machine

/-! ### FMIN and FMAX -/

/-- A pattern as its format holds it: the ignored low bits are zero (R58). -/
def FSpec.held (f : FSpec) (v : Nat) : Nat := v / 2 ^ f.low * 2 ^ f.low

/-- Of two values that are no NaN, the first is the smaller one, −0 below +0 (R61). -/
def FV.below (x y : FV) : Bool :=
  match cmpFV x y with
  | .lt => true
  | .gt => false
  | .eq => x.isNeg && !y.isNeg

theorem FV.below_of_lt {x y : FV} (h : cmpFV x y = .lt) : x.below y = true := by rw [FV.below, h]

theorem FV.below_of_gt {x y : FV} (h : cmpFV x y = .gt) : x.below y = false := by rw [FV.below, h]

theorem FV.below_of_eq_neg {x y : FV} (h : cmpFV x y = .eq) (hx : x.isNeg = true) (hy : y.isNeg = false) :
    x.below y = true := by rw [FV.below, h, hx, hy]; rfl

theorem FV.below_of_eq_pos {x y : FV} (h : cmpFV x y = .eq) (hx : x.isNeg = false) : x.below y = false := by
  rw [FV.below, h, hx]; rfl

theorem fspec_width (ty : FloatTy) :
    (fspec ty).low + (fspec ty).fbits + (fspec ty).ebits + 1 = (Ty.flt ty).width := by cases ty <;> rfl

theorem minmax_flags (f : FSpec) (mx : Bool) (a b : Nat) :
    (f.minmax mx a b).2 = sigFlag [f.decode a, f.decode b] := by
  simp only [FSpec.minmax]
  split_ifs <;> rfl

theorem minmax_of_nan_nan {f : FSpec} {a b : Nat} (hx : (f.decode a).isNan = true) (hy : (f.decode b).isNan = true)
    (mx : Bool) : (f.minmax mx a b).1 = f.qnan := by
  simp [FSpec.minmax, hx, hy]

section
variable {ty : FloatTy} {a b : Nat} (ha : a < 2 ^ (Ty.flt ty).width) (hb : b < 2 ^ (Ty.flt ty).width)

include hb in
theorem minmax_of_nan_left (hx : ((fspec ty).decode a).isNan = true) (hy : ((fspec ty).decode b).isNan = false)
    (mx : Bool) : ((fspec ty).minmax mx a b).1 = (fspec ty).held b := by
  simp [FSpec.minmax, FSpec.held, fspec_width, Nat.mod_eq_of_lt hb, hx, hy]

include ha in
theorem minmax_of_nan_right (hx : ((fspec ty).decode a).isNan = false) (hy : ((fspec ty).decode b).isNan = true)
    (mx : Bool) : ((fspec ty).minmax mx a b).1 = (fspec ty).held a := by
  simp [FSpec.minmax, FSpec.held, fspec_width, Nat.mod_eq_of_lt ha, hx, hy]

include ha hb in
/-- FMAX (`mx`) takes the operand that FMIN leaves. -/
theorem minmax_of_numbers (hx : ((fspec ty).decode a).isNan = false) (hy : ((fspec ty).decode b).isNan = false)
    (mx : Bool) : ((fspec ty).minmax mx a b).1 =
      (fspec ty).held (if ((fspec ty).decode a).below ((fspec ty).decode b) != mx then a else b) := by
  have hlt (p : Bool) : (if p then a else b) < 2 ^ (Ty.flt ty).width := by cases p <;> assumption
  simp only [FSpec.minmax, hx, hy, fspec_width, Nat.mod_eq_of_lt (hlt _)]
  rfl

include ha hb in
theorem minmax_of_below (hx : ((fspec ty).decode a).isNan = false) (hy : ((fspec ty).decode b).isNan = false)
    (h : ((fspec ty).decode a).below ((fspec ty).decode b) = true) :
    ((fspec ty).minmax false a b).1 = (fspec ty).held a ∧ ((fspec ty).minmax true a b).1 = (fspec ty).held b := by
  rw [minmax_of_numbers ha hb hx hy, minmax_of_numbers ha hb hx hy, h]
  exact ⟨rfl, rfl⟩

include ha hb in
theorem minmax_of_not_below (hx : ((fspec ty).decode a).isNan = false) (hy : ((fspec ty).decode b).isNan = false)
    (h : ((fspec ty).decode a).below ((fspec ty).decode b) = false) :
    ((fspec ty).minmax false a b).1 = (fspec ty).held b ∧ ((fspec ty).minmax true a b).1 = (fspec ty).held a := by
  rw [minmax_of_numbers ha hb hx hy, minmax_of_numbers ha hb hx hy, h]
  exact ⟨rfl, rfl⟩

end

/-- R60, R61: a binary float instruction that runs writes what its operation gives. -/
theorem fltBin_on {i : Instr} {ms : Ms} {s : State} (hrun : s.canRun i = true) (hon : ms.on s = true) (ty : FloatTy)
    (d a : GReg) (b : BReg) (f : Nat → Nat → Nat × Fl) :
    fltBin i ty d a b ms s f = .next (fput s.done d (f (fbits ty (s.g a)) (fbits ty (b.val s)))) := by
  apply scalar_next _ _ _ _ _ hrun hon
  rw [State.done_g, State.done_breg]

/-! ### FCMP -/

/-- R62's table: the condition on two operands, `nan` when one of them is a NaN and else in the order `o`. -/
def fcondHolds (c : FCond) (nan : Bool) (o : Ordering) : Bool :=
  match c with
  | .eq => !nan && o == .eq
  | .ne => nan || o != .eq
  | .lt => !nan && o == .lt
  | .le => !nan && o != .gt
  | .gt => !nan && o == .gt
  | .ge => !nan && o != .lt
  | .un => nan
  | .or => !nan

/-- R62's last column: any NaN sets NV for an ordered relation, a signalling one (`sig`) for the other conditions. -/
def fcondFlags (c : FCond) (nan : Bool) (sig : Fl) : Fl :=
  match c with
  | .lt | .le | .gt | .ge => if nan then flNV else 0
  | _ => sig

theorem ordered_eq (nan r : Bool) :
    (if nan then (false, flNV) else (r, 0)) = (!nan && r, if nan then flNV else 0) := by cases nan <;> rfl

/-- FCMP's operation is R62's table. -/
theorem cmp_eq_table (f : FSpec) (c : FCond) (a b : Nat) :
    let x := f.decode a
    let y := f.decode b
    f.cmp c a b =
      (fcondHolds c (x.isNan || y.isNan) (cmpFV x y), fcondFlags c (x.isNan || y.isNan) (sigFlag [x, y])) := by
  cases c with
  | eq | ne | un | or => rfl
  | lt | le | gt | ge => exact ordered_eq _ _

theorem fcmp_on {c : FCond} {ty : FloatTy} {d : PReg} {a : GReg} {b : BReg} {ms : Ms} {s : State}
    (hrun : s.canRun (.fcmp c ty d a b ms) = true) (hon : ms.on s = true) :
    let x := (fspec ty).decode (fbits ty (s.g a))
    let y := (fspec ty).decode (fbits ty (b.val s))
    exec (.fcmp c ty d a b ms) s =
      .next ((s.done.setP d (fcondHolds c (x.isNan || y.isNan) (cmpFV x y))).orFlags
        (fcondFlags c (x.isNan || y.isNan) (sigFlag [x, y]))) := by
  intro x y
  rw [exec_fcmp, execFcmp]
  apply scalar_next _ _ _ _ _ hrun hon
  simp only [State.done_g, State.done_breg, cmp_eq_table]
  rfl

theorem sigFlag_cons_of_number {x : FV} (hx : x.isNan = false) (l : List FV) : sigFlag (x :: l) = sigFlag l := by
  cases x with
  | nan => contradiction
  | inf | fin => rfl

theorem sigFlag_of_numbers {x y : FV} (hx : x.isNan = false) (hy : y.isNan = false) : sigFlag [x, y] = 0 := by
  rw [sigFlag_cons_of_number hx, sigFlag_cons_of_number hy]
  rfl

/-- +0 and −0 compare equal, at any exponent. -/
theorem cmpFV_zeros (n m : Bool) (d e : Int) : cmpFV (.fin n 0 d) (.fin m 0 e) = .eq := by
  simp [cmpFV]

/-- Settles O10: the operations' cases of R61 and R62, and that the instructions write what they give. -/
theorem floatMinMaxCompare : Obligations.FloatMinMaxCompare := by
  unfold Obligations.FloatMinMaxCompare
  refine ⟨fun ty a b ha hb => ⟨?flags, ?bothNan, ?leftNan, ?rightNan, fun hx hy => ⟨?lt, ?gt, ?negZero, ?posZero⟩⟩,
    ?fmin, ?fmax, ?fcmp, ?quiet, cmpFV_zeros⟩
  case flags => exact fun mx => minmax_flags _ mx a b
  case bothNan => exact fun mx hx hy => minmax_of_nan_nan hx hy mx
  case leftNan => exact fun mx hx hy => minmax_of_nan_left hb hx hy mx
  case rightNan => exact fun mx hx hy => minmax_of_nan_right ha hx hy mx
  case lt => exact fun h => minmax_of_below ha hb hx hy (FV.below_of_lt h)
  case gt => exact fun h => minmax_of_not_below ha hb hx hy (FV.below_of_gt h)
  case negZero => exact fun h hneg hpos => minmax_of_below ha hb hx hy (FV.below_of_eq_neg h hneg hpos)
  case posZero => exact fun h hpos _ => minmax_of_not_below ha hb hx hy (FV.below_of_eq_pos h hpos)
  case fmin => exact fun ty d a b ms s hrun hon => fltBin_on hrun hon ty d a b _
  case fmax => exact fun ty d a b ms s hrun hon => fltBin_on hrun hon ty d a b _
  case fcmp => exact fun c ty d a b ms s => fcmp_on
  case quiet => exact fun x y => sigFlag_of_numbers

end Sys2Proof.Machine
